-- ==== Sys2Proof/Word.lean ====
section
/-! DEFINITION. The word types of the Ojelta controller: the fields the manual treats as bits. -/

namespace Sys2Proof

/-- One character of a master link or of the fleet bus, and a tag of a telegram (R172, R146, R182). -/
abbrev Byte := BitVec 8

/-- A site address, 000h..FFFh; the masks of variable windows range over the same 12 bits (R2, R32). -/
abbrev Address := BitVec 12

/-- A bid tag, 0000h..FFFFh (R72); also the CRC-16 register (R181). -/
abbrev Half := BitVec 16

/-- A pass number or an episode number, 0..4,294,967,295 (R126, R163). -/
abbrev Serial := BitVec 32

end Sys2Proof
end

