-- ==== Sys2Proof/Syntax.lean ====
section
/-! DEFINITION. The commands of the Ojelta controller: one constructor of `Instr` for each row of
spec/opcode_table.json, with the names and arguments the requests carry. -/

namespace Sys2Proof

/-- The three master links: aggregator, system operator, network operator (R171). -/
inductive Port | a | s | n
  deriving DecidableEq, Repr

/-- The four products of the market (R1). -/
inductive Product | flu | fld | slu | sld
  deriving DecidableEq, Repr

/-- The four participation classes (R30). -/
inductive SiteClass | openBoth | exportOnly | importOnly | frozen
  deriving DecidableEq, Repr

/-- The two kinds of activation episode, frequency-led and signal-led (R163). -/
inductive Kind | fl | sl
  deriving DecidableEq, Repr

/-- What the FL response does at a loss of lock (R114). -/
inductive LossMode | release | holdLast
  deriving DecidableEq, Repr

/-- The overrun modes of a link (R176). -/
inductive OverrunMode | inOrder | immediate
  deriving DecidableEq, Repr

/-- The two sets of contents READ_WINDOWS may name (R49). -/
inductive View | working | inForce
  deriving DecidableEq, Repr

/-- The argument of SET_ITEMS: the items the set names; `other` says that it names one that is neither
household load nor PV output (R20). -/
structure ItemsArg where
  household : Bool
  pv : Bool
  other : Bool
  deriving DecidableEq, Repr

/-- The argument of SET_METER: the members the set names; `other` says that it names one that is neither
50 nor 60 (R104). -/
structure CandidatesArg where
  fifty : Bool
  sixty : Bool
  other : Bool
  deriving DecidableEq, Repr

/-- A request as a telegram names it, with its arguments (R178, R182). A field that stands for a named value
(a product, a class, a mode, a view) is an `Option`: `none` is a field value that names none of them. An
argument with a present marker is an `Option` again, `none` being absent. -/
inductive Request
  | setTime (day : BitVec 16) (tenths : Nat)
  | enroll (address rated capacity floor ceiling : Nat)
  | amend (address floor ceiling : Nat)
  | remove (address : Nat)
  | readSite (address : Nat)
  | setItems (items : ItemsArg)
  | defineWindow (index base mask : Nat) (cls : Option SiteClass) (cap : Option Nat)
  | clearWindow (index : Nat)
  | setBranch (branch : Nat) (cls : Option (Option SiteClass)) (cap exportLimit importLimit : Option Nat)
  | setDefaultClass (cls : Option SiteClass)
  | suspend
  | resume
  | queryClass (first last : Nat)
  | readWindows (view : Option View)
  | setOfferParams (margin duty granularity recovery : Nat)
  | offerQuery (first count : Nat)
  | hold (slot : Nat) (product : Option Product) (watts : Nat) (expiryDay : BitVec 16) (expiryTenths : Nat) (bidTag : Half)
  | award (slot : Nat) (product : Option Product) (watts : Nat) (bidTag : Half)
  | release (slot : Nat) (product : Option Product) (bidTag : Half)
  | readBook (first count : Nat)
  | setMeter (candidates : CandidatesArg)
  | readMeter
  | setFlParams (deadband fullDev : Nat) (lossMode : Option LossMode) (holdLimit : Nat)
  | armFl
  | disarmFl
  | setPoint (watts : Int)
  | setSlParams (ramp timeout : Nat)
  | enterTest (up down : Nat)
  | inject (delta : Int) (duration : Nat)
  | leaveTest
  | readBranchLoad
  | readResponse
  | readJournal (start : Serial)
  | releaseJournal (upTo : Serial)
  | busEnable
  | busDisable
  | busConfig (rate window : Nat)
  | busRestore
  | setLinkMode (mode : Option OverrunMode)
  | status
  | identify
  | unnamed
  deriving DecidableEq, Repr

/-- The levels of the inputs that are read at the end of a device reset beside FREEZE: the strap LRATE[1:0] and GSENSE
(R95, R172). -/
structure ResetLevels where
  lrate : BitVec 2
  gsense : Bool
  deriving DecidableEq, Repr

/-- A rising edge of GSENSE taken at `instant`, counted in REFCLK periods (R95, R96). `fall` is the instant at which the
change to low before it was taken, absent where the level has been low since the reset (log 24). -/
structure GsenseEdge where
  fall : Option Nat
  instant : Nat
  deriving DecidableEq, Repr

/-- Ten bits sampled on the link of a port, bit 0 first on the line (R172). -/
structure LinkCharacter where
  port : Port
  bits : BitVec 10
  deriving DecidableEq, Repr

/-- The commands of the block: the rows of spec/opcode_table.json. A request's row is the event in which the
link controller of port `p` takes the telegram that names that request (R175, R178). The other rows are events
of the pins, the timers, the fleet bus and the links. -/
inductive Instr
  /-- A low level on RESETn ends with `freeze` on FREEZE and `levels` on LRATE[1:0] and GSENSE (R3, R50, R95, R172). -/
  | deviceReset (freeze : Bool) (levels : ResetLevels)
  | tenthElapsed
  | setTime (p : Port) (day : BitVec 16) (tenths : Nat)
  | passTimerExpiry
  | rampTimerExpiry
  | enroll (p : Port) (address rated capacity floor ceiling : Nat)
  | amend (p : Port) (address floor ceiling : Nat)
  | remove (p : Port) (address : Nat)
  | readSite (p : Port) (address : Nat)
  | setItems (p : Port) (items : ItemsArg)
  /-- The freshness timer of the site at `address` reaches 20 or 60 tenths (R23). -/
  | freshnessExpiry (address : Address)
  | defineWindow (p : Port) (index base mask : Nat) (cls : Option SiteClass) (cap : Option Nat)
  | clearWindow (p : Port) (index : Nat)
  | setBranch (p : Port) (branch : Nat) (cls : Option (Option SiteClass)) (cap exportLimit importLimit : Option Nat)
  | setDefaultClass (p : Port) (cls : Option SiteClass)
  | suspend (p : Port)
  | resume (p : Port)
  | queryClass (p : Port) (first last : Nat)
  | readWindows (p : Port) (view : Option View)
  | freezeAssertion
  | freezeDeassertion
  | setOfferParams (p : Port) (margin duty granularity recovery : Nat)
  | offerQuery (p : Port) (first count : Nat)
  | hold (p : Port) (slot : Nat) (product : Option Product) (watts : Nat) (expiryDay : BitVec 16) (expiryTenths : Nat) (bidTag : Half)
  | award (p : Port) (slot : Nat) (product : Option Product) (watts : Nat) (bidTag : Half)
  | release (p : Port) (slot : Nat) (product : Option Product) (bidTag : Half)
  | readBook (p : Port) (first count : Nat)
  /-- The hold on `slot` and `product` reaches its expiry time (R78). -/
  | holdExpiry (slot : Nat) (product : Product)
  | shortfallEvaluation
  | gsenseRisingEdge (edge : GsenseEdge)
  | lossTimerExpiry
  | setMeter (p : Port) (candidates : CandidatesArg)
  | readMeter (p : Port)
  | setFlParams (p : Port) (deadband fullDev : Nat) (lossMode : Option LossMode) (holdLimit : Nat)
  | armFl (p : Port)
  | disarmFl (p : Port)
  | holdTimerExpiry
  | setPoint (p : Port) (watts : Int)
  | refreshTimerExpiry
  | setSlParams (p : Port) (ramp timeout : Nat)
  | enterTest (p : Port) (up down : Nat)
  | inject (p : Port) (delta : Int) (duration : Nat)
  | injectionEnd
  | leaveTest (p : Port)
  | readBranchLoad (p : Port)
  | readResponse (p : Port)
  /-- The closing timer of the OPEN record of a kind expires (R164). -/
  | closingTimerExpiry (kind : Kind)
  | readJournal (p : Port) (start : Serial)
  | releaseJournal (p : Port) (upTo : Serial)
  | busEnable (p : Port)
  | busDisable (p : Port)
  | busConfig (p : Port) (rate window : Nat)
  | busRestore (p : Port)
  | dispatchBlock
  | poll
  | pollSent
  | replyWindowExpiry
  /-- The timing character's low span was `span` whole REFCLK periods (R154). -/
  | rateCheckFailed (span : Nat)
  /-- A character of the reply has a parity or a framing error (R146, R155). -/
  | replyParityError
  | pollEndOnQuiet
  | replyGap
  /-- The last character of a reply arrives; `characters` are those of the whole REPORT, bit 0 of each first on the line
  (R146, R155, R183). -/
  | report (characters : List (BitVec 11))
  | blockComplete
  | collision
  | backoffExpiry
  /-- The last check byte of a telegram arrives on port `p`. `front` are its bytes up to the body (R182), `request`
  what its code and body spell (log 6), `check` the check received behind them. -/
  | telegramComplete (p : Port) (front : List Byte) (request : Request) (check : Half)
  | overrunResponse (p : Port)
  | responseTransmitted (p : Port)
  | unnamedRequestCode (p : Port)
  /-- A character was sampled on a link (R172). -/
  | framingError (character : LinkCharacter)
  | lengthOutOfRange (p : Port) (length : Half)
  | gap (p : Port)
  | linkBreak (p : Port)
  | breakEnd (p : Port)
  | setLinkMode (p : Port) (mode : Option OverrunMode)
  | status (p : Port)
  | identify (p : Port)
  /-- A character arrives on a link: a C3h begins a telegram while the assembler hunts, and the characters behind it are
  collected (R173, log 17). -/
  | telegramLead (character : LinkCharacter)
  | replyStart
  deriving DecidableEq, Repr

end Sys2Proof
end

