-- ==== Sys2Proof/Decode.lean ====
section
/-! DEFINITION. The decoder of the opcode table's words. -/

namespace Sys2Proof

/-- The command a word spells by the table's bits. spec/opcode_table.json gives no row any bits (98: no row with
"fixed", none with "fields"), and the manual gives its requests no code values (98, R182), so no word spells one
(log 6). -/
def decodeTableWord (_nbits _w : Nat) : Option Instr := none

end Sys2Proof
end

