-- ==== Sys2Proof/Config.lean ====
section
/-! DEFINITION. The constants of the manual's tables and the free values of the model. -/

namespace Sys2Proof.Config

/-- Tenths of a second in a slot and in a day (R4, the table after R1). -/
def tenthsPerSlot : Nat := 9000
def tenthsPerDay : Nat := 864000
/-- Slots in a day; days before the day number wraps; absolute slots (R4, R5). -/
def slotsPerDay : Nat := 96
def dayWrap : Nat := 65536
def slotWrap : Nat := 6291456
/-- Absolute times, and the half of them that bounds a signed difference (R5, R9). -/
def timeWrap : Nat := 56623104000
def timeHalf : Nat := 28311552000
/-- Distances ahead from this one on are past (R5). -/
def pastFrom : Nat := 3145728
/-- Slots of the horizon, c..c+95 (R5). -/
def horizon : Nat := 96
/-- The largest correction of a clock whose book holds a record, in tenths (R9). -/
def maxCorrection : Int := 300
/-- The greatest power figure of the fleet and of a branch limit, in W (R31, R72). -/
def maxFleet : Nat := 6400000
def maxBranchLimit : Nat := 2000000
/-- Capacity of the book, the journal and the receive queue; entries of a dispatch block (R71, R163, R175, R139). -/
def bookCapacity : Nat := 384
def journalCapacity : Nat := 32
def queuePlaces : Nat := 2
def blockEntries : Nat := 32
/-- Branch windows of the table (R31). -/
def branchCount : Nat := 16
/-- The estimates the meter accepts, and the half width of a candidate's band, in mHz (R96, R101). -/
def minEstimate : Nat := 45000
def maxEstimate : Nat := 65000
def bandHalf : Nat := 2500
/-- The run of readings that locks and unlocks the meter (R101, R102). -/
def runLength : Nat := 8
/-- REFCLK periods a level of GSENSE holds before it is taken (R95). -/
def gsenseHold : Nat := 100
/-- The greatest deviation, in mHz (R112). -/
def maxDelta : Int := 2000

/-- FREE VALUE. Whether the frequency-led record is the first of the two that a test-entry or test-end event
reopens when both stored figures are not 0: R166 gives each kind its record and the two no order (log 9). The
argument is the state's `freeIndex`. No body: no proof can see a value. -/
opaque reopenFlFirst : Nat → Bool

/-- FREE VALUE. The bytes of the body of a request with arguments, less one: R178 calls for the length of the arguments
and their present markers, and the manual gives the arguments no widths (log 6). The arguments are the place of the
request in `Request` and its present markers; a body has at most 62 bytes (R182). -/
opaque argumentBytes : Nat → List Bool → Fin 62

/-- FREE VALUE. The bytes of the body of HOLD, AWARD or RELEASE up to the end of its product field, less one: R178 reads the
field where the body is long enough to hold it, and the manual gives it no place (log 6). The argument is the place of the
request in `Request`. -/
opaque productBytes : Nat → Fin 62

end Sys2Proof.Config
end

