-- ==== Sys2Proof/Machine/State.lean ====
section
/-! DEFINITION. The state of the controller as plain data, block by block, and its value after reset. -/

namespace Sys2Proof.Machine

/-! ### The member, directions and time -/

/-- The two members of the family (00, R180). -/
inductive Member | ojl256 | ojl064
  deriving DecidableEq, Repr

/-- The family name IDENTIFY returns: Ojelta (R180). -/
inductive Family | ojelta
  deriving DecidableEq, Repr

/-- The silicon revision letter IDENTIFY returns: B (R180). -/
inductive Revision | b
  deriving DecidableEq, Repr

/-- Up is export, down is import (R1). -/
inductive Direction | up | down
  deriving DecidableEq, Repr

/-- An absolute time: a day number and the tenths within the day (R5). -/
structure Time where
  day : Nat
  tenths : Nat
  deriving DecidableEq, Repr

/-! ### Site roster (02) -/

/-- R13. -/
inductive Lifecycle | enrolled | leaving
  deriving DecidableEq, Repr

/-- R13, R23. -/
inductive Freshness | fresh | stale | silent
  deriving DecidableEq, Repr

/-- R13, R21. -/
inductive InverterStatus | ready | offline
  deriving DecidableEq, Repr

/-- The outcomes a poll may have (R13, R155, R160). -/
inductive PollOutcome | good | noReply | rate | parity | check | collision
  deriving DecidableEq, Repr

/-- A site record (the table of R13). -/
structure Site where
  address : Address
  rated : Nat
  capacity : Nat
  floor : Nat
  ceiling : Nat
  lifecycle : Lifecycle
  freshness : Freshness
  /-- The freshness timer: `none` when stopped, else the age in tenths it last reached, 0 or 20 (R23). -/
  freshnessTimer : Option Nat
  lastReport : Option Time
  soc : Option Nat
  measured : Option Int
  status : Option InverterStatus
  available : Option Nat
  household : Option Nat
  pv : Option Nat
  lastPoll : Option PollOutcome
  effClass : SiteClass
  effCap : Option Nat
  lastSetpoint : Int
  /-- The model's own: how many passes had been taken at the REMOVE that made the site LEAVING, from which R18's "a
  pass taken after the site became LEAVING" is judged (log 15). -/
  leavingSince : Option Nat
  /-- The model's own: the latest poll was begun for this record. An address enrolled again since then has a new record,
  without the mark, so that R155 can tell that the polled record was deleted meanwhile (log 27). -/
  polled : Bool
  deriving DecidableEq, Repr

/-- The optional-item request set (R20). -/
structure ItemSet where
  household : Bool
  pv : Bool
  deriving DecidableEq, Repr

/-! ### Network window table (03) -/

/-- A branch window: four parts, each present or absent (R31). -/
structure BranchWindow where
  cls : Option SiteClass
  cap : Option Nat
  exportLimit : Option Nat
  importLimit : Option Nat
  deriving DecidableEq, Repr

/-- A variable window (R32). -/
structure VariableWindow where
  valid : Bool
  base : Address
  mask : Address
  cls : SiteClass
  cap : Option Nat
  deriving DecidableEq, Repr

/-- One set of the table's contents (R36). -/
structure Contents where
  branches : List BranchWindow
  varWindows : List VariableWindow
  defaultClass : SiteClass
  deriving DecidableEq, Repr

/-- R37. -/
inductive TableState | unset | editing | inForce
  deriving DecidableEq, Repr

/-- The window table (R36, R37). -/
structure WindowTable where
  state : TableState
  working : Contents
  inForce : Contents
  deriving DecidableEq, Repr

/-! ### Commitment book (04, 05) -/

/-- The offer parameters (R63). -/
structure OfferParams where
  margin : Nat
  duty : Nat
  granularity : Nat
  recovery : Nat
  deriving DecidableEq, Repr

/-- The expiry and bid tag a record carries with a held amount (R72). -/
structure HoldTerms where
  expiry : Time
  tag : Half
  deriving DecidableEq, Repr

/-- The risk fields, present or absent together (R72, R89). -/
structure RiskFields where
  power : Nat
  energy : Nat
  deriving DecidableEq, Repr

/-- A book record (R72). -/
structure BookRecord where
  slot : Nat
  product : Product
  awarded : Nat
  held : Nat
  terms : Option HoldTerms
  risk : Option RiskFields
  deriving DecidableEq, Repr

/-- An entry of the expired-hold list (R77). -/
structure ExpiredHold where
  slot : Nat
  product : Product
  tag : Half
  expiry : Time
  deriving DecidableEq, Repr

/-- The commitment book (R71, R77, R63). -/
structure Book where
  records : List BookRecord
  expired : List ExpiredHold
  params : OfferParams
  /-- The model's own: shortfall evaluations requested and not yet taken (R87, log 8). -/
  evalRequests : Nat
  deriving DecidableEq, Repr

/-- The awarded amounts of one slot, as the response generator reads them (R73). -/
structure Awards where
  flu : Nat
  fld : Nat
  slu : Nat
  sld : Nat
  deriving DecidableEq, Repr

/-! ### Frequency meter (06) -/

/-- R94. -/
inductive MeterState | noSignal | searching | locked
  deriving DecidableEq, Repr

/-- A candidate grid frequency, 50 Hz or 60 Hz (R94). -/
inductive Candidate | fifty | sixty
  deriving DecidableEq, Repr

/-- The candidate set (R94). -/
structure CandidateSet where
  fifty : Bool
  sixty : Bool
  deriving DecidableEq, Repr

/-- The meter's items (R94). -/
structure Meter where
  /-- The level of GSENSE, high for true, as it stood at the reset or after the last rising edge; the fall between two
  rising edges is carried by the second (R95, log 24). -/
  gsense : Bool
  state : MeterState
  candidates : CandidateSet
  nominal : Option Nat
  /-- The instant of the last taken rising edge, in REFCLK periods. -/
  periodStart : Option Nat
  estimates : List Nat
  reading : Option Nat
  lockRun : Nat
  lockCandidate : Option Candidate
  unlockRun : Nat
  lossTimer : Bool
  deriving DecidableEq, Repr

/-! ### Response generator (07) -/

/-- The last reading taken, with the meter state and nominal it carried (R108, R112). -/
structure LastReading where
  reading : Option Nat
  state : Option MeterState
  nominal : Option Nat
  deriving DecidableEq, Repr

/-- A running loss hold: the held deviation and the interval of its timer in tenths (R108, R114). -/
structure LossHold where
  delta : Int
  limit : Nat
  deriving DecidableEq, Repr

/-- A running injection: its deviation and its duration in tenths (R108, R123). -/
structure Injection where
  delta : Int
  duration : Nat
  deriving DecidableEq, Repr

/-- R108. -/
inductive TestState | live | test
  deriving DecidableEq, Repr

/-- The response generator's items (R108). -/
structure Generator where
  flUp : Nat
  flDown : Nat
  slUp : Nat
  slDown : Nat
  armed : Bool
  deadband : Nat
  fullDev : Nat
  lossMode : LossMode
  holdLimit : Nat
  last : LastReading
  delta : Int
  lossHold : Option LossHold
  flTarget : Int
  slRequested : Int
  slApplied : Int
  slEffective : Int
  ramp : Nat
  refreshTimeout : Nat
  /-- `none` when stopped, else the timeout in tenths it was started with (R119). -/
  refreshTimer : Option Nat
  test : TestState
  testUp : Nat
  testDown : Nat
  injection : Option Injection
  deriving DecidableEq, Repr

/-! ### Dispatcher (08) -/

/-- The cause of a pass (R126). -/
inductive PassCause | timer | freeze
  deriving DecidableEq, Repr

/-- What a pass records of one branch (R126, R137). -/
structure BranchLoad where
  exportSum : Int
  importSum : Int
  saturated : Bool
  deriving DecidableEq, Repr

/-- The dispatcher's items (R126). -/
structure Dispatcher where
  passNumber : Serial
  cause : Option PassCause
  direction : Option Direction
  target : Int
  capacity : Nat
  dispatched : Int
  shortfall : Nat
  delivered : Int
  branches : List BranchLoad
  /-- The model's own: how many passes have been taken since the reset; it does not wrap as the number does (log 15). -/
  passes : Nat
  deriving DecidableEq, Repr

/-- What a pass hands the journal (R140). -/
structure PassResult where
  number : Serial
  cause : PassCause
  freeze : Bool
  target : Int
  dispatched : Int
  shortfall : Nat
  delivered : Int
  deriving DecidableEq, Repr

/-! ### Fleet bus (09) -/

/-- R145. -/
inductive BusState | disabled | running | backoff | draining | fault
  deriving DecidableEq, Repr

/-- The three bus rates (R145, R150). -/
inductive BusRate | r250k | r500k | r1000k
  deriving DecidableEq, Repr

/-- A rate and a reply window (R145, R150). -/
structure BusConfig where
  rate : BusRate
  window : Nat
  deriving DecidableEq, Repr

/-- An entry of a dispatch block: address, setpoint, LEAVING mark (R139). -/
structure BlockEntry where
  address : Address
  setpoint : Int
  leaving : Bool
  deriving DecidableEq, Repr

/-- A dispatch block, with its pass number and the FREEZE level its pass read (R139, R145). -/
structure Block where
  pass : Serial
  /-- The model's own: the count of passes that its pass made (log 15). -/
  taken : Nat
  freeze : Bool
  entries : List BlockEntry
  deriving DecidableEq, Repr

/-- Where a poll stands: in transmission; its reply window open; its reply begun; or its reply given up with an
outcome, waiting for the quiet line (R153 to R155). -/
inductive PollPhase
  | transmitting
  | awaiting
  | receiving
  | failed (outcome : PollOutcome)
  deriving DecidableEq, Repr

/-- The frame in progress (R145). -/
inductive Frame
  | idle
  | poll (address : Address) (items : ItemSet) (phase : PollPhase)
  | block (b : Block)
  deriving DecidableEq, Repr

/-- The fleet bus controller's items (R145). -/
structure Bus where
  state : BusState
  config : BusConfig
  heldConfig : Option BusConfig
  queue : List Block
  frame : Frame
  pointer : Address
  collisions : Nat
  /-- `none` when stopped, else the interval in REFCLK periods it was started with (R161). -/
  backoff : Option Nat
  items : ItemSet
  deriving DecidableEq, Repr

/-! ### Activation journal (10) -/

/-- R163. -/
inductive EpisodeState | isOpen | closed | read
  deriving DecidableEq, Repr

/-- The flags of an episode record (R163, R165). -/
structure EpisodeFlags where
  test : Bool
  freqLoss : Bool
  freeze : Bool
  windowsChanged : Bool
  concurrent : Bool
  lossBefore : Bool
  deriving DecidableEq, Repr

/-- An episode record (R163). An export record's direction is `up`, an import record's `down`. -/
structure Episode where
  number : Serial
  kind : Kind
  direction : Direction
  state : EpisodeState
  start : Option Time
  finish : Option Time
  peakTarget : Nat
  peakDelivered : Nat
  targetIntegral : Nat
  deliveredIntegral : Nat
  maxShortfall : Option Nat
  flags : EpisodeFlags
  closingTimer : Bool
  deriving DecidableEq, Repr

/-- The activation journal, oldest record first (R163). -/
structure Journal where
  records : List Episode
  counter : Serial
  fl : Int
  sl : Int
  testMark : Bool
  deriving DecidableEq, Repr

/-! ### Master links (11) -/

/-- The attention causes (R179). -/
inductive Cause
  | restarted | shortfall | holdLapsed | siteSilent | windowsChanged | freqLost | signalLost | episodeClosed
  | testEnded | freeze | branchAtLimit | busFault | linkError
  deriving DecidableEq, Repr

/-- The result codes of the responses (R178). -/
inductive ResultCode
  | ok | clamped | held | overrun | notPermitted | unsupported | badLength | badValue | notNow | timeUnset | timeJump
  | rosterFull | addressTaken | noSuchSite | windowsInForce | badMask | badBase | prohibited | outOfHorizon
  | slotClosed | badGranule | badExpiry | insufficient | holdPending | noHold | holdExpired | tagMismatch
  | exceedsHold
  deriving DecidableEq, Repr

/-- The derived figures READ_SITE returns with a record (R19, R25 to R27). -/
structure SiteFigures where
  pwUp : Nat
  pwDown : Nat
  dwUp : Nat
  dwDown : Nat
  eu : Nat
  ed : Nat
  bandUp : Nat
  bandDown : Nat
  deriving DecidableEq, Repr

/-- The heading figures of an offer query in one direction (R66). -/
structure DirectionFigures where
  capacity : Nat
  energy : Nat
  band : Nat
  deriving DecidableEq, Repr

/-- One slot of an offer query's response (R66). -/
structure SlotOffer where
  slot : Nat
  powerUp : Int
  powerDown : Int
  energyUp : Nat
  energyDown : Nat
  flu : Nat
  fld : Nat
  slu : Nat
  sld : Nat
  deriving DecidableEq, Repr

/-- The result of QUERY_CLASS (R48): one class and cap, or MIXED with the first address's and the lowest
differing address. -/
inductive ClassResult
  | uniform (cls : SiteClass) (cap : Option Nat)
  | mixed (cls : SiteClass) (cap : Option Nat) (differs : Address)
  deriving DecidableEq, Repr

/-- A window as an edit's response carries it (R38). -/
inductive EditedItem
  | variable (w : VariableWindow)
  | branch (w : BranchWindow)
  | defaultClass (c : SiteClass)
  deriving DecidableEq, Repr

/-- One branch of READ_BRANCH_LOAD's response (R143). -/
structure BranchReport where
  load : BranchLoad
  exportLimit : Option Nat
  importLimit : Option Nat
  measured : Int
  deriving DecidableEq, Repr

/-- READ_RESPONSE's figures (R144). -/
structure ResponseReport where
  flTarget : Int
  slRequested : Int
  slApplied : Int
  slEffective : Int
  netTarget : Int
  armed : Bool
  test : TestState
  meterState : MeterState
  reading : Option Nat
  nominal : Option Nat
  passNumber : Serial
  cause : Option PassCause
  target : Int
  direction : Option Direction
  capacity : Nat
  dispatched : Int
  shortfall : Nat
  delivered : Int
  freeze : Bool
  deriving DecidableEq, Repr

/-- The bodies of the responses, as the owning blocks give them. The layouts in bytes are not in the manual
(R182, log 18). A refusal whose rule names no content carries `empty` (log 10). -/
inductive ResponseBody
  | empty
  /-- The clock: its time, absent while UNSET (R9). -/
  | clock (now : Option Time)
  /-- The lifecycle ADDRESS_TAKEN carries (R14). -/
  | taken (lifecycle : Lifecycle)
  | enrolled (address : Address) (cls : SiteClass) (cap : Option Nat)
  | limits (floor ceiling : Nat)
  /-- LEAVING, or `none` for "deleted" (R17). -/
  | removed (lifecycle : Option Lifecycle)
  | site (record : Site) (figures : SiteFigures)
  | items (set : ItemSet)
  | tableState (state : TableState)
  | edited (state : TableState) (item : EditedItem)
  | resumed (state : TableState) (rewritten changed : Nat)
  | classes (state : TableState) (result : ClassResult)
  | windows (contents : Contents) (state : TableState) (differ freeze : Bool)
  | offerParams (params : OfferParams)
  | offers (current : Nat) (params : OfferParams) (up down : DirectionFigures) (slots : List SlotOffer)
  | granted (awarded held : Nat) (expiry : Time) (tag : Half) (published : Nat)
  | insufficient (published : Nat)
  /-- The hold that stands on a record (R74, R79). -/
  | standing (held : Nat) (terms : Option HoldTerms)
  | expiredAt (expiry : Time)
  | awarded (awarded : Nat) (deleted : Bool)
  | released (awarded : Nat)
  | book (current : Nat) (records : List BookRecord)
  | meterSet (state : MeterState) (candidates : CandidateSet)
  | meter (state : MeterState) (candidates : CandidateSet) (nominal reading : Option Nat) (estimates : List Nat)
      (lockRun : Nat) (lockCandidate : Option Candidate) (unlockRun : Nat)
  | flParams (deadband fullDev : Nat) (lossMode : LossMode) (holdLimit : Nat)
  | arming (armed : Bool) (flTarget : Int)
  | setPoint (requested applied effective : Int) (boundUp boundDown : Nat)
  | slParams (ramp timeout : Nat)
  | testCapacities (up down : Nat)
  | injected (delta flTarget : Int)
  | testState (state : TestState)
  | bus (state : BusState) (config : BusConfig) (held : Option BusConfig) (collisions : Nat)
  | branchLoad (number : Serial) (cause : Option PassCause) (direction : Option Direction) (freeze : Bool)
      (branches : List BranchReport)
  | response (report : ResponseReport)
  /-- The records of READ_JOURNAL, their integrals in Wh (R169). -/
  | journal (records : List Episode) (counter : Serial) (count : Nat) (more : Bool)
  | journalReleased (dropped count : Nat)
  | linkMode (mode : OverrunMode)
  | status (causes : List Cause) (mode : OverrunMode)
  /-- Family name, member, revision letter, capacities, FREQUENCY_LED and the strap (R180). -/
  | identity (family : Family) (member : Member) (revision : Revision) (sites windows branches book journal : Nat)
    (frequencyLed : Bool) (lrate : BitVec 2)
  deriving DecidableEq, Repr

/-- A complete telegram whose check matched (R175): its code and tag, the request it names, whether its body is
long enough to hold a product field where that request has one, and whether it has the length that request calls for
(R178, checks 2 and 3). -/
structure Telegram where
  code : Byte
  tag : Byte
  request : Request
  holdsProduct : Bool
  fits : Bool
  deriving DecidableEq, Repr

/-- A response telegram (R182). -/
structure Response where
  code : Byte
  tag : Byte
  result : ResultCode
  overrunCount : Nat
  overrunTag : Byte
  body : ResponseBody
  deriving DecidableEq, Repr

/-- The receive assembler (R171); `held` while a break keeps RX low (R177). -/
inductive Assembler
  | hunting
  | partialTelegram (bytes : List Byte)
  | held
  deriving DecidableEq, Repr

/-- The overrun response place, filled (R171, R176). -/
structure OverrunPlace where
  code : Byte
  tag : Byte
  count : Nat
  deriving DecidableEq, Repr

/-- The overrun mark, set (R171, R176). -/
structure OverrunMark where
  tag : Byte
  count : Nat
  deriving DecidableEq, Repr

/-- A link controller's items (R171). The HOLD and ATTN lines are computed (Machine/Flags.lean). -/
structure Link where
  assembler : Assembler
  queue : List Telegram
  response : Option Response
  overrunPlace : Option OverrunPlace
  mode : OverrunMode
  overrunMark : Option OverrunMark
  attention : List Cause
  deriving DecidableEq, Repr

/-! ### The whole machine -/

/-- The state of the controller, and the commands that wait. -/
structure State where
  pending : List Instr
  freeIndex : Nat
  member : Member
  freeze : Bool
  lrate : BitVec 2
  now : Option Time
  roster : List Site
  windows : WindowTable
  book : Book
  meter : Meter
  gen : Generator
  disp : Dispatcher
  bus : Bus
  journal : Journal
  linkA : Link
  linkS : Link
  linkN : Link
  deriving DecidableEq, Repr

/-- The block never faults: the spec gives it no event that stops it (INVENTORY, Faults). -/
inductive Fault
  deriving DecidableEq, Repr

/-- Why a command has no meaning in the model. -/
inductive Refusal
  /-- Raised by `exec` for a row that has no meaning yet; no arm raises it now. Safe: it only stops. -/
  | notModelled (mnemonic : String)
  deriving DecidableEq, Repr

/-- The value every command's meaning answers. -/
abbrev StepOutcome := Host.Outcome State Fault Refusal

/-! ### After reset -/

/-- Site capacity of the roster (R13, R180). -/
def Member.siteCapacity : Member → Nat
  | .ojl256 => 256
  | .ojl064 => 64

/-- Variable windows of the table (R32, R180). -/
def Member.windowCount : Member → Nat
  | .ojl256 => 8
  | .ojl064 => 4

/-- R31. -/
def BranchWindow.reset : BranchWindow := ⟨none, none, none, none⟩

/-- R32, R40. -/
def VariableWindow.reset : VariableWindow := ⟨false, 0, 0, .frozen, none⟩

/-- R36. -/
def Contents.reset (m : Member) : Contents :=
  { branches := List.replicate Config.branchCount BranchWindow.reset
    varWindows := List.replicate m.windowCount VariableWindow.reset
    defaultClass := .frozen }

/-- R36, R37. -/
def WindowTable.reset (m : Member) : WindowTable := ⟨.unset, .reset m, .reset m⟩

/-- R71, R77, R63. -/
def Book.reset : Book := ⟨[], [], ⟨10, 100, 1000, 0⟩, 0⟩

/-- R94. A meter whose starting level of GSENSE is low (R95). -/
def Meter.reset : Meter :=
  { gsense := false, state := .noSignal, candidates := ⟨true, true⟩, nominal := none, periodStart := none, estimates := [],
    reading := none, lockRun := 0, lockCandidate := none, unlockRun := 0, lossTimer := false }

/-- R108. -/
def Generator.reset : Generator :=
  { flUp := 0, flDown := 0, slUp := 0, slDown := 0, armed := false, deadband := 20, fullDev := 200,
    lossMode := .release, holdLimit := 20, last := ⟨none, none, none⟩, delta := 0, lossHold := none, flTarget := 0,
    slRequested := 0, slApplied := 0, slEffective := 0, ramp := 5000, refreshTimeout := 120, refreshTimer := none,
    test := .live, testUp := 0, testDown := 0, injection := none }

/-- The reset value of a branch's recorded sums and flag (R126). -/
def BranchLoad.reset : BranchLoad := ⟨0, 0, false⟩

/-- R126. -/
def Dispatcher.reset : Dispatcher :=
  { passNumber := 0, cause := none, direction := none, target := 0, capacity := 0, dispatched := 0, shortfall := 0,
    delivered := 0, branches := List.replicate Config.branchCount BranchLoad.reset, passes := 0 }

/-- R145. -/
def Bus.reset : Bus :=
  { state := .disabled, config := ⟨.r500k, 40⟩, heldConfig := none, queue := [], frame := .idle, pointer := 0,
    collisions := 0, backoff := none, items := ⟨false, false⟩ }

/-- R163. -/
def Journal.reset : Journal := ⟨[], 0, 0, 0, false⟩

/-- R171. -/
def Link.reset : Link := ⟨.hunting, [], none, none, .inOrder, none, [.restarted]⟩

/-- Every block at its after-reset value, on a given member with given levels of FREEZE, LRATE and GSENSE (R3). The meter
takes the level of GSENSE as its starting level (R95); the OJL-064 samples none (R107). The
assertion of R50 that a high FREEZE level makes at that instant is the reset command's (Machine/Freeze.lean). -/
def State.afterReset (member : Member) (freeze : Bool) (lrate : BitVec 2) (gsense : Bool) : State :=
  { pending := [], freeIndex := 0, member, freeze, lrate, now := none, roster := [], windows := .reset member,
    book := .reset, meter := { Meter.reset with gsense := member == .ojl256 && gsense }, gen := .reset,
    disp := .reset, bus := .reset, journal := .reset,
    linkA := .reset, linkS := .reset, linkN := .reset }

/-- The machine right after reset. The member (log 3) and the levels of FREEZE, LRATE and GSENSE (log 4) are DESIGN
CHOICES: an OJL-256 with FREEZE and GSENSE low and the strap 00. -/
def State.reset : State := State.afterReset .ojl256 false 0 false

end Sys2Proof.Machine
end

