-- ==== Sys2Proof/Machine/Ops.lean ====
section
/-! DEFINITION. Shared operations: roundings, directions, site addresses, absolute time, and the access to the three
link controllers. -/

namespace Sys2Proof

/-! ### Products and kinds (R1, R71, R163) -/

/-- R1. -/
def Product.direction : Product → Machine.Direction
  | .flu | .slu => .up
  | .fld | .sld => .down

/-- Whether a product is frequency-led (R54, R178). -/
def Product.frequencyLed : Product → Bool
  | .flu | .fld => true
  | .slu | .sld => false

/-- The order of the products within a slot: FLU, FLD, SLU, SLD (R71). -/
def Product.rank : Product → Nat
  | .flu => 0
  | .fld => 1
  | .slu => 2
  | .sld => 3

/-- The kind that is not `k` (R165). -/
def Kind.other : Kind → Kind
  | .fl => .sl
  | .sl => .fl

end Sys2Proof

namespace Sys2Proof.Machine

/-! ### Roundings (00, Arithmetic and rounding) -/

/-- Rounded down to a multiple of 10 W. -/
def down10 (x : Nat) : Nat := x / 10 * 10

/-- Rounded toward zero to a multiple of 10 W, keeping the sign. -/
def zero10 (x : Int) : Int := x.tdiv 10 * 10

/-- `x` limited to `lo..hi`. -/
def limit (lo hi x : Int) : Int := max lo (min hi x)

/-- Round-half-up of a quotient of natural numbers. -/
def roundHalfUp (num den : Nat) : Nat := (2 * num + den) / (2 * den)

/-- Rounded-up quotient. -/
def ceilDiv (num den : Nat) : Nat := (num + (den - 1)) / den

/-! ### Directions and products (R1) -/

/-- The direction of a signed figure: none for zero (R1). -/
def directionOf (x : Int) : Option Direction :=
  if 0 < x then some .up else if x < 0 then some .down else none

/-- A magnitude with the sign of a direction (R1). -/
def Direction.signed (d : Direction) (x : Int) : Int :=
  match d with
  | .up => x
  | .down => -x

/-- The frequency-led and the signal-led product of a direction (R54). -/
def Direction.flProduct : Direction → Product
  | .up => .flu
  | .down => .fld

/-- R54. -/
def Direction.slProduct : Direction → Product
  | .up => .slu
  | .down => .sld

/-! ### Site addresses (R2) -/

/-- The branch of an address, its high 4 bits (R2). -/
def branchOf (a : Address) : Nat := a.toNat / 256

/-! ### Absolute time and slots (R5, R9) -/

/-- The absolute time in tenths (R5). -/
def Time.abs (t : Time) : Nat := t.day * Config.tenthsPerDay + t.tenths

/-- The absolute slot of a time (R5). -/
def Time.slot (t : Time) : Nat := t.day * Config.slotsPerDay + t.tenths / Config.tenthsPerSlot

/-- The time one tenth later, the day wrapping at its end and the day number at 65,535 (R4). -/
def Time.next (t : Time) : Time :=
  if t.tenths + 1 < Config.tenthsPerDay then { t with tenths := t.tenths + 1 }
  else ⟨(t.day + 1) % Config.dayWrap, 0⟩

/-- The signed difference `later - earlier` around the circle of absolute time, in −28,311,552,000..28,311,551,999
(R9). -/
def Time.diff (later earlier : Time) : Int :=
  ((later.abs : Int) - earlier.abs + Config.timeHalf) % Config.timeWrap - Config.timeHalf

/-- The start of an absolute slot (R74). -/
def slotStart (slot : Nat) : Time :=
  ⟨slot / Config.slotsPerDay, slot % Config.slotsPerDay * Config.tenthsPerSlot⟩

/-- The distance ahead d(k) of slot `k` when `c` is current (R5). -/
def distance (c k : Nat) : Nat := (k + Config.slotWrap - c) % Config.slotWrap

/-- The slot `n` ahead of `c` (R5). -/
def slotAhead (c n : Nat) : Nat := (c + n) % Config.slotWrap

/-- A slot field names an absolute slot (R5). -/
def slotInRange (k : Nat) : Bool := k < Config.slotWrap

/-- The current slot c, absent while the clock is UNSET (R3, R5). -/
def State.current (s : State) : Option Nat := s.now.map Time.slot

/-! ### Numbers that count and wrap (R127, R163) -/

/-- The next pass or episode number: 4,294,967,295 is followed by 1, so that 0 numbers nothing. -/
def nextSerial (n : Serial) : Serial := if n = BitVec.allOnes 32 then 1 else n + 1

/-- `n` counts as at or after `g` (R163). -/
def Serial.atOrAfter (n g : Serial) : Bool := (n - g).toNat < 2147483648

/-! ### Lists in an order -/

/-- The smallest of a list of values, absent for an empty list (R35). -/
def smallest : List Nat → Option Nat
  | [] => none
  | x :: xs =>
    match smallest xs with
    | none => some x
    | some y => some (min x y)

/-- Consecutive parts of at most `n` entries (R139). `fuel` bounds the number of parts. -/
def partsOf {α : Type} (n : Nat) : Nat → List α → List (List α)
  | 0, _ => []
  | _ + 1, [] => []
  | fuel + 1, x :: xs => (x :: xs).take n :: partsOf n fuel ((x :: xs).drop n)

/-! ### The link controllers -/

/-- The link controller of a port. -/
def State.link (s : State) : Port → Link
  | .a => s.linkA
  | .s => s.linkS
  | .n => s.linkN

/-- Replaces the link controller of a port. -/
def State.setLink (s : State) (p : Port) (l : Link) : State :=
  match p with
  | .a => { s with linkA := l }
  | .s => { s with linkS := l }
  | .n => { s with linkN := l }

/-- A shortfall evaluation is requested of the book (R87). -/
def State.requestEval (s : State) : State :=
  { s with book := { s.book with evalRequests := s.book.evalRequests + 1 } }

end Sys2Proof.Machine
end

