-- ==== Sys2Proof/Machine/Operands.lean ====
section
/-! DEFINITION. The formats on the wire (R181 to R183) and the range checks of the requests' arguments. All multi-byte
fields are most significant byte first. -/

namespace Sys2Proof.Config

open Sys2Proof.Machine

/-- FREE VALUE. The byte that stands for a result on a master link: the code values are not in the manual (R182, log 18). -/
opaque resultByte : ResultCode → Byte

/-- FREE VALUE. The bytes of a response's body: the manual names the figures and gives them no layout (R182, log 18). -/
opaque bodyBytes : ResponseBody → List Byte

end Sys2Proof.Config

namespace Sys2Proof.Machine

/-! ### CRC-16 (R181) -/

/-- One bit step of the check register: generator x^16+x^12+x^5+1. -/
def crcStep (r : Half) : Half := if r.msb then (r <<< 1) ^^^ 0x1021 else r <<< 1

/-- One byte fed into the register, most significant bit first. -/
def crcByte (r : Half) (b : Byte) : Half := Nat.iterate crcStep 8 (r ^^^ (b.zeroExtend 16 <<< 8))

/-- The check over a list of bytes, from FFFFh, without final inversion. -/
def crc16 (bs : List Byte) : Half := bs.foldl crcByte 0xFFFF

/-! ### Characters on the wire (R146, R172) -/

/-- The number of ones among some bits is odd. -/
def oddOnes {w : Nat} (x : BitVec w) : Bool := (List.range w).countP (fun i => x.getLsbD i) % 2 == 1

/-- A character of the fleet bus, bit 0 first on the line: a low start bit, the data bits with the least significant
first, the odd parity bit, a high stop bit (R146). -/
def busCharacter (b : Byte) : BitVec 11 := 1#1 ++ BitVec.ofBool (!oddOnes b) ++ b ++ 0#1

/-- A sampled character of the fleet bus is in error: its start bit is valid, and its parity is even (a parity error) or
its stop bit low (a framing error, which counts as one) (R146). -/
def busCharacterError (c : BitVec 11) : Bool := !c.getLsbD 0 && (!oddOnes (c.extractLsb' 1 9) || !c.getLsbD 10)

/-- The bytes that the characters of a reply spell, their data bits in order; none where one of them begins no character
or is in error (R146). -/
def replyBytes (cs : List (BitVec 11)) : Option (List Byte) :=
  if cs.all fun c => !c.getLsbD 0 && !busCharacterError c then some (cs.map fun c => c.extractLsb' 1 8) else none

/-- A character of a master link, bit 0 first on the line: a low start bit, the data bits with the least significant
first, a high stop bit, no parity (R172). -/
def linkCharacter (b : Byte) : BitVec 10 := 1#1 ++ b ++ 0#1

/-- A sampled character of a master link is a framing error: its start bit is low and its stop bit is low (R172). -/
def linkCharacterError (c : BitVec 10) : Bool := !c.getLsbD 0 && !c.getLsbD 9

/-- The byte that ten sampled bits spell, where they are a character without error (R172). -/
def linkByte (c : BitVec 10) : Option Byte :=
  if !c.getLsbD 0 && !linkCharacterError c then some (c.extractLsb' 1 8) else none

/-- The levels a character holds the line at, one for each bit time. -/
def levelsOf {w : Nat} (c : BitVec w) : List Bool := (List.range w).map fun i => c.getLsbD i

/-! ### Two-byte fields -/

/-- The two bytes of a field, high byte first. -/
def bytesOf (h : Half) : List Byte := [h.extractLsb' 8 8, h.extractLsb' 0 8]

/-- The field two bytes spell, high byte first. -/
def halfOf (hi lo : Byte) : Half := hi ++ lo

/-- A frame's bytes with their check behind them. -/
def withCheck (bs : List Byte) : List Byte := bs ++ bytesOf (crc16 bs)

/-- The last two bytes are the check of the bytes before them. -/
def checkMatches (bs : List Byte) : Bool := bs == withCheck (bs.take (bs.length - 2))

/-! ### Request telegrams (R182) -/

/-- The lead of a request telegram. -/
def requestLead : Byte := 0xC3

/-- A length that can belong to a request (R173). -/
def lengthInRange (n : Nat) : Bool := 2 ≤ n && n ≤ 64

/-- The bytes are those of one complete telegram: the lead, a length in range, as many bytes as it counts and the
two bytes of the check (R173, R182). -/
def completeTelegram : List Byte → Bool
  | lead :: hi :: lo :: rest =>
    lead == requestLead && lengthInRange (halfOf hi lo).toNat && rest.length == (halfOf hi lo).toNat + 2
  | _ => false

/-- The bytes so far of a telegram that is not complete: the lead; once it is whole, a length in range; and fewer bytes
behind it than it counts with the check (R173). -/
def unfinished : List Byte → Bool
  | [lead] | [lead, _] => lead == requestLead
  | lead :: hi :: lo :: rest =>
    lead == requestLead && lengthInRange (halfOf hi lo).toNat && rest.length < (halfOf hi lo).toNat + 2
  | [] => false

/-- The code and tag of a complete telegram (R182). -/
def codeOf (bs : List Byte) : Byte := bs.getD 3 0
def tagOf (bs : List Byte) : Byte := bs.getD 4 0

/-- The present markers of a request's optional arguments, in their order (R39, R41, R182). -/
def presentMarkers : Request → List Bool
  | .defineWindow _ _ _ _ cap => [cap.isSome]
  | .setBranch _ cls cap exportLimit importLimit => [cls.isSome, cap.isSome, exportLimit.isSome, importLimit.isSome]
  | _ => []

/-- The requests that have no arguments. -/
def hasNoArguments : Request → Bool
  | .suspend | .resume | .readMeter | .armFl | .disarmFl | .leaveTest | .readBranchLoad | .readResponse | .busEnable
  | .busDisable | .busRestore | .status | .identify => true
  | _ => false

/-- The length in bytes of the body that a request's arguments and their present markers call for (R178, check 3): none
without arguments; otherwise a free value in 1..62, the same for every telegram of the request with the same present
markers (log 6). -/
def bodyLengthOf (r : Request) : Nat :=
  if hasNoArguments r then 0 else (Config.argumentBytes r.ctorIdx (presentMarkers r)).val + 1

/-- The body of a complete telegram has the length its request calls for: the telegram has seven bytes beside its body
(R178, R182). -/
def bodyFits (r : Request) (bs : List Byte) : Bool := bs.length == 7 + bodyLengthOf r

/-- How long a body must be to hold the product field that check 2 of R178 reads: a free value between 1 and the length of
the whole body for HOLD, AWARD and RELEASE; 0 for a request without one (log 6). -/
def productLengthOf : Request → Nat
  | r@(.hold ..) | r@(.award ..) | r@(.release ..) =>
    min ((Config.productBytes r.ctorIdx).val + 1) (bodyLengthOf r)
  | _ => 0

/-- The body of a complete telegram is long enough to hold the product field (R178, check 2). -/
def holdsProduct (r : Request) (bs : List Byte) : Bool := 7 + productLengthOf r ≤ bs.length

/-! ### REPORT (R183) -/

/-- The timing character of a REPORT (R154). -/
def timingCharacter : Byte := 0xF0

/-- The present markers of a REPORT: available power, household load, PV output. -/
def markersOf (bs : List Byte) : List Bool :=
  let m := bs.getD 8 0
  [m.getLsbD 0, m.getLsbD 1, m.getLsbD 2]

/-- The length the present markers fix: 11 bytes and two for each marker (R155, R183). -/
def reportLength (bs : List Byte) : Nat := 11 + 2 * (markersOf bs).countP id

/-- The reply is complete: it has reached the length its markers fix (R155). -/
def completeReport (bs : List Byte) : Bool := 9 ≤ bs.length && bs.length == reportLength bs

/-- The figures of a REPORT. -/
structure Report where
  address : Half
  soc : Nat
  measured : Int
  status : InverterStatus
  available : Option Nat
  household : Option Nat
  pv : Option Nat
  deriving DecidableEq, Repr

/-- The two-byte field at an offset. -/
def fieldAt (bs : List Byte) (i : Nat) : Half := halfOf (bs.getD i 0) (bs.getD (i + 1) 0)

/-- The `i`-th optional field of a REPORT, when its marker is set: it stands behind the fields of the markers set
before it. -/
def optionalField (bs : List Byte) (i : Nat) : Option Nat :=
  if (markersOf bs).getD i false then
    some (fieldAt bs (9 + 2 * ((markersOf bs).take i).countP id)).toNat
  else none

/-- The figures a complete REPORT carries (R183). -/
def reportOf (bs : List Byte) : Report :=
  { address := fieldAt bs 1
    soc := (fieldAt bs 3).toNat
    measured := (fieldAt bs 5).toInt
    status := if bs.getD 7 0 = 1 then .ready else .offline
    available := optionalField bs 0
    household := optionalField bs 1
    pv := optionalField bs 2 }

/-! ### Frames from the part (R183) -/

/-- The bytes of a POLL. -/
def pollBytes (a : Address) (i : ItemSet) : List Byte :=
  withCheck ([0x71] ++ bytesOf (a.zeroExtend 16) ++ [(if i.household then 2 else 0) ||| (if i.pv then 4 else 0)])

/-- The bytes of an entry: address and setpoint in units of 10 W. -/
def BlockEntry.bytes (e : BlockEntry) : List Byte :=
  bytesOf (e.address.zeroExtend 16) ++ bytesOf (BitVec.ofInt 16 (e.setpoint.tdiv 10))

/-- The bytes of a DISPATCH BLOCK. Its pass number and marks are not sent (R158). -/
def Block.bytes (b : Block) : List Byte :=
  withCheck ([0x72, BitVec.ofNat 8 b.entries.length] ++ (b.entries.map BlockEntry.bytes).flatten)

/-- The bytes of the frame in transmission; a frame that is no longer in transmission has none left to send. -/
def Frame.bytes : Frame → List Byte
  | .poll a i .transmitting => pollBytes a i
  | .block b => b.bytes
  | _ => []

/-- The levels of FBTX over the frame in transmission, one for each bit time: the leader, the mark, the characters back to
back and the guard (R147). -/
def Frame.levels (f : Frame) : List Bool :=
  match f.bytes with
  | [] => []
  | bs => List.replicate 14 false ++ List.replicate 2 true ++ (bs.map fun b => levelsOf (busCharacter b)).flatten ++
      List.replicate 2 true

/-- The level of FBTX `n` bit times after the frame in progress began: the frame's while it is in transmission, and high
(mark) with no frame, after its guard and after an abort (R145, R147, R159, R160). -/
def Frame.fbtx (f : Frame) (n : Nat) : Bool := f.levels.getD n true

/-! ### Responses (R181, R182) -/

/-- The lead of a response telegram. -/
def responseLead : Byte := 0x3C

/-- The bytes of a body: none for an empty body, and no more than a length field of two bytes counts (R182). -/
def ResponseBody.bytes : ResponseBody → List Byte
  | .empty => []
  | b => (Config.bodyBytes b).take 65530

/-- The bytes of a response telegram (R182): lead, the length from code to body, code, tag, result, the two overrun
fields, the body and the check. -/
def Response.bytes (q : Response) : List Byte :=
  withCheck ([responseLead] ++ bytesOf (BitVec.ofNat 16 (5 + q.body.bytes.length)) ++
    [q.code, q.tag, Config.resultByte q.result, BitVec.ofNat 8 q.overrunCount, q.overrunTag] ++ q.body.bytes)

/-- The levels of TX over the response in transmission, one for each bit time, its characters back to back; none where no
response is in transmission (R171, R175). -/
def Link.levels (l : Link) : List Bool :=
  match l.response with
  | none => []
  | some q => (q.bytes.map fun b => levelsOf (linkCharacter b)).flatten

/-- The level of TX `n` bit times after the response in transmission began; high whenever no response character is being
sent (R171, R175). -/
def Link.tx (l : Link) (n : Nat) : Bool := l.levels.getD n true

/-! ### The rate check (R146, R150, R154) -/

/-- The bus rate a figure in bit/s names, if one (R150). -/
def BusRate.ofBits : Nat → Option BusRate
  | 250000 => some .r250k
  | 500000 => some .r500k
  | 1000000 => some .r1000k
  | _ => none

/-- The bit time in REFCLK periods (R146). -/
def BusRate.bitTime : BusRate → Nat
  | .r250k => 40
  | .r500k => 20
  | .r1000k => 10

/-- A low span of the timing character that differs from five nominal bit times by at most 5 % (R154). -/
def BusRate.accepts (r : BusRate) (span : Nat) : Bool :=
  let nominal := 5 * r.bitTime
  20 * (max span nominal - min span nominal) ≤ nominal

/-- The bit time of a master link in REFCLK periods, rounded half up, from the strap (R172). -/
def linkBitTime (strap : BitVec 2) : Nat :=
  roundHalfUp 10000000 (57600 * 2 ^ strap.toNat)

/-! ### Ranges of the requests' arguments -/

/-- 000h..FFFh (R14). -/
def addressInRange (a : Nat) : Bool := a < 4096

/-- Floor, ceiling and their separation (R14, R16). -/
def limitsInRange (floor ceiling : Nat) : Bool :=
  floor ≤ 900 && 100 ≤ ceiling && ceiling ≤ 1000 && floor + 100 ≤ ceiling

/-- The value check of ENROLL (R14). -/
def enrollInRange (address rated capacity floor ceiling : Nat) : Bool :=
  addressInRange address && 500 ≤ rated && rated ≤ 25000 && rated % 10 == 0 && 1000 ≤ capacity &&
    capacity ≤ 60000 && limitsInRange floor ceiling

/-- A cap of a window: 0..25,000 W, a multiple of 10, or absent (R31, R32). -/
def capInRange (cap : Option Nat) : Bool := cap.all fun c => c ≤ 25000 && c % 10 == 0

/-- A limit of a branch window (R31). -/
def branchLimitInRange (l : Option Nat) : Bool := l.all fun x => x ≤ Config.maxBranchLimit && x % 10 == 0

/-- The form of a mask: ones from bit 11 downward, then zeros (R33). -/
def maskForm (m : Address) : Bool := (List.range 13).any fun k => m == (BitVec.allOnes 12) <<< (12 - k)

/-- The base has no one where the mask has a zero (R33). -/
def baseFits (base mask : Address) : Bool := base &&& mask == base

/-- The ranges of the offer parameters (R63). -/
def offerParamsInRange (margin duty granularity recovery : Nat) : Bool :=
  margin ≤ 50 && 10 ≤ duty && duty ≤ 100 && 100 ≤ granularity && granularity ≤ 100000 && recovery ≤ 100000

/-- A count of slots a request may ask for (R65, R83). -/
def countInRange (n : Nat) : Bool := 1 ≤ n && n ≤ 16

/-- An amount of a hold or an award (R74, R79). -/
def wattsInRange (w : Nat) : Bool := w ≤ Config.maxFleet

/-- The figures of SET_FL_PARAMS (R110). -/
def flParamsInRange (deadband fullDev holdLimit : Nat) : Bool :=
  deadband ≤ 500 && deadband + 10 ≤ fullDev && fullDev ≤ 2000 && 1 ≤ holdLimit && holdLimit ≤ 100

/-- The figures of SET_SL_PARAMS (R119). -/
def slParamsInRange (ramp timeout : Nat) : Bool :=
  10 ≤ ramp && ramp ≤ 1000000 && ramp % 10 == 0 && 10 ≤ timeout && timeout ≤ 600

/-- A test capacity (R122). -/
def testCapacityInRange (w : Nat) : Bool := w ≤ Config.maxFleet && w % 10 == 0

/-- The figures of INJECT (R123). -/
def injectInRange (delta : Int) (duration : Nat) : Bool :=
  -Config.maxDelta ≤ delta && delta ≤ Config.maxDelta && 1 ≤ duration && duration ≤ 600

/-- The configuration a rate and a reply window name, if both lie in range (R150). -/
def busConfigOf (rate window : Nat) : Option BusConfig :=
  if 20 ≤ window ∧ window ≤ 200 then (BusRate.ofBits rate).map fun r => ⟨r, window⟩ else none

end Sys2Proof.Machine
end

