-- ==== Sys2Proof/Machine/Flags.lean ====
section
/-! DEFINITION. The attention sets (R179), the output lines computed from the state (R145, R171, R175), and the flags of
episode records (R165). -/

namespace Sys2Proof.Machine

/-- Every cause, in the order a set is kept in: two equal sets are equal lists. -/
def Cause.all : List Cause :=
  [.restarted, .shortfall, .holdLapsed, .siteSilent, .windowsChanged, .freqLost, .signalLost, .episodeClosed,
    .testEnded, .freeze, .branchAtLimit, .busFault, .linkError]

/-- The causes each port can hold (the table of R179). -/
def Cause.allowedAt : Port → List Cause
  | .a => [.restarted, .shortfall, .holdLapsed, .siteSilent, .windowsChanged, .busFault, .linkError]
  | .s => [.restarted, .shortfall, .freqLost, .signalLost, .episodeClosed, .testEnded, .freeze, .busFault, .linkError]
  | .n => [.restarted, .freeze, .branchAtLimit, .busFault, .linkError]

/-- A set with a cause in it: a cause already there leaves the set as it is (R179). -/
def raiseIn (c : Cause) (set : List Cause) : List Cause := Cause.all.filter fun x => x == c || set.contains x

/-- A link controller with a cause raised at its port. -/
def Link.raise (l : Link) (c : Cause) : Link := { l with attention := raiseIn c l.attention }

/-- Raises a cause in the attention set of a port (R179). -/
def State.raise (s : State) (p : Port) (c : Cause) : State := s.setLink p ((s.link p).raise c)

/-- Raises a cause at a port if a condition holds. -/
def State.raiseIf (s : State) (b : Bool) (p : Port) (c : Cause) : State := if b then s.raise p c else s

/-! ### Output lines -/

/-- The HOLD line: high while both receive places are full (R175). -/
def Link.holdLine (l : Link) : Bool := l.queue.length == Config.queuePlaces

/-- ATTN: high while the attention set is not empty (R179). -/
def Link.attn (l : Link) : Bool := !l.attention.isEmpty

/-- TX carries a response (R171). -/
def Link.sending (l : Link) : Bool := l.response.isSome

/-- FBDE: asserted from the start of a leader to the end of the frame's guard (R145, R147). -/
def Frame.driving : Frame → Bool
  | .poll _ _ .transmitting => true
  | .block _ => true
  | _ => false

/-! ### Flags of an episode record -/

/-- The flags of a record that opens (R163, R165, R168). -/
def EpisodeFlags.opening (test concurrent lossBefore : Bool) : EpisodeFlags :=
  ⟨test, false, false, false, concurrent, lossBefore⟩

end Sys2Proof.Machine
end

