-- ==== Sys2Proof/Machine/Links.lean ====
section
/-! DEFINITION. The master links: taking a telegram, the link controller's checks, the response; the events of the receive
side; and the requests every port has (11). -/

namespace Sys2Proof.Machine

/-! ### Permission, support, length (R178) -/

/-- The ports on which a request is permitted (the table of R178). -/
def portsOf : Request → List Port
  | .identify | .status | .setLinkMode _ => [.a, .s, .n]
  | .enroll .. | .amend .. | .remove _ | .readSite _ | .setItems _ | .offerQuery .. | .hold .. | .award .. | .release ..
  | .setOfferParams .. | .busConfig .. | .busEnable | .busDisable | .busRestore => [.a]
  | .readBook .. => [.a, .s]
  | .setTime .. | .setPoint _ | .setSlParams .. | .armFl | .disarmFl | .setFlParams .. | .setMeter _ | .readMeter
  | .readResponse | .enterTest .. | .inject .. | .leaveTest | .readJournal _ | .releaseJournal _ => [.s]
  | .suspend | .defineWindow .. | .clearWindow _ | .setBranch .. | .setDefaultClass _ | .resume | .queryClass ..
  | .readWindows _ | .readBranchLoad => [.n]
  | .unnamed => []

/-- The requests the OJL-064 does not support. The product field of HOLD, AWARD and RELEASE counts where the body is long
enough to hold it (R178, check 2). -/
def needsFrequencyLed (r : Request) (holdsProduct : Bool) : Bool :=
  match r with
  | .armFl | .disarmFl | .setFlParams .. | .setMeter _ | .readMeter | .inject .. => true
  | .hold _ p .. | .award _ p .. | .release _ p _ => holdsProduct && p.any Product.frequencyLed
  | _ => false

/-- The link controller's checks in order: permission, support, length (R178). -/
def linkCheck (m : Member) (p : Port) (t : Telegram) : Option ResultCode :=
  if p ∉ portsOf t.request then some .notPermitted
  else if m = .ojl064 ∧ needsFrequencyLed t.request t.holdsProduct then some .unsupported
  else if t.fits then none
  else some .badLength

/-! ### The rows that are requests -/

/-- The port and the request of a request's row; the other rows are events (R175, R178). -/
def requestRow : Instr → Option (Port × Request)
  | .setTime p day tenths => some (p, .setTime day tenths)
  | .enroll p address rated capacity floor ceiling => some (p, .enroll address rated capacity floor ceiling)
  | .amend p address floor ceiling => some (p, .amend address floor ceiling)
  | .remove p address => some (p, .remove address)
  | .readSite p address => some (p, .readSite address)
  | .setItems p items => some (p, .setItems items)
  | .defineWindow p index base mask cls cap => some (p, .defineWindow index base mask cls cap)
  | .clearWindow p index => some (p, .clearWindow index)
  | .setBranch p branch cls cap exportLimit importLimit => some (p, .setBranch branch cls cap exportLimit importLimit)
  | .setDefaultClass p cls => some (p, .setDefaultClass cls)
  | .suspend p => some (p, .suspend)
  | .resume p => some (p, .resume)
  | .queryClass p first last => some (p, .queryClass first last)
  | .readWindows p view => some (p, .readWindows view)
  | .setOfferParams p margin duty granularity recovery => some (p, .setOfferParams margin duty granularity recovery)
  | .offerQuery p first count => some (p, .offerQuery first count)
  | .hold p slot product watts expiryDay expiryTenths bidTag => some (p, .hold slot product watts expiryDay expiryTenths bidTag)
  | .award p slot product watts bidTag => some (p, .award slot product watts bidTag)
  | .release p slot product bidTag => some (p, .release slot product bidTag)
  | .readBook p first count => some (p, .readBook first count)
  | .setMeter p candidates => some (p, .setMeter candidates)
  | .readMeter p => some (p, .readMeter)
  | .setFlParams p deadband fullDev lossMode holdLimit => some (p, .setFlParams deadband fullDev lossMode holdLimit)
  | .armFl p => some (p, .armFl)
  | .disarmFl p => some (p, .disarmFl)
  | .setPoint p watts => some (p, .setPoint watts)
  | .setSlParams p ramp timeout => some (p, .setSlParams ramp timeout)
  | .enterTest p up down => some (p, .enterTest up down)
  | .inject p delta duration => some (p, .inject delta duration)
  | .leaveTest p => some (p, .leaveTest)
  | .readBranchLoad p => some (p, .readBranchLoad)
  | .readResponse p => some (p, .readResponse)
  | .readJournal p start => some (p, .readJournal start)
  | .releaseJournal p upTo => some (p, .releaseJournal upTo)
  | .busEnable p => some (p, .busEnable)
  | .busDisable p => some (p, .busDisable)
  | .busConfig p rate window => some (p, .busConfig rate window)
  | .busRestore p => some (p, .busRestore)
  | .unnamedRequestCode p => some (p, .unnamed)
  | .setLinkMode p mode => some (p, .setLinkMode mode)
  | .status p => some (p, .status)
  | .identify p => some (p, .identify)
  | _ => none

/-! ### Taking a telegram (R175) -/

/-- What an owning block answers: the state it leaves, the result and the body. -/
structure Answer where
  state : State
  result : ResultCode
  body : ResponseBody
  deriving DecidableEq, Repr

/-- A refusal that changes nothing. -/
def refuse (s : State) (r : ResultCode) (b : ResponseBody := .empty) : Answer := ⟨s, r, b⟩

/-- The oldest telegram of a port, if the link controller may take it now and it names `r`: no response is in
transmission and the overrun response place is empty (R175). -/
def State.takes (s : State) (p : Port) (r : Request) : Option Telegram :=
  match (s.link p).queue with
  | t :: _ => if (s.link p).response = none ∧ (s.link p).overrunPlace = none ∧ t.request = r then some t else none
  | [] => none

/-- The oldest telegram leaves the receive queue (R175). -/
def State.dequeue (s : State) (p : Port) : State :=
  s.setLink p { s.link p with queue := (s.link p).queue.tail }

/-- The response a link controller forms: it echoes code and tag, and the overrun mark rides on it (R176, R182). -/
def Link.responseTo (l : Link) (t : Telegram) (r : ResultCode) (b : ResponseBody) : Response :=
  { code := t.code, tag := t.tag, result := r, body := b
    overrunCount := (l.overrunMark.map OverrunMark.count).getD 0
    overrunTag := (l.overrunMark.map OverrunMark.tag).getD 0 }

/-- The response is formed and its transmission begins; the overrun mark is cleared as it is formed (R175, R176). -/
def State.respond (s : State) (p : Port) (t : Telegram) (r : ResultCode) (b : ResponseBody) : State :=
  s.setLink p { s.link p with response := some ((s.link p).responseTo t r b), overrunMark := none }

/-- The answer to a taken telegram: the link controller's refusal, or what the owning block answers (R178). -/
def State.answer (s : State) (p : Port) (t : Telegram) (own : State → Answer) : Answer :=
  match linkCheck s.member p t with
  | some r => refuse s r
  | none => own s

/-- The row of a request: port `p` takes its oldest telegram, which names `r`, has it checked and answered, and
begins the response, in one event (R175, R178). Where the port cannot take that telegram now, the event does not
happen and nothing changes (logs 1, 7). -/
def State.serve (s : State) (p : Port) (r : Request) (own : State → Answer) : State :=
  match s.takes p r with
  | none => s
  | some t =>
    let a := (s.dequeue p).answer p t own
    a.state.respond p t a.result a.body

/-! ### The receive assembler (R172 to R174, R177) -/

/-- A partial telegram is discarded with LINK_ERROR, and the assembler hunts; without one nothing happens. -/
def Link.discardPartial (l : Link) : Link :=
  match l.assembler with
  | .partialTelegram _ => { l with assembler := .hunting }.raise .linkError
  | _ => l

/-- The bytes of the partial telegram so far: none while hunting, and no telegram while a break holds the line. -/
def Assembler.bytes : Assembler → Option (List Byte)
  | .hunting => some []
  | .partialTelegram bs => some bs
  | .held => none

/-- A character at the assembler: while hunting a C3h begins a telegram and any other is discarded; a partial telegram
collects it (R173). The character that completes the length out of range, or the check, comes with the row of that event. -/
def Link.collect (l : Link) (b : Byte) : Link :=
  match l.assembler.bytes with
  | some bs => if unfinished (bs ++ [b]) then { l with assembler := .partialTelegram (bs ++ [b]) } else l
  | none => l

/-- TELEGRAM_LEAD: a character without error arrives at the assembler (R172, R173, log 17). -/
def execTelegramLead (character : LinkCharacter) (s : State) : StepOutcome :=
  let p := character.port
  .next (match linkByte character.bits with
    | some b => s.setLink p ((s.link p).collect b)
    | none => s)

/-- FRAMING_ERROR: a character whose stop bit samples low discards a partial telegram (R172). Bits that begin no character,
or whose stop bit samples high, are no such event (log 1). -/
def execFramingError (character : LinkCharacter) (s : State) : StepOutcome :=
  let p := character.port
  .next (if linkCharacterError character.bits then s.setLink p (s.link p).discardPartial else s)

/-- LENGTH_OUT_OF_RANGE: the second byte of a length outside 2..64 arrives (R173). A length in range, or one whose first byte
is not the one received, is no such event (log 1). -/
def execLengthOutOfRange (p : Port) (length : Half) (s : State) : StepOutcome :=
  .next (if (s.link p).assembler = .partialTelegram [requestLead, length.extractLsb' 8 8] ∧
      lengthInRange length.toNat = false then s.setLink p (s.link p).discardPartial else s)

/-- GAP (R174). -/
def execGap (p : Port) (s : State) : StepOutcome := .next (s.setLink p (s.link p).discardPartial)

/-- A telegram that finds both places full is discarded and recorded by the mode (R176). -/
def Link.overrun (l : Link) (code tag : Byte) : Link :=
  match l.mode with
  | .immediate =>
    { l with overrunPlace := some ⟨code, tag, min 255 ((l.overrunPlace.map OverrunPlace.count).getD 0 + 1)⟩ }
  | .inOrder =>
    match l.overrunMark with
    | none => { l with overrunMark := some ⟨tag, 1⟩ }
    | some m => { l with overrunMark := some { m with count := min 255 (m.count + 1) } }

/-- A telegram whose check matched: it takes a free place, or it is an overrun (R175, R176). -/
def Link.accept (l : Link) (t : Telegram) : Link :=
  if l.queue.length < Config.queuePlaces then { l with queue := l.queue ++ [t] } else l.overrun t.code t.tag

/-- A link controller after the last check byte of a telegram: queued or overrun on a matching check, discarded with
LINK_ERROR otherwise, the assembler hunting in every case (R173). -/
def Link.complete (l : Link) (bytes : List Byte) (request : Request) : Link :=
  let h := { l with assembler := .hunting }
  if checkMatches bytes then h.accept ⟨codeOf bytes, tagOf bytes, request, holdsProduct request bytes, bodyFits request bytes⟩
  else h.raise .linkError

/-- TELEGRAM_COMPLETE: the last check byte arrives (R173). The assembler has every byte before it, and with it they make up a
whole telegram; otherwise none completes (log 1). -/
def execTelegramComplete (p : Port) (front : List Byte) (request : Request) (check : Half) (s : State) : StepOutcome :=
  let bytes := front ++ bytesOf check
  .next (if (s.link p).assembler = .partialTelegram bytes.dropLast ∧ completeTelegram bytes then
    s.setLink p ((s.link p).complete bytes request) else s)

/-- A link controller at a break: the receive side, the queue, the response and the overrun state are reset; the
attention set and the overrun mode are kept (R177). -/
def Link.afterBreak (l : Link) : Link :=
  { l.discardPartial with assembler := .held, queue := [], response := none, overrunPlace := none, overrunMark := none }

/-- BREAK: RX has been low for two character times (R177). A line already held by a break makes no second one. -/
def execLinkBreak (p : Port) (s : State) : StepOutcome :=
  .next (if (s.link p).assembler = .held then s else s.setLink p (s.link p).afterBreak)

/-- BREAK_END: RX has been high for one character time (R177). -/
def execBreakEnd (p : Port) (s : State) : StepOutcome :=
  .next (if (s.link p).assembler = .held then s.setLink p { s.link p with assembler := .hunting } else s)

/-! ### The transmitter (R175, R176) -/

/-- RESPONSE_TRANSMITTED: the last stop bit of the response ends (R175). -/
def execResponseTransmitted (p : Port) (s : State) : StepOutcome :=
  .next (s.setLink p { s.link p with response := none })

/-- A link controller that serves its overrun response place, if it is filled and no response is in transmission
(R176). -/
def Link.serveOverrun (l : Link) : Link :=
  match l.response, l.overrunPlace with
  | none, some o =>
    { l with response := some ⟨o.code, o.tag, .overrun, o.count, o.tag, .empty⟩, overrunPlace := none }
  | _, _ => l

/-- OVERRUN_RESPONSE (R176). -/
def execOverrunResponse (p : Port) (s : State) : StepOutcome := .next (s.setLink p (s.link p).serveOverrun)

/-! ### Requests of every port -/

/-- UNNAMED_REQUEST_CODE: a code that names no request is permitted on no port (R178). -/
def execUnnamedRequestCode (p : Port) (s : State) : StepOutcome :=
  .next (s.serve p .unnamed fun s => refuse s .notPermitted)

/-- SET_LINK_MODE at its port (R176). -/
def ownSetLinkMode (p : Port) (mode : Option OverrunMode) (s : State) : Answer :=
  match mode with
  | none => refuse s .badValue
  | some m => ⟨s.setLink p { s.link p with mode := m }, .ok, .linkMode m⟩

/-- SET_LINK_MODE (R176). -/
def execSetLinkMode (p : Port) (mode : Option OverrunMode) (s : State) : StepOutcome :=
  .next (s.serve p (.setLinkMode mode) (ownSetLinkMode p mode))

/-- STATUS at its port: the set as it stands is returned and emptied (R179). -/
def ownStatus (p : Port) (s : State) : Answer :=
  ⟨s.setLink p { s.link p with attention := [] }, .ok, .status (s.link p).attention (s.link p).mode⟩

/-- STATUS (R179). -/
def execStatus (p : Port) (s : State) : StepOutcome := .next (s.serve p .status (ownStatus p))

/-- IDENTIFY: the family name, the member, the revision letter, the member's figures and the strap (R180). -/
def ownIdentify (s : State) : Answer :=
  ⟨s, .ok, .identity .ojelta s.member .b s.member.siteCapacity s.member.windowCount Config.branchCount Config.bookCapacity
    Config.journalCapacity (s.member == .ojl256) s.lrate⟩

/-- IDENTIFY (R180). -/
def execIdentify (p : Port) (s : State) : StepOutcome := .next (s.serve p .identify ownIdentify)

end Sys2Proof.Machine
end

