-- ==== Sys2Proof/Machine/Journal.lean ====
section
/-! DEFINITION. The activation journal (10): opening, closing, flags, accumulation, capacity, and its commands. -/

namespace Sys2Proof.Machine

/-! ### Records -/

/-- The record is OPEN. -/
def Episode.opened (e : Episode) : Bool := e.state == .isOpen

/-- The OPEN record of a kind. -/
def Episode.openOf (k : Kind) (e : Episode) : Bool := e.opened && e.kind == k

/-- A record closes at `now`, absent while the clock is UNSET (R164). -/
def Episode.close (now : Option Time) (e : Episode) : Episode :=
  { e with state := .closed, finish := now, closingTimer := false }

/-- Applies a change to the OPEN records that a test selects. -/
def Journal.mapOpen (j : Journal) (sel : Episode → Bool) (f : Episode → Episode) : Journal :=
  { j with records := j.records.map fun e => if e.opened && sel e then f e else e }

/-- Some OPEN record meets a test. -/
def Journal.anyOpen (j : Journal) (sel : Episode → Bool) : Bool := j.records.any fun e => e.opened && sel e

/-- The last figure handed for a kind (R163). -/
def Journal.figure (j : Journal) : Kind → Int
  | .fl => j.fl
  | .sl => j.sl

/-- Stores a figure for its kind (R164). -/
def Journal.store (j : Journal) (k : Kind) (x : Int) : Journal :=
  match k with
  | .fl => { j with fl := x }
  | .sl => { j with sl := x }

/-! ### Capacity and opening (R168, R163 to R165) -/

/-- A full journal drops its oldest READ record, or else its oldest CLOSED record, which the second component says. -/
def makeRoom (rs : List Episode) : List Episode × Bool :=
  if rs.length < Config.journalCapacity then (rs, false)
  else if rs.any fun e => e.state == .read then (rs.eraseP fun e => e.state == .read, false)
  else (rs.eraseP fun e => e.state == .closed, rs.any fun e => e.state == .closed)

/-- A new record opens for a kind whose figure is `x` (R163, R165, R168). A figure of 0 opens none. -/
def Journal.openRecord (j : Journal) (k : Kind) (x : Int) (now : Option Time) : Journal :=
  match directionOf x with
  | none => j
  | some d =>
    let n := nextSerial j.counter
    let concurrent := j.anyOpen fun e => e.kind == k.other
    let kept := makeRoom (j.records.map fun e =>
      if e.openOf k.other then { e with flags := { e.flags with concurrent := true } } else e)
    let e : Episode :=
      { number := n, kind := k, direction := d, state := .isOpen, start := now, finish := none, peakTarget := x.natAbs,
        peakDelivered := 0, targetIntegral := 0, deliveredIntegral := 0, maxShortfall := none,
        flags := EpisodeFlags.opening j.testMark concurrent kept.2, closingTimer := false }
    { j with records := kept.1 ++ [e], counter := n }

/-! ### Changes of figure (R164) -/

/-- What a change of figure does, and whether a record closes (the table of R164). -/
def Journal.change (j : Journal) (k : Kind) (x : Int) (now : Option Time) : Journal × Bool :=
  let stored := j.store k x
  let isIt : Episode → Bool := fun e => e.kind == k
  match j.records.find? (Episode.openOf k) with
  | none => (stored.openRecord k x now, false)
  | some e =>
    if x = 0 then (stored.mapOpen isIt fun e => { e with closingTimer := true }, false)
    else if directionOf x = some e.direction then
      (stored.mapOpen isIt fun e => { e with closingTimer := false, peakTarget := max e.peakTarget x.natAbs }, false)
    else ((stored.mapOpen isIt (Episode.close now)).openRecord k x now, true)

/-- A change of figure handed to the journal, with EPISODE_CLOSED at port S if a record closes (R164). -/
def State.figureChange (s : State) (k : Kind) (x : Int) : State :=
  let r := s.journal.change k x s.now
  { s with journal := r.1 }.raiseIf r.2 .s .episodeClosed

/-- A figure that comes with a test-entry or test-end event: stored, acted on by no record (R166). -/
def State.storeFigure (s : State) (k : Kind) (x : Int) : State := { s with journal := s.journal.store k x }

/-! ### Test events (R166) -/

/-- Every OPEN record closes. -/
def Journal.closeAll (j : Journal) (now : Option Time) : Journal := j.mapOpen (fun _ => true) (Episode.close now)

/-- Both kinds whose stored figure is not 0 open a record. Which comes first is free (log 9). -/
def Journal.reopen (j : Journal) (now : Option Time) (flFirst : Bool) : Journal :=
  if flFirst then (j.openRecord .fl j.fl now).openRecord .sl j.sl now
  else (j.openRecord .sl j.sl now).openRecord .fl j.fl now

/-- The test-entry event (`mark` true) or the test-end event (`mark` false): every OPEN record closes, with
EPISODE_CLOSED at port S if any does; the mark is set or cleared; the kinds whose figures are not 0 reopen (R166). -/
def State.testEvent (s : State) (mark : Bool) : State :=
  let j := { s.journal.closeAll s.now with testMark := mark }
  { s with journal := j.reopen s.now (Config.reopenFlFirst s.freeIndex), freeIndex := s.freeIndex + 1 }.raiseIf
    (s.journal.anyOpen fun _ => true) .s .episodeClosed

/-! ### Flags from other blocks (R165) -/

/-- A FREEZE assertion flags every OPEN record. -/
def Journal.flagFreeze (j : Journal) : Journal :=
  j.mapOpen (fun _ => true) fun e => { e with flags := { e.flags with freeze := true } }

/-- A loss of lock flags the OPEN FL record. -/
def Journal.flagFreqLoss (j : Journal) : Journal :=
  j.mapOpen (fun e => e.kind == .fl) fun e => { e with flags := { e.flags with freqLoss := true } }

/-- An accepted RESUME flags every OPEN record (R45). -/
def Journal.flagWindows (j : Journal) : Journal :=
  j.mapOpen (fun _ => true) fun e => { e with flags := { e.flags with windowsChanged := true } }

/-! ### Accumulation (R167) -/

/-- What a pass result does to an OPEN record; `figure` is its own kind's stored figure (the table of R167). -/
def Episode.accumulate (figure : Int) (r : PassResult) (e : Episode) : Episode :=
  let mine := e.direction.signed r.delivered
  { e with
    targetIntegral := if r.cause = .timer then e.targetIntegral + figure.natAbs else e.targetIntegral
    deliveredIntegral := if r.cause = .timer then e.deliveredIntegral + mine.toNat else e.deliveredIntegral
    peakDelivered := max e.peakDelivered mine.toNat
    maxShortfall := if 0 < r.shortfall then some (max (e.maxShortfall.getD 0) r.shortfall) else e.maxShortfall
    flags := { e.flags with freeze := e.flags.freeze || r.freeze } }

/-- A pass result at the journal (R167). -/
def Journal.accumulate (j : Journal) (r : PassResult) : Journal :=
  { j with records := j.records.map fun e => if e.opened then e.accumulate (j.figure e.kind) r else e }

/-! ### Commands -/

/-- CLOSING_TIMER_EXPIRY: the closing timer of a kind's OPEN record runs out and the record closes (R164). -/
def execClosingTimerExpiry (k : Kind) (s : State) : StepOutcome :=
  let due : Episode → Bool := fun e => e.kind == k && e.closingTimer
  .next ({ s with journal := s.journal.mapOpen due (Episode.close s.now) }.raiseIf (s.journal.anyOpen due) .s
    .episodeClosed)

/-- A record with its integrals in Wh, as READ_JOURNAL returns it (R167, R169). -/
def Episode.inWh (e : Episode) : Episode :=
  { e with targetIntegral := e.targetIntegral / 36000, deliveredIntegral := e.deliveredIntegral / 36000 }

/-- The numbers of the records a READ_JOURNAL returns: up to 4 at or after `start`, oldest first (R169). -/
def Journal.window (j : Journal) (start : Serial) : List Episode :=
  (j.records.filter fun e => Serial.atOrAfter e.number start).take 4

/-- READ_JOURNAL at the journal: the records are returned as they stand, and the CLOSED ones become READ (R169). DESIGN
CHOICE (log 28): a returned record carries whether its closing timer runs, beside the fields of R163's table. -/
def ownReadJournal (start : Serial) (s : State) : Answer :=
  let found := s.journal.window start
  let more := found.length < (s.journal.records.filter fun e => Serial.atOrAfter e.number start).length
  let records := s.journal.records.map fun e =>
    if e.state == .closed && found.any fun f => f.number == e.number then { e with state := .read } else e
  ⟨{ s with journal := { s.journal with records } }, .ok,
    .journal (found.map Episode.inWh) s.journal.counter s.journal.records.length more⟩

/-- READ_JOURNAL (R169). -/
def execReadJournal (p : Port) (start : Serial) (s : State) : StepOutcome :=
  .next (s.serve p (.readJournal start) (ownReadJournal start))

/-- A READ record whose number is before or equal to `upTo` (R170): its number is not after it (R163). -/
def Episode.releasable (upTo : Serial) (e : Episode) : Bool :=
  e.state == .read && (e.number == upTo || !Serial.atOrAfter e.number upTo)

/-- RELEASE_JOURNAL at the journal (R170). -/
def ownReleaseJournal (upTo : Serial) (s : State) : Answer :=
  let records := s.journal.records.filter fun e => !e.releasable upTo
  ⟨{ s with journal := { s.journal with records } }, .ok,
    .journalReleased (s.journal.records.length - records.length) records.length⟩

/-- RELEASE_JOURNAL (R170). -/
def execReleaseJournal (p : Port) (upTo : Serial) (s : State) : StepOutcome :=
  .next (s.serve p (.releaseJournal upTo) (ownReleaseJournal upTo))

end Sys2Proof.Machine
end

