-- ==== Sys2Proof/Machine/Weights.lean ====
section
/-! DEFINITION. The resolution of an address against the windows (R30 to R35) and the weights and energies of a site
(R25 to R27), with their sums over branches and over the fleet (R28, R47, R53). -/

namespace Sys2Proof

/-! ### Classes (R30) -/

/-- The class permits a direction. -/
def SiteClass.permits : SiteClass → Machine.Direction → Bool
  | .openBoth, _ => true
  | .exportOnly, .up => true
  | .importOnly, .down => true
  | _, _ => false

/-- The class of a set of permitted directions. -/
def SiteClass.ofPermits (up down : Bool) : SiteClass :=
  match up, down with
  | true, true => .openBoth
  | true, false => .exportOnly
  | false, true => .importOnly
  | false, false => .frozen

/-- The intersection of two classes: the directions common to both. -/
def SiteClass.inter (a b : SiteClass) : SiteClass :=
  .ofPermits (a.permits .up && b.permits .up) (a.permits .down && b.permits .down)

end Sys2Proof

namespace Sys2Proof.Machine

/-! ### Resolution (R31, R32, R35) -/

/-- The branch window of a branch. -/
def Contents.branch (c : Contents) (b : Nat) : BranchWindow := c.branches.getD b .reset

/-- A branch window takes part when its class, its cap or both are present (R31). -/
def BranchWindow.takesPart (w : BranchWindow) : Bool := w.cls.isSome || w.cap.isSome

/-- A valid variable window matches an address (R32). -/
def VariableWindow.covers (w : VariableWindow) (a : Address) : Bool := w.valid && a &&& w.mask == w.base

/-- The classes and caps of the windows that take part for an address (R35). -/
def Contents.taking (c : Contents) (a : Address) : List (Option SiteClass × Option Nat) :=
  (if (c.branch (branchOf a)).takesPart then [((c.branch (branchOf a)).cls, (c.branch (branchOf a)).cap)] else []) ++
    (c.varWindows.filter fun w => w.covers a).map fun w => (some w.cls, w.cap)

/-- The class and cap of an address (R35). The intersection of no class is OPEN (R30). -/
def Contents.resolve (c : Contents) (a : Address) : SiteClass × Option Nat :=
  match c.taking a with
  | [] => (c.defaultClass, none)
  | ws => ((ws.filterMap Prod.fst).foldl SiteClass.inter .openBoth, smallest (ws.filterMap Prod.snd))

/-- The limit of a branch in a direction: export for up, import for down (R47). -/
def Contents.limit (c : Contents) (d : Direction) (b : Nat) : Option Nat :=
  match d with
  | .up => (c.branch b).exportLimit
  | .down => (c.branch b).importLimit

/-! ### Weights (R25, R26) -/

/-- The power weight of a site in a direction (R25). -/
def Site.pw (r : Site) (d : Direction) : Nat :=
  if r.lifecycle = .leaving ∨ r.status ≠ some .ready ∨ r.freshness = .silent ∨ r.effClass.permits d = false then 0
  else
    let x := min r.rated (min (r.effCap.getD r.rated) (r.available.getD r.rated))
    if r.freshness = .stale then x / 20 * 10 else down10 x

/-- The recorded SoC leaves room in a direction: above the floor for up, below the ceiling for down (R26). -/
def Site.hasRoom (r : Site) (d : Direction) : Bool :=
  match d with
  | .up => r.soc.any fun x => r.floor < x
  | .down => r.soc.any fun x => x < r.ceiling

/-- The dispatch weight of a site in a direction (R26). -/
def Site.dw (r : Site) (d : Direction) : Nat := if r.hasRoom d then r.pw d else 0

/-! ### Energies (R27) -/

/-- An energy counted in a direction: 0 where the power weight is 0, halved while STALE (R27). -/
def Site.counted (r : Site) (d : Direction) (wh : Nat) : Nat :=
  if r.pw d = 0 then 0 else if r.freshness = .stale then wh / 2 else wh

/-- Up-energy for up, down-energy for down, in Wh (R27). -/
def Site.energy (r : Site) (d : Direction) : Nat :=
  let soc := r.soc.getD 0
  r.counted d (match d with
    | .up => (soc - r.floor) * r.capacity / 1000
    | .down => (r.ceiling - soc) * r.capacity / 1000)

/-- Band-up and band-down energy, in Wh (R27). -/
def Site.band (r : Site) (d : Direction) : Nat := r.counted d ((r.ceiling - r.floor) * r.capacity / 1000)

/-- The figures READ_SITE returns (R19). -/
def Site.figures (r : Site) : SiteFigures :=
  ⟨r.pw .up, r.pw .down, r.dw .up, r.dw .down, r.energy .up, r.energy .down, r.band .up, r.band .down⟩

/-! ### Sums (R28, R53) -/

/-- The sites of a branch. -/
def sitesOf (roster : List Site) (b : Nat) : List Site := roster.filter fun r => branchOf r.address == b

/-- The sum of a branch's power weights. -/
def branchPower (roster : List Site) (d : Direction) (b : Nat) : Nat := ((sitesOf roster b).map fun r => r.pw d).sum

/-- A branch's weight under its limit, present or absent (R53, R130). -/
def underLimit (lim : Option Nat) (w : Nat) : Nat := (lim.map fun l => min l w).getD w

/-- The fleet capacity in a direction (R53). -/
def fleetCapacity (roster : List Site) (c : Contents) (d : Direction) : Nat :=
  ((List.range Config.branchCount).map fun b => underLimit (c.limit d b) (branchPower roster d b)).sum

/-- The fleet energy EU or ED (R27). -/
def fleetEnergy (roster : List Site) (d : Direction) : Nat := (roster.map fun r => r.energy d).sum

/-- The fleet band energy (R27). -/
def fleetBand (roster : List Site) (d : Direction) : Nat := (roster.map fun r => r.band d).sum

/-- The site's freshness is FRESH or STALE, so that its measured power counts (R137, R143). -/
def Site.reporting (r : Site) : Bool := r.freshness != .silent

/-- The sum of the measured power of the reporting sites of a list; an absent figure adds nothing (R137, R143). -/
def measuredSum (rs : List Site) : Int := ((rs.filter Site.reporting).map fun r => r.measured.getD 0).sum

end Sys2Proof.Machine
end

