-- ==== Sys2Proof/Machine/Offers.lean ====
section
/-! DEFINITION. Headroom and offers (04): reservations, slack, energy slack, published offers, and their two requests. -/

namespace Sys2Proof.Machine

/-! ### Reservations (R54 to R56) -/

/-- The record of a slot and product. -/
def recordOf (rs : List BookRecord) (k : Nat) (p : Product) : Option BookRecord :=
  rs.find? fun r => r.slot == k && r.product == p

/-- A(k, p): awarded plus held, 0 without a record (R54). -/
def committed (rs : List BookRecord) (k : Nat) (p : Product) : Nat :=
  ((recordOf rs k p).map fun r => r.awarded + r.held).getD 0

/-- A(k, FL) + A(k, SL) of a direction (R60, R88). -/
def committedIn (rs : List BookRecord) (k : Nat) (d : Direction) : Nat :=
  committed rs k d.flProduct + committed rs k d.slProduct

/-- The reservation Q(k) of a slot in a direction, in Wh (R55). -/
def reservation (b : Book) (k : Nat) (d : Direction) : Nat :=
  ceilDiv (committed b.records k d.slProduct * 100 + committed b.records k d.flProduct * b.params.duty) 400

/-- Running sums from `acc` (R56). -/
def runningSums : Nat → List Nat → List Nat
  | _, [] => []
  | acc, q :: qs => (acc + q) :: runningSums (acc + q) qs

/-- Cum(k) for the slots of the horizon, in order of distance ahead of `c` (R56). -/
def cumulative (b : Book) (c : Nat) (d : Direction) : List Nat :=
  runningSums 0 ((List.range Config.horizon).map fun n => reservation b (slotAhead c n) d)

/-! ### Available energy and slack (R57 to R59) -/

/-- The figures an offer computation reads once for a direction, and the slack of every slot of the horizon. -/
structure Headroom where
  capacity : Nat
  energy : Nat
  band : Nat
  slacks : List Int
  deriving DecidableEq, Repr

/-- Avail(k) at distance `n` (R57). -/
def available (band energy recovery n : Nat) : Nat := min band (energy + recovery * n)

/-- One offer computation in a direction (R52, R53, R57, R58). -/
def State.headroom (s : State) (c : Nat) (d : Direction) : Headroom :=
  let energy := fleetEnergy s.roster d
  let band := fleetBand s.roster d
  { capacity := fleetCapacity s.roster s.windows.inForce d, energy, band
    slacks := (cumulative s.book c d).zipIdx.map fun x => (available band energy s.book.params.recovery x.2 : Int) - x.1 }

/-- The slack of the slot at distance `n` (R58). -/
def Headroom.slack (h : Headroom) (n : Nat) : Int := h.slacks.getD n 0

/-- The least of a list of slacks, starting from one. -/
def leastFrom (x : Int) (xs : List Int) : Int := xs.foldl min x

/-- ES at distance `n`: the least slack from there to the end of the horizon, no less than 0 (R59). -/
def Headroom.energySlack (h : Headroom) (n : Nat) : Nat :=
  match h.slacks.drop n with
  | [] => 0
  | x :: xs => (leastFrom x xs).toNat

/-- PU of a slot, which may be negative (R60). -/
def powerHeadroom (s : State) (h : Headroom) (k : Nat) (d : Direction) : Int :=
  (h.capacity : Int) - committed s.book.records k d.flProduct - committed s.book.records k d.slProduct

/-! ### Offers (R61, R62) -/

/-- The raw offer of a product whose direction's headroom is `h`, in the slot `k` at distance `n` (R61). -/
def rawOffer (s : State) (h : Headroom) (k n : Nat) (p : Product) : Nat :=
  let es := h.energySlack n
  let energyTerm := if p.frequencyLed then 400 * es / s.book.params.duty else 4 * es
  (min (powerHeadroom s h k p.direction) energyTerm).toNat

/-- The published offer: margin, then granularity; 0 for the FL products of the OJL-064 (R62). -/
def published (s : State) (h : Headroom) (k n : Nat) (p : Product) : Nat :=
  if s.member = .ojl064 ∧ p.frequencyLed then 0
  else
    let g := s.book.params.granularity
    rawOffer s h k n p * (100 - s.book.params.margin) / 100 / g * g

/-- The published offer of a slot and product when `c` is current, from a computation of its own (R74, check 7). -/
def State.publishedOffer (s : State) (c k : Nat) (p : Product) : Nat :=
  published s (s.headroom c p.direction) k (distance c k) p

/-! ### SET_OFFER_PARAMS (R64) -/

/-- SET_OFFER_PARAMS at the book (R64). -/
def ownSetOfferParams (margin duty granularity recovery : Nat) (s : State) : Answer :=
  if offerParamsInRange margin duty granularity recovery then
    let params : OfferParams := ⟨margin, duty, granularity, recovery⟩
    ⟨{ s with book := { s.book with params } }, .ok, .offerParams params⟩
  else refuse s .badValue

/-- SET_OFFER_PARAMS (R64). -/
def execSetOfferParams (p : Port) (margin duty granularity recovery : Nat) (s : State) : StepOutcome :=
  .next (s.serve p (.setOfferParams margin duty granularity recovery) (ownSetOfferParams margin duty granularity recovery))

/-! ### OFFER_QUERY (R65, R66) -/

/-- The slots `first`, `first + 1`, …, at distances `n`, `n + 1`, … of `c`. -/
def slotsFrom (c n count : Nat) : List (Nat × Nat) := (List.range count).map fun i => (slotAhead c (n + i), n + i)

/-- One slot's figures of an offer query (R66). -/
def slotOffer (s : State) (up down : Headroom) (k n : Nat) : SlotOffer :=
  { slot := k
    powerUp := powerHeadroom s up k .up, powerDown := powerHeadroom s down k .down
    energyUp := up.energySlack n, energyDown := down.energySlack n
    flu := published s up k n .flu, fld := published s down k n .fld
    slu := published s up k n .slu, sld := published s down k n .sld }

/-- The heading figures of a direction (R66). -/
def Headroom.heading (h : Headroom) : DirectionFigures := ⟨h.capacity, h.energy, h.band⟩

/-- OFFER_QUERY at the book: the checks of R65 in order, then the figures of R66. -/
def ownOfferQuery (first count : Nat) (s : State) : Answer :=
  if !(slotInRange first && countInRange count) then refuse s .badValue
  else match s.current with
    | none => refuse s .timeUnset
    | some c =>
      let n := distance c first
      if 1 ≤ n ∧ n + count - 1 < Config.horizon then
        let up := s.headroom c .up
        let down := s.headroom c .down
        ⟨s, .ok, .offers c s.book.params up.heading down.heading
          ((slotsFrom c n count).map fun x => slotOffer s up down x.1 x.2)⟩
      else refuse s .outOfHorizon

/-- OFFER_QUERY (R65, R66). -/
def execOfferQuery (p : Port) (first count : Nat) (s : State) : StepOutcome :=
  .next (s.serve p (.offerQuery first count) (ownOfferQuery first count))

end Sys2Proof.Machine
end

