-- ==== Sys2Proof/Machine/Book.lean ====
section
/-! DEFINITION. The commitment book (05): holds, awards, releases, expiry, the slot boundary, and the shortfall evaluation. -/

namespace Sys2Proof.Machine

/-! ### Records and their order (R71) -/

/-- The record is that of a slot and product. -/
def BookRecord.isFor (k : Nat) (p : Product) (r : BookRecord) : Bool := r.slot == k && r.product == p

/-- The entry is that of a slot and product. -/
def ExpiredHold.isFor (k : Nat) (p : Product) (e : ExpiredHold) : Bool := e.slot == k && e.product == p

/-- The place of a slot and product in the order of the book: distance ahead, then product (R71). -/
def bookKey (c k : Nat) (p : Product) : Nat := distance c k * 4 + p.rank

/-- Puts a record in its place, replacing the one of its slot and product if there is one (R71, R75). -/
def putRecord (c : Nat) (r : BookRecord) (rs : List BookRecord) : List BookRecord :=
  (rs.filter fun q => !q.isFor r.slot r.product).orderedInsert
    (fun x y => bookKey c x.slot x.product ≤ bookKey c y.slot y.product) r

/-- Puts an entry in its place in the expired-hold list, replacing the one of its pair (R77, R78). -/
def putExpired (c : Nat) (e : ExpiredHold) (es : List ExpiredHold) : List ExpiredHold :=
  (es.filter fun q => !q.isFor e.slot e.product).orderedInsert
    (fun x y => bookKey c x.slot x.product ≤ bookKey c y.slot y.product) e

/-- Ends the hold of the selected records: held 0, no expiry, no tag; a record whose awarded amount is then 0 is
deleted, its risk fields with it (R72). -/
def endHolds (sel : BookRecord → Bool) (rs : List BookRecord) : List BookRecord :=
  rs.filterMap fun r =>
    if sel r then if r.awarded = 0 then none else some { r with held := 0, terms := none } else some r

/-- A record with a hold. -/
def BookRecord.holding (r : BookRecord) : Bool := 0 < r.held

/-- The awarded amount of a slot and product, 0 without a record (R73). -/
def awardedOf (rs : List BookRecord) (k : Nat) (p : Product) : Nat := ((recordOf rs k p).map BookRecord.awarded).getD 0

/-- The awarded amounts of the current slot; 0 while the clock is UNSET (R73). -/
def State.currentAwards (s : State) : Awards :=
  match s.current with
  | none => ⟨0, 0, 0, 0⟩
  | some c => ⟨awardedOf s.book.records c .flu, awardedOf s.book.records c .fld, awardedOf s.book.records c .slu,
      awardedOf s.book.records c .sld⟩

/-- The slot carries an awarded amount of some product (R122, R124). -/
def Awards.any (a : Awards) : Bool := 0 < a.flu || 0 < a.fld || 0 < a.slu || 0 < a.sld

/-! ### Shortfall evaluation (R88 to R90) -/

/-- The deficits of the pair of a slot and direction (R88). -/
def deficits (rs : List BookRecord) (h : Headroom) (c k : Nat) (d : Direction) : RiskFields :=
  ⟨committedIn rs k d - h.capacity, (-h.slack (distance c k)).toNat⟩

/-- The risk fields a pair's records carry for its deficits: none when both are 0 (R89). -/
def RiskFields.shown (f : RiskFields) : Option RiskFields := if f.power = 0 ∧ f.energy = 0 then none else some f

/-- A record after the evaluation; a slot outside the horizon is not judged (R88, R89). -/
def judged (rs : List BookRecord) (up down : Headroom) (c : Nat) (r : BookRecord) : BookRecord :=
  if distance c r.slot < Config.horizon then
    let h := match r.product.direction with | .up => up | .down => down
    { r with risk := (deficits rs h c r.slot r.product.direction).shown }
  else r

/-- A pair is at risk when any of its records carries risk fields (R89). -/
def pairAtRisk (rs : List BookRecord) (k : Nat) (d : Direction) : Bool :=
  rs.any fun r => r.slot == k && r.product.direction == d && r.risk.isSome

/-- A shortfall evaluation: the risk fields are written, and SHORTFALL is raised at A and S if a pair is newly at
risk (R88 to R90). While the clock is UNSET it changes nothing (R87). -/
def State.evaluate (s : State) : State :=
  match s.current with
  | none => s
  | some c =>
    let records := s.book.records.map (judged s.book.records (s.headroom c .up) (s.headroom c .down) c)
    let fresh := records.any fun r =>
      r.risk.isSome && !pairAtRisk s.book.records r.slot r.product.direction
    ({ s with book := { s.book with records } }.raiseIf fresh .a .shortfall).raiseIf fresh .s .shortfall

/-- SHORTFALL_EVALUATION: the book takes one requested evaluation (R87). Without a request none is taken (log 8). -/
def execShortfallEvaluation (s : State) : StepOutcome :=
  .next (if s.book.evalRequests = 0 then s
    else { s with book := { s.book with evalRequests := s.book.evalRequests - 1 } }.evaluate)

/-! ### HOLD (R74, R75) -/

/-- Checks 1 to 3 of R79, which AWARD and RELEASE share: the product named, or the refusal. -/
def aheadCheck (s : State) (slot : Nat) (product : Option Product) (watts : Nat) : Except ResultCode (Nat × Product) :=
  match product, s.current with
  | some p, now =>
    if slotInRange slot && wattsInRange watts then
      match now with
      | none => .error .timeUnset
      | some c =>
        if 1 ≤ distance c slot ∧ distance c slot < Config.pastFrom then .ok (c, p) else .error .slotClosed
    else .error .badValue
  | none, _ => .error .badValue

/-- Check 5 of R74: the expiry lies after the present time and not after the slot's start. -/
def expiryFits (now expiry : Time) (slot : Nat) : Bool :=
  1 ≤ expiry.diff now && 0 ≤ (slotStart slot).diff expiry

/-- The grant of a hold (R75). -/
def State.grant (s : State) (c slot : Nat) (p : Product) (watts : Nat) (terms : HoldTerms) : State :=
  let old := (recordOf s.book.records slot p).getD ⟨slot, p, 0, 0, none, none⟩
  { s with book := { s.book with
      records := putRecord c { old with held := watts, terms := some terms } s.book.records
      expired := s.book.expired.filter fun e => !e.isFor slot p } }

/-- HOLD at the book: checks 6 and 7 of R74, and the grant. -/
def State.holdAt (s : State) (c slot : Nat) (p : Product) (watts : Nat) (terms : HoldTerms) : Answer :=
  let old := (recordOf s.book.records slot p).getD ⟨slot, p, 0, 0, none, none⟩
  let offer := s.publishedOffer c slot p
  if old.holding then refuse s .holdPending (.standing old.held old.terms)
  else if offer < watts then refuse s .insufficient (.insufficient offer)
  else ⟨s.grant c slot p watts terms, .ok, .granted old.awarded watts terms.expiry terms.tag offer⟩

/-- HOLD at the book: the checks of R74 in order. -/
def ownHold (slot : Nat) (product : Option Product) (watts : Nat) (expiryDay : BitVec 16) (expiryTenths : Nat)
    (bidTag : Half) (s : State) : Answer :=
  match product with
  | none => refuse s .badValue
  | some p =>
    let expiry : Time := ⟨expiryDay.toNat, expiryTenths⟩
    if !(slotInRange slot && wattsInRange watts && expiryTenths < Config.tenthsPerDay) then refuse s .badValue
    else match s.now with
      | none => refuse s .timeUnset
      | some now =>
        let n := distance now.slot slot
        if Config.horizon ≤ n ∧ n < Config.pastFrom then refuse s .outOfHorizon
        else if n = 0 ∨ Config.pastFrom ≤ n then refuse s .slotClosed
        else if watts = 0 ∨ watts % s.book.params.granularity ≠ 0 then refuse s .badGranule
        else if !expiryFits now expiry slot then refuse s .badExpiry
        else s.holdAt now.slot slot p watts ⟨expiry, bidTag⟩

/-- HOLD (R74, R75). -/
def execHold (p : Port) (slot : Nat) (product : Option Product) (watts : Nat) (expiryDay : BitVec 16)
    (expiryTenths : Nat) (bidTag : Half) (s : State) : StepOutcome :=
  .next (s.serve p (.hold slot product watts expiryDay expiryTenths bidTag)
    (ownHold slot product watts expiryDay expiryTenths bidTag))

/-! ### AWARD and RELEASE (R79, R80, R82) -/

/-- Check 4 of R79: the record with its hold, or HOLD_EXPIRED with the list entry's expiry, or NO_HOLD. -/
def holdStanding (b : Book) (slot : Nat) (p : Product) (bidTag : Half) :
    Except (ResultCode × ResponseBody) BookRecord :=
  match (recordOf b.records slot p).filter BookRecord.holding with
  | some r => .ok r
  | none =>
    match b.expired.find? fun e => e.isFor slot p && e.tag == bidTag with
    | some e => .error (.holdExpired, .expiredAt e.expiry)
    | none => .error (.noHold, .empty)

/-- Check 5 of R79: the tag is the record's bid tag. -/
def BookRecord.tagged (r : BookRecord) (bidTag : Half) : Bool := r.terms.any fun t => t.tag == bidTag

/-- The hold of a slot and product ends with `watts` of it awarded (R80; R82 with 0). -/
def State.settleHold (s : State) (slot : Nat) (p : Product) (watts : Nat) : State :=
  { s with book := { s.book with
      records := endHolds (BookRecord.isFor slot p) (s.book.records.map fun r =>
        if r.isFor slot p then { r with awarded := r.awarded + watts } else r) } }

/-- AWARD at the book: the checks of R79 in order, and R80. -/
def ownAward (slot : Nat) (product : Option Product) (watts : Nat) (bidTag : Half) (s : State) : Answer :=
  match aheadCheck s slot product watts with
  | .error e => refuse s e
  | .ok (_, p) =>
    match holdStanding s.book slot p bidTag with
    | .error (e, b) => refuse s e b
    | .ok r =>
      if !r.tagged bidTag then refuse s .tagMismatch (.standing r.held r.terms)
      else if r.held < watts then refuse s .exceedsHold (.standing r.held r.terms)
      else if watts % s.book.params.granularity ≠ 0 then refuse s .badGranule
      else ⟨s.settleHold slot p watts, .ok, .awarded (r.awarded + watts) (r.awarded + watts == 0)⟩

/-- AWARD (R79, R80). -/
def execAward (p : Port) (slot : Nat) (product : Option Product) (watts : Nat) (bidTag : Half) (s : State) :
    StepOutcome :=
  .next (s.serve p (.award slot product watts bidTag) (ownAward slot product watts bidTag))

/-- RELEASE at the book (R82). R82 names no content of its refusals HOLD_EXPIRED and TAG_MISMATCH; as its checks follow
those of AWARD, they carry what R79 has AWARD's carry (DEDUCED, log 31). -/
def ownRelease (slot : Nat) (product : Option Product) (bidTag : Half) (s : State) : Answer :=
  match aheadCheck s slot product 0 with
  | .error e => refuse s e
  | .ok (_, p) =>
    match holdStanding s.book slot p bidTag with
    | .error (e, b) => refuse s e b
    | .ok r =>
      if !r.tagged bidTag then refuse s .tagMismatch (.standing r.held r.terms)
      else ⟨s.settleHold slot p 0, .ok, .released r.awarded⟩

/-- RELEASE (R82). -/
def execRelease (p : Port) (slot : Nat) (product : Option Product) (bidTag : Half) (s : State) : StepOutcome :=
  .next (s.serve p (.release slot product bidTag) (ownRelease slot product bidTag))

/-! ### READ_BOOK (R83) -/

/-- READ_BOOK at the book (R83). -/
def ownReadBook (first count : Nat) (s : State) : Answer :=
  if !(slotInRange first && countInRange count) then refuse s .badValue
  else match s.current with
    | none => refuse s .timeUnset
    | some c =>
      let n := distance c first
      if n + count - 1 < Config.horizon then
        ⟨s, .ok, .book c (s.book.records.filter fun r => n ≤ distance c r.slot && distance c r.slot < n + count)⟩
      else refuse s .outOfHorizon

/-- READ_BOOK (R83). -/
def execReadBook (p : Port) (first count : Nat) (s : State) : StepOutcome :=
  .next (s.serve p (.readBook first count) (ownReadBook first count))

/-! ### HOLD_EXPIRY (R78) -/

/-- An expiry is due at `now`: the present time has reached it; or it is the instant of a slot boundary, of the hold's own
slot or of an earlier one, that the next tenth of the clock reaches, so that the expiry may be taken before that boundary
and the boundary's evaluation (R78, R81, R85, R91; DEDUCED, log 29). At a SET_TIME that crosses the boundary the boundary
goes first (DESIGN CHOICE, log 32). -/
def expiryDue (now expiry : Time) : Bool :=
  0 ≤ now.diff expiry || (expiry == now.next && expiry.tenths % Config.tenthsPerSlot == 0)

/-- The terms of the hold on a slot and product, if its expiry is due at `now` (R78). -/
def dueHold (rs : List BookRecord) (now : Time) (slot : Nat) (p : Product) : Option HoldTerms :=
  ((recordOf rs slot p).filter BookRecord.holding).bind fun r => r.terms.filter fun t => expiryDue now t.expiry

/-- HOLD_EXPIRY: a due expiry ends the hold, makes an entry and raises HOLD_LAPSED (R78). A hold that is gone or not
due does not expire (R81, log 1). -/
def execHoldExpiry (slot : Nat) (p : Product) (s : State) : StepOutcome :=
  .next (match s.now with
    | none => s
    | some now =>
      match dueHold s.book.records now slot p with
      | none => s
      | some t =>
        { s with book := { s.book with
            records := endHolds (BookRecord.isFor slot p) s.book.records
            expired := putExpired now.slot ⟨slot, p, t.tag, t.expiry⟩ s.book.expired } }.raise .a .holdLapsed)

/-! ### The changes of the current slot (R84 to R86) -/

/-- The book at the boundary from slot `old` into the current slot `c`: the old slot's records go, the holds of the
new slot lapse, and its list entries go (R84, R85). `reset` says that a re-set made it: the list is then emptied whole
(R86). -/
def State.bookBoundary (s : State) (old c : Nat) (reset : Bool) : State :=
  let kept := s.book.records.filter fun r => r.slot != old
  let lapse : BookRecord → Bool := fun r => r.slot == c && r.holding
  let expired := if reset then [] else s.book.expired.filter fun e => e.slot != c
  ({ s with book := { s.book with records := endHolds lapse kept, expired } }.raiseIf (kept.any lapse) .a
    .holdLapsed).evaluate

/-- The book at a step-back to slot `c`: the records and entries at distance 96 go, with HOLD_LAPSED and SHORTFALL for
what they carried (R86). -/
def State.bookStepBack (s : State) (c : Nat) : State :=
  let far : Nat → Bool := fun k => distance c k == Config.horizon
  let gone := s.book.records.filter fun r => far r.slot
  let awarded := gone.any fun r => 0 < r.awarded
  (({ s with book := { s.book with
      records := s.book.records.filter fun r => !far r.slot
      expired := s.book.expired.filter fun e => !far e.slot } }.raiseIf (gone.any BookRecord.holding) .a
    .holdLapsed).raiseIf awarded .a .shortfall).raiseIf awarded .s .shortfall

end Sys2Proof.Machine
end

