-- ==== Sys2Proof/Machine/Response.lean ====
section
/-! DEFINITION. The response generator (07): capacities, the FL target and its loss handling, the SL set-point, test mode, and
their commands. -/

namespace Sys2Proof.Machine

/-! ### The FL target (R112, R113) -/

/-- The deviation of a nominal and a reading, clamped (R112). -/
def deviation (nominal reading : Nat) : Int := limit (-Config.maxDelta) Config.maxDelta ((nominal : Int) - reading)

/-- The deviation from the last reading taken: nominal minus reading when the stored state is LOCKED, else 0 (R112). -/
def LastReading.deviation (l : LastReading) : Int :=
  match l.state, l.nominal, l.reading with
  | some .locked, some n, some r => Machine.deviation n r
  | _, _, _ => 0

/-- The magnitude of the FL target for a capacity `c` (R113). -/
def Generator.flMagnitude (g : Generator) (c : Nat) : Nat :=
  down10 (min c (c * (g.delta.natAbs - g.deadband) / (g.fullDev - g.deadband)))

/-- The FL target formed from the deviation, the parameters and the FL capacities (R113). -/
def Generator.targetOf (g : Generator) : Int :=
  if g.armed = false ∨ g.delta.natAbs ≤ g.deadband then 0
  else if 0 < g.delta then g.flMagnitude g.flUp else -(g.flMagnitude g.flDown : Int)

/-- The FL target recomputed (R113). -/
def Generator.recompute (g : Generator) : Generator := { g with flTarget := g.targetOf }

/-- The net target T (R121). -/
def Generator.netTarget (g : Generator) : Int := g.flTarget + g.slEffective

/-! ### Capacities (R109, R116, R120) -/

/-- A value limited to the SL bounds (R116, R120). -/
def Generator.bounded (g : Generator) (w : Int) : Int := limit (-(g.slDown : Int)) g.slUp w

/-- The SL applied value a requested value gives (R116). -/
def Generator.appliedOf (g : Generator) (w : Int) : Int := zero10 (g.bounded w)

/-- The four capacities of the state the generator is in, LIVE or TEST (R109). -/
def Generator.withCapacities (g : Generator) (m : Member) (a : Awards) : Generator :=
  match g.test with
  | .live => { g with flUp := a.flu, flDown := a.fld, slUp := down10 a.slu, slDown := down10 a.sld }
  | .test =>
    { g with
      flUp := if m = .ojl064 then 0 else g.testUp
      flDown := if m = .ojl064 then 0 else g.testDown
      slUp := g.testUp
      slDown := g.testDown }

/-- The SL values against new bounds: applied formed afresh, effective cut at once (R120). -/
def Generator.reclamp (g : Generator) : Generator :=
  { g with slApplied := g.appliedOf g.slRequested, slEffective := g.bounded g.slEffective }

/-- A load of the capacities, with the re-clamp and the recomputation (R109). -/
def Generator.load (g : Generator) (m : Member) (a : Awards) : Generator :=
  ((g.withCapacities m a).reclamp).recompute

/-! ### The generator in the state -/

/-- The generator moves to `g`, and each of the two figures that changed is handed to the journal (R113, R117, R120). -/
def State.moveGen (s : State) (g : Generator) : State :=
  let s1 := { s with gen := g }
  let s2 := if g.slEffective = s.gen.slEffective then s1 else s1.figureChange .sl g.slEffective
  if g.flTarget = s.gen.flTarget then s2 else s2.figureChange .fl g.flTarget

/-- The generator moves to `g` on entry to or exit from TEST: the figures are stored by the journal and the test event
follows (R122, R124, R166). -/
def State.moveTest (s : State) (g : Generator) (mark : Bool) : State :=
  ((({ s with gen := g }).storeFigure .sl g.slEffective).storeFigure .fl g.flTarget).testEvent mark

/-- A load of the capacities from the current slot's awards (R109). -/
def State.loadCapacities (s : State) : State := s.moveGen (s.gen.load s.member s.currentAwards)

/-- The generator after TEST has ended: no injection, LIVE, the deviation from the last reading, the live capacities
(R124). -/
def Generator.leaveTest (g : Generator) (m : Member) (a : Awards) : Generator :=
  { g with injection := none, test := .live, lossHold := none, delta := g.last.deviation }.load m a

/-- The generator leaves TEST (R124). -/
def State.endTest (s : State) : State := s.moveTest (s.gen.leaveTest s.member s.currentAwards) false

/-- The generator and test mode at a slot boundary or re-set: a test ends in a slot that carries an award, with
TEST_ENDED at port S; otherwise the capacities are loaded (R109, R124). -/
def State.genBoundary (s : State) : State :=
  if s.gen.test = .test ∧ s.currentAwards.any then s.endTest.raise .s .testEnded else s.loadCapacities

/-! ### What the meter hands over (R112, R114, R115) -/

/-- A loss of lock at the generator (R114). -/
def Generator.loseLock (g : Generator) : Generator :=
  match g.test with
  | .test => g
  | .live =>
    if g.armed ∧ g.flTarget ≠ 0 ∧ g.lossMode = .holdLast then { g with lossHold := some ⟨g.delta, g.holdLimit⟩ }
    else { g with delta := 0 }.recompute

/-- A meter state change to a state that is not LOCKED, or a reading event with such a state: the deviation becomes 0 in
LIVE with no loss hold running (R112). -/
def Generator.unlockedEvent (g : Generator) : Generator :=
  if g.test = TestState.live ∧ g.lossHold = none then { g with delta := 0 } else g

/-- A meter state change without a reading (R112). `drop` says that it leaves the meter with no reading. -/
def Generator.stateChange (g : Generator) (state : MeterState) (drop : Bool) : Generator :=
  ({ g with last := ⟨if drop then none else g.last.reading, some state, none⟩ }.unlockedEvent).recompute

/-- A reading event in LIVE with the meter LOCKED: it sets the deviation and ends a loss hold (R112, R115). -/
def Generator.lockedReading (g : Generator) (nominal reading : Nat) : Generator :=
  if g.test = .live then { g with delta := deviation nominal reading, lossHold := none } else g

/-- A reading event (R112): the reading, the meter state and the nominal it carries are stored. -/
def Generator.readingEvent (g : Generator) (reading : Nat) (state : MeterState) (nominal : Option Nat) : Generator :=
  let g1 := { g with last := ⟨some reading, some state, nominal⟩ }
  (match state, nominal with
    | .locked, some n => g1.lockedReading n reading
    | _, _ => g1.unlockedEvent).recompute

/-! ### FL requests (R110, R111) -/

/-- SET_FL_PARAMS at the generator (R110). -/
def ownSetFlParams (deadband fullDev : Nat) (lossMode : Option LossMode) (holdLimit : Nat) (s : State) : Answer :=
  match lossMode with
  | none => refuse s .badValue
  | some m =>
    if !flParamsInRange deadband fullDev holdLimit then refuse s .badValue
    else if s.gen.armed then refuse s .notNow
    else ⟨{ s with gen := { s.gen with deadband, fullDev, lossMode := m, holdLimit } }, .ok,
      .flParams deadband fullDev m holdLimit⟩

/-- SET_FL_PARAMS (R110). -/
def execSetFlParams (p : Port) (deadband fullDev : Nat) (lossMode : Option LossMode) (holdLimit : Nat) (s : State) :
    StepOutcome :=
  .next (s.serve p (.setFlParams deadband fullDev lossMode holdLimit) (ownSetFlParams deadband fullDev lossMode holdLimit))

/-- ARM_FL of a DISARMED generator: in LIVE the deviation is that of the last reading taken (R111, R112). -/
def Generator.arm (g : Generator) : Generator :=
  { g with armed := true, delta := if g.test = TestState.live then g.last.deviation else g.delta }.recompute

/-- DISARM_FL: the FL target is 0 and a loss hold ends; a running injection goes on (R111, R115). -/
def Generator.disarm (g : Generator) : Generator := { g with armed := false, lossHold := none }.recompute

/-- The response to an arming request (R111). -/
def armAnswer (s : State) : Answer := ⟨s, .ok, .arming s.gen.armed s.gen.flTarget⟩

/-- ARM_FL at the generator (R111). -/
def ownArmFl (s : State) : Answer := armAnswer (if s.gen.armed then s else s.moveGen s.gen.arm)

/-- ARM_FL (R111). -/
def execArmFl (p : Port) (s : State) : StepOutcome := .next (s.serve p .armFl ownArmFl)

/-- DISARM_FL at the generator (R111). -/
def ownDisarmFl (s : State) : Answer := armAnswer (if s.gen.armed then s.moveGen s.gen.disarm else s)

/-- DISARM_FL (R111). -/
def execDisarmFl (p : Port) (s : State) : StepOutcome := .next (s.serve p .disarmFl ownDisarmFl)

/-- HOLD_TIMER_EXPIRY: the loss hold ends with deviation 0 (R115). -/
def execHoldTimerExpiry (s : State) : StepOutcome :=
  .next (match s.gen.lossHold with
    | none => s
    | some _ => s.moveGen { s.gen with delta := 0, lossHold := none }.recompute)

/-! ### The SL set-point (R116 to R119) -/

/-- SET_POINT at the generator (R116). -/
def ownSetPoint (watts : Int) (s : State) : Answer :=
  let applied := s.gen.appliedOf watts
  ⟨{ s with gen := { s.gen with slRequested := watts, slApplied := applied, refreshTimer := some s.gen.refreshTimeout } },
    if applied = watts then .ok else .clamped, .setPoint watts applied s.gen.slEffective s.gen.slUp s.gen.slDown⟩

/-- SET_POINT (R116). -/
def execSetPoint (p : Port) (watts : Int) (s : State) : StepOutcome := .next (s.serve p (.setPoint watts) (ownSetPoint watts))

/-- The effective value after a ramp step (R117). -/
def Generator.rampStep (g : Generator) : Int :=
  if (g.slApplied - g.slEffective).natAbs ≤ g.ramp then g.slApplied
  else if g.slEffective < g.slApplied then g.slEffective + g.ramp else g.slEffective - g.ramp

/-- RAMP_TIMER_EXPIRY (R117). -/
def execRampTimerExpiry (s : State) : StepOutcome := .next (s.moveGen { s.gen with slEffective := s.gen.rampStep })

/-- REFRESH_TIMER_EXPIRY (R118). A stopped timer does not expire. -/
def execRefreshTimerExpiry (s : State) : StepOutcome :=
  .next (match s.gen.refreshTimer with
    | none => s
    | some _ =>
      { s with gen := { s.gen with slRequested := 0, slApplied := 0, refreshTimer := none } }.raise .s .signalLost)

/-- SET_SL_PARAMS at the generator (R119). -/
def ownSetSlParams (ramp timeout : Nat) (s : State) : Answer :=
  if slParamsInRange ramp timeout then
    ⟨{ s with gen := { s.gen with ramp, refreshTimeout := timeout } }, .ok, .slParams ramp timeout⟩
  else refuse s .badValue

/-- SET_SL_PARAMS (R119). -/
def execSetSlParams (p : Port) (ramp timeout : Nat) (s : State) : StepOutcome :=
  .next (s.serve p (.setSlParams ramp timeout) (ownSetSlParams ramp timeout))

/-! ### Test mode (R122 to R124) -/

/-- The generator on entry to TEST (R122). -/
def Generator.enterTest (g : Generator) (m : Member) (a : Awards) (up down : Nat) : Generator :=
  { g with testUp := up, testDown := down, test := .test, lossHold := none, delta := 0 }.load m a

/-- ENTER_TEST at the generator (R122). -/
def ownEnterTest (up down : Nat) (s : State) : Answer :=
  if !(testCapacityInRange up && testCapacityInRange down) then refuse s .badValue
  else if s.gen.test = .test then refuse s .notNow
  else if s.currentAwards.any then refuse s .notNow
  else ⟨s.moveTest (s.gen.enterTest s.member s.currentAwards up down) true, .ok, .testCapacities up down⟩

/-- ENTER_TEST (R122). -/
def execEnterTest (p : Port) (up down : Nat) (s : State) : StepOutcome :=
  .next (s.serve p (.enterTest up down) (ownEnterTest up down))

/-- An injection of `delta` for `duration` tenths (R123). -/
def Generator.inject (g : Generator) (delta : Int) (duration : Nat) : Generator :=
  { g with injection := some ⟨delta, duration⟩, delta := delta }.recompute

/-- INJECT at the generator (R123). -/
def ownInject (delta : Int) (duration : Nat) (s : State) : Answer :=
  if !injectInRange delta duration then refuse s .badValue
  else if s.gen.test = .live then refuse s .notNow
  else
    let t := s.moveGen (s.gen.inject delta duration)
    ⟨t, .ok, .injected t.gen.delta t.gen.flTarget⟩

/-- INJECT (R123). -/
def execInject (p : Port) (delta : Int) (duration : Nat) (s : State) : StepOutcome :=
  .next (s.serve p (.inject delta duration) (ownInject delta duration))

/-- INJECTION_END (R123). Without a running injection nothing ends. -/
def execInjectionEnd (s : State) : StepOutcome :=
  .next (match s.gen.injection with
    | none => s
    | some _ => s.moveGen { s.gen with injection := none, delta := 0 }.recompute)

/-- LEAVE_TEST at the generator (R124). -/
def ownLeaveTest (s : State) : Answer :=
  if s.gen.test = .live then refuse s .notNow else ⟨s.endTest, .ok, .testState .live⟩

/-- LEAVE_TEST (R124). -/
def execLeaveTest (p : Port) (s : State) : StepOutcome := .next (s.serve p .leaveTest ownLeaveTest)

end Sys2Proof.Machine
end

