-- ==== Sys2Proof/Machine/Clock.lean ====
section
/-! DEFINITION. The slot clock (01): the tenth, the slot boundary, the step-back, and SET_TIME. -/

namespace Sys2Proof.Machine

/-- A slot boundary event for the current slot, after the clock has moved from slot `old`: the book's part, then the
generator's (R6, R84, R109). `reset` says that a re-set made it (R10). -/
def State.boundary (s : State) (old : Nat) (reset : Bool) : State :=
  match s.current with
  | none => s
  | some c => (s.bookBoundary old c reset).genBoundary

/-- A step-back: the book's part, then a load of the capacities (R11, R86, R109). -/
def State.stepBack (s : State) : State :=
  match s.current with
  | none => s
  | some c => (s.bookStepBack c).loadCapacities

/-- TENTH_ELAPSED: while SET the clock advances, and entering a new slot is a slot boundary (R4, R6). -/
def execTenthElapsed (s : State) : StepOutcome :=
  .next (match s.now with
    | none => s
    | some t =>
      let s1 := { s with now := some t.next }
      if t.next.slot = t.slot then s1 else s1.boundary t.slot false)

/-- The moves of a clock that is SET from `t` to `u`: within the slot, forward or by a re-set across a boundary, or
back into the slot before (R10, R11). `reset` says that the change exceeds 300 tenths. The boundary, with its evaluation, is
part of the event, so it goes before every hold expiry that the new time makes due (DESIGN CHOICE, log 32). -/
def State.moveClock (s : State) (t u : Time) (reset : Bool) : State :=
  let s1 := { s with now := some u }
  if u.slot = t.slot then s1
  else if reset ∨ distance t.slot u.slot < Config.pastFrom then s1.boundary t.slot reset
  else s1.stepBack

/-- SET_TIME at the clock: the table of R9. -/
def ownSetTime (day : BitVec 16) (tenths : Nat) (s : State) : Answer :=
  if Config.tenthsPerDay ≤ tenths then refuse s .badValue (.clock s.now)
  else
    let u : Time := ⟨day.toNat, tenths⟩
    match s.now with
    | none => ⟨{ s with now := some u }.loadCapacities, .ok, .clock (some u)⟩
    | some t =>
      let small := (u.diff t).natAbs ≤ Config.maxCorrection
      if small then ⟨s.moveClock t u false, .ok, .clock (some u)⟩
      else if s.book.records.isEmpty then ⟨s.moveClock t u true, .ok, .clock (some u)⟩
      else refuse s .timeJump (.clock (some t))

/-- SET_TIME (R9). -/
def execSetTime (p : Port) (day : BitVec 16) (tenths : Nat) (s : State) : StepOutcome :=
  .next (s.serve p (.setTime day tenths) (ownSetTime day tenths))

end Sys2Proof.Machine
end

