-- ==== Sys2Proof/Machine/Meter.lean ====
section
/-! DEFINITION. The frequency meter (06), and what it hands to the response generator and the journal. -/

namespace Sys2Proof.Machine

/-! ### Estimates and the reading (R96, R99) -/

/-- The estimate of a period of `n` REFCLK periods, in mHz (R96). -/
def estimateOf (n : Nat) : Nat := roundHalfUp 10000000000 n

/-- The estimate is accepted (R96). -/
def plausible (e : Nat) : Bool := Config.minEstimate ≤ e && e ≤ Config.maxEstimate

/-- The list of accepted estimates with a new one at its end; the oldest of three leaves it (R98). -/
def pushEstimate (es : List Nat) (e : Nat) : List Nat := (if es.length < 3 then es else es.drop 1) ++ [e]

/-- The median of three (R99). -/
def median (a b c : Nat) : Nat := max (min a b) (min (max a b) c)

/-! ### Bands (R101, R102) -/

/-- A candidate's frequency in mHz. -/
def Candidate.mHz : Candidate → Nat
  | .fifty => 50000
  | .sixty => 60000

/-- A reading lies within the band of a frequency: the magnitude of the difference is at most 2,500 mHz. -/
def withinBand (nominal reading : Nat) : Bool :=
  (max nominal reading - min nominal reading) ≤ Config.bandHalf

/-- The candidate of the set within whose band a reading lies; the bands do not overlap (R101). -/
def CandidateSet.bandOf (c : CandidateSet) (reading : Nat) : Option Candidate :=
  if c.fifty && withinBand Candidate.fifty.mHz reading then some .fifty
  else if c.sixty && withinBand Candidate.sixty.mHz reading then some .sixty
  else none

/-! ### State movements (R100 to R102, R105) -/

/-- The search counts a reading: the lock run, and LOCKED at the eighth (R101). -/
def Meter.search (m : Meter) (reading : Nat) : Meter :=
  match m.candidates.bandOf reading with
  | none => { m with lockRun := 0, lockCandidate := none }
  | some x =>
    let run := if m.lockCandidate = some x then m.lockRun + 1 else 1
    if run < Config.runLength then { m with lockRun := run, lockCandidate := some x }
    else { m with state := .locked, nominal := some x.mHz, lockRun := 0, lockCandidate := none, unlockRun := 0 }

/-- A LOCKED meter counts a reading: the unlock run, and SEARCHING at the eighth, whose reading is the first of the
search (R102). -/
def Meter.watch (m : Meter) (reading : Nat) : Meter :=
  if m.nominal.any fun n => withinBand n reading then { m with unlockRun := 0 }
  else if m.unlockRun + 1 < Config.runLength then { m with unlockRun := m.unlockRun + 1 }
  else { m with state := .searching, nominal := none, unlockRun := 0, lockRun := 0, lockCandidate := none }.search reading

/-- The run counts after a reading (R101, R102). -/
def Meter.count (m : Meter) (reading : Nat) : Meter :=
  match m.state with
  | .locked => m.watch reading
  | .searching => m.search reading
  | .noSignal => m

/-- The meter in NO_SIGNAL after its loss timer expired; the period start is kept (R100). -/
def Meter.toNoSignal (m : Meter) : Meter :=
  { m with
    state := .noSignal, lossTimer := false, estimates := [], reading := none, lockRun := 0, lockCandidate := none
    unlockRun := 0, nominal := none }

/-- The meter restarted with a candidate set; the period start is kept (R105). -/
def Meter.restart (m : Meter) (c : CandidateSet) : Meter :=
  { m with
    state := .searching, candidates := c, lossTimer := true, estimates := [], reading := none, lockRun := 0
    lockCandidate := none, unlockRun := 0, nominal := none }

/-- Steps 1 to 3 of an accepted estimate (R98). -/
def Meter.takeEstimate (m : Meter) (e : Nat) : Meter :=
  let m1 := { m with estimates := pushEstimate m.estimates e, lossTimer := true }
  if m.state = .noSignal then { m1 with state := .searching, lockRun := 0, lockCandidate := none } else m1

/-! ### What the meter hands over (R99, R103) -/

/-- A loss of lock: FREQ_LOST at port S, the generator's loss handling, the journal's flag (R103, R114, R165). -/
def State.loseLock (s : State) : State :=
  let s1 := (s.raise .s .freqLost).moveGen s.gen.loseLock
  { s1 with journal := s1.journal.flagFreqLoss }

/-- The meter has moved from `was` to where it stands without a reading: a loss of lock if it left LOCKED, then the
state change (R103, R112). -/
def State.handStateChange (s : State) (was : MeterState) (drop : Bool) : State :=
  let s1 := if was = .locked then s.loseLock else s
  s1.moveGen (s1.gen.stateChange s1.meter.state drop)

/-- The reading event, behind a loss of lock if the reading ended the lock (R99, R102, R114). -/
def State.handReading (s : State) (was : MeterState) (reading : Nat) : State :=
  let s1 := if was = .locked ∧ s.meter.state ≠ .locked then s.loseLock else s
  s1.moveGen (s1.gen.readingEvent reading s1.meter.state s1.meter.nominal)

/-- A reading formed from three estimates: it replaces the reading, the run counts follow, and it is handed on
(R98, step 4). -/
def State.takeReading (s : State) (reading : Nat) : State :=
  { s with meter := { s.meter with reading := some reading }.count reading }.handReading s.meter.state reading

/-- An accepted estimate (R98). -/
def State.acceptEstimate (s : State) (e : Nat) : State :=
  let was := s.meter.state
  let s1 := { s with meter := s.meter.takeEstimate e }
  let s2 := if was = .noSignal then s1.handStateChange was false else s1
  match s2.meter.estimates with
  | [a, b, c] => s2.takeReading (median a b c)
  | _ => s2

/-- A rising edge is taken: from a level low since the reset, or from a high level that fell, the fall taken
100 periods or more after the edge before it and as long before this one (R95). -/
def Meter.takesEdge (m : Meter) (edge : GsenseEdge) : Bool :=
  match edge.fall with
  | none => !m.gsense && m.periodStart.isNone
  | some f => m.gsense && f + Config.gsenseHold ≤ edge.instant && m.periodStart.all fun y => y + Config.gsenseHold ≤ f

/-- GSENSE_RISING_EDGE: the edge ends a period and begins the next; the estimate is accepted or discarded (R96, R97).
The OJL-064 samples no GSENSE (R107). A change that R95 does not take as a rising edge is none (log 1). -/
def execGsenseRisingEdge (edge : GsenseEdge) (s : State) : StepOutcome :=
  .next (if s.member = .ojl064 ∨ s.meter.takesEdge edge = false then s
    else
      let s1 := { s with meter := { s.meter with periodStart := some edge.instant, gsense := true } }
      match s.meter.periodStart with
      | none => s1
      | some start =>
        let e := estimateOf (edge.instant - start)
        if plausible e then s1.acceptEstimate e else s1)

/-- LOSS_TIMER_EXPIRY (R100). A stopped timer does not expire. -/
def execLossTimerExpiry (s : State) : StepOutcome :=
  .next (if s.meter.lossTimer then { s with meter := s.meter.toNoSignal }.handStateChange s.meter.state true else s)

/-- SET_METER at the meter: the checks of R104 in order, and the restart (R105). -/
def ownSetMeter (c : CandidatesArg) (s : State) : Answer :=
  let no (r : ResultCode) := refuse s r (.meterSet s.meter.state s.meter.candidates)
  if c.other then no .badValue
  else if !(c.fifty || c.sixty) then no .prohibited
  else if s.gen.armed then no .notNow
  else
    ⟨{ s with meter := s.meter.restart ⟨c.fifty, c.sixty⟩ }.handStateChange s.meter.state true, .ok,
      .meterSet .searching ⟨c.fifty, c.sixty⟩⟩

/-- SET_METER (R104, R105). -/
def execSetMeter (p : Port) (c : CandidatesArg) (s : State) : StepOutcome := .next (s.serve p (.setMeter c) (ownSetMeter c))

/-- READ_METER at the meter (R106). -/
def ownReadMeter (s : State) : Answer :=
  let m := s.meter
  ⟨s, .ok, .meter m.state m.candidates m.nominal m.reading m.estimates m.lockRun m.lockCandidate m.unlockRun⟩

/-- READ_METER (R106). -/
def execReadMeter (p : Port) (s : State) : StepOutcome := .next (s.serve p .readMeter ownReadMeter)

end Sys2Proof.Machine
end

