-- ==== Sys2Proof/Machine/Roster.lean ====
section
/-! DEFINITION. The site roster (02): enrolment, amendment, removal, reports, freshness, and the requests of its chapter. -/

namespace Sys2Proof.Machine

/-! ### Records in address order (R13) -/

/-- The record at an address. -/
def siteAt (roster : List Site) (a : Address) : Option Site := roster.find? fun r => r.address == a

/-- Puts a record in its place in address order (R2, R13). -/
def addSite (r : Site) (roster : List Site) : List Site := roster.orderedInsert (fun x y => x.address ≤ y.address) r

/-- Changes the record at an address. -/
def changeSite (a : Address) (f : Site → Site) (roster : List Site) : List Site :=
  roster.map fun r => if r.address = a then f r else r

/-- The record at an address that the latest poll was begun for, if it still stands (R155, log 27). -/
def polledAt (roster : List Site) (a : Address) : Option Site := roster.find? fun r => r.address == a && r.polled

/-- Changes the record at an address that the latest poll was begun for; one enrolled there since stays as it is (R155). -/
def changePolled (a : Address) (f : Site → Site) (roster : List Site) : List Site :=
  changeSite a (fun r => if r.polled then f r else r) roster

/-- The roster when a poll of `a` begins: its record is the one polled (R152, log 27). -/
def markPolled (a : Address) (roster : List Site) : List Site := roster.map fun r => { r with polled := r.address == a }

/-- A record that is LEAVING. -/
def Site.isLeaving (r : Site) : Bool := r.lifecycle == .leaving

/-- The roster when the bus enters DISABLED, DRAINING or FAULT: its LEAVING records are deleted (R18, R148). -/
def deleteLeaving (roster : List Site) : List Site := roster.filter fun r => !r.isLeaving

/-- The record a completed block ends: LEAVING, marked in the block, and LEAVING since before the block's pass was taken
(R18, R139, R158, log 15). -/
def Site.endedBy (b : Block) (r : Site) : Bool :=
  r.isLeaving && (b.entries.any fun e => e.leaving && e.address == r.address) &&
    (r.leavingSince.any fun n => n < b.taken)

/-! ### ENROLL (R14, R15) -/

/-- A new record with the contents of an enrolment (the table of R13, R15). -/
def Site.enrolled (a : Address) (rated capacity floor ceiling : Nat) (resolved : SiteClass × Option Nat) : Site :=
  { address := a, rated, capacity, floor, ceiling, lifecycle := .enrolled, freshness := .silent, freshnessTimer := none,
    lastReport := none, soc := none, measured := none, status := none, available := none, household := none, pv := none,
    lastPoll := none, effClass := resolved.1, effCap := resolved.2, lastSetpoint := 0, leavingSince := none,
    polled := false }

/-- ENROLL at the roster: the checks of R14 in order, then R15. -/
def ownEnroll (address rated capacity floor ceiling : Nat) (s : State) : Answer :=
  if !enrollInRange address rated capacity floor ceiling then refuse s .badValue
  else
    let a := BitVec.ofNat 12 address
    match siteAt s.roster a with
    | some r => refuse s .addressTaken (.taken r.lifecycle)
    | none =>
      if s.member.siteCapacity ≤ s.roster.length then refuse s .rosterFull
      else
        let resolved := s.windows.inForce.resolve a
        ⟨{ s with roster := addSite (.enrolled a rated capacity floor ceiling resolved) s.roster }.requestEval, .ok,
          .enrolled a resolved.1 resolved.2⟩

/-- ENROLL (R14, R15). -/
def execEnroll (p : Port) (address rated capacity floor ceiling : Nat) (s : State) : StepOutcome :=
  .next (s.serve p (.enroll address rated capacity floor ceiling) (ownEnroll address rated capacity floor ceiling))

/-! ### AMEND (R16) -/

/-- AMEND at the roster (R16). -/
def ownAmend (address floor ceiling : Nat) (s : State) : Answer :=
  if !(addressInRange address && limitsInRange floor ceiling) then refuse s .badValue
  else
    let a := BitVec.ofNat 12 address
    match siteAt s.roster a with
    | none => refuse s .noSuchSite
    | some r =>
      if r.isLeaving then refuse s .notNow
      else
        ⟨{ s with roster := changeSite a (fun r => { r with floor, ceiling }) s.roster }.requestEval, .ok,
          .limits floor ceiling⟩

/-- AMEND (R16). -/
def execAmend (p : Port) (address floor ceiling : Nat) (s : State) : StepOutcome :=
  .next (s.serve p (.amend address floor ceiling) (ownAmend address floor ceiling))

/-! ### REMOVE (R17) -/

/-- The bus carries a LEAVING site's zero: it is RUNNING or in BACKOFF (R17). -/
def BusState.carriesBlocks : BusState → Bool
  | .running | .backoff => true
  | _ => false

/-- A record marked LEAVING when `n` passes have been taken (R17, R18). -/
def Site.leave (n : Nat) (r : Site) : Site := { r with lifecycle := .leaving, leavingSince := some n }

/-- REMOVE at the roster (R17): the record becomes LEAVING, or goes at once where the bus carries no block. -/
def ownRemove (address : Nat) (s : State) : Answer :=
  if !addressInRange address then refuse s .badValue
  else
    let a := BitVec.ofNat 12 address
    match siteAt s.roster a with
    | none => refuse s .noSuchSite
    | some r =>
      if r.isLeaving then refuse s .notNow
      else if s.bus.state.carriesBlocks then
        ⟨{ s with roster := changeSite a (Site.leave s.disp.passes) s.roster }.requestEval, .ok,
          .removed (some .leaving)⟩
      else ⟨{ s with roster := s.roster.filter fun r => r.address != a }.requestEval, .ok, .removed none⟩

/-- REMOVE (R17). -/
def execRemove (p : Port) (address : Nat) (s : State) : StepOutcome := .next (s.serve p (.remove address) (ownRemove address))

/-! ### READ_SITE and SET_ITEMS (R19, R20) -/

/-- READ_SITE at the roster (R19). DESIGN CHOICE (log 30): the answer holds the whole record, so also its freshness timer, its
LEAVING count and its poll mark, beside the fields of R13's table. -/
def ownReadSite (address : Nat) (s : State) : Answer :=
  if !addressInRange address then refuse s .badValue
  else match siteAt s.roster (BitVec.ofNat 12 address) with
    | none => refuse s .noSuchSite
    | some r => ⟨s, .ok, .site r r.figures⟩

/-- READ_SITE (R19). -/
def execReadSite (p : Port) (address : Nat) (s : State) : StepOutcome :=
  .next (s.serve p (.readSite address) (ownReadSite address))

/-- SET_ITEMS (R20); the set is kept by the fleet bus controller (R145). -/
def ownSetItems (i : ItemsArg) (s : State) : Answer :=
  if i.other then refuse s .badValue
  else
    let set : ItemSet := ⟨i.household, i.pv⟩
    ⟨{ s with bus := { s.bus with items := set } }, .ok, .items set⟩

/-- SET_ITEMS (R20). -/
def execSetItems (p : Port) (i : ItemsArg) (s : State) : StepOutcome := .next (s.serve p (.setItems i) (ownSetItems i))

/-! ### Reports and poll outcomes (R21, R22) -/

/-- A record updated by a good report taken at `now` (the table of R21). -/
def Site.takeReport (now : Option Time) (q : Report) (r : Site) : Site :=
  { r with
    soc := some (min q.soc 1000)
    measured := some (limit (-(r.rated : Int)) r.rated q.measured)
    status := some q.status
    available := q.available.map fun x => min x r.rated
    household := q.household
    pv := q.pv
    freshness := .fresh
    freshnessTimer := some 0
    lastReport := now
    lastPoll := some .good }

/-- A good report for an address: the polled record is updated, and an evaluation is requested when the report takes it
from READY to OFFLINE (R21). If that record was deleted since the poll began, the report is discarded, also where the
address has been enrolled again (R18, R155, log 27). -/
def State.goodReport (s : State) (a : Address) (q : Report) : State :=
  match polledAt s.roster a with
  | none => s
  | some r =>
    let s1 := { s with roster := changePolled a (Site.takeReport s.now q) s.roster }
    if r.status = some .ready ∧ q.status = .offline then s1.requestEval else s1

/-- Any other outcome is recorded and changes no other field (R22); if the polled record was deleted since the poll began, it
is discarded, also where the address has been enrolled again (R155, log 27). -/
def State.failedPoll (s : State) (a : Address) (o : PollOutcome) : State :=
  { s with roster := changePolled a (fun r => { r with lastPoll := some o }) s.roster }

/-! ### Freshness (R23, R24) -/

/-- FRESHNESS_EXPIRY: the running freshness timer of a site reaches 20 tenths, then 60; at 60 an ENROLLED site raises
SITE_SILENT and requests an evaluation (R23, R24). -/
def execFreshnessExpiry (a : Address) (s : State) : StepOutcome :=
  .next (match siteAt s.roster a with
    | none => s
    | some r =>
      match r.freshnessTimer, r.freshness with
      | some _, .fresh =>
        { s with roster := changeSite a (fun r => { r with freshness := .stale, freshnessTimer := some 20 }) s.roster }
      | some _, .stale =>
        let s1 := { s with
          roster := changeSite a (fun r => { r with freshness := .silent, freshnessTimer := none }) s.roster }
        if r.isLeaving then s1 else (s1.raise .a .siteSilent).requestEval
      | _, _ => s)

end Sys2Proof.Machine
end

