-- ==== Sys2Proof/Machine/Windows.lean ====
section
/-! DEFINITION. The network window table's requests (03). -/

namespace Sys2Proof.Machine

/-! ### Edits (R38 to R42) -/

/-- An edit request: refused WINDOWS_IN_FORCE with the table state while IN_FORCE; otherwise its own checks, and on
success the new working contents and the item as it now stands (R38). -/
def editWith (s : State) (own : Contents → Except ResultCode (Contents × EditedItem)) : Answer :=
  if s.windows.state = .inForce then refuse s .windowsInForce (.tableState s.windows.state)
  else match own s.windows.working with
    | .error r => refuse s r
    | .ok (c, item) => ⟨{ s with windows := { s.windows with working := c } }, .ok, .edited s.windows.state item⟩

/-- A variable window of the contents replaced. -/
def Contents.setVariable (c : Contents) (i : Nat) (w : VariableWindow) : Contents :=
  { c with varWindows := c.varWindows.set i w }

/-- DEFINE_WINDOW's own checks and effect (R39). -/
def editVariable (m : Member) (index base mask : Nat) (cls : Option SiteClass) (cap : Option Nat) (c : Contents) :
    Except ResultCode (Contents × EditedItem) :=
  match cls with
  | none => .error .badValue
  | some k =>
    let b := BitVec.ofNat 12 base
    let a := BitVec.ofNat 12 mask
    if !(index < m.windowCount && addressInRange base && addressInRange mask && capInRange cap) then .error .badValue
    else if !maskForm a then .error .badMask
    else if !baseFits b a then .error .badBase
    else .ok (c.setVariable index ⟨true, b, a, k, cap⟩, .variable ⟨true, b, a, k, cap⟩)

/-- DEFINE_WINDOW at the table (R39). -/
def ownDefineWindow (index base mask : Nat) (cls : Option SiteClass) (cap : Option Nat) (s : State) : Answer :=
  editWith s (editVariable s.member index base mask cls cap)

/-- DEFINE_WINDOW (R39). -/
def execDefineWindow (p : Port) (index base mask : Nat) (cls : Option SiteClass) (cap : Option Nat) (s : State) :
    StepOutcome :=
  .next (s.serve p (.defineWindow index base mask cls cap) (ownDefineWindow index base mask cls cap))

/-- CLEAR_WINDOW at the table (R40). -/
def ownClearWindow (index : Nat) (s : State) : Answer :=
  editWith s fun c =>
    if index < s.member.windowCount then .ok (c.setVariable index .reset, .variable .reset) else .error .badValue

/-- CLEAR_WINDOW (R40). -/
def execClearWindow (p : Port) (index : Nat) (s : State) : StepOutcome :=
  .next (s.serve p (.clearWindow index) (ownClearWindow index))

/-- SET_BRANCH's own check and effect (R41). -/
def editBranch (branch : Nat) (cls : Option (Option SiteClass)) (cap exportLimit importLimit : Option Nat)
    (c : Contents) : Except ResultCode (Contents × EditedItem) :=
  if branch < Config.branchCount && cls != some none && capInRange cap && branchLimitInRange exportLimit &&
      branchLimitInRange importLimit then
    let w : BranchWindow := ⟨cls.join, cap, exportLimit, importLimit⟩
    .ok ({ c with branches := c.branches.set branch w }, .branch w)
  else .error .badValue

/-- SET_BRANCH at the table (R41). -/
def ownSetBranch (branch : Nat) (cls : Option (Option SiteClass)) (cap exportLimit importLimit : Option Nat)
    (s : State) : Answer :=
  editWith s (editBranch branch cls cap exportLimit importLimit)

/-- SET_BRANCH (R41). -/
def execSetBranch (p : Port) (branch : Nat) (cls : Option (Option SiteClass)) (cap exportLimit importLimit : Option Nat)
    (s : State) : StepOutcome :=
  .next (s.serve p (.setBranch branch cls cap exportLimit importLimit) (ownSetBranch branch cls cap exportLimit importLimit))

/-- SET_DEFAULT_CLASS at the table (R42). -/
def ownSetDefaultClass (cls : Option SiteClass) (s : State) : Answer :=
  editWith s fun c =>
    match cls with
    | none => .error .badValue
    | some k => .ok ({ c with defaultClass := k }, .defaultClass k)

/-- SET_DEFAULT_CLASS (R42). -/
def execSetDefaultClass (p : Port) (cls : Option SiteClass) (s : State) : StepOutcome :=
  .next (s.serve p (.setDefaultClass cls) (ownSetDefaultClass cls))

/-! ### SUSPEND and RESUME (R43 to R45) -/

/-- SUSPEND at the table (R43). -/
def ownSuspend (s : State) : Answer :=
  if s.windows.state = .inForce then
    ⟨{ s with windows := { s.windows with state := .editing } }, .ok, .tableState .editing⟩
  else refuse s .notNow (.tableState s.windows.state)

/-- SUSPEND (R43). -/
def execSuspend (p : Port) (s : State) : StepOutcome := .next (s.serve p .suspend ownSuspend)

/-- A record with the resolution of its address written into it (R29, R44). -/
def Site.rewritten (c : Contents) (r : Site) : Site :=
  { r with effClass := (c.resolve r.address).1, effCap := (c.resolve r.address).2 }

/-- The class or the cap of a record differs from the resolution of its address (R44). -/
def Site.changedBy (c : Contents) (r : Site) : Bool := c.resolve r.address != (r.effClass, r.effCap)

/-- The effect of an accepted RESUME (R44, R45). -/
def State.putInForce (s : State) : State :=
  let c := s.windows.working
  ({ s with
    windows := ⟨.inForce, c, c⟩
    roster := s.roster.map (Site.rewritten c)
    journal := s.journal.flagWindows }.raise .a .windowsChanged).requestEval

/-- RESUME at the table (R44). -/
def ownResume (s : State) : Answer :=
  if s.windows.state = .inForce then refuse s .notNow
  else ⟨s.putInForce, .ok, .resumed .inForce s.roster.length (s.roster.countP (Site.changedBy s.windows.working))⟩

/-- RESUME (R44, R45). -/
def execResume (p : Port) (s : State) : StepOutcome := .next (s.serve p .resume ownResume)

/-! ### QUERY_CLASS and READ_WINDOWS (R48, R49) -/

/-- The lowest address from `first`, among the `n` that follow it, whose resolution differs from `r` (R48). -/
def firstDiffering (c : Contents) (r : SiteClass × Option Nat) (first n : Nat) : Option Address :=
  ((List.range n).map fun i => BitVec.ofNat 12 (first + i)).find? fun a => c.resolve a != r

/-- QUERY_CLASS at the table (R48). -/
def ownQueryClass (first last : Nat) (s : State) : Answer :=
  if !(addressInRange first && addressInRange last && first ≤ last) then refuse s .badValue
  else
    let r := s.windows.working.resolve (BitVec.ofNat 12 first)
    ⟨s, .ok, .classes s.windows.state (match firstDiffering s.windows.working r first (last + 1 - first) with
      | none => .uniform r.1 r.2
      | some a => .mixed r.1 r.2 a)⟩

/-- QUERY_CLASS (R48). -/
def execQueryClass (p : Port) (first last : Nat) (s : State) : StepOutcome :=
  .next (s.serve p (.queryClass first last) (ownQueryClass first last))

/-- READ_WINDOWS at the table (R49). -/
def ownReadWindows (view : Option View) (s : State) : Answer :=
  let w := s.windows
  let reply (c : Contents) : Answer := ⟨s, .ok, .windows c w.state (w.working != w.inForce) s.freeze⟩
  match view with
  | none => refuse s .badValue
  | some .working => reply w.working
  | some .inForce => reply w.inForce

/-- READ_WINDOWS (R49). -/
def execReadWindows (p : Port) (view : Option View) (s : State) : StepOutcome :=
  .next (s.serve p (.readWindows view) (ownReadWindows view))

end Sys2Proof.Machine
end

