-- ==== Sys2Proof/Machine/Bus.lean ====
section
/-! DEFINITION. The fleet bus controller (09): states, polling, dispatch blocks, the FREEZE abort, and collisions. -/

namespace Sys2Proof.Machine

/-! ### Changes of bus state (R148, R149, R161) -/

/-- The bus enters DISABLED: no frame, an empty queue, count 0, no backoff, the held configuration applied; the roster
deletes its LEAVING records (R148, R149, R150). -/
def State.enterDisabled (s : State) : State :=
  { s with
    bus := { s.bus with
      state := .disabled, frame := .idle, queue := [], collisions := 0, backoff := none
      config := s.bus.heldConfig.getD s.bus.config, heldConfig := none }
    roster := deleteLeaving s.roster }

/-- The bus enters DRAINING: an empty queue, the frame in progress running to its end (R149). -/
def State.enterDraining (s : State) : State :=
  { s with bus := { s.bus with state := .draining, queue := [] }, roster := deleteLeaving s.roster }

/-- The bus enters FAULT: BUS_FAULT at every port and an evaluation requested (R161). -/
def State.enterFault (s : State) : State :=
  (((({ s with
    bus := { s.bus with state := .fault, frame := .idle, queue := [], collisions := 4, backoff := none }
    roster := deleteLeaving s.roster }.raise .a .busFault).raise .s .busFault).raise .n .busFault)).requestEval

/-- The frame in progress ends: in DRAINING the bus enters DISABLED (R149). -/
def State.endFrame (s : State) : State :=
  if s.bus.state = .draining then s.enterDisabled else { s with bus := { s.bus with frame := .idle } }

/-- The phase of the poll in progress changes. -/
def State.setPhase (s : State) (a : Address) (i : ItemSet) (ph : PollPhase) : State :=
  { s with bus := { s.bus with frame := .poll a i ph } }

/-- A poll ends with an outcome that carries no figures (R22, R155). -/
def State.endPoll (s : State) (a : Address) (o : PollOutcome) : State := (s.failedPoll a o).endFrame

/-- A frame may begin: RUNNING with no frame in progress (R147, R157). -/
def Bus.free (b : Bus) : Bool := b.state == .running && b.frame == .idle

/-! ### Requests (R148 to R151) -/

/-- The response every bus request carries (9.3). -/
def busAnswer (s : State) (r : ResultCode) : Answer :=
  ⟨s, r, .bus s.bus.state s.bus.config s.bus.heldConfig s.bus.collisions⟩

/-- BUS_ENABLE at the bus (R148). -/
def ownBusEnable (s : State) : Answer :=
  if s.bus.state = .disabled then
    busAnswer { s with bus := { s.bus with state := .running, pointer := 0, collisions := 0 } } .ok
  else busAnswer s .notNow

/-- BUS_ENABLE (R148). -/
def execBusEnable (p : Port) (s : State) : StepOutcome := .next (s.serve p .busEnable ownBusEnable)

/-- BUS_DISABLE at the bus (R149). -/
def ownBusDisable (s : State) : Answer :=
  match s.bus.state with
  | .running => busAnswer (if s.bus.frame = .idle then s.enterDisabled else s.enterDraining) .ok
  | .backoff | .fault => busAnswer s.enterDisabled .ok
  | .disabled | .draining => busAnswer s .ok

/-- BUS_DISABLE (R149). -/
def execBusDisable (p : Port) (s : State) : StepOutcome := .next (s.serve p .busDisable ownBusDisable)

/-- BUS_CONFIG at the bus (R150). -/
def ownBusConfig (rate window : Nat) (s : State) : Answer :=
  match busConfigOf rate window with
  | none => busAnswer s .badValue
  | some c =>
    match s.bus.state with
    | .disabled => busAnswer { s with bus := { s.bus with config := c } } .ok
    | .draining => busAnswer { s with bus := { s.bus with heldConfig := some c } } .held
    | _ => busAnswer s .notNow

/-- BUS_CONFIG (R150). -/
def execBusConfig (p : Port) (rate window : Nat) (s : State) : StepOutcome :=
  .next (s.serve p (.busConfig rate window) (ownBusConfig rate window))

/-- BUS_RESTORE at the bus (R151). -/
def ownBusRestore (s : State) : Answer :=
  if s.bus.state = .fault then busAnswer { s with bus := { s.bus with state := .running, collisions := 0 } } .ok
  else busAnswer s .notNow

/-- BUS_RESTORE (R151). -/
def execBusRestore (p : Port) (s : State) : StepOutcome := .next (s.serve p .busRestore ownBusRestore)

/-! ### Blocks (R156 to R158) -/

/-- The blocks of a pass at the bus: they replace the queue in RUNNING and BACKOFF and are discarded elsewhere; a pass
that hands none leaves the queue as it was (R156). -/
def Bus.handOver (b : Bus) (blocks : List Block) : Bus :=
  if b.state.carriesBlocks ∧ blocks ≠ [] then { b with queue := blocks } else b

/-- DISPATCH_BLOCK: the arbiter begins the first queued block; under FREEZE a block whose pass read it low is discarded
instead (R157, R159). The line is quiet when this happens (log 12). -/
def execDispatchBlock (s : State) : StepOutcome :=
  .next (match s.bus.queue with
    | [] => s
    | b :: rest =>
      if s.bus.free then
        { s with bus := { s.bus with queue := rest, frame := if s.freeze && !b.freeze then .idle else .block b } }
      else s)

/-- BLOCK_COMPLETE: a block ended cleanly; the LEAVING records it ends are deleted and the collision count is 0 (R18,
R158, R161). -/
def execBlockComplete (s : State) : StepOutcome :=
  .next (match s.bus.frame with
    | .block b =>
      { s with
        roster := s.roster.filter fun r => !r.endedBy b
        bus := { s.bus with collisions := 0 } }.endFrame
    | _ => s)

/-! ### Polls (R152 to R155) -/

/-- The lowest enrolled address at or above `p` (R152); the roster is in address order (R13). -/
def nextPolled (roster : List Site) (p : Address) : Option Address :=
  (roster.find? fun r => p ≤ r.address).map Site.address

/-- The round ends: the pointer becomes 000h and an evaluation is requested (R152). -/
def State.endRound (s : State) : State := { s with bus := { s.bus with pointer := 0 } }.requestEval

/-- A poll of an address begins, for the record that stands there (log 27); the pointer moves past it, and a poll of FFFh
ends the round (R152, R153). -/
def State.beginPoll (s : State) (a : Address) : State :=
  let s1 := { s with
    roster := markPolled a s.roster
    bus := { s.bus with frame := .poll a s.bus.items .transmitting, pointer := a + 1 } }
  if a = 0xFFF then s1.endRound else s1

/-- POLL: with no block queued the arbiter begins the next poll of the round, or ends the round and looks again from
000h (R152, R157). -/
def execPoll (s : State) : StepOutcome :=
  .next (if s.bus.free && s.bus.queue.isEmpty then
    match nextPolled s.roster s.bus.pointer with
    | some a => s.beginPoll a
    | none =>
      if s.bus.pointer = 0 then s
      else match nextPolled s.roster 0 with
        | some a => s.endRound.beginPoll a
        | none => s.endRound
    else s)

/-- POLL_SENT: the guard ended cleanly; the count is 0 and the reply window opens (R153, R161). -/
def execPollSent (s : State) : StepOutcome :=
  .next (match s.bus.frame with
    | .poll a i .transmitting => { s with bus := { s.bus with collisions := 0 } }.setPhase a i .awaiting
    | _ => s)

/-- REPLY_START: a reply begins inside the window (R153). -/
def execReplyStart (s : State) : StepOutcome :=
  .next (match s.bus.frame with
    | .poll a i .awaiting => s.setPhase a i .receiving
    | _ => s)

/-- REPLY_WINDOW_EXPIRY: no reply began, NO_REPLY (R153). -/
def execReplyWindowExpiry (s : State) : StepOutcome :=
  .next (match s.bus.frame with
    | .poll a _ .awaiting => s.endPoll a .noReply
    | _ => s)

/-- RATE_CHECK_FAILED: the timing character's span lies outside the accepted range, outcome RATE (R154). A span inside
it is no such event. -/
def execRateCheckFailed (span : Nat) (s : State) : StepOutcome :=
  .next (match s.bus.frame with
    | .poll a i .receiving => if s.bus.config.rate.accepts span then s else s.setPhase a i (.failed .rate)
    | _ => s)

/-- REPLY_PARITY_ERROR: a character with a parity or framing error stops reception, outcome PARITY (R146, R155). -/
def execReplyParityError (s : State) : StepOutcome :=
  .next (match s.bus.frame with
    | .poll a i .receiving => s.setPhase a i (.failed .parity)
    | _ => s)

/-- POLL_END_ON_QUIET: a poll given up with RATE or PARITY ends when the line is next quiet (R154, R155). -/
def execPollEndOnQuiet (s : State) : StepOutcome :=
  .next (match s.bus.frame with
    | .poll a _ (.failed o) => s.endPoll a o
    | _ => s)

/-- REPLY_GAP: a gap inside the reply, CHECK (R155). -/
def execReplyGap (s : State) : StepOutcome :=
  .next (match s.bus.frame with
    | .poll a _ .receiving => s.endPoll a .check
    | _ => s)

/-- The outcome of a complete reply to a poll of `a` (rows 3 to 5 of R155). -/
def replyOutcome (a : Address) (bytes : List Byte) : PollOutcome :=
  if bytes.getD 0 0 ≠ timingCharacter ∨ checkMatches bytes = false then .check
  else if (reportOf bytes).address ≠ a.zeroExtend 16 then .noReply
  else .good

/-- The end of a poll of `a` at the last character of its reply (R155, R21, R22). -/
def State.takeReply (s : State) (a : Address) (bytes : List Byte) : State :=
  match replyOutcome a bytes with
  | .good => (s.goodReport a (reportOf bytes)).endFrame
  | o => s.endPoll a o

/-- REPORT: a complete reply is checked and the poll ends (R155). Characters of which one is in error are none, since
reception stopped there (R146, log 1), and bytes that are not as long as their markers call for are no complete reply
(log 21). -/
def execReport (characters : List (BitVec 11)) (s : State) : StepOutcome :=
  .next (match s.bus.frame, (replyBytes characters).filter completeReport with
    | .poll a _ .receiving, some bytes => s.takeReply a bytes
    | _, _ => s)

/-! ### FREEZE at the bus (R159) -/

/-- A FREEZE assertion at the bus: a block in transmission is aborted, in DRAINING into DISABLED; queued blocks whose
pass read FREEZE low are discarded; a poll goes on (R159). -/
def State.freezeBus (s : State) : State :=
  let s1 := { s with bus := { s.bus with queue := s.bus.queue.filter fun b => b.freeze } }
  match s.bus.frame with
  | .block _ => s1.endFrame
  | _ => s1

/-! ### Collisions (R160, R161) -/

/-- The collision ladder in RUNNING: BACKOFF for count × 10,000 REFCLK periods, FAULT at the fourth (R161). -/
def State.ladder (s : State) : State :=
  let n := s.bus.collisions + 1
  if n < 4 then
    { s with bus := { s.bus with state := .backoff, frame := .idle, collisions := n, backoff := some (n * 10000) } }
  else s.enterFault

/-- The bus after a collision has aborted its frame: the ladder, or DISABLED out of DRAINING (R160). -/
def State.collided (s : State) : State := if s.bus.state = .draining then s.enterDisabled else s.ladder

/-- COLLISION: a mismatch in a character of the frame in transmission (R160). -/
def execCollision (s : State) : StepOutcome :=
  .next (match s.bus.frame with
    | .poll a _ .transmitting => (s.failedPoll a .collision).collided
    | .block _ => { s with bus := { s.bus with queue := [] } }.collided
    | _ => s)

/-- BACKOFF_EXPIRY (R161). -/
def execBackoffExpiry (s : State) : StepOutcome :=
  .next (if s.bus.state = .backoff then { s with bus := { s.bus with state := .running, backoff := none } } else s)

end Sys2Proof.Machine
end

