-- ==== Sys2Proof/Machine/Passes.lean ====
section
/-! DEFINITION. The dispatcher (08): capacity, saturation rounds, rounding within a group, what a pass hands on, and the two
reading requests. -/

namespace Sys2Proof.Machine

/-! ### Weights of a pass (R130) -/

/-- A site with its dispatch weight in the pass's direction. -/
structure Share where
  address : Address
  weight : Nat
  deriving DecidableEq, Repr

/-- The branch of a share's address. -/
def Share.branch (e : Share) : Nat := branchOf e.address

/-- The sites with a weight greater than 0 in a direction, in roster order (R130, R134). -/
def sharesOf (roster : List Site) (d : Direction) : List Share :=
  (roster.map fun r => Share.mk r.address (r.dw d)).filter fun e => 0 < e.weight

/-- The sum of the weights of a list of shares. -/
def weightSum (es : List Share) : Nat := (es.map Share.weight).sum

/-- The shares of a branch. -/
def sharesIn (es : List Share) (b : Nat) : List Share := es.filter fun e => e.branch == b

/-- Wb: the sum of a branch's weights (R130). -/
def branchWeight (es : List Share) (b : Nat) : Nat := weightSum (sharesIn es b)

/-- K: the dispatch capacity (R130). -/
def dispatchCapacity (es : List Share) (lim : Nat → Option Nat) : Nat :=
  ((List.range Config.branchCount).map fun b => underLimit (lim b) (branchWeight es b)).sum

/-! ### Rounding within a group (R134) -/

/-- A share's base: the exact share rounded down to 10 W. -/
def Share.base (gt wg : Nat) (e : Share) : Nat := 10 * (gt * e.weight / (wg * 10))

/-- A share's fractional part. -/
def Share.fraction (gt wg : Nat) (e : Share) : Nat := gt * e.weight % (wg * 10)

/-- The order in which steps are handed out: larger fractional part first, then the lower address. -/
abbrev stepsBefore (gt wg : Nat) (x y : Share) : Prop :=
  y.fraction gt wg < x.fraction gt wg ∨ (x.fraction gt wg = y.fraction gt wg ∧ x.address ≤ y.address)

/-- Hands out `n` steps of 10 W in order: a step that would carry a limited branch's total above its limit is passed
over (R134). `bases` gives each branch's sum of bases; the result lists the shares that received a step. -/
def handOut (lim : Nat → Option Nat) (bases : Nat → Nat) : List Share → Nat → List Share → List Share
  | [], _, given => given
  | _ :: _, 0, given => given
  | e :: es, n + 1, given =>
    if (lim e.branch).any fun l => l < bases e.branch + 10 * ((sharesIn given e.branch).length + 1) then
      handOut lim bases es (n + 1) given
    else handOut lim bases es n (e :: given)

/-- The shares of a group with target `gt` that receive a step of 10 W (R134). -/
def stepsOf (lim : Nat → Option Nat) (g : List Share) (gt : Nat) : List Share :=
  let wg := weightSum g
  let leftover := gt - (g.map (Share.base gt wg)).sum
  handOut lim (fun b => ((sharesIn g b).map (Share.base gt wg)).sum) (g.insertionSort (stepsBefore gt wg))
    (leftover / 10) []

/-- What a pass gives a site: its address and the magnitude of its setpoint. -/
structure Given where
  address : Address
  watts : Nat
  deriving DecidableEq, Repr

/-- A group divided among its sites (R134). `lim` gives the limits the steps may not carry a branch above: those of the
branches for the remaining group, none for a group that is one branch. -/
def divideGroup (lim : Nat → Option Nat) (g : List Share) (gt : Nat) : List Given :=
  let steps := stepsOf lim g gt
  g.map fun e => ⟨e.address, e.base gt (weightSum g) + if steps.contains e then 10 else 0⟩

/-! ### Saturation rounds (R132) -/

/-- The state of the saturation rounds: the active branches, the remainder, and the branches held at their limits. -/
structure Rounds where
  active : List Nat
  remainder : Nat
  saturated : List Nat
  deriving DecidableEq, Repr

/-- An active branch saturates in a round: Lb × WA < Rm × Wb (R132, step 2). -/
def saturates (es : List Share) (lim : Nat → Option Nat) (wa rm b : Nat) : Bool :=
  (lim b).any fun l => l * wa < rm * branchWeight es b

/-- The saturation rounds (R132). `fuel` bounds their number. -/
def saturationRounds (es : List Share) (lim : Nat → Option Nat) : Nat → Rounds → Rounds
  | 0, r => r
  | fuel + 1, r =>
    let wa := (r.active.map (branchWeight es)).sum
    let out := r.active.filter (saturates es lim wa r.remainder)
    if out.isEmpty then r
    else saturationRounds es lim fuel
      ⟨r.active.filter fun b => !saturates es lim wa r.remainder b,
        r.remainder - (out.map fun b => (lim b).getD 0).sum, r.saturated ++ out⟩

/-- The branches that carry weight. -/
def weightedBranches (es : List Share) : List Nat :=
  (List.range Config.branchCount).filter fun b => 0 < branchWeight es b

/-! ### The allocation (R131 to R135) -/

/-- What a pass allocates: the dispatch capacity, the magnitudes given, and the saturated branches. -/
structure Allocation where
  capacity : Nat
  given : List Given
  saturated : List Nat
  deriving DecidableEq, Repr

/-- The allocation that gives every site 0. -/
def Allocation.zero : Allocation := ⟨0, [], []⟩

/-- A branch's part of an allocation at or above capacity: a group at its limit, or full weights (R131). -/
def fullBranch (es : List Share) (lim : Nat → Option Nat) (b : Nat) : List Given :=
  match lim b with
  | some l =>
    if l < branchWeight es b then divideGroup (fun _ => none) (sharesIn es b) l
    else (sharesIn es b).map fun e => ⟨e.address, e.weight⟩
  | none => (sharesIn es b).map fun e => ⟨e.address, e.weight⟩

/-- The branch's limit cuts it at or above capacity (R131). -/
def cutBranch (es : List Share) (lim : Nat → Option Nat) (b : Nat) : Bool := (lim b).any fun l => l < branchWeight es b

/-- The allocation at or above capacity (R131). -/
def allocateFull (es : List Share) (lim : Nat → Option Nat) : Allocation :=
  { capacity := dispatchCapacity es lim
    given := ((weightedBranches es).map (fullBranch es lim)).flatten
    saturated := (weightedBranches es).filter (cutBranch es lim) }

/-- The allocation below capacity: the saturated branches at their limits, the rest one group (R132). -/
def allocateShared (es : List Share) (lim : Nat → Option Nat) (target : Nat) : Allocation :=
  let r := saturationRounds es lim (Config.branchCount + 1) ⟨weightedBranches es, target, []⟩
  { capacity := dispatchCapacity es lim
    given := (r.saturated.map fun b => divideGroup (fun _ => none) (sharesIn es b) ((lim b).getD 0)).flatten ++
      divideGroup lim (es.filter fun e => r.active.contains e.branch) r.remainder
    saturated := r.saturated }

/-- The allocation of a target's magnitude (R130 to R134). -/
def allocate (es : List Share) (lim : Nat → Option Nat) (target : Nat) : Allocation :=
  if dispatchCapacity es lim ≤ target then allocateFull es lim else allocateShared es lim target

/-- The magnitude an allocation gives an address, 0 outside every group (R135). -/
def Allocation.wattsAt (al : Allocation) (a : Address) : Nat :=
  ((al.given.find? fun g => g.address == a).map Given.watts).getD 0

/-! ### A pass (R127, R129, R136 to R140) -/

/-- T′: the net target rounded toward zero to 10 W (R129). -/
def State.passTarget (s : State) : Int := zero10 s.gen.netTarget

/-- The allocation of a pass: zero under FREEZE or without a direction (R129, R136). -/
def State.passAllocation (s : State) : Allocation :=
  match directionOf s.passTarget with
  | none => .zero
  | some d =>
    if s.freeze then .zero
    else allocate (sharesOf s.roster d) (s.windows.inForce.limit d) s.passTarget.natAbs

/-- The setpoint a pass gives an address: its magnitude with the sign of T′ (R135). -/
def State.passSetpoint (s : State) (a : Address) : Int :=
  s.passTarget.sign * (s.passAllocation.wattsAt a : Int)

/-- The roster with the setpoints of a pass written into its records (R137). -/
def State.setpointsWritten (s : State) : List Site :=
  let al := s.passAllocation
  s.roster.map fun r => { r with lastSetpoint := s.passTarget.sign * (al.wattsAt r.address : Int) }

/-- What a pass records of a branch: the sums of its positive and of its negative setpoints, and its flag (R137). -/
def branchLoadOf (roster : List Site) (saturated : List Nat) (b : Nat) : BranchLoad :=
  let sps := (sitesOf roster b).map Site.lastSetpoint
  ⟨(sps.filter fun x => 0 < x).sum, (sps.filter fun x => x < 0).sum, saturated.contains b⟩

/-- The dispatcher's items after a pass that wrote `roster` (R126, R137). -/
def State.passRecord (s : State) (cause : PassCause) (roster : List Site) : Dispatcher :=
  let al := s.passAllocation
  let dispatched := (roster.map Site.lastSetpoint).sum
  { passNumber := nextSerial s.disp.passNumber
    cause := some cause
    direction := directionOf s.passTarget
    target := s.passTarget
    capacity := al.capacity
    dispatched
    shortfall := s.passTarget.natAbs - dispatched.natAbs
    delivered := measuredSum s.roster
    branches := (List.range Config.branchCount).map (branchLoadOf roster al.saturated)
    passes := s.disp.passes + 1 }

/-- A branch's flag is newly set by a pass (R138). -/
def newlySaturated (was now : List BranchLoad) : Bool :=
  (was.zip now).any fun x => !x.1.saturated && x.2.saturated

/-- The dispatch blocks of a pass over the roster it wrote (R139). -/
def blocksOf (n : Serial) (taken : Nat) (freeze : Bool) (roster : List Site) : List Block :=
  (partsOf Config.blockEntries roster.length
    (roster.map fun r => BlockEntry.mk r.address r.lastSetpoint r.isLeaving)).map fun es => ⟨n, taken, freeze, es⟩

/-- The pass result handed to the journal (R140). -/
def Dispatcher.result (d : Dispatcher) (cause : PassCause) (freeze : Bool) : PassResult :=
  ⟨d.passNumber, cause, freeze, d.target, d.dispatched, d.shortfall, d.delivered⟩

/-- One pass, in one event (R127): the setpoints, the recorded items, BRANCH_AT_LIMIT, the blocks and the result. -/
def State.pass (s : State) (cause : PassCause) : State :=
  let roster := s.setpointsWritten
  let d := s.passRecord cause roster
  { s with
    roster
    disp := d
    bus := s.bus.handOver (blocksOf d.passNumber d.passes s.freeze roster)
    journal := s.journal.accumulate (d.result cause s.freeze) }.raiseIf
      (newlySaturated s.disp.branches d.branches) .n .branchAtLimit

/-- PASS_TIMER_EXPIRY: a pass of cause TIMER (R8, R127). -/
def execPassTimerExpiry (s : State) : StepOutcome := .next (s.pass .timer)

/-! ### READ_BRANCH_LOAD and READ_RESPONSE (R143, R144) -/

/-- One branch of READ_BRANCH_LOAD's response (R143). -/
def State.branchReport (s : State) (b : Nat) : BranchReport :=
  { load := s.disp.branches.getD b .reset
    exportLimit := s.windows.inForce.limit .up b
    importLimit := s.windows.inForce.limit .down b
    measured := measuredSum (sitesOf s.roster b) }

/-- READ_BRANCH_LOAD at the dispatcher (R143). -/
def ownReadBranchLoad (s : State) : Answer :=
  ⟨s, .ok, .branchLoad s.disp.passNumber s.disp.cause s.disp.direction s.freeze
    ((List.range Config.branchCount).map s.branchReport)⟩

/-- READ_BRANCH_LOAD (R143). -/
def execReadBranchLoad (p : Port) (s : State) : StepOutcome := .next (s.serve p .readBranchLoad ownReadBranchLoad)

/-- READ_RESPONSE at the dispatcher (R144). -/
def ownReadResponse (s : State) : Answer :=
  let g := s.gen
  let d := s.disp
  ⟨s, .ok, .response
    { flTarget := g.flTarget, slRequested := g.slRequested, slApplied := g.slApplied, slEffective := g.slEffective
      netTarget := g.netTarget, armed := g.armed, test := g.test, meterState := s.meter.state, reading := s.meter.reading
      nominal := s.meter.nominal, passNumber := d.passNumber, cause := d.cause, target := d.target
      direction := d.direction, capacity := d.capacity, dispatched := d.dispatched, shortfall := d.shortfall
      delivered := d.delivered, freeze := s.freeze }⟩

/-- READ_RESPONSE (R144). -/
def execReadResponse (p : Port) (s : State) : StepOutcome := .next (s.serve p .readResponse ownReadResponse)

end Sys2Proof.Machine
end

