-- ==== Sys2Proof/Machine/Freeze.lean ====
section
/-! DEFINITION. The FREEZE input (R50, R51, R141, R142) and the device reset (R3). -/

namespace Sys2Proof.Machine

/-- The FREEZE cause at ports S and N (R51). -/
def State.raiseFreeze (s : State) : State := (s.raise .s .freeze).raise .n .freeze

/-- A taken assertion: the level, the cause, the journal's flags, the bus, and the FREEZE pass (R50, R51, R141, R159,
R165). The bus acts before the pass; by R141 both orders end alike (log 13). -/
def State.assertFreeze (s : State) : State :=
  ({ s with freeze := true, journal := s.journal.flagFreeze }.raiseFreeze.freezeBus).pass .freeze

/-- FREEZE_ASSERTION: a change from low to high (R50). Assertions and deassertions alternate, so a level already high
makes none. -/
def execFreezeAssertion (s : State) : StepOutcome := .next (if s.freeze then s else s.assertFreeze)

/-- FREEZE_DEASSERTION: a change from high to low raises the cause and starts no pass (R50, R51, R142). -/
def execFreezeDeassertion (s : State) : StepOutcome :=
  .next (if s.freeze then { s with freeze := false }.raiseFreeze else s)

/-- DEVICE_RESET: every block takes its after-reset value; a FREEZE level that is high at the end of reset is an
assertion at that instant (R3, R50). The waiting commands and the model's draw of free values are not the part's and
stay (log 16). -/
def execDeviceReset (freeze : Bool) (levels : ResetLevels) (s : State) : StepOutcome :=
  let r := { State.afterReset s.member false levels.lrate levels.gsense with pending := s.pending, freeIndex := s.freeIndex }
  .next (if freeze then r.assertFreeze else r)

end Sys2Proof.Machine
end

