-- ==== Sys2Proof/Machine/Dispatch.lean ====
section
/-! DEFINITION. One arm per command: the meaning of each row of spec/opcode_table.json. -/

namespace Sys2Proof.Machine

/-- The meaning of every command, on everything but the queue. -/
def exec (i : Instr) (s : State) : Host.Outcome State Fault Refusal :=
  match i with
  | .deviceReset freeze levels => Sys2Proof.Machine.execDeviceReset freeze levels s
  | .tenthElapsed => Sys2Proof.Machine.execTenthElapsed s
  | .setTime p day tenths => Sys2Proof.Machine.execSetTime p day tenths s
  | .passTimerExpiry => Sys2Proof.Machine.execPassTimerExpiry s
  | .rampTimerExpiry => Sys2Proof.Machine.execRampTimerExpiry s
  | .enroll p address rated capacity floor ceiling => Sys2Proof.Machine.execEnroll p address rated capacity floor ceiling s
  | .amend p address floor ceiling => Sys2Proof.Machine.execAmend p address floor ceiling s
  | .remove p address => Sys2Proof.Machine.execRemove p address s
  | .readSite p address => Sys2Proof.Machine.execReadSite p address s
  | .setItems p items => Sys2Proof.Machine.execSetItems p items s
  | .freshnessExpiry address => Sys2Proof.Machine.execFreshnessExpiry address s
  | .defineWindow p index base mask cls cap => Sys2Proof.Machine.execDefineWindow p index base mask cls cap s
  | .clearWindow p index => Sys2Proof.Machine.execClearWindow p index s
  | .setBranch p branch cls cap exportLimit importLimit => Sys2Proof.Machine.execSetBranch p branch cls cap exportLimit importLimit s
  | .setDefaultClass p cls => Sys2Proof.Machine.execSetDefaultClass p cls s
  | .suspend p => Sys2Proof.Machine.execSuspend p s
  | .resume p => Sys2Proof.Machine.execResume p s
  | .queryClass p first last => Sys2Proof.Machine.execQueryClass p first last s
  | .readWindows p view => Sys2Proof.Machine.execReadWindows p view s
  | .freezeAssertion => Sys2Proof.Machine.execFreezeAssertion s
  | .freezeDeassertion => Sys2Proof.Machine.execFreezeDeassertion s
  | .setOfferParams p margin duty granularity recovery => Sys2Proof.Machine.execSetOfferParams p margin duty granularity recovery s
  | .offerQuery p first count => Sys2Proof.Machine.execOfferQuery p first count s
  | .hold p slot product watts expiryDay expiryTenths bidTag => Sys2Proof.Machine.execHold p slot product watts expiryDay expiryTenths bidTag s
  | .award p slot product watts bidTag => Sys2Proof.Machine.execAward p slot product watts bidTag s
  | .release p slot product bidTag => Sys2Proof.Machine.execRelease p slot product bidTag s
  | .readBook p first count => Sys2Proof.Machine.execReadBook p first count s
  | .holdExpiry slot product => Sys2Proof.Machine.execHoldExpiry slot product s
  | .shortfallEvaluation => Sys2Proof.Machine.execShortfallEvaluation s
  | .gsenseRisingEdge edge => Sys2Proof.Machine.execGsenseRisingEdge edge s
  | .lossTimerExpiry => Sys2Proof.Machine.execLossTimerExpiry s
  | .setMeter p candidates => Sys2Proof.Machine.execSetMeter p candidates s
  | .readMeter p => Sys2Proof.Machine.execReadMeter p s
  | .setFlParams p deadband fullDev lossMode holdLimit => Sys2Proof.Machine.execSetFlParams p deadband fullDev lossMode holdLimit s
  | .armFl p => Sys2Proof.Machine.execArmFl p s
  | .disarmFl p => Sys2Proof.Machine.execDisarmFl p s
  | .holdTimerExpiry => Sys2Proof.Machine.execHoldTimerExpiry s
  | .setPoint p watts => Sys2Proof.Machine.execSetPoint p watts s
  | .refreshTimerExpiry => Sys2Proof.Machine.execRefreshTimerExpiry s
  | .setSlParams p ramp timeout => Sys2Proof.Machine.execSetSlParams p ramp timeout s
  | .enterTest p up down => Sys2Proof.Machine.execEnterTest p up down s
  | .inject p delta duration => Sys2Proof.Machine.execInject p delta duration s
  | .injectionEnd => Sys2Proof.Machine.execInjectionEnd s
  | .leaveTest p => Sys2Proof.Machine.execLeaveTest p s
  | .readBranchLoad p => Sys2Proof.Machine.execReadBranchLoad p s
  | .readResponse p => Sys2Proof.Machine.execReadResponse p s
  | .closingTimerExpiry kind => Sys2Proof.Machine.execClosingTimerExpiry kind s
  | .readJournal p start => Sys2Proof.Machine.execReadJournal p start s
  | .releaseJournal p upTo => Sys2Proof.Machine.execReleaseJournal p upTo s
  | .busEnable p => Sys2Proof.Machine.execBusEnable p s
  | .busDisable p => Sys2Proof.Machine.execBusDisable p s
  | .busConfig p rate window => Sys2Proof.Machine.execBusConfig p rate window s
  | .busRestore p => Sys2Proof.Machine.execBusRestore p s
  | .dispatchBlock => Sys2Proof.Machine.execDispatchBlock s
  | .poll => Sys2Proof.Machine.execPoll s
  | .pollSent => Sys2Proof.Machine.execPollSent s
  | .replyWindowExpiry => Sys2Proof.Machine.execReplyWindowExpiry s
  | .rateCheckFailed span => Sys2Proof.Machine.execRateCheckFailed span s
  | .replyParityError => Sys2Proof.Machine.execReplyParityError s
  | .pollEndOnQuiet => Sys2Proof.Machine.execPollEndOnQuiet s
  | .replyGap => Sys2Proof.Machine.execReplyGap s
  | .report characters => Sys2Proof.Machine.execReport characters s
  | .blockComplete => Sys2Proof.Machine.execBlockComplete s
  | .collision => Sys2Proof.Machine.execCollision s
  | .backoffExpiry => Sys2Proof.Machine.execBackoffExpiry s
  | .telegramComplete p front request check => Sys2Proof.Machine.execTelegramComplete p front request check s
  | .overrunResponse p => Sys2Proof.Machine.execOverrunResponse p s
  | .responseTransmitted p => Sys2Proof.Machine.execResponseTransmitted p s
  | .unnamedRequestCode p => Sys2Proof.Machine.execUnnamedRequestCode p s
  | .framingError character => Sys2Proof.Machine.execFramingError character s
  | .lengthOutOfRange p length => Sys2Proof.Machine.execLengthOutOfRange p length s
  | .gap p => Sys2Proof.Machine.execGap p s
  | .linkBreak p => Sys2Proof.Machine.execLinkBreak p s
  | .breakEnd p => Sys2Proof.Machine.execBreakEnd p s
  | .setLinkMode p mode => Sys2Proof.Machine.execSetLinkMode p mode s
  | .status p => Sys2Proof.Machine.execStatus p s
  | .identify p => Sys2Proof.Machine.execIdentify p s
  | .telegramLead character => Sys2Proof.Machine.execTelegramLead character s
  | .replyStart => Sys2Proof.Machine.execReplyStart s

end Sys2Proof.Machine
end

