-- ==== Sys2Proof/Machine/Requests.lean ====
section
/-! DEFINITION. What the owning block answers to each request, in one place: the effect behind the link controller's checks
(R178). The meanings call the owning blocks directly; Laws/Serve.lean proves that they are these. -/

namespace Sys2Proof.Machine

/-- The owning block's answer to a request that port `p` took. -/
def ownOf (p : Port) : Request → State → Answer
  | .setTime day tenths => ownSetTime day tenths
  | .enroll address rated capacity floor ceiling => ownEnroll address rated capacity floor ceiling
  | .amend address floor ceiling => ownAmend address floor ceiling
  | .remove address => ownRemove address
  | .readSite address => ownReadSite address
  | .setItems items => ownSetItems items
  | .defineWindow index base mask cls cap => ownDefineWindow index base mask cls cap
  | .clearWindow index => ownClearWindow index
  | .setBranch branch cls cap exportLimit importLimit => ownSetBranch branch cls cap exportLimit importLimit
  | .setDefaultClass cls => ownSetDefaultClass cls
  | .suspend => ownSuspend
  | .resume => ownResume
  | .queryClass first last => ownQueryClass first last
  | .readWindows view => ownReadWindows view
  | .setOfferParams margin duty granularity recovery => ownSetOfferParams margin duty granularity recovery
  | .offerQuery first count => ownOfferQuery first count
  | .hold slot product watts expiryDay expiryTenths bidTag => ownHold slot product watts expiryDay expiryTenths bidTag
  | .award slot product watts bidTag => ownAward slot product watts bidTag
  | .release slot product bidTag => ownRelease slot product bidTag
  | .readBook first count => ownReadBook first count
  | .setMeter candidates => ownSetMeter candidates
  | .readMeter => ownReadMeter
  | .setFlParams deadband fullDev lossMode holdLimit => ownSetFlParams deadband fullDev lossMode holdLimit
  | .armFl => ownArmFl
  | .disarmFl => ownDisarmFl
  | .setPoint watts => ownSetPoint watts
  | .setSlParams ramp timeout => ownSetSlParams ramp timeout
  | .enterTest up down => ownEnterTest up down
  | .inject delta duration => ownInject delta duration
  | .leaveTest => ownLeaveTest
  | .readBranchLoad => ownReadBranchLoad
  | .readResponse => ownReadResponse
  | .readJournal start => ownReadJournal start
  | .releaseJournal upTo => ownReleaseJournal upTo
  | .busEnable => ownBusEnable
  | .busDisable => ownBusDisable
  | .busConfig rate window => ownBusConfig rate window
  | .busRestore => ownBusRestore
  | .unnamed => fun s => refuse s .notPermitted
  | .setLinkMode mode => ownSetLinkMode p mode
  | .status => ownStatus p
  | .identify => ownIdentify

end Sys2Proof.Machine
end

