-- ==== Sys2Proof/Safety.lean ====
section
/-! DEFINITION. What holds of the controller in every state it reaches: the laws of the manual about whole collections and
whole blocks, one predicate each, in the terms the statements use. All are decidable. -/

namespace Sys2Proof.Safety

open Sys2Proof.Machine

/-! ### Roster and window table -/

/-- A day and tenths within their ranges (the table after R2). -/
abbrev TimeLaw (t : Time) : Prop := t.day < Config.dayWrap ∧ t.tenths < Config.tenthsPerDay

/-- The records stand in strictly ascending address order, at most the member's site capacity of them (R13). -/
abbrev RosterLaw (s : State) : Prop :=
  s.roster.Pairwise (fun x y => x.address < y.address) ∧ s.roster.length ≤ s.member.siteCapacity

/-- A site record within every range of the table of R13. -/
abbrev SiteRanges (r : Site) : Prop :=
  500 ≤ r.rated ∧ r.rated ≤ 25000 ∧ r.rated % 10 = 0 ∧ 1000 ≤ r.capacity ∧ r.capacity ≤ 60000 ∧
    limitsInRange r.floor r.ceiling ∧ (∀ x ∈ r.lastReport, TimeLaw x) ∧ (∀ x ∈ r.soc, x ≤ 1000) ∧
    (∀ x ∈ r.measured, x.natAbs ≤ r.rated) ∧ (∀ x ∈ r.available, x ≤ r.rated) ∧ (∀ x ∈ r.household, x ≤ 65535) ∧
    (∀ x ∈ r.pv, x ≤ 65535) ∧ capInRange r.effCap ∧ r.lastSetpoint.natAbs ≤ 25000 ∧ r.lastSetpoint % 10 = 0

/-- A site record within its table, with its reported items together and its freshness timer in the state its freshness
says (R13, R23): stopped in SILENT, below 20 tenths in FRESH, from 20 on in STALE. -/
abbrev SiteLaw (r : Site) : Prop :=
  SiteRanges r ∧ (r.soc.isSome ↔ r.status.isSome) ∧ (r.measured.isSome ↔ r.status.isSome) ∧
    (r.freshness = .fresh → r.freshnessTimer = some 0 ∧ r.status.isSome) ∧
    (r.freshness = .stale → r.freshnessTimer = some 20 ∧ r.status.isSome) ∧
    (r.freshness = .silent → r.freshnessTimer = none) ∧ (r.isLeaving ↔ r.leavingSince.isSome)

/-- Every record of the roster within its law. -/
abbrev SitesLaw (s : State) : Prop := ∀ r ∈ s.roster, SiteLaw r

/-- Every effective class and cap is the resolution of its address against the in-force contents (R36). -/
abbrev ResolutionLaw (s : State) : Prop :=
  ∀ r ∈ s.roster, (r.effClass, r.effCap) = s.windows.inForce.resolve r.address

/-- A branch window within its ranges (R31). -/
abbrev BranchWindowLaw (w : BranchWindow) : Prop :=
  capInRange w.cap ∧ branchLimitInRange w.exportLimit ∧ branchLimitInRange w.importLimit

/-- A variable window within its ranges, its base and mask of the legal form (R32, R33). -/
abbrev VariableWindowLaw (w : VariableWindow) : Prop := capInRange w.cap ∧ maskForm w.mask ∧ baseFits w.base w.mask

/-- One set of contents: sixteen branch windows and the member's variable windows, each within its ranges. -/
abbrev ContentsLaw (m : Member) (c : Contents) : Prop :=
  c.branches.length = Config.branchCount ∧ c.varWindows.length = m.windowCount ∧
    (∀ w ∈ c.branches, BranchWindowLaw w) ∧ ∀ w ∈ c.varWindows, VariableWindowLaw w

/-- Both sets of contents are legal; in IN_FORCE they are equal; in UNSET the in-force set is the reset set (R36, R37). -/
abbrev WindowLaw (s : State) : Prop :=
  ContentsLaw s.member s.windows.working ∧ ContentsLaw s.member s.windows.inForce ∧
    (s.windows.state = .inForce → s.windows.working = s.windows.inForce) ∧
    (s.windows.state = .unset → s.windows.inForce = Contents.reset s.member)

/-! ### Clock and book -/

/-- The clock's time, where it has one, is within its ranges. -/
abbrev ClockLaw (s : State) : Prop := ∀ t ∈ s.now, TimeLaw t

/-- A record of a book whose current slot is `c`: within the horizon, held amounts ahead of `c`, expiry and tag exactly
with a held amount, something awarded or held, risk fields not both 0 (R71, R72). -/
abbrev RecordLaw (c : Nat) (r : BookRecord) : Prop :=
  r.slot < Config.slotWrap ∧ distance c r.slot < Config.horizon ∧ (0 < r.held → distance c r.slot ≠ 0) ∧
    (r.terms.isSome ↔ 0 < r.held) ∧ 0 < r.awarded + r.held ∧ ∀ f ∈ r.risk, 0 < f.power + f.energy

/-- An entry of the expired-hold list lies from c+1 to c+95 (R77). -/
abbrev EntryLaw (c : Nat) (e : ExpiredHold) : Prop :=
  e.slot < Config.slotWrap ∧ distance c e.slot ≠ 0 ∧ distance c e.slot < Config.horizon

/-- The book when `c` is current: every record within its law, in strict order of distance and product, so no two of
one slot and product; the list likewise (R71, R72, R77). -/
abbrev BookLawAt (c : Nat) (b : Book) : Prop :=
  (∀ r ∈ b.records, RecordLaw c r) ∧
    b.records.Pairwise (fun x y => bookKey c x.slot x.product < bookKey c y.slot y.product) ∧
    (∀ e ∈ b.expired, EntryLaw c e) ∧
    b.expired.Pairwise (fun x y => bookKey c x.slot x.product < bookKey c y.slot y.product)

/-- The book: empty while the clock is UNSET, otherwise the law of the current slot. -/
abbrev BookLaw (s : State) : Prop :=
  (s.now = none → s.book.records = [] ∧ s.book.expired = []) ∧ ∀ c ∈ s.current, BookLawAt c s.book

/-- The offer parameters lie within their ranges, so the FL duty is never 0 (R63, R69). -/
abbrev ParamsLaw (s : State) : Prop :=
  s.book.params.margin ≤ 50 ∧ 10 ≤ s.book.params.duty ∧ s.book.params.duty ≤ 100 ∧ 100 ≤ s.book.params.granularity ∧
    s.book.params.granularity ≤ 100000 ∧ s.book.params.recovery ≤ 100000

/-! ### Meter and generator -/

/-- The meter's items agree with each other (R94): the nominal is present exactly in LOCKED, the loss timer runs exactly
outside NO_SIGNAL, the runs belong to their states, the estimates are plausible, and there is a reading exactly when
there are three estimates. -/
abbrev MeterLaw (s : State) : Prop :=
  (s.meter.nominal.isSome ↔ s.meter.state = .locked) ∧ (s.meter.lossTimer ↔ s.meter.state ≠ .noSignal) ∧
    s.meter.lockRun < Config.runLength ∧ s.meter.unlockRun < Config.runLength ∧
    (s.meter.lockRun ≠ 0 ↔ s.meter.lockCandidate.isSome) ∧ (s.meter.lockRun ≠ 0 → s.meter.state = .searching) ∧
    (s.meter.unlockRun ≠ 0 → s.meter.state = .locked) ∧ s.meter.estimates.length ≤ 3 ∧
    (∀ e ∈ s.meter.estimates, plausible e) ∧ (s.meter.reading.isSome ↔ s.meter.estimates.length = 3) ∧
    (s.meter.state = .noSignal → s.meter.estimates = []) ∧ (s.meter.candidates.fifty ∨ s.meter.candidates.sixty)

/-- The parameters and the deviation lie within their ranges (R108). -/
abbrev GeneratorRanges (s : State) : Prop :=
  flParamsInRange s.gen.deadband s.gen.fullDev s.gen.holdLimit ∧ slParamsInRange s.gen.ramp s.gen.refreshTimeout ∧
    s.gen.delta.natAbs ≤ 2000 ∧ testCapacityInRange s.gen.testUp ∧ testCapacityInRange s.gen.testDown

/-- A loss hold runs only in LIVE with arming ARMED, an injection only in TEST (R114, R115, R123, R124). -/
abbrev HoldLaw (s : State) : Prop :=
  (s.gen.lossHold.isSome → s.gen.armed ∧ s.gen.test = .live) ∧ (s.gen.injection.isSome → s.gen.test = .test)

/-- The capacities are those of the current slot's awards in LIVE and of the test capacities in TEST (R109). -/
abbrev CapacityLaw (s : State) : Prop := s.gen = s.gen.withCapacities s.member s.currentAwards

/-- The FL target is the one its deviation, parameters and capacities form, at every moment (R113). -/
abbrev FlTargetLaw (s : State) : Prop := s.gen.flTarget = s.gen.targetOf

/-- The SL values lie within the SL bounds and are multiples of 10 W (R116, R117). -/
abbrev SlLaw (s : State) : Prop :=
  -(s.gen.slDown : Int) ≤ s.gen.slApplied ∧ s.gen.slApplied ≤ s.gen.slUp ∧ s.gen.slApplied % 10 = 0 ∧
    -(s.gen.slDown : Int) ≤ s.gen.slEffective ∧ s.gen.slEffective ≤ s.gen.slUp ∧ s.gen.slEffective % 10 = 0 ∧
    s.gen.slUp % 10 = 0 ∧ s.gen.slDown % 10 = 0 ∧ s.gen.ramp % 10 = 0 ∧ s.gen.testUp % 10 = 0 ∧ s.gen.testDown % 10 = 0

/-! ### Fleet bus -/

/-- The reply window of a bus configuration lies within its range (R145). -/
abbrev ReplyWindowLaw (c : BusConfig) : Prop := 20 ≤ c.window ∧ c.window ≤ 200

/-- The bus items lie in their ranges and agree with the bus state (R145, R148, R149, R161, R162): blocks are queued only in RUNNING and BACKOFF, a
frame is in progress only in RUNNING and DRAINING, the backoff timer runs exactly in BACKOFF, a configuration is held
only in DRAINING, the collision count is 0 in DISABLED, 1 to 3 in BACKOFF, 4 in FAULT and below 4 elsewhere, the backoff
interval is that count × 10,000 REFCLK periods, and both configurations have a reply window within 20..200. -/
abbrev BusLaw (s : State) : Prop :=
  ReplyWindowLaw s.bus.config ∧ (∀ c ∈ s.bus.heldConfig, ReplyWindowLaw c) ∧
    (∀ n ∈ s.bus.backoff, n = s.bus.collisions * 10000) ∧
    (s.bus.queue ≠ [] → s.bus.state.carriesBlocks) ∧
    (s.bus.frame ≠ .idle → s.bus.state = .running ∨ s.bus.state = .draining) ∧
    (s.bus.backoff.isSome ↔ s.bus.state = .backoff) ∧ (s.bus.heldConfig.isSome → s.bus.state = .draining) ∧
    (s.bus.state = .disabled → s.bus.collisions = 0) ∧ (s.bus.state = .fault ↔ s.bus.collisions = 4) ∧
    s.bus.collisions ≤ 4 ∧ (s.bus.state = .backoff → 0 < s.bus.collisions)

/-- The transmit queue holds blocks of one pass (R156, R162). -/
abbrev OnePassQueue (s : State) : Prop := ∀ b ∈ s.bus.queue, ∀ b' ∈ s.bus.queue, b.pass = b'.pass

/-- A site is LEAVING only while the bus carries blocks (R17, R18). -/
abbrev LeavingLaw (s : State) : Prop := ∀ r ∈ s.roster, r.isLeaving → s.bus.state.carriesBlocks

/-- A block of a pass that read FREEZE asserted carries zero for every site (R136, R159). -/
abbrev ZeroBlock (b : Block) : Prop := b.freeze → ∀ e ∈ b.entries, e.setpoint = 0

/-- The block in transmission, if a block is. -/
def blockInFrame : Frame → Option Block
  | .block b => some b
  | _ => none

/-- Under FREEZE every block queued or in transmission is one of a pass that read FREEZE asserted, and every such block
carries zeros (R159). -/
abbrev FreezeLaw (s : State) : Prop :=
  (∀ b ∈ s.bus.queue, ZeroBlock b ∧ (s.freeze → b.freeze)) ∧
    ∀ b ∈ blockInFrame s.bus.frame, ZeroBlock b ∧ (s.freeze → b.freeze)

/-! ### Journal -/

/-- At most 32 records, at most one OPEN record of each kind (R163). -/
abbrev JournalLaw (s : State) : Prop :=
  s.journal.records.length ≤ Config.journalCapacity ∧
    (s.journal.records.countP (Episode.openOf .fl)) ≤ 1 ∧ (s.journal.records.countP (Episode.openOf .sl)) ≤ 1

/-- The journal's stored figures are the generator's (R163, R164). -/
abbrev FigureLaw (s : State) : Prop := s.journal.fl = s.gen.flTarget ∧ s.journal.sl = s.gen.slEffective

/-- Every OPEN record follows its kind's figure: the closing timer runs exactly while the figure is 0, and a figure that
is not 0 has the record's sign; and a figure that is not 0 has an OPEN record (R164, R166). -/
abbrev EpisodeLaw (s : State) : Prop :=
  (∀ e ∈ s.journal.records, e.opened →
      (e.closingTimer ↔ s.journal.figure e.kind = 0) ∧
      (s.journal.figure e.kind ≠ 0 → directionOf (s.journal.figure e.kind) = some e.direction)) ∧
    (s.journal.fl ≠ 0 → s.journal.records.any (Episode.openOf .fl)) ∧
    (s.journal.sl ≠ 0 → s.journal.records.any (Episode.openOf .sl))

/-! ### Links -/

/-- The bytes of the partial telegram, if the assembler holds one. -/
def partialOf : Assembler → Option (List Byte)
  | .partialTelegram bs => some bs
  | _ => none

/-- A link controller: at most two telegrams, overrun counts 1..255, a partial telegram that is not complete, and nothing
received or sent while a break holds the line (R171, R173, R176, R177). -/
abbrev LinkLaw (l : Link) : Prop :=
  l.queue.length ≤ Config.queuePlaces ∧ (∀ o ∈ l.overrunPlace, 1 ≤ o.count ∧ o.count ≤ 255) ∧
    (∀ m ∈ l.overrunMark, 1 ≤ m.count ∧ m.count ≤ 255) ∧
    (∀ bs ∈ partialOf l.assembler, unfinished bs) ∧
    (l.assembler = .held → l.queue = [] ∧ l.response = none ∧ l.overrunPlace = none ∧ l.overrunMark = none)

/-- Each link controller within its law. -/
abbrev LinksLaw (s : State) : Prop := LinkLaw s.linkA ∧ LinkLaw s.linkS ∧ LinkLaw s.linkN

/-- Each port's attention set holds only causes of its row of the table, each once and in one order (R179). -/
abbrev AttentionLaw (s : State) : Prop :=
  ∀ p : Port, p ∈ [Port.a, .s, .n] →
    (s.link p).attention = Cause.all.filter (fun c => (s.link p).attention.contains c) ∧
      ∀ c ∈ (s.link p).attention, c ∈ Cause.allowedAt p

/-! ### Terms of the statements -/

/-- The levels of a master link over one character: start low, eight data bits with the least significant first, stop high
(R172). -/
def linkLevels (b : Byte) : List Bool := [false] ++ (List.range 8).map (fun i => b.getLsbD i) ++ [true]

/-- The levels of the fleet bus over one character: start low, eight data bits with the least significant first, the bit
that makes the ones odd, stop high (R146). -/
def busLevels (b : Byte) : List Bool :=
  [false] ++ (List.range 8).map (fun i => b.getLsbD i) ++
    [decide ((List.range 8).countP (fun i => b.getLsbD i) % 2 = 0), true]

/-- The commands that take a pass: the pass timer's expiry, and a FREEZE assertion, which a reset with FREEZE high is too
(R50, R127). -/
abbrev TakesPass (c : Instr) (s : State) : Prop :=
  c = .passTimerExpiry ∨ (c = .freezeAssertion ∧ s.freeze = false) ∨ ∃ levels, c = .deviceReset true levels

/-- The magnitude `m` divides the target `gt` among the sites `g` by their weights in a direction: each site gets its exact
share rounded down to 10 W, or 10 W more; the magnitudes add up to the target; and a site without a step stands before one
with a step, by the larger fractional part and then the lower address, only where the step would carry its branch above
its limit (R134). -/
def DividedBy (d : Direction) (limit : Nat → Option Nat) (g : List Site) (gt : Nat) (m : Site → Nat) : Prop :=
  let wg := (g.map fun r => r.dw d).sum
  let base (r : Site) : Nat := 10 * (gt * r.dw d / (wg * 10))
  let part (r : Site) : Nat := gt * r.dw d % (wg * 10)
  (∀ r ∈ g, m r = base r ∨ m r = base r + 10) ∧ (g.map m).sum = gt ∧
    ∀ x ∈ g, ∀ y ∈ g, m x = base x + 10 → m y = base y →
      part x < part y ∨ (part x = part y ∧ y.address < x.address) →
      ∃ l, limit (branchOf y.address) = some l ∧
        l < ((g.filter fun r => branchOf r.address = branchOf y.address).map m).sum + 10

/-- Port `p` can take telegram `t`, which names `r`: it is the oldest in the queue, no response is in transmission and
the overrun response place is empty (R175). -/
abbrev Oldest (s : State) (p : Port) (r : Request) (t : Telegram) : Prop :=
  (s.link p).queue.head? = some t ∧ (s.link p).response = none ∧ (s.link p).overrunPlace = none ∧ t.request = r

/-- Port `p` can take telegram `t`, which names `r`, and the link controller's checks let it through: the request is
permitted on the port, the member supports it, and its body has the length it calls for (R178, checks 1 to 3). -/
abbrev Admitted (s : State) (p : Port) (r : Request) (t : Telegram) : Prop :=
  Oldest s p r t ∧ p ∈ portsOf r ∧ ¬(s.member = .ojl064 ∧ needsFrequencyLed r t.holdsProduct = true) ∧ t.fits = true

/-- Command `i` answers the next state `s'` with the response to `t` begun at port `p`: result `r`, body `b`. -/
abbrev Answers (i : Instr) (s : State) (p : Port) (t : Telegram) (r : ResultCode) (b : ResponseBody) (s' : State) :
    Prop :=
  exec i s = .next (s'.respond p t r b)

/-- Wb: the sum of the dispatch weights of a branch's sites in a direction (R130). -/
def dispatchWeight (s : State) (d : Direction) (b : Nat) : Nat := ((sitesOf s.roster b).map fun r => r.dw d).sum

/-- K: the sum over the branches of min(Lb, Wb), Wb alone where Lb is absent (R130). -/
def dispatchBound (s : State) (d : Direction) : Nat :=
  ((List.range Config.branchCount).map fun b =>
    underLimit (s.windows.inForce.limit d b) (dispatchWeight s d b)).sum

end Sys2Proof.Safety
end

