-- ==== Sys2Proof/Certificates/Slice0/Obligations.lean ====
section
/-! DEFINITION. The statements for the provers, in the order of OBLIGATIONS.json. In each, `d` is the state with the taken
telegram gone from its port's queue (R175); `Answers i s p t r b s'` says that command `i` answers the next state `s'` with
the response to `t` begun: result `r`, body `b`. -/

open Sys2Proof Sys2Proof.Machine Sys2Proof.Safety

/-! ### The step -/

/-- A step runs the command at the front of the queue with the queue's rest; an empty queue idles (log 2). -/
def Obligations.StepRunsFrontCommand : Prop :=
  (∀ (c : Instr) (rest : List Instr) (s : State),
      step { s with pending := c :: rest } = exec c { s with pending := rest }) ∧
    ∀ s : State, s.pending = [] → step s = .next s

/-- Every command answers a next state on every state. None touches the strap but a device reset, which reads it (R172);
none moves the FREEZE level but it and the FREEZE events (R50). That an event which cannot happen still answers (log 1),
and that the waiting commands (log 16) and the member (log 3) stay, through a device reset too, is the model's choice. -/
def Obligations.EveryCommandCompletes : Prop :=
  ∀ (c : Instr) (s : State), ∃ t : State, exec c s = .next t ∧ t.pending = s.pending ∧ t.member = s.member ∧
    ((∀ f l, c ≠ .deviceReset f l) →
      t.lrate = s.lrate ∧ (c ≠ .freezeAssertion → c ≠ .freezeDeassertion → t.freeze = s.freeze))

/-- A device reset leaves every block at its after-reset value, with the levels the pins have; with FREEZE high it also
takes the assertion: pass 1 of cause FREEZE and the cause at ports S and N (R3, R50, R95, R127). The waiting commands, the
free-value counter and the member stay (log 16, the model's choice). -/
def Obligations.DeviceReset : Prop :=
  ∀ (lrate : BitVec 2) (gsense : Bool) (s : State),
    exec (.deviceReset false ⟨lrate, gsense⟩) s =
        .next { State.afterReset s.member false lrate gsense with pending := s.pending, freeIndex := s.freeIndex } ∧
      exec (.deviceReset true ⟨lrate, gsense⟩) s =
        .next { State.afterReset s.member true lrate gsense with
          pending := s.pending, freeIndex := s.freeIndex
          disp := { Dispatcher.reset with passNumber := 1, cause := some .freeze, passes := 1 }
          linkS := { Link.reset with attention := [.restarted, .freeze] }
          linkN := { Link.reset with attention := [.restarted, .freeze] } }

/-- The state after reset has the levels of the pins and meets every law of Sys2Proof/Safety.lean, on either member and at
any levels; the OJL-064 samples no GSENSE (R95, R107, R172). Its outputs: FBDE released and FBTX high (R145); on every link
TX high, HOLD low, ATTN high (R171). -/
def Obligations.ResetMeetsEveryLaw : Prop :=
  ∀ (m : Member) (f : Bool) (l : BitVec 2) (g : Bool), let s := State.afterReset m f l g
    s.freeze = f ∧ s.lrate = l ∧ s.meter.gsense = (g && decide (m = .ojl256)) ∧
    (s.bus.frame.driving = false ∧ ∀ n, s.bus.frame.fbtx n = true) ∧
    (∀ (p : Port) (n : Nat), (s.link p).tx n = true ∧ (s.link p).holdLine = false ∧ (s.link p).attn = true) ∧
    RosterLaw s ∧ SitesLaw s ∧ ResolutionLaw s ∧ WindowLaw s ∧ ClockLaw s ∧ BookLaw s ∧ ParamsLaw s ∧ MeterLaw s ∧
      GeneratorRanges s ∧ HoldLaw s ∧ CapacityLaw s ∧ FlTargetLaw s ∧ SlLaw s ∧ BusLaw s ∧ OnePassQueue s ∧
      LeavingLaw s ∧ FreezeLaw s ∧ JournalLaw s ∧ FigureLaw s ∧ EpisodeLaw s ∧ LinksLaw s ∧ AttentionLaw s

/-! ### Master links -/

/-- The link controller's refusals, in the order of R178, for the row of every request; which requests check 1 lets through on
each port, by the table of R178; and which requests check 2 stops on the OJL-064: HOLD, AWARD and RELEASE of a frequency-led product only where the body is long enough to hold that field. -/
def Obligations.RefusedAtLink : Prop :=
  (∀ (p : Port) (r : Request), p ∈ portsOf r ↔
    (r = .identify ∨ r = .status ∨ (∃ m, r = .setLinkMode m)) ∨
    (p = .a ∧ ((∃ a b c d e, r = .enroll a b c d e) ∨ (∃ a b c, r = .amend a b c) ∨ (∃ a, r = .remove a) ∨
      (∃ a, r = .readSite a) ∨ (∃ x, r = .setItems x) ∨ (∃ k n, r = .offerQuery k n) ∨
      (∃ k q w y z g, r = .hold k q w y z g) ∨ (∃ k q w g, r = .award k q w g) ∨ (∃ k q g, r = .release k q g) ∨
      (∃ k n, r = .readBook k n) ∨ (∃ m y g q, r = .setOfferParams m y g q) ∨ (∃ x w, r = .busConfig x w) ∨
      r = .busEnable ∨ r = .busDisable ∨ r = .busRestore)) ∨
    (p = .s ∧ ((∃ y z, r = .setTime y z) ∨ (∃ k n, r = .readBook k n) ∨ (∃ w, r = .setPoint w) ∨
      (∃ x y, r = .setSlParams x y) ∨ r = .armFl ∨ r = .disarmFl ∨ (∃ a b c d, r = .setFlParams a b c d) ∨
      (∃ x, r = .setMeter x) ∨ r = .readMeter ∨ r = .readResponse ∨ (∃ u v, r = .enterTest u v) ∨
      (∃ x n, r = .inject x n) ∨ r = .leaveTest ∨ (∃ n, r = .readJournal n) ∨ ∃ n, r = .releaseJournal n)) ∨
    (p = .n ∧ (r = .suspend ∨ (∃ x b m k c, r = .defineWindow x b m k c) ∨ (∃ x, r = .clearWindow x) ∨
      (∃ b k c e l, r = .setBranch b k c e l) ∨ (∃ k, r = .setDefaultClass k) ∨ r = .resume ∨
      (∃ x y, r = .queryClass x y) ∨ (∃ v, r = .readWindows v) ∨ r = .readBranchLoad))) ∧
  (∀ p : Port, p ∉ portsOf .unnamed) ∧
  (∀ (r : Request) (h : Bool), needsFrequencyLed r h = true ↔ r = .armFl ∨ r = .disarmFl ∨ r = .readMeter ∨
    (∃ a b c d, r = .setFlParams a b c d) ∨ (∃ a, r = .setMeter a) ∨ (∃ a b, r = .inject a b) ∨
    (h = true ∧ ∃ q, (q = .flu ∨ q = .fld) ∧ ((∃ a b c d e, r = .hold a (some q) b c d e) ∨
      (∃ a b c, r = .award a (some q) b c) ∨ ∃ a b, r = .release a (some q) b))) ∧
  ∀ (i : Instr) (p : Port) (r : Request) (t : Telegram) (s : State), requestRow i = some (p, r) → Oldest s p r t →
    (p ∉ portsOf r → Answers i s p t .notPermitted .empty (s.dequeue p)) ∧
      (p ∈ portsOf r → s.member = .ojl064 → needsFrequencyLed r t.holdsProduct = true →
        Answers i s p t .unsupported .empty (s.dequeue p)) ∧
      (p ∈ portsOf r → ¬(s.member = .ojl064 ∧ needsFrequencyLed r t.holdsProduct = true) → t.fits = false →
        Answers i s p t .badLength .empty (s.dequeue p))

/-- Every taken telegram is answered once: the response echoes its code and tag and carries the overrun mark, which is
cleared; the telegram has left the queue; nothing else of the port's receive side and nothing of the other ports' links
but their attention changes. A row whose port cannot take that telegram changes nothing (log 7). And what goes out for a
response: its envelope, its check, and its characters back to back, TX high outside them (R171, R172, R175, R181, R182); the byte of a result and the
bytes of a body that is not empty are free values (log 18). -/
def Obligations.TakenTelegramAnswered : Prop :=
  (∀ (i : Instr) (p : Port) (r : Request) (s : State), requestRow i = some (p, r) →
    (∀ t : Telegram, Oldest s p r t → ∃ (s' : State) (q : Response), exec i s = .next s' ∧
      (s'.link p).response = some q ∧ q.code = t.code ∧ q.tag = t.tag ∧
      q.overrunCount = ((s.link p).overrunMark.map OverrunMark.count).getD 0 ∧
      q.overrunTag = ((s.link p).overrunMark.map OverrunMark.tag).getD 0 ∧
      (s'.link p).overrunMark = none ∧ (s'.link p).queue = (s.link p).queue.tail ∧
      (s'.link p).overrunPlace = none ∧ (s'.link p).assembler = (s.link p).assembler ∧
      ∀ o : Port, o ≠ p → { s'.link o with attention := [] } = { s.link o with attention := [] }) ∧
    ((∀ t : Telegram, ¬ Oldest s p r t) → exec i s = .next s)) ∧
  (∀ q : Response, let body := q.body.bytes
    let front := [0x3C, BitVec.ofNat 8 ((5 + body.length) / 256), BitVec.ofNat 8 (5 + body.length), q.code, q.tag,
      Config.resultByte q.result, BitVec.ofNat 8 q.overrunCount, q.overrunTag] ++ body
    q.bytes = front ++ [(crc16 front).extractLsb' 8 8, (crc16 front).extractLsb' 0 8] ∧
      (q.body = .empty → body = []) ∧ 5 + body.length < 65536) ∧
  ∀ l : Link, (l.response = none → l.levels = [] ∧ ∀ n, l.tx n = true) ∧ (∀ n, l.tx n = l.levels.getD n true) ∧
    ∀ q, l.response = some q → l.levels = q.bytes.flatMap linkLevels

/-- TELEGRAM_COMPLETE: a bad check discards with LINK_ERROR; a good one takes a free place of the queue, or is an overrun
recorded by the overrun mode (R173, R175, R176). Where the assembler has not every byte before the last, or where the bytes
make up no whole telegram, none completes (log 1). The queued telegram remembers whether its body has the length its request
calls for: none without arguments, else 1 to 62 bytes, for a DEFINE_WINDOW the same whenever its marker is; and whether it
holds the product field of a HOLD, AWARD or RELEASE, which ends within that length. Both lengths are free values (R178, R182,
log 6). And the check, bit by bit (R181). -/
def Obligations.TelegramComplete : Prop :=
  (∀ (p : Port) (front : List Byte) (r : Request) (check : Half) (s : State), let l := s.link p
    let h : Link := { l with assembler := .hunting }
    let i : Instr := .telegramComplete p front r check
    let bytes := front ++ [check.extractLsb' 8 8, check.extractLsb' 0 8]
    let before : Assembler := .partialTelegram (front ++ [check.extractLsb' 8 8])
    (l.assembler ≠ before ∨ completeTelegram bytes = false → exec i s = .next s) ∧
      (l.assembler = before → completeTelegram bytes = true →
        (check ≠ crc16 front → exec i s = .next (s.setLink p (h.raise .linkError))) ∧
        (check = crc16 front →
          (l.queue.length < 2 → exec i s = .next (s.setLink p { h with
            queue := l.queue ++ [⟨bytes.getD 3 0, bytes.getD 4 0, r, decide (7 + productLengthOf r ≤ bytes.length),
              decide (bytes.length = 7 + bodyLengthOf r)⟩] })) ∧
          (2 ≤ l.queue.length → l.mode = .immediate → exec i s = .next (s.setLink p
            { h with overrunPlace := some ⟨bytes.getD 3 0, bytes.getD 4 0,
              min 255 ((l.overrunPlace.map OverrunPlace.count).getD 0 + 1)⟩ })) ∧
          (2 ≤ l.queue.length → l.mode = .inOrder →
            (l.overrunMark = none →
              exec i s = .next (s.setLink p { h with overrunMark := some ⟨bytes.getD 4 0, 1⟩ })) ∧
            ∀ m, l.overrunMark = some m →
              exec i s = .next (s.setLink p { h with overrunMark := some ⟨m.tag, min 255 (m.count + 1)⟩ }))))) ∧
  (∀ bs : List Byte, let n := (bs.getD 1 0).toNat * 256 + (bs.getD 2 0).toNat
    completeTelegram bs = true ↔ bs.head? = some 0xC3 ∧ 2 ≤ n ∧ n ≤ 64 ∧ bs.length = n + 5) ∧
  (∀ r, ((∃ a b c d e f, r = Request.hold a b c d e f) ∨ (∃ a b c d, r = Request.award a b c d) ∨
      ∃ a b c, r = Request.release a b c) → 1 ≤ productLengthOf r ∧ productLengthOf r ≤ bodyLengthOf r) ∧
  (let plain : List Request := [.suspend, .resume, .readMeter, .armFl, .disarmFl, .leaveTest, .readBranchLoad,
      .readResponse, .busEnable, .busDisable, .busRestore, .status, .identify]
    ∀ r, (r ∈ plain → bodyLengthOf r = 0) ∧ (r ∉ plain → 1 ≤ bodyLengthOf r ∧ bodyLengthOf r ≤ 62)) ∧
  (∀ (x b m x' b' m' : Nat) (k k' : Option SiteClass) (c c' : Option Nat), c.isSome = c'.isSome →
    bodyLengthOf (.defineWindow x b m k c) = bodyLengthOf (.defineWindow x' b' m' k' c')) ∧
  crc16 [] = 0xFFFF ∧ ∀ (bs : List Byte) (b : Byte), crc16 (bs ++ [b]) =
    (List.range 8).foldl (fun r _ => if r.getLsbD 15 then (r <<< 1) ^^^ 0x1021 else r <<< 1)
      (crc16 bs ^^^ (b.zeroExtend 16 <<< 8))

/-- TELEGRAM_LEAD brings a character: while hunting a C3h begins a partial telegram and any other is discarded; a partial
telegram collects it, unless it would complete a length out of range or the telegram, which are rows of their own (R173, log
17). FRAMING_ERROR, LENGTH_OUT_OF_RANGE and GAP discard a partial telegram with LINK_ERROR and do nothing without one (R172
to R174). A character whose start bit samples high begins none, and one whose stop bit samples high is no error (R172). An
event that cannot happen in the present state changes nothing (log 1). -/
def Obligations.ReceiveAssembler : Prop :=
  (∀ b : Byte, linkCharacterError (linkCharacter b) = false ∧ levelsOf (linkCharacter b) = linkLevels b) ∧
  (∀ bs : List Byte, let n := (bs.getD 1 0).toNat * 256 + (bs.getD 2 0).toNat
    unfinished bs = true ↔ bs.head? = some 0xC3 ∧ (bs.length < 3 ∨ 2 ≤ n ∧ n ≤ 64 ∧ bs.length < n + 5)) ∧
  (∀ (p : Port) (b : Byte) (s : State), let l := s.link p
    let i : Instr := .telegramLead ⟨p, linkCharacter b⟩
    (l.assembler = .hunting → b = 0xC3 → exec i s = .next (s.setLink p { l with assembler := .partialTelegram [b] })) ∧
    (l.assembler = .hunting → b ≠ 0xC3 → exec i s = .next s) ∧
    (∀ pre, l.assembler = .partialTelegram pre →
      (unfinished (pre ++ [b]) = true →
        exec i s = .next (s.setLink p { l with assembler := .partialTelegram (pre ++ [b]) })) ∧
      (unfinished (pre ++ [b]) = false → exec i s = .next s)) ∧
    (l.assembler = .held → exec i s = .next s)) ∧
  ∀ (p : Port) (n : Half) (x : BitVec 10) (s : State), let l := s.link p
    let wrong : Prop := l.assembler = .partialTelegram [0xC3, n.extractLsb' 8 8] ∧ (n.toNat < 2 ∨ 64 < n.toNat)
    (x.getLsbD 0 = true ∨ x.getLsbD 9 = false → exec (.telegramLead ⟨p, x⟩) s = .next s) ∧
    (¬wrong → exec (.lengthOutOfRange p n) s = .next s) ∧
    ((∀ pre, l.assembler ≠ .partialTelegram pre) → exec (.framingError ⟨p, x⟩) s = .next s ∧
      exec (.gap p) s = .next s) ∧
    ((∃ pre, l.assembler = .partialTelegram pre) →
      let s' := s.setLink p { l with assembler := .hunting, attention := raiseIn .linkError l.attention }
      (x.getLsbD 0 = false → x.getLsbD 9 = false → exec (.framingError ⟨p, x⟩) s = .next s') ∧
        (x.getLsbD 0 = true ∨ x.getLsbD 9 = true → exec (.framingError ⟨p, x⟩) s = .next s) ∧
        exec (.gap p) s = .next s' ∧ (wrong → exec (.lengthOutOfRange p n) s = .next s'))

/-- BREAK and BREAK_END reset the receive side and let it go (R177); RESPONSE_TRANSMITTED frees the transmitter
(R175); OVERRUN_RESPONSE serves the overrun response place (R176). An event that cannot happen in the present state
changes nothing (log 1). -/
def Obligations.BreakAndTransmitter : Prop :=
  ∀ (p : Port) (s : State), let l := s.link p
    (l.assembler = .hunting → exec (.linkBreak p) s = .next (s.setLink p
      { l with assembler := .held, queue := [], response := none, overrunPlace := none, overrunMark := none })) ∧
    ((∃ pre, l.assembler = .partialTelegram pre) → exec (.linkBreak p) s = .next (s.setLink p
      { l with
        assembler := .held, queue := [], response := none, overrunPlace := none, overrunMark := none
        attention := raiseIn .linkError l.attention })) ∧
    (l.assembler = .held → exec (.linkBreak p) s = .next s ∧
      exec (.breakEnd p) s = .next (s.setLink p { l with assembler := .hunting })) ∧
    (l.assembler ≠ .held → exec (.breakEnd p) s = .next s) ∧
    exec (.responseTransmitted p) s = .next (s.setLink p { l with response := none }) ∧
    (∀ o : OverrunPlace, l.response = none → l.overrunPlace = some o →
      exec (.overrunResponse p) s = .next (s.setLink p
        { l with response := some ⟨o.code, o.tag, .overrun, o.count, o.tag, .empty⟩, overrunPlace := none })) ∧
    (l.response ≠ none ∨ l.overrunPlace = none → exec (.overrunResponse p) s = .next s)

/-- STATUS returns the set as it stands and empties it (R179); SET_LINK_MODE sets the overrun mode of its port (R176); a
code that names no request is refused NOT_PERMITTED on every port, with an empty body (R178). That the BAD_VALUE of
SET_LINK_MODE carries no body is the model's choice (log 10). -/
def Obligations.PortRequests : Prop :=
  ∀ (p : Port) (t : Telegram) (s : State), let d := s.dequeue p
    (Admitted s p .status t → Answers (.status p) s p t .ok (.status (s.link p).attention (s.link p).mode)
      (d.setLink p { d.link p with attention := [] })) ∧
    (∀ m : OverrunMode, Admitted s p (.setLinkMode (some m)) t →
      Answers (.setLinkMode p (some m)) s p t .ok (.linkMode m) (d.setLink p { d.link p with mode := m })) ∧
    (Admitted s p (.setLinkMode none) t → Answers (.setLinkMode p none) s p t .badValue .empty d) ∧
    (Oldest s p .unnamed t → Answers (.unnamedRequestCode p) s p t .notPermitted .empty d)

/-- What a raised cause does to the attention sets (R179), and the laws of the link controllers and of the attention sets,
kept by every command. The HOLD line is high exactly while both receive places are full (R175), ATTN exactly while the
port's set holds a cause (R179). -/
def Obligations.LinkControllersInvariant : Prop :=
  (∀ (s : State) (p q : Port) (c e : Cause),
      e ∈ ((s.raise p c).link q).attention ↔ e ∈ (s.link q).attention ∨ (p = q ∧ e = c)) ∧
    (∀ l : Link, l.holdLine = true ↔ ∃ t u, l.queue = [t, u]) ∧
    (∀ l : Link, l.attn = true ↔ ∃ c, c ∈ l.attention) ∧
    ∀ (c : Instr) (s t : State), exec c s = .next t →
      (LinksLaw s → LinksLaw t) ∧ (AttentionLaw s → AttentionLaw t)

/-! ### Slot clock -/

/-- TENTH_ELAPSED: nothing while UNSET; one tenth on within the slot; at a multiple of 9,000 tenths the next slot, with the
book's part and the generator's part of the boundary (R4, R6). The book's part: the old slot's records go, the holds of the
new slot lapse with HOLD_LAPSED at A and its list entries go, a re-set empties the list, and the boundary takes an
evaluation of its own (R84 to R86). The generator's part: a test ends in a slot with an award, with TEST_ENDED at S, and
otherwise the capacities are loaded (R73, R109, R120, R124). And the figures of R5 that the statements about slots speak in:
the absolute slot and time of a time, the current slot, the distance ahead of a slot. -/
def Obligations.TenthElapsed : Prop :=
  (∀ t : Time, t.slot = t.day * 96 + t.tenths / 9000 ∧ t.abs = t.day * 864000 + t.tenths ∧
    t.next = if t.tenths + 1 < 864000 then ⟨t.day, t.tenths + 1⟩ else ⟨(t.day + 1) % 65536, 0⟩) ∧
  (∀ s : State, s.current = s.now.map Time.slot) ∧
  (∀ c k : Nat, distance c k = (k + 6291456 - c) % 6291456 ∧
    (c < 6291456 → (distance c k : Int) = ((k : Int) - c) % 6291456)) ∧
  (∀ s : State,
    (s.now = none → exec .tenthElapsed s = .next s) ∧
    ∀ t : Time, s.now = some t → TimeLaw t →
      ((t.tenths + 1) % 9000 ≠ 0 → exec .tenthElapsed s = .next { s with now := some ⟨t.day, t.tenths + 1⟩ }) ∧
      ((t.tenths + 1) % 9000 = 0 → ∃ u : Time,
        u = (if t.tenths + 1 = 864000 then ⟨(t.day + 1) % 65536, 0⟩ else ⟨t.day, t.tenths + 1⟩) ∧
        u.slot = (t.slot + 1) % 6291456 ∧
        exec .tenthElapsed s = .next (({ s with now := some u }.bookBoundary t.slot u.slot false).genBoundary))) ∧
  (∀ (s : State) (old c : Nat) (reset : Bool),
    let changed : State := { s with book := { s.book with
      records := s.book.records.filterMap fun r =>
        if r.slot = old then none
        else if r.slot = c ∧ 0 < r.held then
          if r.awarded = 0 then none else some { r with held := 0, terms := none }
        else some r
      expired := if reset then [] else s.book.expired.filter fun e => e.slot ≠ c } }
    let lapsed : State := if ∃ r ∈ s.book.records, r.slot ≠ old ∧ r.slot = c ∧ 0 < r.held then
      changed.raise .a .holdLapsed else changed
    exec .shortfallEvaluation lapsed.requestEval = .next (s.bookBoundary old c reset)) ∧
  (∀ s : State, let g := s.gen
    let a := s.currentAwards
    let awarded : Prop := 0 < a.flu ∨ 0 < a.fld ∨ 0 < a.slu ∨ 0 < a.sld
    let left : Generator := { g with injection := none, test := .live, lossHold := none, delta := g.last.deviation }
    (g.test = .live ∨ ¬awarded → s.genBoundary = s.loadCapacities) ∧
      (g.test = .test → awarded →
        s.genBoundary = (s.moveTest (left.load s.member a) false).raise .s .testEnded)) ∧
  (∀ s : State, s.loadCapacities = s.moveGen (s.gen.load s.member s.currentAwards)) ∧
  (∀ (g : Generator) (m : Member) (a : Awards),
    let test (x : Nat) : Nat := if m = .ojl064 then 0 else x
    let g1 : Generator := (match g.test with
      | .live => { g with flUp := a.flu, flDown := a.fld, slUp := a.slu / 10 * 10, slDown := a.sld / 10 * 10 }
      | .test => { g with flUp := test g.testUp, flDown := test g.testDown, slUp := g.testUp, slDown := g.testDown })
    let within (x : Int) : Int := max (-(g1.slDown : Int)) (min g1.slUp x)
    let g2 : Generator := { g1 with
      slApplied := (within g.slRequested).tdiv 10 * 10, slEffective := within g.slEffective }
    g.load m a = { g2 with flTarget := g2.targetOf }) ∧
  ∀ s : State, (s.now = none → s.currentAwards = ⟨0, 0, 0, 0⟩) ∧
    ∀ t, s.now = some t →
      let at' (p : Product) : Nat := ((recordOf s.book.records t.slot p).map BookRecord.awarded).getD 0
      s.currentAwards = ⟨at' .flu, at' .fld, at' .slu, at' .sld⟩

/-- The signed difference of R9, and every row of its table with the moves of R10 and R11; and the book's part of a
step-back: the records and entries of the slot now at distance 96 go, with HOLD_LAPSED at A where a hold went and
SHORTFALL at A and S where an award went (R86). That the boundary of a SET_TIME goes before the hold expiries that its time
makes due is the model's choice (log 32). -/
def Obligations.SetTime : Prop :=
  (∀ a b : Time, -28311552000 ≤ a.diff b ∧ a.diff b ≤ 28311551999 ∧
      (a.diff b - ((a.abs : Int) - b.abs)) % 56623104000 = 0) ∧
    (∀ (s : State) (c : Nat),
      let far (k : Nat) : Prop := (k + 6291456 - c) % 6291456 = 96
      let kept : State := { s with book := { s.book with
        records := s.book.records.filter fun r => (r.slot + 6291456 - c) % 6291456 ≠ 96
        expired := s.book.expired.filter fun e => (e.slot + 6291456 - c) % 6291456 ≠ 96 } }
      let held : Prop := ∃ r ∈ s.book.records, far r.slot ∧ 0 < r.held
      let awarded : Prop := ∃ r ∈ s.book.records, far r.slot ∧ 0 < r.awarded
      ∃ x : State, (held → x = kept.raise .a .holdLapsed) ∧ (¬held → x = kept) ∧
        (awarded → s.bookStepBack c = (x.raise .a .shortfall).raise .s .shortfall) ∧
        (¬awarded → s.bookStepBack c = x)) ∧
    ∀ (p : Port) (day : BitVec 16) (tenths : Nat) (t : Telegram) (s : State), Admitted s p (.setTime day tenths) t →
      let i : Instr := .setTime p day tenths
      let d := s.dequeue p
      let u : Time := ⟨day.toNat, tenths⟩
      (864000 ≤ tenths → Answers i s p t .badValue (.clock s.now) d) ∧
      (tenths < 864000 → s.now = none → Answers i s p t .ok (.clock (some u)) ({ d with now := some u }.loadCapacities)) ∧
      ∀ v : Time, s.now = some v → TimeLaw v → tenths < 864000 →
        ((u.diff v).natAbs ≤ 300 → u.slot = v.slot → Answers i s p t .ok (.clock (some u)) { d with now := some u }) ∧
        ((u.diff v).natAbs ≤ 300 → u.slot = (v.slot + 1) % 6291456 → Answers i s p t .ok (.clock (some u))
          (({ d with now := some u }.bookBoundary v.slot u.slot false).genBoundary)) ∧
        ((u.diff v).natAbs ≤ 300 → v.slot = (u.slot + 1) % 6291456 → Answers i s p t .ok (.clock (some u))
          (({ d with now := some u }.bookStepBack u.slot).loadCapacities)) ∧
        ((u.diff v).natAbs ≤ 300 →
          u.slot = v.slot ∨ u.slot = (v.slot + 1) % 6291456 ∨ v.slot = (u.slot + 1) % 6291456) ∧
        (300 < (u.diff v).natAbs → s.book.records = [] → u.slot = v.slot →
          Answers i s p t .ok (.clock (some u)) { d with now := some u }) ∧
        (300 < (u.diff v).natAbs → s.book.records = [] → u.slot ≠ v.slot → Answers i s p t .ok (.clock (some u))
          (({ d with now := some u }.bookBoundary v.slot u.slot true).genBoundary)) ∧
        (300 < (u.diff v).natAbs → s.book.records ≠ [] → Answers i s p t .timeJump (.clock (some v)) d)

/-- The book's and the clock's laws are kept by every command, through boundaries, re-sets, step-backs and the wrap of the
slot number; a book within its law holds at most 384 records and its list at most 380 entries (R71, R72, R77). The offer
parameters stay in their ranges through every command, the FL duty never 0 (R63, R69). -/
def Obligations.BookInvariant : Prop :=
  (∀ (c : Instr) (s t : State), ClockLaw s → BookLaw s → exec c s = .next t → ClockLaw t ∧ BookLaw t) ∧
    (∀ (c : Instr) (s t : State), ParamsLaw s → exec c s = .next t → ParamsLaw t) ∧
    ∀ (k : Nat) (b : Book), BookLawAt k b → b.records.length ≤ 384 ∧ b.expired.length ≤ 380

/-- The awarded amount of a record never falls while the record stands, and only an AWARD raises it (R72). -/
def Obligations.AwardsStand : Prop :=
  ∀ (c : Instr) (s t : State), ClockLaw s → BookLaw s → exec c s = .next t →
    ∀ r ∈ s.book.records, ∀ r' ∈ t.book.records, r'.slot = r.slot → r'.product = r.product →
      r.awarded ≤ r'.awarded ∧ ((∀ p k x w g, c ≠ .award p k x w g) → r'.awarded = r.awarded)

/-! ### Site roster -/

/-- ENROLL, AMEND and REMOVE: every check in order and the whole effect (R14 to R17). The empty bodies of the refusals
(log 10) and the count of passes that a LEAVING record keeps (log 15) are the model's choice. A new record is added once and
every other stays; an address has the record that stands at it. -/
def Obligations.RosterRequests : Prop :=
  (∀ (x : Site) (rs : List Site), (addSite x rs).Perm (x :: rs)) ∧
  (∀ (a : Address) (rs : List Site), siteAt rs a = none ↔ ∀ r ∈ rs, r.address ≠ a) ∧
  (∀ (r : Site) (pre post : List Site), (∀ q ∈ pre, q.address ≠ r.address) →
    siteAt (pre ++ r :: post) r.address = some r) ∧
  (∀ (p : Port) (a rated capacity floor ceiling : Nat) (t : Telegram) (s : State),
      Admitted s p (.enroll a rated capacity floor ceiling) t →
      let i : Instr := .enroll p a rated capacity floor ceiling
      let d := s.dequeue p
      let ad : Address := BitVec.ofNat 12 a
      let ok : Prop := a < 4096 ∧ 500 ≤ rated ∧ rated ≤ 25000 ∧ rated % 10 = 0 ∧ 1000 ≤ capacity ∧ capacity ≤ 60000 ∧
        floor ≤ 900 ∧ 100 ≤ ceiling ∧ ceiling ≤ 1000 ∧ floor + 100 ≤ ceiling
      let w := s.windows.inForce.resolve ad
      (¬ok → Answers i s p t .badValue .empty d) ∧
      (∀ r, ok → siteAt s.roster ad = some r → Answers i s p t .addressTaken (.taken r.lifecycle) d) ∧
      (ok → siteAt s.roster ad = none → s.member.siteCapacity ≤ s.roster.length →
        Answers i s p t .rosterFull .empty d) ∧
      (ok → siteAt s.roster ad = none → s.roster.length < s.member.siteCapacity →
        Answers i s p t .ok (.enrolled ad w.1 w.2) { d with
          roster := addSite ⟨ad, rated, capacity, floor, ceiling, .enrolled, .silent, none, none, none, none, none, none,
            none, none, none, w.1, w.2, 0, none, false⟩ s.roster
          book := { s.book with evalRequests := s.book.evalRequests + 1 } })) ∧
    (∀ (p : Port) (a floor ceiling : Nat) (t : Telegram) (s : State), Admitted s p (.amend a floor ceiling) t →
      let i : Instr := .amend p a floor ceiling
      let d := s.dequeue p
      let ad : Address := BitVec.ofNat 12 a
      let ok : Prop := a < 4096 ∧ floor ≤ 900 ∧ 100 ≤ ceiling ∧ ceiling ≤ 1000 ∧ floor + 100 ≤ ceiling
      (¬ok → Answers i s p t .badValue .empty d) ∧
      (ok → siteAt s.roster ad = none → Answers i s p t .noSuchSite .empty d) ∧
      ∀ r, ok → siteAt s.roster ad = some r →
        (r.lifecycle = .leaving → Answers i s p t .notNow .empty d) ∧
        (r.lifecycle = .enrolled → Answers i s p t .ok (.limits floor ceiling) { d with
          roster := s.roster.map fun r => if r.address = ad then { r with floor, ceiling } else r
          book := { s.book with evalRequests := s.book.evalRequests + 1 } })) ∧
    ∀ (p : Port) (a : Nat) (t : Telegram) (s : State), Admitted s p (.remove a) t →
      let i : Instr := .remove p a
      let d := s.dequeue p
      let ad : Address := BitVec.ofNat 12 a
      (4096 ≤ a → Answers i s p t .badValue .empty d) ∧
      (a < 4096 → siteAt s.roster ad = none → Answers i s p t .noSuchSite .empty d) ∧
      ∀ r, a < 4096 → siteAt s.roster ad = some r →
        (r.lifecycle = .leaving → Answers i s p t .notNow .empty d) ∧
        (r.lifecycle = .enrolled → s.bus.state = .running ∨ s.bus.state = .backoff →
          Answers i s p t .ok (.removed (some .leaving)) { d with
            roster := s.roster.map fun r => if r.address = ad then
              { r with lifecycle := .leaving, leavingSince := some s.disp.passes } else r
            book := { s.book with evalRequests := s.book.evalRequests + 1 } }) ∧
        (r.lifecycle = .enrolled → s.bus.state = .disabled ∨ s.bus.state = .draining ∨ s.bus.state = .fault →
          Answers i s p t .ok (.removed none) { d with
            roster := s.roster.filter fun r => r.address ≠ ad
            book := { s.book with evalRequests := s.book.evalRequests + 1 } })

/-- FRESHNESS_EXPIRY of a site: FRESH to STALE at 20 tenths; STALE to SILENT at 60, the timer stopped, with SITE_SILENT and
an evaluation for an ENROLLED site only (R23, R24). A stopped timer does not expire (log 1). -/
def Obligations.FreshnessExpiry : Prop :=
  ∀ (a : Address) (s : State), let i : Instr := .freshnessExpiry a
    (siteAt s.roster a = none → exec i s = .next s) ∧
    ∀ r : Site, siteAt s.roster a = some r →
    let silent : State := { s with
      roster := s.roster.map fun r => if r.address = a then { r with freshness := .silent, freshnessTimer := none } else r }
    (∀ n, r.freshnessTimer = some n → r.freshness = .fresh → exec i s = .next { s with
      roster := s.roster.map fun r =>
        if r.address = a then { r with freshness := .stale, freshnessTimer := some 20 } else r }) ∧
    (∀ n, r.freshnessTimer = some n → r.freshness = .stale → r.lifecycle = .enrolled →
      exec i s = .next ((silent.raise .a .siteSilent).requestEval)) ∧
    (∀ n, r.freshnessTimer = some n → r.freshness = .stale → r.lifecycle = .leaving → exec i s = .next silent) ∧
    (r.freshnessTimer = none ∨ r.freshness = .silent → exec i s = .next s)

/-- The weights and energies of a site in a direction (R25 to R27), and their bounds. -/
def Obligations.SiteWeights : Prop :=
  ∀ (r : Site) (d : Direction), let soc := r.soc.getD 0
    (r.lifecycle = .leaving ∨ r.status ≠ some .ready ∨ r.freshness = .silent ∨ r.effClass.permits d = false →
      r.pw d = 0) ∧
    (r.lifecycle = .enrolled → r.status = some .ready → r.freshness ≠ .silent → r.effClass.permits d = true →
      let x := min r.rated (min (r.effCap.getD r.rated) (r.available.getD r.rated))
      (r.freshness = .fresh → r.pw d = 10 * (x / 10)) ∧ (r.freshness = .stale → r.pw d = 10 * (x / 20))) ∧
    (∀ x, r.soc = some x → (r.floor < x → r.dw .up = r.pw .up) ∧ (x < r.ceiling → r.dw .down = r.pw .down) ∧
      (x ≤ r.floor → r.dw .up = 0) ∧ (r.ceiling ≤ x → r.dw .down = 0)) ∧
    (r.soc = none → r.dw d = 0) ∧
    r.pw d % 10 = 0 ∧ r.dw d ≤ r.pw d ∧ r.pw d ≤ r.rated ∧ (∀ c, r.effCap = some c → r.pw d ≤ c) ∧
    (∀ c, r.available = some c → r.pw d ≤ c) ∧
    (r.pw d = 0 → r.energy d = 0 ∧ r.band d = 0) ∧
    (r.pw d ≠ 0 → let k := if r.freshness = .stale then 2 else 1
      r.band d = (r.ceiling - r.floor) * r.capacity / 1000 / k ∧
      r.energy d = (match d with
        | .up => soc - r.floor
        | .down => r.ceiling - soc) * r.capacity / 1000 / k)

/-- The roster stays in strictly ascending address order within the member's capacity, and every record of such a roster
within every range of R13's table, where the window table is legal and the clock in range, its freshness timer in step with
its freshness, through every command. -/
def Obligations.RosterInvariant : Prop :=
  ∀ (c : Instr) (s t : State), exec c s = .next t →
    (RosterLaw s → RosterLaw t) ∧ (RosterLaw s → WindowLaw s → ClockLaw s → SitesLaw s → SitesLaw t)

/-- A site is LEAVING only while the bus is RUNNING or in BACKOFF, through every command (R17, R18, R148). -/
def Obligations.LeavingInvariant : Prop :=
  ∀ (c : Instr) (s t : State), LeavingLaw s → exec c s = .next t → LeavingLaw t

/-! ### Parameter and reading requests -/

/-- SET_ITEMS, SET_OFFER_PARAMS, SET_FL_PARAMS and SET_SL_PARAMS: a value out of its range changes nothing; values in
range replace the old ones together and change nothing else (R20, R64, R110, R119). That BAD_VALUE and NOT_NOW carry no
body is the model's choice (log 10). -/
def Obligations.ParameterRequests : Prop :=
  ∀ (p : Port) (t : Telegram) (s : State), let d := s.dequeue p
    (∀ x : ItemsArg, Admitted s p (.setItems x) t →
      (x.other = true → Answers (.setItems p x) s p t .badValue .empty d) ∧
      (x.other = false → Answers (.setItems p x) s p t .ok (.items ⟨x.household, x.pv⟩)
        { d with bus := { s.bus with items := ⟨x.household, x.pv⟩ } })) ∧
    (∀ m y g q : Nat, Admitted s p (.setOfferParams m y g q) t →
      let ok : Prop := m ≤ 50 ∧ 10 ≤ y ∧ y ≤ 100 ∧ 100 ≤ g ∧ g ≤ 100000 ∧ q ≤ 100000
      (¬ok → Answers (.setOfferParams p m y g q) s p t .badValue .empty d) ∧
      (ok → Answers (.setOfferParams p m y g q) s p t .ok (.offerParams ⟨m, y, g, q⟩)
        { d with book := { s.book with params := ⟨m, y, g, q⟩ } })) ∧
    (∀ (db fd : Nat) (lm : Option LossMode) (hl : Nat), Admitted s p (.setFlParams db fd lm hl) t →
      let i : Instr := .setFlParams p db fd lm hl
      let ok : Prop := db ≤ 500 ∧ db + 10 ≤ fd ∧ fd ≤ 2000 ∧ 1 ≤ hl ∧ hl ≤ 100
      (lm = none ∨ ¬ok → Answers i s p t .badValue .empty d) ∧
      (∀ m, lm = some m → ok → s.gen.armed = true → Answers i s p t .notNow .empty d) ∧
      (∀ m, lm = some m → ok → s.gen.armed = false → Answers i s p t .ok (.flParams db fd m hl)
        { d with gen := { s.gen with deadband := db, fullDev := fd, lossMode := m, holdLimit := hl } })) ∧
    (∀ ramp timeout : Nat, Admitted s p (.setSlParams ramp timeout) t →
      let i : Instr := .setSlParams p ramp timeout
      let ok : Prop := 10 ≤ ramp ∧ ramp ≤ 1000000 ∧ ramp % 10 = 0 ∧ 10 ≤ timeout ∧ timeout ≤ 600
      (¬ok → Answers i s p t .badValue .empty d) ∧
      (ok → Answers i s p t .ok (.slParams ramp timeout)
        { d with gen := { s.gen with ramp := ramp, refreshTimeout := timeout } }))

/-- READ_SITE, READ_WINDOWS, READ_METER, READ_BRANCH_LOAD, READ_RESPONSE and IDENTIFY return what their rules name and
change nothing (R19, R49, R106, R143, R144, R180). That the refusals of READ_SITE and READ_WINDOWS carry no body (log 10), and
that a site is answered with its freshness timer, its LEAVING count and its poll mark too (log 30), is the model's choice. -/
def Obligations.StateReadings : Prop :=
  ∀ (p : Port) (t : Telegram) (s : State), let d := s.dequeue p
    let m := s.meter
    let g := s.gen
    let x := s.disp
    (∀ a, Admitted s p (.readSite a) t →
      (4096 ≤ a → Answers (.readSite p a) s p t .badValue .empty d) ∧
      (a < 4096 → siteAt s.roster (BitVec.ofNat 12 a) = none → Answers (.readSite p a) s p t .noSuchSite .empty d) ∧
      ∀ r, a < 4096 → siteAt s.roster (BitVec.ofNat 12 a) = some r →
        Answers (.readSite p a) s p t .ok (.site r ⟨r.pw .up, r.pw .down, r.dw .up, r.dw .down, r.energy .up,
          r.energy .down, r.band .up, r.band .down⟩) d) ∧
    (Admitted s p (.readWindows none) t → Answers (.readWindows p none) s p t .badValue .empty d) ∧
    (Admitted s p (.readWindows (some .working)) t → Answers (.readWindows p (some .working)) s p t .ok
      (.windows s.windows.working s.windows.state (decide (s.windows.working ≠ s.windows.inForce)) s.freeze) d) ∧
    (Admitted s p (.readWindows (some .inForce)) t → Answers (.readWindows p (some .inForce)) s p t .ok
      (.windows s.windows.inForce s.windows.state (decide (s.windows.working ≠ s.windows.inForce)) s.freeze) d) ∧
    (Admitted s p .readMeter t → Answers (.readMeter p) s p t .ok
      (.meter m.state m.candidates m.nominal m.reading m.estimates m.lockRun m.lockCandidate m.unlockRun) d) ∧
    (Admitted s p .readBranchLoad t → ∃ reports : List BranchReport,
      Answers (.readBranchLoad p) s p t .ok (.branchLoad x.passNumber x.cause x.direction s.freeze reports) d ∧
      reports.length = 16 ∧ ∀ b < 16, reports[b]? = some ⟨x.branches.getD b ⟨0, 0, false⟩,
        (s.windows.inForce.branch b).exportLimit, (s.windows.inForce.branch b).importLimit,
        ((s.roster.filter fun r => r.address.toNat / 256 = b ∧ r.freshness ≠ .silent).map
          fun r => r.measured.getD 0).sum⟩) ∧
    (Admitted s p .readResponse t → Answers (.readResponse p) s p t .ok (.response ⟨g.flTarget, g.slRequested,
      g.slApplied, g.slEffective, g.flTarget + g.slEffective, g.armed, g.test, m.state, m.reading, m.nominal, x.passNumber,
      x.cause, x.target, x.direction, x.capacity, x.dispatched, x.shortfall, x.delivered, s.freeze⟩) d) ∧
    (Admitted s p .identify t →
      (s.member = .ojl256 → Answers (.identify p) s p t .ok (.identity .ojelta .ojl256 .b 256 8 16 384 32 true
        s.lrate) d) ∧
      (s.member = .ojl064 → Answers (.identify p) s p t .ok (.identity .ojelta .ojl064 .b 64 4 16 384 32 false
        s.lrate) d))

/-- QUERY_CLASS, OFFER_QUERY and READ_BOOK: their checks in order and what they return; they change nothing (R48, R65,
R66, R83). That BAD_VALUE, TIME_UNSET and OUT_OF_HORIZON carry no body is the model's choice (log 10). -/
def Obligations.RangeQueries : Prop :=
  ∀ (p : Port) (x y : Nat) (t : Telegram) (s : State), let d := s.dequeue p
    (Admitted s p (.queryClass x y) t →
      let i : Instr := .queryClass p x y
      let w := s.windows.working
      let f := w.resolve (BitVec.ofNat 12 x)
      let ok : Prop := x < 4096 ∧ y < 4096 ∧ x ≤ y
      (¬ok → Answers i s p t .badValue .empty d) ∧
      (ok → (∀ a : Address, x ≤ a.toNat → a.toNat ≤ y → w.resolve a = f) →
        Answers i s p t .ok (.classes s.windows.state (.uniform f.1 f.2)) d) ∧
      ∀ a : Address, ok → x ≤ a.toNat → a.toNat ≤ y → w.resolve a ≠ f →
        (∀ b : Address, x ≤ b.toNat → b.toNat < a.toNat → w.resolve b = f) →
        Answers i s p t .ok (.classes s.windows.state (.mixed f.1 f.2 a)) d) ∧
    (Admitted s p (.offerQuery x y) t →
      let i : Instr := .offerQuery p x y
      let ok : Prop := x < 6291456 ∧ 1 ≤ y ∧ y ≤ 16
      (¬ok → Answers i s p t .badValue .empty d) ∧
      (ok → s.now = none → Answers i s p t .timeUnset .empty d) ∧
      ∀ c, ok → s.current = some c →
        let n := distance c x
        let up := s.headroom c .up
        let down := s.headroom c .down
        (n = 0 ∨ 95 < n + y - 1 → Answers i s p t .outOfHorizon .empty d) ∧
        (1 ≤ n → n + y - 1 ≤ 95 → Answers i s p t .ok (.offers c s.book.params ⟨up.capacity, up.energy, up.band⟩
          ⟨down.capacity, down.energy, down.band⟩ ((List.range y).map fun j =>
            let k := (c + (n + j)) % 6291456
            ⟨k, powerHeadroom s up k .up, powerHeadroom s down k .down, up.energySlack (n + j), down.energySlack (n + j),
              published s up k (n + j) .flu, published s down k (n + j) .fld, published s up k (n + j) .slu,
              published s down k (n + j) .sld⟩)) d)) ∧
    (Admitted s p (.readBook x y) t →
      let i : Instr := .readBook p x y
      let ok : Prop := x < 6291456 ∧ 1 ≤ y ∧ y ≤ 16
      (¬ok → Answers i s p t .badValue .empty d) ∧
      (ok → s.now = none → Answers i s p t .timeUnset .empty d) ∧
      ∀ c, ok → s.current = some c →
        let n := distance c x
        (95 < n + y - 1 → Answers i s p t .outOfHorizon .empty d) ∧
        (n + y - 1 ≤ 95 → Answers i s p t .ok (.book c (s.book.records.filter fun r =>
          n ≤ distance c r.slot ∧ distance c r.slot ≤ n + y - 1)) d))

/-! ### Network windows and FREEZE -/

/-- DEFINE_WINDOW, CLEAR_WINDOW, SET_BRANCH and SET_DEFAULT_CLASS: refused while IN_FORCE; otherwise their checks in order,
and a change of the working contents alone (R38 to R42). That BAD_VALUE, BAD_MASK and BAD_BASE carry no body is the model's
choice (log 10). -/
def Obligations.WindowEdits : Prop :=
  ∀ (p : Port) (t : Telegram) (s : State), let d := s.dequeue p
    let w := s.windows.working
    let edited (c : Contents) : State := { d with windows := { s.windows with working := c } }
    let badCap (cap : Option Nat) : Prop := ∃ c, cap = some c ∧ (25000 < c ∨ c % 10 ≠ 0)
    let badLimit (l : Option Nat) : Prop := ∃ x, l = some x ∧ (2000000 < x ∨ x % 10 ≠ 0)
    (∀ (i : Instr) (r : Request), requestRow i = some (p, r) → Admitted s p r t → s.windows.state = .inForce →
      (∃ x b m k c, r = .defineWindow x b m k c) ∨ (∃ x, r = .clearWindow x) ∨ (∃ b k c e l, r = .setBranch b k c e l) ∨
        (∃ k, r = .setDefaultClass k) →
      Answers i s p t .windowsInForce (.tableState .inForce) d) ∧
    (s.windows.state ≠ .inForce →
      (∀ (index base mask : Nat) (cls : Option SiteClass) (cap : Option Nat),
        Admitted s p (.defineWindow index base mask cls cap) t →
        let i : Instr := .defineWindow p index base mask cls cap
        let bad : Prop := s.member.windowCount ≤ index ∨ 4096 ≤ base ∨ 4096 ≤ mask ∨ badCap cap
        let form : Prop := ∃ k ≤ 12, mask = 4096 - 2 ^ (12 - k)
        (cls = none ∨ bad → Answers i s p t .badValue .empty d) ∧
        ∀ k, cls = some k → ¬bad →
          (¬form → Answers i s p t .badMask .empty d) ∧
          (form → base &&& mask ≠ base → Answers i s p t .badBase .empty d) ∧
          (form → base &&& mask = base →
            let v : VariableWindow := ⟨true, BitVec.ofNat 12 base, BitVec.ofNat 12 mask, k, cap⟩
            Answers i s p t .ok (.edited s.windows.state (.variable v))
              (edited { w with varWindows := w.varWindows.set index v }))) ∧
      (∀ index, Admitted s p (.clearWindow index) t →
        (s.member.windowCount ≤ index → Answers (.clearWindow p index) s p t .badValue .empty d) ∧
        (index < s.member.windowCount → let v : VariableWindow := ⟨false, 0, 0, .frozen, none⟩
          Answers (.clearWindow p index) s p t .ok (.edited s.windows.state (.variable v))
            (edited { w with varWindows := w.varWindows.set index v }))) ∧
      (∀ (b : Nat) (cls : Option (Option SiteClass)) (cap e l : Option Nat), Admitted s p (.setBranch b cls cap e l) t →
        let i : Instr := .setBranch p b cls cap e l
        let bad : Prop := 16 ≤ b ∨ cls = some none ∨ badCap cap ∨ badLimit e ∨ badLimit l
        (bad → Answers i s p t .badValue .empty d) ∧
        ∀ k : Option SiteClass, ¬bad → (cls = none ∧ k = none ∨ cls = some k) →
          Answers i s p t .ok (.edited s.windows.state (.branch ⟨k, cap, e, l⟩))
            (edited { w with branches := w.branches.set b ⟨k, cap, e, l⟩ })) ∧
      (Admitted s p (.setDefaultClass none) t → Answers (.setDefaultClass p none) s p t .badValue .empty d) ∧
      ∀ k, Admitted s p (.setDefaultClass (some k)) t →
        Answers (.setDefaultClass p (some k)) s p t .ok (.edited s.windows.state (.defaultClass k))
          (edited { w with defaultClass := k }))

/-- SUSPEND and RESUME: the states of R37; RESUME puts the working contents in force, rewrites every record, flags the OPEN
episodes, raises WINDOWS_CHANGED at A and requests an evaluation (R43 to R45). That a RESUME refused NOT_NOW carries no
body is the model's choice (log 10). -/
def Obligations.SuspendResume : Prop :=
  ∀ (p : Port) (t : Telegram) (s : State), let d := s.dequeue p
    let c := s.windows.working
    (Admitted s p .suspend t →
      (s.windows.state = .inForce → Answers (.suspend p) s p t .ok (.tableState .editing)
        { d with windows := { s.windows with state := .editing } }) ∧
      (s.windows.state ≠ .inForce → Answers (.suspend p) s p t .notNow (.tableState s.windows.state) d)) ∧
    (Admitted s p .resume t →
      (s.windows.state = .inForce → Answers (.resume p) s p t .notNow .empty d) ∧
      (s.windows.state ≠ .inForce →
        Answers (.resume p) s p t .ok (.resumed .inForce s.roster.length
          (s.roster.filter fun r => c.resolve r.address ≠ (r.effClass, r.effCap)).length)
          (({ d with
              windows := ⟨.inForce, c, c⟩
              roster := s.roster.map fun r =>
                { r with effClass := (c.resolve r.address).1, effCap := (c.resolve r.address).2 }
              journal := { s.journal with records := s.journal.records.map fun e =>
                if e.state = .isOpen then { e with flags := { e.flags with windowsChanged := true } } else e }
              book := { s.book with evalRequests := s.book.evalRequests + 1 } } : State).raise .a .windowsChanged)))

/-- The resolution of an address: the default class where no window takes part; otherwise the directions that every class
present permits, and the smallest cap present (R35); the directions that each class permits, and those of the intersection of
two (R30). -/
def Obligations.ResolutionMeaning : Prop :=
  (∀ d : Direction, SiteClass.openBoth.permits d = true ∧ SiteClass.frozen.permits d = false ∧
    (SiteClass.exportOnly.permits d = true ↔ d = .up) ∧ (SiteClass.importOnly.permits d = true ↔ d = .down) ∧
    ∀ x y : SiteClass, (x.inter y).permits d = true ↔ x.permits d = true ∧ y.permits d = true) ∧
  ∀ (c : Contents) (a : Address), let b := c.branch (a.toNat / 256)
    let ws := c.varWindows.filter fun w => w.valid = true ∧ a &&& w.mask = w.base
    let caps := b.cap.toList ++ ws.filterMap fun w => w.cap
    (b.cls = none → b.cap = none → ws = [] → c.resolve a = (c.defaultClass, none)) ∧
    (¬(b.cls = none ∧ b.cap = none ∧ ws = []) →
      (∀ d, (c.resolve a).1.permits d = true ↔
        (∀ k, b.cls = some k → k.permits d = true) ∧ ∀ w ∈ ws, w.cls.permits d = true) ∧
      ((c.resolve a).2 = none ↔ caps = []) ∧
      ∀ x, (c.resolve a).2 = some x ↔ x ∈ caps ∧ ∀ y ∈ caps, x ≤ y)

/-- The window table's contents stay legal, equal in IN_FORCE, and the in-force set is the reset set in UNSET, through every
command (R36, R37). -/
def Obligations.WindowInvariant : Prop :=
  ∀ (c : Instr) (s t : State), WindowLaw s → exec c s = .next t → WindowLaw t

/-- Every effective class and cap of a site record is the resolution of its address against the in-force contents, through
every command; while the table is UNSET every site is FROZEN without a cap (R36, R37). -/
def Obligations.ResolutionInvariant : Prop :=
  (∀ (c : Instr) (s t : State), ResolutionLaw s → exec c s = .next t → ResolutionLaw t) ∧
    ∀ s : State, ResolutionLaw s → WindowLaw s → s.windows.state = .unset →
      ∀ r ∈ s.roster, r.effClass = .frozen ∧ r.effCap = none

/-- FREEZE_ASSERTION and FREEZE_DEASSERTION (R50, R51). An assertion: the level, the cause at S and N, the block in
transmission aborted (in DRAINING into DISABLED), a poll in progress and the collision count left, the older blocks
discarded (R159), and a zero pass: what it records (R136, R137), its zero blocks where the bus carries blocks (R139, R156),
what the OPEN episodes take from it (R165, R167), no other field of the roster changed. Where no site is LEAVING in a bus
that carries no blocks, the bus and the dispatcher may take the assertion in either order (R141, log 13). An event that
cannot happen in the present state changes nothing (log 1). -/
def Obligations.FreezeEvents : Prop :=
  (∀ s : State, s.freeze = true → exec .freezeAssertion s = .next s ∧ exec .freezeDeassertion s =
      .next (({ s with freeze := false }.raise .s .freeze).raise .n .freeze)) ∧
    (∀ s : State, s.freeze = false → exec .freezeDeassertion s = .next s ∧
      ∃ t : State, exec .freezeAssertion s = .next t ∧ let b := s.bus
        let goal : Int := (s.gen.flTarget + s.gen.slEffective).tdiv 10 * 10
        let older := b.queue.filter fun x => x.freeze = true
        let delivered := ((t.roster.filter fun r => r.freshness ≠ .silent).map fun r => r.measured.getD 0).sum
        let cut : Prop := b.state = .draining ∧ ∃ x, b.frame = .block x
        t.disp = ⟨nextSerial s.disp.passNumber, some .freeze,
          if 0 < goal then some .up else if goal < 0 then some .down else none, goal, 0, 0, goal.natAbs, delivered,
          List.replicate 16 ⟨0, 0, false⟩, s.disp.passes + 1⟩ ∧
        (cut → t.roster = (s.roster.filter fun r => r.lifecycle ≠ .leaving).map fun r => { r with lastSetpoint := 0 }) ∧
        (¬cut → t.roster = s.roster.map fun r => { r with lastSetpoint := 0 }) ∧
        (cut → t.bus = { b with
          state := .disabled, frame := .idle, queue := [], collisions := 0, backoff := none
          config := b.heldConfig.getD b.config, heldConfig := none }) ∧
        (¬cut → { t.bus with queue := [] } = { b with
          queue := [], frame := (match b.frame with
            | .block _ => .idle
            | x => x) }) ∧
        (¬cut → s.roster = [] ∨ (b.state ≠ .running ∧ b.state ≠ .backoff) → t.bus.queue = older) ∧
        (s.roster ≠ [] → b.state = .running ∨ b.state = .backoff →
          t.bus.queue.flatMap Block.entries = s.roster.map (fun r => ⟨r.address, 0, decide (r.lifecycle = .leaving)⟩) ∧
            (∀ x ∈ t.bus.queue, x.pass = t.disp.passNumber ∧ x.taken = t.disp.passes ∧ x.freeze = true ∧
              x.entries ≠ [] ∧ x.entries.length ≤ 32) ∧
            ∀ x ∈ t.bus.queue.dropLast, x.entries.length = 32) ∧
        t.journal = { s.journal with records := s.journal.records.map fun e =>
          if e.state = .isOpen then
            let mine := (match e.direction with
              | .up => delivered
              | .down => -delivered)
            { e with
              peakDelivered := max e.peakDelivered (max 0 mine).toNat
              maxShortfall := if goal = 0 then e.maxShortfall
                else some (max (e.maxShortfall.getD 0) goal.natAbs)
              flags := { e.flags with freeze := true } }
          else e } ∧
        t = { s with
          freeze := true, roster := t.roster, disp := t.disp, bus := t.bus, journal := t.journal
          linkS := s.linkS.raise .freeze, linkN := s.linkN.raise .freeze }) ∧
    ∀ s : State, LeavingLaw s → s.freeze = true → (s.freezeBus).pass .freeze = (s.pass .freeze).freezeBus

/-! ### Headroom, offers and the commitment book -/

/-- Reservation, slack and energy slack over the horizon (R55 to R59); and what they sum: the awarded and held amounts of the
record of a slot and product, 0 without one. -/
def Obligations.OfferEnergySlack : Prop :=
  (∀ (k : Nat) (p : Product) (pre post : List BookRecord), (∀ q ∈ pre, ¬(q.slot = k ∧ q.product = p)) →
    (recordOf pre k p = none ∧ committed pre k p = 0) ∧
    ∀ r : BookRecord, r.slot = k → r.product = p →
      recordOf (pre ++ r :: post) k p = some r ∧ committed (pre ++ r :: post) k p = r.awarded + r.held) ∧
  ∀ (s : State) (c : Nat) (d : Direction), let h := s.headroom c d
    let q (j : Nat) : Nat := reservation s.book ((c + j) % 6291456) d
    (∀ k, 400 * reservation s.book k d < committed s.book.records k d.slProduct * 100 +
        committed s.book.records k d.flProduct * s.book.params.duty + 400 ∧
      committed s.book.records k d.slProduct * 100 + committed s.book.records k d.flProduct * s.book.params.duty ≤
        400 * reservation s.book k d) ∧
    (∀ n < 96, h.slack n = (min (fleetBand s.roster d) (fleetEnergy s.roster d + s.book.params.recovery * n) : Nat) -
      (((List.range (n + 1)).map q).sum : Int)) ∧
    ∀ n < 96, (∀ m < 96, n ≤ m → (h.energySlack n : Int) ≤ max 0 (h.slack m)) ∧
      ∃ m < 96, n ≤ m ∧ (h.energySlack n : Int) = max 0 (h.slack m)

/-- A published offer: the smaller of the power headroom and the power the energy slack sustains, no less than 0 (R61), less
the margin and then rounded down to the granularity; none frequency-led on the OJL-064 (R62). So it is a multiple of the
granularity, within the fleet capacity and the power headroom, and a hold of the full raw figure never reserves more than
the energy slack. And the fleet capacity, energy and band energy themselves (R27, R53); the direction of each product, and
the frequency-led and the signal-led product of a direction (R1, R54). -/
def Obligations.OfferBounds : Prop :=
  (∀ p : Product, (p.direction = .up ↔ p = .flu ∨ p = .slu) ∧ (p.direction = .down ↔ p = .fld ∨ p = .sld) ∧
    (p.frequencyLed = true ↔ p = .flu ∨ p = .fld)) ∧
  (Direction.up.flProduct = .flu ∧ Direction.down.flProduct = .fld ∧ Direction.up.slProduct = .slu ∧
    Direction.down.slProduct = .sld) ∧
  (∀ (s : State) (c k : Nat) (p : Product), let h := s.headroom c p.direction
      let n := distance c k
      let es := h.energySlack n
      let y := s.book.params.duty
      let pu : Int := fleetCapacity s.roster s.windows.inForce p.direction -
        committed s.book.records k p.direction.flProduct - committed s.book.records k p.direction.slProduct
      let raw : Int := max 0 (min pu (if p.frequencyLed = true then ((400 * es / y : Nat) : Int) else 4 * es))
      let g := s.book.params.granularity
      let o := s.publishedOffer c k p
      (s.member = .ojl064 → p.frequencyLed = true → o = 0) ∧
      (s.member = .ojl256 ∨ p.frequencyLed = false → o = raw.toNat * (100 - s.book.params.margin) / 100 / g * g) ∧
      powerHeadroom s h k p.direction = pu ∧ o % g = 0 ∧
      o ≤ fleetCapacity s.roster s.windows.inForce p.direction ∧ (0 < o → (o : Int) ≤ pu) ∧
      (p.frequencyLed = false → o ≤ 4 * es) ∧ (p.frequencyLed = true → o ≤ 400 * es / y)) ∧
    (∀ es y : Nat, 10 ≤ y → y ≤ 100 → ceilDiv (400 * es / y * y) 400 ≤ es ∧ ceilDiv (4 * es * 100) 400 ≤ es) ∧
    ∀ (s : State) (c : Nat) (d : Direction), let h := s.headroom c d
      let power (b : Nat) : Nat := ((s.roster.filter fun r => r.address.toNat / 256 = b).map fun r => r.pw d).sum
      let bound (b : Nat) : Option Nat := (match d with
        | .up => (s.windows.inForce.branch b).exportLimit
        | .down => (s.windows.inForce.branch b).importLimit)
      h.capacity = fleetCapacity s.roster s.windows.inForce d ∧ h.energy = fleetEnergy s.roster d ∧
      h.band = fleetBand s.roster d ∧
      fleetCapacity s.roster s.windows.inForce d = ((List.range 16).map fun b => (match bound b with
        | some l => min l (power b)
        | none => power b)).sum ∧
      fleetEnergy s.roster d = (s.roster.map fun r => r.energy d).sum ∧
      fleetBand s.roster d = (s.roster.map fun r => r.band d).sum

/-- HOLD: the checks of R74 in order, and the grant of R75 with the end of the pair's list entry (R77). That BAD_VALUE,
TIME_UNSET, OUT_OF_HORIZON, SLOT_CLOSED, BAD_GRANULE and BAD_EXPIRY carry no body is the model's choice (log 10). A record
put in the book takes the place of the one of its slot and product, and every other stays. -/
def Obligations.Hold : Prop :=
  (∀ (c : Nat) (r : BookRecord) (rs : List BookRecord),
    (putRecord c r rs).Perm (r :: rs.filter fun q => ¬(q.slot = r.slot ∧ q.product = r.product))) ∧
  ∀ (p : Port) (k : Nat) (x : Option Product) (w : Nat) (day : BitVec 16) (tenths : Nat) (g : Half) (t : Telegram)
    (s : State), Admitted s p (.hold k x w day tenths g) t →
    let i : Instr := .hold p k x w day tenths g
    let d := s.dequeue p
    let e : Time := ⟨day.toNat, tenths⟩
    let ok : Prop := k < 6291456 ∧ w ≤ 6400000 ∧ tenths < 864000
    (x = none ∨ ¬ok → Answers i s p t .badValue .empty d) ∧
    ∀ q, x = some q → ok →
      (s.now = none → Answers i s p t .timeUnset .empty d) ∧
      ∀ now : Time, s.now = some now → let n := distance now.slot k
        (96 ≤ n → n < 3145728 → Answers i s p t .outOfHorizon .empty d) ∧
        (n = 0 ∨ 3145728 ≤ n → Answers i s p t .slotClosed .empty d) ∧
        (1 ≤ n → n ≤ 95 →
          let old := (recordOf s.book.records k q).getD ⟨k, q, 0, 0, none, none⟩
          let offer := s.publishedOffer now.slot k q
          (w = 0 ∨ w % s.book.params.granularity ≠ 0 → Answers i s p t .badGranule .empty d) ∧
          (0 < w → w % s.book.params.granularity = 0 →
            let fits : Prop := 1 ≤ e.diff now ∧ 0 ≤ (Time.mk (k / 96) (k % 96 * 9000)).diff e
            (¬fits → Answers i s p t .badExpiry .empty d) ∧
            (fits → 0 < old.held → Answers i s p t .holdPending (.standing old.held old.terms) d) ∧
            (fits → old.held = 0 → offer < w → Answers i s p t .insufficient (.insufficient offer) d) ∧
            (fits → old.held = 0 → w ≤ offer → Answers i s p t .ok (.granted old.awarded w e g offer)
              { d with book := { s.book with
                records := putRecord now.slot { old with held := w, terms := some ⟨e, g⟩ } s.book.records
                expired := s.book.expired.filter fun z => ¬(z.slot = k ∧ z.product = q) } })))

/-- AWARD and RELEASE: the checks of R79 in order; the hold of the pair ends with `w` of it awarded, or with nothing awarded
for a RELEASE, and a record left with nothing is deleted (R80, R82). That BAD_VALUE, TIME_UNSET, SLOT_CLOSED, NO_HOLD and
BAD_GRANULE carry no body is the model's choice (log 10); so is what a RELEASE's HOLD_EXPIRED and TAG_MISMATCH carry (log 31):
R82 names no content, and the model answers R79's expiry and standing hold. -/
def Obligations.AwardAndRelease : Prop :=
  ∀ (p : Port) (k : Nat) (x : Option Product) (w : Nat) (g : Half) (t : Telegram) (s : State), let d := s.dequeue p
    let settled (q : Product) (v : Nat) : State := { d with book := { s.book with
      records := s.book.records.filterMap fun r =>
        if r.slot = k ∧ r.product = q then
          if r.awarded + v = 0 then none else some { r with awarded := r.awarded + v, held := 0, terms := none }
        else some r } }
    let checked (i : Instr) (v : Nat) (ok : Prop) (took : Product → Nat → BookRecord → Prop) : Prop :=
      (x = none ∨ ¬ok → Answers i s p t .badValue .empty d) ∧
      (∀ q, x = some q → ok → s.now = none → Answers i s p t .timeUnset .empty d) ∧
      ∀ q c, x = some q → ok → s.current = some c → let n := distance c k
        (n = 0 ∨ 3145728 ≤ n → Answers i s p t .slotClosed .empty d) ∧
        (1 ≤ n → n < 3145728 →
          let r? := recordOf s.book.records k q
          let e? := s.book.expired.find? fun e => e.slot = k ∧ e.product = q ∧ e.tag = g
          ((∀ r, r? = some r → r.held = 0) → ∀ e, e? = some e → Answers i s p t .holdExpired (.expiredAt e.expiry) d) ∧
          ((∀ r, r? = some r → r.held = 0) → e? = none → Answers i s p t .noHold .empty d) ∧
          ∀ r, r? = some r → 0 < r.held →
            ((∀ z, r.terms = some z → z.tag ≠ g) → Answers i s p t .tagMismatch (.standing r.held r.terms) d) ∧
            ((∃ z, r.terms = some z ∧ z.tag = g) → took q v r))
    (Admitted s p (.award k x w g) t → let i : Instr := .award p k x w g
      checked i w (k < 6291456 ∧ w ≤ 6400000) fun q v r =>
        (r.held < v → Answers i s p t .exceedsHold (.standing r.held r.terms) d) ∧
        (v ≤ r.held → v % s.book.params.granularity ≠ 0 → Answers i s p t .badGranule .empty d) ∧
        (v ≤ r.held → v % s.book.params.granularity = 0 →
          Answers i s p t .ok (.awarded (r.awarded + v) (decide (r.awarded + v = 0))) (settled q v))) ∧
    (Admitted s p (.release k x g) t → let i : Instr := .release p k x g
      checked i 0 (k < 6291456) fun q _ r => Answers i s p t .ok (.released r.awarded) (settled q 0))

/-- HOLD_EXPIRY: a hold whose expiry the present time has reached ends, makes an entry of the expired-hold list and raises
HOLD_LAPSED at A; nothing is awarded and no evaluation is requested (R78). An expiry at the instant of a slot boundary may
also be taken in the tenth before it, ahead of the boundary and its evaluation (R81, R85, R91; in that form the model's
choice, log 29). A hold gone or not
due does not expire (R81, log 1). An entry put in the list takes the place of the one of its slot and product, and every
other stays (R77). -/
def Obligations.HoldExpiry : Prop :=
  (∀ (c : Nat) (e : ExpiredHold) (es : List ExpiredHold),
    (putExpired c e es).Perm (e :: es.filter fun q => ¬(q.slot = e.slot ∧ q.product = e.product))) ∧
  ∀ (k : Nat) (q : Product) (s : State), let i : Instr := .holdExpiry k q
    (s.now = none → exec i s = .next s) ∧
    (∀ r, recordOf s.book.records k q = some r → r.held = 0 → exec i s = .next s) ∧
    (∀ r, recordOf s.book.records k q = some r → r.terms = none → exec i s = .next s) ∧
    (recordOf s.book.records k q = none → exec i s = .next s) ∧
    ∀ (now : Time) (r : BookRecord) (z : HoldTerms), s.now = some now → recordOf s.book.records k q = some r →
      0 < r.held → r.terms = some z →
      let early : Prop := z.expiry = now.next ∧ z.expiry.tenths % 9000 = 0
      (now.diff z.expiry < 0 → ¬early → exec i s = .next s) ∧
      (0 ≤ now.diff z.expiry ∨ early → exec i s = .next (({ s with book := { s.book with
        records := s.book.records.filterMap fun r =>
          if r.slot = k ∧ r.product = q then
            if r.awarded = 0 then none else some { r with held := 0, terms := none }
          else some r
        expired := putExpired now.slot ⟨k, q, z.tag, z.expiry⟩ s.book.expired } } : State).raise .a .holdLapsed))

/-- SHORTFALL_EVALUATION: each record of the horizon gets its pair's two deficits as risk fields, or none when both
are 0; SHORTFALL is raised at A and S exactly when a pair is newly at risk; nothing else changes (R87 to R90). With
none requested it does nothing (log 8). -/
def Obligations.ShortfallEvaluation : Prop :=
  ∀ s : State,
    (s.book.evalRequests = 0 → exec .shortfallEvaluation s = .next s) ∧
    ∀ n, s.book.evalRequests = n + 1 →
      let s1 : State := { s with book := { s.book with evalRequests := n } }
      (s.now = none → exec .shortfallEvaluation s = .next s1) ∧
      ∀ c, s.current = some c →
        let risk (r : BookRecord) : Option RiskFields :=
          let d := r.product.direction
          let power := committed s.book.records r.slot d.flProduct + committed s.book.records r.slot d.slProduct -
            fleetCapacity s.roster s.windows.inForce d
          let energy := (-(s.headroom c d).slack (distance c r.slot)).toNat
          if power = 0 ∧ energy = 0 then none else some ⟨power, energy⟩
        let records := s.book.records.map fun r => if distance c r.slot < 96 then { r with risk := risk r } else r
        let s2 : State := { s1 with book := { s1.book with records } }
        let newly : Prop := ∃ r ∈ records, r.risk ≠ none ∧ ∀ o ∈ s.book.records, o.slot = r.slot →
          o.product.direction = r.product.direction → o.risk = none
        (newly → exec .shortfallEvaluation s = .next ((s2.raise .a .shortfall).raise .s .shortfall)) ∧
        (¬newly → exec .shortfallEvaluation s = .next s2)

/-! ### Frequency meter -/

/-- GSENSE_RISING_EDGE, which carries the instant of the change to low before it (log 24). It is an edge from a level that
has been low since the reset, or where the fall was taken from a high level and each level held for 100 periods (R95); any
other is none (log 1). The first edge starts a period; a later one ends it with an estimate, accepted exactly for
153,845..222,224 REFCLK periods; a rejected estimate moves nothing but the period start; the OJL-064 samples no edge (R96
to R98, R107). Three estimates form their median, a reading: the run counts, the loss of lock ahead of it if it ended the
lock, and the
reading event with the meter's state and nominal (R99, R102, R103, R114); what that event does to the last reading, the
deviation, a loss hold and the target (R112, R113, R115). -/
def Obligations.GsenseRisingEdge : Prop :=
  (∀ (fall : Option Nat) (x : Nat) (s : State), let i : Instr := .gsenseRisingEdge ⟨fall, x⟩
    let taken : Prop := (fall = none ∧ s.meter.gsense = false ∧ s.meter.periodStart = none) ∨
      ∃ f, fall = some f ∧ s.meter.gsense = true ∧ f + 100 ≤ x ∧ ∀ y, s.meter.periodStart = some y → y + 100 ≤ f
    let s1 : State := { s with meter := { s.meter with periodStart := some x, gsense := true } }
    (s.member = .ojl064 → exec i s = .next s) ∧
    (¬taken → exec i s = .next s) ∧
    (s.member = .ojl256 → taken → s.meter.periodStart = none → exec i s = .next s1) ∧
    ∀ y, s.member = .ojl256 → taken → s.meter.periodStart = some y → let n := x - y
      (n < 153845 ∨ 222224 < n → exec i s = .next s1) ∧
      (153845 ≤ n → n ≤ 222224 →
        let e := (2 * 10000000000 + n) / (2 * n)
        let es := (if s.meter.estimates.length < 3 then s.meter.estimates else s.meter.estimates.drop 1) ++ [e]
        let m : Meter := if s.meter.state = .noSignal then
            { s1.meter with estimates := es, lossTimer := true, state := .searching, lockRun := 0, lockCandidate := none }
          else { s1.meter with estimates := es, lossTimer := true }
        let s2 : State := if s.meter.state = .noSignal then
            { s1 with meter := m }.moveGen (s.gen.stateChange .searching false) else { s1 with meter := m }
        (∀ lo mid hi, es.Perm [lo, mid, hi] → lo ≤ mid → mid ≤ hi → exec i s = .next (s2.takeReading mid)) ∧
        (es.length ≠ 3 → exec i s = .next s2))) ∧
  (∀ (s : State) (x : Nat), let m := { s.meter with reading := some x }.count x
    let s1 : State := { s with meter := m }
    (s.meter.state = .locked → m.state ≠ .locked → let s2 := s1.loseLock
      s.takeReading x = s2.moveGen (s2.gen.readingEvent x m.state m.nominal)) ∧
    (s.meter.state ≠ .locked ∨ m.state = .locked →
      s.takeReading x = s1.moveGen (s.gen.readingEvent x m.state m.nominal))) ∧
  ∀ (g : Generator) (x : Nat) (st : MeterState) (f? : Option Nat),
    let kept : Generator := { g with last := ⟨some x, some st, f?⟩ }
    let formed (u : Generator) : Generator := { u with flTarget := u.targetOf }
    (∀ f, g.test = .live → st = .locked → f? = some f →
      g.readingEvent x st f? = formed { kept with delta := max (-2000) (min 2000 ((f : Int) - x)), lossHold := none }) ∧
    (g.test = .live → st ≠ .locked → g.lossHold = none →
      g.readingEvent x st f? = { kept with delta := 0, flTarget := 0 }) ∧
    (g.test = .live → st ≠ .locked → g.lossHold ≠ none → g.readingEvent x st f? = formed kept) ∧
    (g.test = .test → g.readingEvent x st f? = formed kept)

/-- What a reading does to the run counts and the state of the meter, row by row (R101, R102). In NO_SIGNAL no reading
is formed, and the model leaves the meter as it is (log 1). -/
def Obligations.ReadingCounts : Prop :=
  ∀ (m : Meter) (x : Nat), let near (f : Nat) : Prop := x ≤ f + 2500 ∧ f ≤ x + 2500
    let band (k : Candidate) : Prop := (match k with
      | .fifty => m.candidates.fifty = true ∧ near 50000
      | .sixty => m.candidates.sixty = true ∧ near 60000)
    (m.state = .noSignal → m.count x = m) ∧
    (m.state = .searching →
      (¬band .fifty → ¬band .sixty → m.count x = { m with lockRun := 0, lockCandidate := none }) ∧
      ∀ k, band k → let run := if m.lockCandidate = some k then m.lockRun + 1 else 1
        (run < 8 → m.count x = { m with lockRun := run, lockCandidate := some k }) ∧
        (8 ≤ run → m.count x = { m with
          state := .locked, nominal := some k.mHz, lockRun := 0, lockCandidate := none, unlockRun := 0 })) ∧
    ∀ f, m.state = .locked → m.nominal = some f →
      (near f → m.count x = { m with unlockRun := 0 }) ∧
      (¬near f → m.unlockRun + 1 < 8 → m.count x = { m with unlockRun := m.unlockRun + 1 }) ∧
      (¬near f → 8 ≤ m.unlockRun + 1 →
        let free : Meter := { m with state := .searching, nominal := none, unlockRun := 0, lockRun := 0, lockCandidate := none }
        (¬band .fifty → ¬band .sixty → m.count x = free) ∧
        ∀ k, band k → m.count x = { free with lockRun := 1, lockCandidate := some k })

/-- LOSS_TIMER_EXPIRY and SET_METER: the meter to NO_SIGNAL, or restarted in SEARCHING with the new candidates; in
LOCKED a loss of lock goes first, which is the model's choice (log 19), and the state change is handed on in every case (R100,
R103 to R105). An event that
cannot happen in the present state changes nothing (log 1). A loss of lock: FREQ_LOST at S, the flag of the OPEN FL
record, and the generator by its loss mode (R103, R114, R165); a state change to a state that is not LOCKED: the stored
state, the stored reading where it is dropped, and deviation and target 0 in LIVE without a loss hold (R112, R114). -/
def Obligations.LossTimerAndSetMeter : Prop :=
  (∀ s : State, let lost (m : Meter) (s0 : State) : State :=
      let s1 : State := { s0 with meter := m }
      let s2 : State := if s.meter.state = .locked then s1.loseLock else s1
      s2.moveGen (s2.gen.stateChange m.state true)
    let cleared : Meter := { s.meter with
      estimates := [], reading := none, lockRun := 0, lockCandidate := none, unlockRun := 0, nominal := none }
    (s.meter.lossTimer = false → exec .lossTimerExpiry s = .next s) ∧
    (s.meter.lossTimer = true →
      exec .lossTimerExpiry s = .next (lost { cleared with state := .noSignal, lossTimer := false } s)) ∧
    ∀ (p : Port) (x : CandidatesArg) (t : Telegram), Admitted s p (.setMeter x) t →
      let i : Instr := .setMeter p x
      let d := s.dequeue p
      let b : ResponseBody := .meterSet s.meter.state s.meter.candidates
      (x.other = true → Answers i s p t .badValue b d) ∧
      (x.other = false → x.fifty = false → x.sixty = false → Answers i s p t .prohibited b d) ∧
      (x.other = false → x.fifty = true ∨ x.sixty = true → s.gen.armed = true → Answers i s p t .notNow b d) ∧
      (x.other = false → x.fifty = true ∨ x.sixty = true → s.gen.armed = false →
        Answers i s p t .ok (.meterSet .searching ⟨x.fifty, x.sixty⟩)
          (lost { cleared with state := .searching, lossTimer := true, candidates := ⟨x.fifty, x.sixty⟩ } d))) ∧
  (∀ s : State, let u := (s.raise .s .freqLost).moveGen s.gen.loseLock
    s.loseLock = { u with journal := { u.journal with records := u.journal.records.map fun e =>
      if e.state = .isOpen ∧ e.kind = .fl then { e with flags := { e.flags with freqLoss := true } } else e } }) ∧
  (∀ g : Generator, let zero : Generator := { g with delta := 0, flTarget := 0 }
    (g.test = .test → g.loseLock = g) ∧
    (g.test = .live → g.armed = false ∨ g.flTarget = 0 ∨ g.lossMode = .release → g.loseLock = zero) ∧
    (g.test = .live → g.armed = true → g.flTarget ≠ 0 → g.lossMode = .holdLast →
      g.loseLock = { g with lossHold := some ⟨g.delta, g.holdLimit⟩ })) ∧
  ∀ (g : Generator) (st : MeterState) (drop : Bool), st ≠ .locked →
    let kept : Generator := { g with last := ⟨if drop then none else g.last.reading, some st, none⟩ }
    (g.test = .live → g.lossHold = none → g.stateChange st drop = { kept with delta := 0, flTarget := 0 }) ∧
    (g.test = .test ∨ g.lossHold ≠ none → g.stateChange st drop = { kept with flTarget := kept.targetOf })

/-- The items of the meter agree with each other through every command (R94). -/
def Obligations.MeterInvariant : Prop :=
  ∀ (c : Instr) (s t : State), MeterLaw s → exec c s = .next t → MeterLaw t

/-! ### Response generator -/

/-- ARM_FL and DISARM_FL: no change in the state they name; otherwise arming takes the deviation of the last reading in LIVE
and forms the target, disarming ends the loss hold and the target (R111, R112, R115). That a DISARM_FL leaves the deviation as
it stands is the model's choice (log 20). -/
def Obligations.Arming : Prop :=
  ∀ (p : Port) (t : Telegram) (s : State), let d := s.dequeue p
    let g := s.gen
    let last : Int := if g.last.state = some .locked then
        (match g.last.nominal, g.last.reading with
          | some f, some x => max (-2000) (min 2000 ((f : Int) - x))
          | _, _ => 0)
      else 0
    let armed : Generator := { g with armed := true, delta := if g.test = .live then last else g.delta }
    (Admitted s p .armFl t →
      (g.armed = true → Answers (.armFl p) s p t .ok (.arming true g.flTarget) d) ∧
      (g.armed = false → Answers (.armFl p) s p t .ok (.arming true armed.targetOf)
        (d.moveGen { armed with flTarget := armed.targetOf }))) ∧
    (Admitted s p .disarmFl t →
      (g.armed = false → Answers (.disarmFl p) s p t .ok (.arming false g.flTarget) d) ∧
      (g.armed = true → Answers (.disarmFl p) s p t .ok (.arming false 0)
        (d.moveGen { g with armed := false, lossHold := none, flTarget := 0 })))

/-- HOLD_TIMER_EXPIRY, INJECTION_END, REFRESH_TIMER_EXPIRY and RAMP_TIMER_EXPIRY (R115, R117, R118, R123). A timer that
does not run does not expire (log 1). -/
def Obligations.GeneratorTimers : Prop :=
  ∀ s : State, let g := s.gen
    let zero : Generator := { g with delta := 0 }
    (g.lossHold = none → exec .holdTimerExpiry s = .next s) ∧
    (g.lossHold ≠ none → exec .holdTimerExpiry s = .next (s.moveGen { zero with lossHold := none, flTarget := 0 })) ∧
    (g.injection = none → exec .injectionEnd s = .next s) ∧
    (g.injection ≠ none → exec .injectionEnd s = .next (s.moveGen { zero with injection := none, flTarget := 0 })) ∧
    (g.refreshTimer = none → exec .refreshTimerExpiry s = .next s) ∧
    (g.refreshTimer ≠ none → exec .refreshTimerExpiry s =
      .next ({ s with gen := { g with slRequested := 0, slApplied := 0, refreshTimer := none } }.raise .s .signalLost)) ∧
    ((g.slApplied - g.slEffective).natAbs ≤ g.ramp →
      exec .rampTimerExpiry s = .next (s.moveGen { g with slEffective := g.slApplied })) ∧
    (g.ramp < (g.slApplied - g.slEffective).natAbs → g.slEffective < g.slApplied →
      exec .rampTimerExpiry s = .next (s.moveGen { g with slEffective := g.slEffective + g.ramp })) ∧
    (g.ramp < (g.slApplied - g.slEffective).natAbs → g.slApplied < g.slEffective →
      exec .rampTimerExpiry s = .next (s.moveGen { g with slEffective := g.slEffective - g.ramp }))

/-- SET_POINT: the requested value is stored, the applied value is it limited to the SL bounds and rounded toward zero to
10 W, the refresh timer restarts, the effective value stands; CLAMPED unless the applied value is the requested (R116). -/
def Obligations.SetPoint : Prop :=
  ∀ (p : Port) (w a : Int) (t : Telegram) (s : State), Admitted s p (.setPoint w) t →
    let g := s.gen
    let limited := max (-(g.slDown : Int)) (min g.slUp w)
    a.natAbs ≤ limited.natAbs → limited.natAbs < a.natAbs + 10 → a % 10 = 0 → 0 ≤ a * limited →
    Answers (.setPoint p w) s p t (if a = w then .ok else .clamped) (.setPoint w a g.slEffective g.slUp g.slDown)
      { s.dequeue p with gen := { g with slRequested := w, slApplied := a, refreshTimer := some g.refreshTimeout } }

/-- ENTER_TEST, INJECT and LEAVE_TEST: their checks in order and the generator's new items (R122 to R124). The test events at
the journal: the figures stored, every OPEN record closed with EPISODE_CLOSED at S, the mark set or cleared, and each kind
whose figure is not 0 reopened, whichever comes first (R166, log 9). That the refusals carry no body is the model's choice
(log 10). -/
def Obligations.TestMode : Prop :=
  (∀ (p : Port) (t : Telegram) (s : State), let d := s.dequeue p
    let g := s.gen
    let a := s.currentAwards
    let awarded : Prop := 0 < a.flu ∨ 0 < a.fld ∨ 0 < a.slu ∨ 0 < a.sld
    (∀ up down : Nat, Admitted s p (.enterTest up down) t →
      let i : Instr := .enterTest p up down
      let ok : Prop := up ≤ 6400000 ∧ up % 10 = 0 ∧ down ≤ 6400000 ∧ down % 10 = 0
      let g' : Generator := { g with testUp := up, testDown := down, test := .test, lossHold := none, delta := 0 }
      (¬ok → Answers i s p t .badValue .empty d) ∧
      (ok → g.test = .test ∨ awarded → Answers i s p t .notNow .empty d) ∧
      (ok → g.test = .live → ¬awarded →
        Answers i s p t .ok (.testCapacities up down) (d.moveTest (g'.load s.member a) true))) ∧
    (∀ (x : Int) (n : Nat), Admitted s p (.inject x n) t →
      let i : Instr := .inject p x n
      let ok : Prop := -2000 ≤ x ∧ x ≤ 2000 ∧ 1 ≤ n ∧ n ≤ 600
      let g' : Generator := { g with injection := some ⟨x, n⟩, delta := x }
      (¬ok → Answers i s p t .badValue .empty d) ∧
      (ok → g.test = .live → Answers i s p t .notNow .empty d) ∧
      (ok → g.test = .test →
        Answers i s p t .ok (.injected x g'.targetOf) (d.moveGen { g' with flTarget := g'.targetOf }))) ∧
    (Admitted s p .leaveTest t →
      (g.test = .live → Answers (.leaveTest p) s p t .notNow .empty d) ∧
      (g.test = .test → Answers (.leaveTest p) s p t .ok (.testState .live)
        (d.moveTest (({ g with injection := none, test := .live, lossHold := none, delta := g.last.deviation } :
          Generator).load s.member a) false)))) ∧
  ∀ (s : State) (g : Generator) (mark : Bool),
    let shut : Journal := ⟨s.journal.records.map fun e =>
      if e.state = .isOpen then { e with state := .closed, finish := s.now, closingTimer := false } else e,
      s.journal.counter, g.flTarget, g.slEffective, mark⟩
    let reopened (k : Kind) (x : Int) (j : Journal) : Journal := if x = 0 then j else j.openRecord k x s.now
    let moved (j : Journal) : State := { s with gen := g, journal := j, freeIndex := s.freeIndex + 1 }
    ∃ j : Journal, (j = reopened .sl g.slEffective (reopened .fl g.flTarget shut) ∨
        j = reopened .fl g.flTarget (reopened .sl g.slEffective shut)) ∧
      ((∃ e ∈ s.journal.records, e.state = .isOpen) → s.moveTest g mark = (moved j).raise .s .episodeClosed) ∧
      ((∀ e ∈ s.journal.records, e.state ≠ .isOpen) → s.moveTest g mark = moved j)

/-- The FL target is the one the rule forms from the deviation, the parameters and the capacities, at every moment: kept by
every command; its form: 0 while DISARMED or within the deadband, else of the sign of the deviation and never above the
capacity (R113). -/
def Obligations.FlTargetInvariant : Prop :=
  (∀ (c : Instr) (s t : State), FlTargetLaw s → exec c s = .next t → FlTargetLaw t) ∧
    ∀ g : Generator, (g.armed = false → g.targetOf = 0) ∧ (g.delta.natAbs ≤ g.deadband → g.targetOf = 0) ∧
      (g.armed = true → g.deadband < g.delta.natAbs → g.deadband < g.fullDev →
        let c := if 0 < g.delta then g.flUp else g.flDown
        let m := g.targetOf.natAbs
        (0 < g.delta → 0 ≤ g.targetOf) ∧ (g.delta < 0 → g.targetOf ≤ 0) ∧ m ≤ c ∧ m % 10 = 0 ∧
        m * (g.fullDev - g.deadband) ≤ c * (g.delta.natAbs - g.deadband) ∧
        (g.fullDev ≤ g.delta.natAbs → m = 10 * (c / 10)) ∧
        (g.delta.natAbs ≤ g.fullDev →
          c * (g.delta.natAbs - g.deadband) < (m + 10) * (g.fullDev - g.deadband)))

/-- The generator's items stay in their ranges, the SL values within the SL bounds and on multiples of 10 W, a loss hold
only ARMED in LIVE and an injection only in TEST, through every command (R108, R114 to R117, R120, R123). -/
def Obligations.GeneratorInvariant : Prop :=
  ∀ (c : Instr) (s t : State), GeneratorRanges s → HoldLaw s → SlLaw s → exec c s = .next t →
    GeneratorRanges t ∧ HoldLaw t ∧ SlLaw t

/-- The four capacities are at every moment those of the current slot's awards in LIVE and the test capacities in TEST,
through every command (R109). -/
def Obligations.CapacityInvariant : Prop :=
  ∀ (c : Instr) (s t : State), ClockLaw s → BookLaw s → CapacityLaw s → exec c s = .next t → CapacityLaw t

/-! ### Dispatch -/

/-- PASS_TIMER_EXPIRY: one pass of cause TIMER. What it records, what it writes in the roster, the blocks it hands to the
bus, what the OPEN episodes take from it, BRANCH_AT_LIMIT, and nothing else (R127, R129, R137 to R140, R156, R167). -/
def Obligations.PassRecords : Prop :=
  ∀ s : State, ∃ t : State, exec .passTimerExpiry s = .next t ∧
    let goal : Int := (s.gen.flTarget + s.gen.slEffective).tdiv 10 * 10
    let setpoints (rs : List Site) (b : Nat) : List Int :=
      (rs.filter fun r => r.address.toNat / 256 = b).map Site.lastSetpoint
    t.disp.passNumber = (if s.disp.passNumber = BitVec.allOnes 32 then 1 else s.disp.passNumber + 1) ∧
    t.disp.passes = s.disp.passes + 1 ∧ t.disp.cause = some .timer ∧ t.disp.target = goal ∧
    t.disp.direction = (if 0 < goal then some .up else if goal < 0 then some .down else none) ∧
    t.disp.dispatched = (t.roster.map Site.lastSetpoint).sum ∧
    t.disp.shortfall = goal.natAbs - t.disp.dispatched.natAbs ∧
    t.disp.delivered = ((s.roster.filter fun r => r.freshness ≠ .silent).map fun r => r.measured.getD 0).sum ∧
    t.disp.branches.length = 16 ∧
    (∀ b < 16, ∃ x : BranchLoad, t.disp.branches[b]? = some x ∧
      x.exportSum = ((setpoints t.roster b).filter fun y => 0 < y).sum ∧
      x.importSum = ((setpoints t.roster b).filter fun y => y < 0).sum) ∧
    t.roster.map (fun r => { r with lastSetpoint := 0 }) = s.roster.map (fun r => { r with lastSetpoint := 0 }) ∧
    { t.bus with queue := [] } = { s.bus with queue := [] } ∧
    (s.roster = [] ∨ (s.bus.state ≠ .running ∧ s.bus.state ≠ .backoff) → t.bus.queue = s.bus.queue) ∧
    (s.roster ≠ [] → s.bus.state = .running ∨ s.bus.state = .backoff →
      t.bus.queue.flatMap Block.entries =
          t.roster.map (fun r => ⟨r.address, r.lastSetpoint, decide (r.lifecycle = .leaving)⟩) ∧
        (∀ b ∈ t.bus.queue, b.pass = t.disp.passNumber ∧ b.taken = t.disp.passes ∧ b.freeze = s.freeze ∧ b.entries ≠ [] ∧
          b.entries.length ≤ 32) ∧
        ∀ b ∈ t.bus.queue.dropLast, b.entries.length = 32) ∧
    t.journal = { s.journal with records := s.journal.records.map fun e =>
      if e.state = .isOpen then
        let figure := (match e.kind with
          | .fl => s.journal.fl
          | .sl => s.journal.sl)
        let mine := (match e.direction with
          | .up => t.disp.delivered
          | .down => -t.disp.delivered)
        { e with
          targetIntegral := e.targetIntegral + figure.natAbs
          deliveredIntegral := e.deliveredIntegral + (max 0 mine).toNat
          peakDelivered := max e.peakDelivered (max 0 mine).toNat
          maxShortfall := if t.disp.shortfall = 0 then e.maxShortfall
            else some (max (e.maxShortfall.getD 0) t.disp.shortfall)
          flags := { e.flags with freeze := e.flags.freeze || s.freeze } }
      else e } ∧
    ((∃ b < 16, ∃ x y : BranchLoad, s.disp.branches[b]? = some x ∧ t.disp.branches[b]? = some y ∧ x.saturated = false ∧
        y.saturated = true) → t.linkN = s.linkN.raise .branchAtLimit) ∧
    ((∀ (b : Nat) (x y : BranchLoad), s.disp.branches[b]? = some x → t.disp.branches[b]? = some y →
        x.saturated = false → y.saturated = false) →
      t.linkN = s.linkN) ∧
    t = { s with roster := t.roster, disp := t.disp, bus := t.bus, journal := t.journal, linkN := t.linkN }

/-- In every pass the sum of all setpoints equals, with the sign of the target, the smaller of the target's magnitude and
the dispatch capacity, and is zero while FREEZE is asserted; capacity, dispatched sum and shortfall are recorded so; every
setpoint has the target's sign or is 0, and is 0 for a site without weight (R129, R130, R135, R136). -/
def Obligations.PassTotal : Prop :=
  ∀ (c : Instr) (s t : State), RosterLaw s → WindowLaw s → TakesPass c s → exec c s = .next t →
    let goal : Int := (t.gen.flTarget + t.gen.slEffective).tdiv 10 * 10
    let zero : Prop := (∀ r ∈ t.roster, r.lastSetpoint = 0) ∧ t.disp.capacity = 0 ∧ t.disp.dispatched = 0 ∧
      t.disp.branches = List.replicate 16 ⟨0, 0, false⟩
    (goal = 0 ∨ t.freeze = true → zero ∧ t.disp.shortfall = goal.natAbs) ∧
    ∀ d : Direction, t.freeze = false → (d = .up ∧ 0 < goal ∨ d = .down ∧ goal < 0) →
      let total := min goal.natAbs (dispatchBound s d)
      (t.roster.map Site.lastSetpoint).sum = goal.sign * (total : Int) ∧
      t.disp.dispatched = goal.sign * (total : Int) ∧ t.disp.capacity = dispatchBound s d ∧
      t.disp.shortfall = goal.natAbs - total ∧
      ∀ r ∈ t.roster, 0 ≤ r.lastSetpoint * goal ∧ (r.dw d = 0 → r.lastSetpoint = 0)

/-- No setpoint of a pass exceeds the site's dispatch weight in the pass's direction; each is a multiple of 10 W; a site
whose weight is 0 receives 0 (R134, R135). And how a pass allocates: at or above capacity, a branch whose limit cuts it is
saturated and the others get their full weights (R131); below it, the saturated branches are those whose limit lies under
their share of what the others are left, and those others form one group (R132); every group is divided by R134, a step
passed over only where it would carry a limited branch of the remaining group above its limit. -/
def Obligations.PassEachSite : Prop :=
  ∀ (c : Instr) (s t : State), RosterLaw s → WindowLaw s → TakesPass c s → exec c s = .next t →
    (∀ r ∈ t.roster, r.lastSetpoint % 10 = 0 ∧
      (0 < t.disp.target → 0 ≤ r.lastSetpoint ∧ r.lastSetpoint ≤ r.dw .up) ∧
      (t.disp.target < 0 → r.lastSetpoint ≤ 0 ∧ -(r.dw .down : Int) ≤ r.lastSetpoint)) ∧
    ∀ d : Direction, t.freeze = false → (d = .up ∧ 0 < t.disp.target ∨ d = .down ∧ t.disp.target < 0) →
      let goal := t.disp.target.natAbs
      let m (r : Site) : Nat := r.lastSetpoint.natAbs
      let limit := s.windows.inForce.limit d
      let weight := dispatchWeight s d
      let flag (b : Nat) : Bool := (t.disp.branches.getD b ⟨0, 0, false⟩).saturated
      let branches (f : Bool) : List Nat := (List.range 16).filter fun b => flag b = f
      let rest := goal - ((branches true).map fun b => (limit b).getD 0).sum
      (∀ b < 16, flag b = true → ∃ l, limit b = some l ∧
        DividedBy d (fun _ => none) (t.roster.filter fun r => branchOf r.address = b ∧ 0 < r.dw d) l m) ∧
      (dispatchBound s d ≤ goal →
        (∀ b < 16, flag b = true ↔ ∃ l, limit b = some l ∧ l < weight b) ∧
          ∀ r ∈ t.roster, flag (branchOf r.address) = false → m r = r.dw d) ∧
      (goal < dispatchBound s d →
        (∀ b < 16, flag b = true ↔ ∃ l, limit b = some l ∧
          l * ((branches false).map weight).sum < rest * weight b) ∧
        DividedBy d limit (t.roster.filter fun r => flag (branchOf r.address) = false ∧ 0 < r.dw d) rest m)

/-- In every pass the export setpoints of a branch with an export limit do not exceed it in sum, and likewise for import; a
branch is flagged saturated only where its sum is exactly its limit; under FREEZE, or with T' = 0, every sum is 0 and every
flag clear (R131 to R133, R136, R137). -/
def Obligations.PassBranchLimits : Prop :=
  ∀ (c : Instr) (s t : State), RosterLaw s → WindowLaw s → TakesPass c s → exec c s = .next t →
    ∀ (b : Nat) (x : BranchLoad), t.disp.branches[b]? = some x → let w := t.windows.inForce.branch b
      (t.freeze = true ∨ t.disp.target = 0 → x = ⟨0, 0, false⟩) ∧
      (∀ l, w.exportLimit = some l → x.exportSum ≤ l) ∧
      (∀ l, w.importLimit = some l → -(l : Int) ≤ x.importSum) ∧
      (x.saturated = true → 0 < t.disp.target → ∃ l : Nat, w.exportLimit = some l ∧ x.exportSum = l) ∧
      (x.saturated = true → t.disp.target < 0 → ∃ l : Nat, w.importLimit = some l ∧ x.importSum = -(l : Int))

/-! ### Fleet bus -/

/-- BUS_ENABLE, BUS_DISABLE, BUS_CONFIG and BUS_RESTORE in every bus state (R148 to R151). -/
def Obligations.BusRequests : Prop :=
  ∀ (p : Port) (t : Telegram) (s : State), let d := s.dequeue p
    let answerOf (b : Bus) : ResponseBody := .bus b.state b.config b.heldConfig b.collisions
    let disabled : Bus := { s.bus with
      state := .disabled, frame := .idle, queue := [], collisions := 0, backoff := none
      config := s.bus.heldConfig.getD s.bus.config, heldConfig := none }
    let stays (i : Instr) (r : ResultCode) : Prop := Answers i s p t r (answerOf s.bus) d
    let moves (i : Instr) (b : Bus) : Prop := Answers i s p t .ok (answerOf b)
      { d with bus := b, roster := s.roster.filter fun r => r.lifecycle ≠ .leaving }
    (Admitted s p .busEnable t →
      (s.bus.state = .disabled → let b : Bus := { s.bus with state := .running, pointer := 0, collisions := 0 }
        Answers (.busEnable p) s p t .ok (answerOf b) { d with bus := b }) ∧
      (s.bus.state ≠ .disabled → stays (.busEnable p) .notNow)) ∧
    (Admitted s p .busDisable t →
      (s.bus.state = .running → s.bus.frame = .idle → moves (.busDisable p) disabled) ∧
      (s.bus.state = .running → s.bus.frame ≠ .idle →
        moves (.busDisable p) { s.bus with state := .draining, queue := [] }) ∧
      (s.bus.state = .backoff ∨ s.bus.state = .fault → moves (.busDisable p) disabled) ∧
      (s.bus.state = .disabled ∨ s.bus.state = .draining → stays (.busDisable p) .ok)) ∧
    (∀ rate window : Nat, Admitted s p (.busConfig rate window) t →
      let i : Instr := .busConfig p rate window
      ((rate ≠ 250000 ∧ rate ≠ 500000 ∧ rate ≠ 1000000) ∨ window < 20 ∨ 200 < window → stays i .badValue) ∧
      ∀ r : BusRate, 20 ≤ window → window ≤ 200 → 10000000 = rate * r.bitTime →
        (s.bus.state = .disabled → let b : Bus := { s.bus with config := ⟨r, window⟩ }
          Answers i s p t .ok (answerOf b) { d with bus := b }) ∧
        (s.bus.state = .draining → let b : Bus := { s.bus with heldConfig := some ⟨r, window⟩ }
          Answers i s p t .held (answerOf b) { d with bus := b }) ∧
        (s.bus.state ≠ .disabled → s.bus.state ≠ .draining → stays i .notNow)) ∧
    (Admitted s p .busRestore t →
      (s.bus.state = .fault → let b : Bus := { s.bus with state := .running, collisions := 0 }
        Answers (.busRestore p) s p t .ok (answerOf b) { d with bus := b }) ∧
      (s.bus.state ≠ .fault → stays (.busRestore p) .notNow))

/-- The arbiter and the frames it begins: DISPATCH_BLOCK, POLL, POLL_SENT and BACKOFF_EXPIRY (R147, R152, R153, R157,
R159, R161). An event that cannot happen in the present state changes nothing (log 1). Under FREEZE one DISPATCH_BLOCK
discards one block (log 22). And what a frame in transmission puts on the line: its bytes (R183), its levels from leader to
guard (R146, R147), FBDE asserted exactly while it is in transmission, FBTX high outside it (R145, R147). A poll is begun for
the record that stands at its address, which the model marks (log 27). -/
def Obligations.Arbiter : Prop :=
  (∀ s : State, let b := s.bus
    let free : Prop := b.state = .running ∧ b.frame = .idle
    let next (x : Address) : Option Site := s.roster.find? fun r => x.toNat ≤ r.address.toNat
    let ended (u : State) : State := { u with
      bus := { u.bus with pointer := 0 }, book := { s.book with evalRequests := s.book.evalRequests + 1 } }
    let polling (a : Address) (u : State) : State := { u with
      roster := s.roster.map fun r => { r with polled := decide (r.address = a) }
      bus := { b with frame := .poll a b.items .transmitting, pointer := a + 1 } }
    (¬free → exec .dispatchBlock s = .next s ∧ exec .poll s = .next s) ∧
    (b.queue = [] → exec .dispatchBlock s = .next s) ∧
    (∀ x rest, free → b.queue = x :: rest →
      exec .poll s = .next s ∧
      (s.freeze = true → x.freeze = false → exec .dispatchBlock s = .next { s with bus := { b with queue := rest } }) ∧
      (s.freeze = false ∨ x.freeze = true →
        exec .dispatchBlock s = .next { s with bus := { b with queue := rest, frame := .block x } })) ∧
    (free → b.queue = [] →
      (∀ r, next b.pointer = some r → r.address ≠ 0xFFF → exec .poll s = .next (polling r.address s)) ∧
      (∀ r, next b.pointer = some r → r.address = 0xFFF →
        exec .poll s = .next (ended (polling r.address s))) ∧
      (next b.pointer = none → b.pointer = 0 → exec .poll s = .next s) ∧
      (next b.pointer = none → b.pointer ≠ 0 → next 0 = none → exec .poll s = .next (ended s)) ∧
      ∀ r, next b.pointer = none → b.pointer ≠ 0 → next 0 = some r → r.address ≠ 0xFFF →
        exec .poll s = .next (polling r.address (ended s))) ∧
    (∀ a i, b.frame = .poll a i .transmitting →
      exec .pollSent s = .next { s with bus := { b with collisions := 0, frame := .poll a i .awaiting } }) ∧
    ((∀ a i, b.frame ≠ .poll a i .transmitting) → exec .pollSent s = .next s) ∧
    (b.state = .backoff → exec .backoffExpiry s = .next { s with bus := { b with state := .running, backoff := none } }) ∧
    (b.state ≠ .backoff → exec .backoffExpiry s = .next s)) ∧
  (∀ f : Frame, let sends : Prop := (∃ a i, f = .poll a i .transmitting) ∨ ∃ x, f = .block x
    (f.driving = true ↔ sends) ∧ (¬sends → f.bytes = [] ∧ f.levels = [] ∧ ∀ n, f.fbtx n = true) ∧
      (∀ n, f.fbtx n = f.levels.getD n true) ∧
      (sends → f.levels = List.replicate 14 false ++ List.replicate 2 true ++ f.bytes.flatMap busLevels ++
        List.replicate 2 true)) ∧
  let checked (bs : List Byte) : List Byte := bs ++ [(crc16 bs).extractLsb' 8 8, (crc16 bs).extractLsb' 0 8]
  let place (a : Address) : List Byte := [BitVec.ofNat 8 (a.toNat / 256), BitVec.ofNat 8 a.toNat]
  (∀ a i, (Frame.poll a i .transmitting).bytes =
    checked ([0x71] ++ place a ++ [BitVec.ofNat 8 ((if i.household then 2 else 0) + if i.pv then 4 else 0)])) ∧
  ∀ x : Block, (Frame.block x).bytes = checked ([0x72, BitVec.ofNat 8 x.entries.length] ++ x.entries.flatMap fun e =>
    place e.address ++
      let w : Half := BitVec.ofInt 16 (e.setpoint.tdiv 10)
      [w.extractLsb' 8 8, w.extractLsb' 0 8])

/-- The reply to a poll: REPLY_START, REPLY_WINDOW_EXPIRY, RATE_CHECK_FAILED, REPLY_PARITY_ERROR, POLL_END_ON_QUIET,
REPLY_GAP and REPORT, with the outcomes and their order (R21, R22, R153 to R155), and the end of the poll: idle, or out of
DRAINING into DISABLED (R149). A character is a low start bit, the byte with the least significant bit first, odd parity and a
high stop bit; a reply with any other is no report, since reception stopped there (R146). An event that cannot happen
in the present state changes nothing (log 1). That bytes of a length their markers do not fix are no
reply, and that the address is compared in all 16 bits, is the model's reading (log 21); the outcome and the report go into
the record the poll was begun for, and are discarded where it was deleted since, the address enrolled again or not (R155, by
the model's mark, log 27). And the layout of a REPORT (R183). -/
def Obligations.Replies : Prop :=
  let bad (c : BitVec 11) : Prop := c.getLsbD 0 = true ∨ ((List.range' 1 9).countP fun i => c.getLsbD i) % 2 = 0 ∨
    c.getLsbD 10 = false
  (∀ bs : List Byte, let two (i : Nat) : Nat := (bs.getD i 0).toNat * 256 + (bs.getD (i + 1) 0).toNat
    let on (i : Nat) : Bool := (bs.getD 8 0).getLsbD i
    let one (i : Nat) : Nat := if on i = true then 1 else 0
    let q := reportOf bs
    (completeReport bs = true ↔ 9 ≤ bs.length ∧ bs.length = 11 + 2 * (one 0 + one 1 + one 2)) ∧
    q.address.toNat = two 1 ∧ q.soc = two 3 ∧ q.measured = (if two 5 < 32768 then (two 5 : Int) else (two 5 : Int) - 65536) ∧
    (q.status = .ready ↔ bs.getD 7 0 = 0x01) ∧
    q.available = (if on 0 = true then some (two 9) else none) ∧
    q.household = (if on 1 = true then some (two (9 + 2 * one 0)) else none) ∧
    q.pv = (if on 2 = true then some (two (9 + 2 * (one 0 + one 1))) else none) ∧
    ∀ hi lo, checkMatches (bs ++ [hi, lo]) = true ↔
      hi = (crc16 bs).extractLsb' 8 8 ∧ lo = (crc16 bs).extractLsb' 0 8) ∧
  (∀ c : BitVec 11, ¬bad c ↔ ∃ b, c = busCharacter b) ∧ (∀ b : Byte, levelsOf (busCharacter b) = busLevels b) ∧
  (∀ s : State, (∀ a items ph, s.bus.frame ≠ .poll a items ph) → ∀ span chars,
    exec .replyStart s = .next s ∧ exec .replyWindowExpiry s = .next s ∧ exec .pollEndOnQuiet s = .next s ∧
      exec (.rateCheckFailed span) s = .next s ∧ exec .replyParityError s = .next s ∧ exec .replyGap s = .next s ∧
      exec (.report chars) s = .next s) ∧
  ∀ (a : Address) (items : ItemSet) (ph : PollPhase) (s : State), s.bus.frame = .poll a items ph →
    let at' (x : PollPhase) : State := { s with bus := { s.bus with frame := .poll a items x } }
    let ended (u : State) : State := if s.bus.state = .draining then
        { u with
          bus := { s.bus with
            state := .disabled, frame := .idle, queue := [], collisions := 0, backoff := none
            config := s.bus.heldConfig.getD s.bus.config, heldConfig := none }
          roster := u.roster.filter fun r => r.lifecycle ≠ .leaving }
      else { u with bus := { s.bus with frame := .idle } }
    let ends (o : PollOutcome) : State := ended { s with
      roster := s.roster.map fun r => if r.address = a ∧ r.polled = true then { r with lastPoll := some o } else r }
    let record? := s.roster.find? fun r => r.address = a ∧ r.polled = true
    (ph = .awaiting → exec .replyStart s = .next (at' .receiving) ∧ exec .replyWindowExpiry s = .next (ends .noReply)) ∧
    (ph ≠ .awaiting → exec .replyStart s = .next s ∧ exec .replyWindowExpiry s = .next s) ∧
    (∀ o, ph = .failed o → exec .pollEndOnQuiet s = .next (ends o)) ∧
    ((∀ o, ph ≠ .failed o) → exec .pollEndOnQuiet s = .next s) ∧
    (ph ≠ .receiving → ∀ span chars, exec (.rateCheckFailed span) s = .next s ∧
      exec .replyParityError s = .next s ∧ exec .replyGap s = .next s ∧ exec (.report chars) s = .next s) ∧
    (ph = .receiving →
      exec .replyParityError s = .next (at' (.failed .parity)) ∧
      (∀ chars, (∃ c ∈ chars, bad c) → exec (.report chars) s = .next s) ∧
      exec .replyGap s = .next (ends .check) ∧
      (∀ span, (match s.bus.config.rate with
          | .r250k => span < 190 ∨ 210 < span
          | .r500k => span < 95 ∨ 105 < span
          | .r1000k => span < 48 ∨ 52 < span) → exec (.rateCheckFailed span) s = .next (at' (.failed .rate))) ∧
      (∀ span, (match s.bus.config.rate with
          | .r250k => 190 ≤ span ∧ span ≤ 210
          | .r500k => 95 ≤ span ∧ span ≤ 105
          | .r1000k => 48 ≤ span ∧ span ≤ 52) → exec (.rateCheckFailed span) s = .next s) ∧
      ∀ bytes, let i : Instr := .report (bytes.map busCharacter)
        (completeReport bytes = false → exec i s = .next s) ∧
        (completeReport bytes = true →
          (bytes.getD 0 0 ≠ 0xF0 ∨ checkMatches bytes = false → exec i s = .next (ends .check)) ∧
          (bytes.getD 0 0 = 0xF0 → checkMatches bytes = true → (reportOf bytes).address ≠ a.zeroExtend 16 →
            exec i s = .next (ends .noReply)) ∧
          (bytes.getD 0 0 = 0xF0 → checkMatches bytes = true → (reportOf bytes).address = a.zeroExtend 16 →
            let q := reportOf bytes
            let taken : State := { s with roster := s.roster.map fun r => if r.address = a ∧ r.polled = true then { r with
              soc := some (min q.soc 1000), measured := some (max (-(r.rated : Int)) (min r.rated q.measured))
              status := some q.status, available := q.available.map fun x => min x r.rated, household := q.household
              pv := q.pv, freshness := .fresh, freshnessTimer := some 0, lastReport := s.now, lastPoll := some .good } else r }
            (record? = none → exec i s = .next (ended s)) ∧
            ((∃ r, record? = some r ∧ r.status = some .ready) → q.status = .offline →
              exec i s = .next (ended { taken with
                book := { s.book with evalRequests := s.book.evalRequests + 1 } })) ∧
            ((∀ r, record? = some r → r.status ≠ some .ready) ∨ q.status = .ready →
              exec i s = .next (ended taken)))))

/-- The ends of frames: BLOCK_COMPLETE ends the LEAVING records its block ends and clears the collision count;
COLLISION aborts the frame and climbs the ladder to BACKOFF or FAULT, or ends DRAINING (R18, R149, R158, R160, R161).
COLLISION is recorded in the record the poll was begun for, and discarded where it was deleted since (R155, R160, by the
model's mark, log 27); that a block ends only the LEAVING records older than its pass follows R18 (log 15). An event that
cannot happen in the present state changes nothing (log 1). -/
def Obligations.FrameEnds : Prop :=
  ∀ s : State, let b := s.bus
    let disabled (rs : List Site) : State := { s with
      bus := { b with
        state := .disabled, frame := .idle, queue := [], collisions := 0, backoff := none
        config := b.heldConfig.getD b.config, heldConfig := none }
      roster := rs.filter fun r => r.lifecycle ≠ .leaving }
    let ladder (rs : List Site) (q : List Block) : State := if b.collisions < 3 then
        { s with
          roster := rs
          bus := { b with
            queue := q, state := .backoff, frame := .idle, collisions := b.collisions + 1
            backoff := some ((b.collisions + 1) * 10000) } }
      else ((({ s with
        roster := rs.filter fun r => r.lifecycle ≠ .leaving
        bus := { b with state := .fault, frame := .idle, queue := [], collisions := 4, backoff := none }
        book := { s.book with evalRequests := s.book.evalRequests + 1 } } : State).raise .a .busFault).raise .s
          .busFault).raise .n .busFault
    ((∀ x, b.frame ≠ .block x) → exec .blockComplete s = .next s) ∧
    (∀ x, b.frame = .block x →
      let rest := s.roster.filter fun r => ¬(r.lifecycle = .leaving ∧
        (∃ e ∈ x.entries, e.leaving = true ∧ e.address = r.address) ∧
        ∃ n, r.leavingSince = some n ∧ n < x.taken)
      (b.state ≠ .draining →
        exec .blockComplete s = .next { s with roster := rest, bus := { b with collisions := 0, frame := .idle } }) ∧
      (b.state = .draining → exec .blockComplete s = .next (disabled rest)) ∧
      (b.state ≠ .draining → exec .collision s = .next (ladder s.roster [])) ∧
      (b.state = .draining → exec .collision s = .next (disabled s.roster))) ∧
    (∀ a i, b.frame = .poll a i .transmitting →
      let rs := s.roster.map fun r => if r.address = a ∧ r.polled = true then { r with lastPoll := some .collision } else r
      (b.state ≠ .draining → exec .collision s = .next (ladder rs b.queue)) ∧
      (b.state = .draining → exec .collision s = .next (disabled rs))) ∧
    ((∀ x, b.frame ≠ .block x) → (∀ a i, b.frame ≠ .poll a i .transmitting) → exec .collision s = .next s)

/-- The items of the bus stay in their ranges, the reply windows in 20..200, and agree with its state through every command,
and the transmit queue holds blocks of one pass (R145, R148, R156, R161, R162). -/
def Obligations.BusInvariant : Prop :=
  ∀ (c : Instr) (s t : State), exec c s = .next t → (BusLaw s → BusLaw t) ∧ (OnePassQueue s → OnePassQueue t)

/-- Every dispatch block whose transmission begins while FREEZE is asserted carries zero for every site, and none of an
older pass stays in flight or queued: kept by every command (R159). -/
def Obligations.FreezeBlocksInvariant : Prop :=
  ∀ (c : Instr) (s t : State), FreezeLaw s → exec c s = .next t → FreezeLaw t ∧
    ∀ b, s.bus.frame ≠ .block b → t.bus.frame = .block b → s.freeze = true → ∀ e ∈ b.entries, e.setpoint = 0

/-! ### Activation journal -/

/-- A change of figure acts on the OPEN record of its kind by the table of R164; the generator hands a change of each of its
two figures, SL before FL (that order is the model's choice, log 14), and no change where the figure stands (R113, R117,
R164). What opening a record does: its number
and its fields (R163), CONCURRENT on both, TEST by the mark (R165), and what a full journal drops, with LOSS_BEFORE for a
record that was not READ (R168). -/
def Obligations.FigureChanges : Prop :=
  (∀ (s : State) (k : Kind) (x : Int), JournalLaw s →
    let j := (match k with
      | .fl => { s.journal with fl := x }
      | .sl => { s.journal with sl := x })
    let mine (e : Episode) : Prop := e.state = .isOpen ∧ e.kind = k
    let changed (f : Episode → Episode) : Journal :=
      { j with records := s.journal.records.map fun e => if e.state = .isOpen ∧ e.kind = k then f e else e }
    ((∀ e ∈ s.journal.records, ¬mine e) →
      s.figureChange k x = { s with journal := if x = 0 then j else j.openRecord k x s.now }) ∧
    ∀ e ∈ s.journal.records, mine e →
      (x = 0 → s.figureChange k x = { s with journal := changed fun e => { e with closingTimer := true } }) ∧
      (x ≠ 0 → (e.direction = .up ↔ 0 < x) → s.figureChange k x = { s with
        journal := changed fun e => { e with closingTimer := false, peakTarget := max e.peakTarget x.natAbs } }) ∧
      (x ≠ 0 → ¬(e.direction = .up ↔ 0 < x) → s.figureChange k x = ({ s with
        journal := (changed fun e => { e with state := .closed, finish := s.now, closingTimer := false }).openRecord k x
          s.now } : State).raise .s .episodeClosed)) ∧
    (∀ (s : State) (g : Generator), let s1 : State := { s with gen := g }
      let s2 := if g.slEffective = s.gen.slEffective then s1 else s1.figureChange .sl g.slEffective
      s.moveGen g = if g.flTarget = s.gen.flTarget then s2 else s2.figureChange .fl g.flTarget) ∧
    ∀ (j : Journal) (k : Kind) (x : Int) (now : Option Time), x ≠ 0 →
      let other (e : Episode) : Prop := e.state = .isOpen ∧ e.kind ≠ k
      let marked := j.records.map fun e =>
        if e.state = .isOpen ∧ e.kind ≠ k then { e with flags := { e.flags with concurrent := true } } else e
      let n : Serial := if j.counter = BitVec.allOnes 32 then 1 else j.counter + 1
      let opens (kept : List Episode) (loss : Bool) : Prop := ∃ both : Bool,
        (both = true ↔ ∃ e ∈ j.records, other e) ∧
        j.openRecord k x now = { j with
          counter := n
          records := kept ++ [⟨n, k, if 0 < x then .up else .down, .isOpen, now, none, x.natAbs, 0, 0, 0, none,
            ⟨j.testMark, false, false, false, both, loss⟩, false⟩] }
      (marked.length < 32 → opens marked false) ∧
      (∀ pre e post, 32 ≤ marked.length → marked = pre ++ e :: post →
        (e.state = .read → (∀ y ∈ pre, y.state ≠ .read) → opens (pre ++ post) false) ∧
        (e.state = .closed → (∀ y ∈ pre, y.state ≠ .closed) → (∀ y ∈ marked, y.state ≠ .read) →
          opens (pre ++ post) true))

/-- CLOSING_TIMER_EXPIRY closes the record with EPISODE_CLOSED (R164); READ_JOURNAL returns up to four records and
marks the CLOSED ones READ (R169), each with its closing timer, which is the model's choice (log 28); RELEASE_JOURNAL drops
the READ ones up to its number (R170). An event that cannot happen in the present state changes nothing (log 1). -/
def Obligations.JournalCommands : Prop :=
  ∀ s : State, let rs := s.journal.records
    (∀ k : Kind,
      ((∀ e ∈ rs, e.state = .isOpen → e.kind = k → e.closingTimer = false) →
        exec (.closingTimerExpiry k) s = .next s) ∧
      ((∃ e ∈ rs, e.state = .isOpen ∧ e.kind = k ∧ e.closingTimer = true) →
        exec (.closingTimerExpiry k) s = .next (({ s with journal := { s.journal with records := rs.map fun e =>
          if e.state = .isOpen ∧ e.kind = k ∧ e.closingTimer = true then
            { e with state := .closed, finish := s.now, closingTimer := false } else e } } : State).raise .s
              .episodeClosed))) ∧
    ∀ (p : Port) (n : Serial) (t : Telegram), let d := s.dequeue p
      (Admitted s p (.readJournal n) t →
        let from' := rs.filter fun e => (e.number - n).toNat < 2147483648
        let found := from'.take 4
        Answers (.readJournal p n) s p t .ok (.journal (found.map fun e => { e with
            targetIntegral := e.targetIntegral / 36000, deliveredIntegral := e.deliveredIntegral / 36000 })
          s.journal.counter rs.length (decide (4 < from'.length)))
          { d with journal := { s.journal with records := rs.map fun e =>
            if e.state = .closed ∧ ∃ f ∈ found, f.number = e.number then { e with state := .read } else e } }) ∧
      (Admitted s p (.releaseJournal n) t →
        let kept := rs.filter fun e => ¬(e.state = .read ∧ (e.number = n ∨ 2147483648 ≤ (e.number - n).toNat))
        Answers (.releaseJournal p n) s p t .ok (.journalReleased (rs.length - kept.length) kept.length)
          { d with journal := { s.journal with records := kept } })

/-- The journal's stored figures are the generator's at every moment, through every command (R163, R164, R166). -/
def Obligations.FigureInvariant : Prop :=
  ∀ (c : Instr) (s t : State), FigureLaw s → exec c s = .next t → FigureLaw t

/-- At most 32 records and one OPEN record of each kind; a figure that is not 0 has its OPEN record, of the figure's sign;
the closing timer runs exactly while the figure is 0: kept by every command, for every value of the free order of R166. -/
def Obligations.EpisodeInvariant : Prop :=
  ∀ (c : Instr) (s t : State), JournalLaw s → EpisodeLaw s → exec c s = .next t → JournalLaw t ∧ EpisodeLaw t
end

