-- ==== Sys2Proof/Laws/State.lean ====
section
/-! SUPPORT. What the updates of the state leave as it was: one lemma per field per update, for the access to the links and
for the operations that several commands share. -/

namespace Sys2Proof.Machine

variable (s : State) (p q : Port) (l : Link)

/-! ### Reading a link through an update -/

@[simp] theorem link_a : s.link .a = s.linkA := rfl
@[simp] theorem link_s : s.link .s = s.linkS := rfl
@[simp] theorem link_n : s.link .n = s.linkN := rfl
@[simp] theorem link_setLink_same : (s.setLink p l).link p = l := by cases p <;> rfl

theorem link_setLink_ne (h : q ≠ p) : (s.setLink p l).link q = s.link q := by cases p <;> cases q <;> first | rfl | exact absurd rfl h

@[simp] theorem setLink_setLink (l' : Link) : (s.setLink p l).setLink p l' = s.setLink p l' := by cases p <;> rfl
@[simp] theorem setLink_link : s.setLink p (s.link p) = s := by cases p <;> rfl

@[simp] theorem link_with_pending (x : List Instr) : ({ s with pending := x }).link p = s.link p := by cases p <;> rfl
@[simp] theorem link_with_freeIndex (x : Nat) : ({ s with freeIndex := x }).link p = s.link p := by cases p <;> rfl
@[simp] theorem link_with_freeze (x : Bool) : ({ s with freeze := x }).link p = s.link p := by cases p <;> rfl
@[simp] theorem link_with_now (x : Option Time) : ({ s with now := x }).link p = s.link p := by cases p <;> rfl
@[simp] theorem link_with_roster (x : List Site) : ({ s with roster := x }).link p = s.link p := by cases p <;> rfl
@[simp] theorem link_with_windows (x : WindowTable) : ({ s with windows := x }).link p = s.link p := by cases p <;> rfl
@[simp] theorem link_with_book (x : Book) : ({ s with book := x }).link p = s.link p := by cases p <;> rfl
@[simp] theorem link_with_meter (x : Meter) : ({ s with meter := x }).link p = s.link p := by cases p <;> rfl
@[simp] theorem link_with_gen (x : Generator) : ({ s with gen := x }).link p = s.link p := by cases p <;> rfl
@[simp] theorem link_with_disp (x : Dispatcher) : ({ s with disp := x }).link p = s.link p := by cases p <;> rfl
@[simp] theorem link_with_bus (x : Bus) : ({ s with bus := x }).link p = s.link p := by cases p <;> rfl
@[simp] theorem link_with_journal (x : Journal) : ({ s with journal := x }).link p = s.link p := by cases p <;> rfl

theorem setLink_with_pending (x : List Instr) : ({ s with pending := x }).setLink p l = { s.setLink p l with pending := x } := by cases p <;> rfl
theorem setLink_with_freeIndex (x : Nat) : ({ s with freeIndex := x }).setLink p l = { s.setLink p l with freeIndex := x } := by cases p <;> rfl
theorem setLink_with_freeze (x : Bool) : ({ s with freeze := x }).setLink p l = { s.setLink p l with freeze := x } := by cases p <;> rfl
theorem setLink_with_now (x : Option Time) : ({ s with now := x }).setLink p l = { s.setLink p l with now := x } := by cases p <;> rfl
theorem setLink_with_roster (x : List Site) : ({ s with roster := x }).setLink p l = { s.setLink p l with roster := x } := by cases p <;> rfl
theorem setLink_with_windows (x : WindowTable) : ({ s with windows := x }).setLink p l = { s.setLink p l with windows := x } := by cases p <;> rfl
theorem setLink_with_book (x : Book) : ({ s with book := x }).setLink p l = { s.setLink p l with book := x } := by cases p <;> rfl
theorem setLink_with_meter (x : Meter) : ({ s with meter := x }).setLink p l = { s.setLink p l with meter := x } := by cases p <;> rfl
theorem setLink_with_gen (x : Generator) : ({ s with gen := x }).setLink p l = { s.setLink p l with gen := x } := by cases p <;> rfl
theorem setLink_with_disp (x : Dispatcher) : ({ s with disp := x }).setLink p l = { s.setLink p l with disp := x } := by cases p <;> rfl
theorem setLink_with_bus (x : Bus) : ({ s with bus := x }).setLink p l = { s.setLink p l with bus := x } := by cases p <;> rfl
theorem setLink_with_journal (x : Journal) : ({ s with journal := x }).setLink p l = { s.setLink p l with journal := x } := by cases p <;> rfl

/-! ### Replacing a link -/

@[simp] theorem setLink_pending : (s.setLink p l).pending = s.pending := by cases p <;> rfl
@[simp] theorem setLink_freeIndex : (s.setLink p l).freeIndex = s.freeIndex := by cases p <;> rfl
@[simp] theorem setLink_member : (s.setLink p l).member = s.member := by cases p <;> rfl
@[simp] theorem setLink_freeze : (s.setLink p l).freeze = s.freeze := by cases p <;> rfl
@[simp] theorem setLink_lrate : (s.setLink p l).lrate = s.lrate := by cases p <;> rfl
@[simp] theorem setLink_now : (s.setLink p l).now = s.now := by cases p <;> rfl
@[simp] theorem setLink_roster : (s.setLink p l).roster = s.roster := by cases p <;> rfl
@[simp] theorem setLink_windows : (s.setLink p l).windows = s.windows := by cases p <;> rfl
@[simp] theorem setLink_book : (s.setLink p l).book = s.book := by cases p <;> rfl
@[simp] theorem setLink_meter : (s.setLink p l).meter = s.meter := by cases p <;> rfl
@[simp] theorem setLink_gen : (s.setLink p l).gen = s.gen := by cases p <;> rfl
@[simp] theorem setLink_disp : (s.setLink p l).disp = s.disp := by cases p <;> rfl
@[simp] theorem setLink_bus : (s.setLink p l).bus = s.bus := by cases p <;> rfl
@[simp] theorem setLink_journal : (s.setLink p l).journal = s.journal := by cases p <;> rfl

/-! ### Raising a cause (R179) -/

@[simp] theorem raise_pending (c : Cause) : (s.raise p c).pending = s.pending := by cases p <;> rfl
@[simp] theorem raise_freeIndex (c : Cause) : (s.raise p c).freeIndex = s.freeIndex := by cases p <;> rfl
@[simp] theorem raise_member (c : Cause) : (s.raise p c).member = s.member := by cases p <;> rfl
@[simp] theorem raise_freeze (c : Cause) : (s.raise p c).freeze = s.freeze := by cases p <;> rfl
@[simp] theorem raise_lrate (c : Cause) : (s.raise p c).lrate = s.lrate := by cases p <;> rfl
@[simp] theorem raise_now (c : Cause) : (s.raise p c).now = s.now := by cases p <;> rfl
@[simp] theorem raise_roster (c : Cause) : (s.raise p c).roster = s.roster := by cases p <;> rfl
@[simp] theorem raise_windows (c : Cause) : (s.raise p c).windows = s.windows := by cases p <;> rfl
@[simp] theorem raise_book (c : Cause) : (s.raise p c).book = s.book := by cases p <;> rfl
@[simp] theorem raise_meter (c : Cause) : (s.raise p c).meter = s.meter := by cases p <;> rfl
@[simp] theorem raise_gen (c : Cause) : (s.raise p c).gen = s.gen := by cases p <;> rfl
@[simp] theorem raise_disp (c : Cause) : (s.raise p c).disp = s.disp := by cases p <;> rfl
@[simp] theorem raise_bus (c : Cause) : (s.raise p c).bus = s.bus := by cases p <;> rfl
@[simp] theorem raise_journal (c : Cause) : (s.raise p c).journal = s.journal := by cases p <;> rfl
@[simp] theorem raise_a_linkS (c : Cause) : (s.raise .a c).linkS = s.linkS := rfl
@[simp] theorem raise_a_linkN (c : Cause) : (s.raise .a c).linkN = s.linkN := rfl
@[simp] theorem raise_s_linkA (c : Cause) : (s.raise .s c).linkA = s.linkA := rfl
@[simp] theorem raise_s_linkN (c : Cause) : (s.raise .s c).linkN = s.linkN := rfl
@[simp] theorem raise_n_linkA (c : Cause) : (s.raise .n c).linkA = s.linkA := rfl
@[simp] theorem raise_n_linkS (c : Cause) : (s.raise .n c).linkS = s.linkS := rfl

/-! ### Raising a cause on a condition -/

@[simp] theorem raiseIf_pending (b : Bool) (c : Cause) : (s.raiseIf b p c).pending = s.pending := by cases b <;> simp [State.raiseIf]
@[simp] theorem raiseIf_freeIndex (b : Bool) (c : Cause) : (s.raiseIf b p c).freeIndex = s.freeIndex := by cases b <;> simp [State.raiseIf]
@[simp] theorem raiseIf_member (b : Bool) (c : Cause) : (s.raiseIf b p c).member = s.member := by cases b <;> simp [State.raiseIf]
@[simp] theorem raiseIf_freeze (b : Bool) (c : Cause) : (s.raiseIf b p c).freeze = s.freeze := by cases b <;> simp [State.raiseIf]
@[simp] theorem raiseIf_lrate (b : Bool) (c : Cause) : (s.raiseIf b p c).lrate = s.lrate := by cases b <;> simp [State.raiseIf]
@[simp] theorem raiseIf_now (b : Bool) (c : Cause) : (s.raiseIf b p c).now = s.now := by cases b <;> simp [State.raiseIf]
@[simp] theorem raiseIf_roster (b : Bool) (c : Cause) : (s.raiseIf b p c).roster = s.roster := by cases b <;> simp [State.raiseIf]
@[simp] theorem raiseIf_windows (b : Bool) (c : Cause) : (s.raiseIf b p c).windows = s.windows := by cases b <;> simp [State.raiseIf]
@[simp] theorem raiseIf_book (b : Bool) (c : Cause) : (s.raiseIf b p c).book = s.book := by cases b <;> simp [State.raiseIf]
@[simp] theorem raiseIf_meter (b : Bool) (c : Cause) : (s.raiseIf b p c).meter = s.meter := by cases b <;> simp [State.raiseIf]
@[simp] theorem raiseIf_gen (b : Bool) (c : Cause) : (s.raiseIf b p c).gen = s.gen := by cases b <;> simp [State.raiseIf]
@[simp] theorem raiseIf_disp (b : Bool) (c : Cause) : (s.raiseIf b p c).disp = s.disp := by cases b <;> simp [State.raiseIf]
@[simp] theorem raiseIf_bus (b : Bool) (c : Cause) : (s.raiseIf b p c).bus = s.bus := by cases b <;> simp [State.raiseIf]
@[simp] theorem raiseIf_journal (b : Bool) (c : Cause) : (s.raiseIf b p c).journal = s.journal := by cases b <;> simp [State.raiseIf]

/-! ### Requesting an evaluation (R87) -/

@[simp] theorem requestEval_link : s.requestEval.link p = s.link p := by cases p <;> rfl
@[simp] theorem requestEval_records : s.requestEval.book.records = s.book.records := rfl
@[simp] theorem requestEval_expired : s.requestEval.book.expired = s.book.expired := rfl
@[simp] theorem requestEval_params : s.requestEval.book.params = s.book.params := rfl
@[simp] theorem requestEval_pending : (s.requestEval).pending = s.pending := rfl
@[simp] theorem requestEval_freeIndex : (s.requestEval).freeIndex = s.freeIndex := rfl
@[simp] theorem requestEval_member : (s.requestEval).member = s.member := rfl
@[simp] theorem requestEval_freeze : (s.requestEval).freeze = s.freeze := rfl
@[simp] theorem requestEval_lrate : (s.requestEval).lrate = s.lrate := rfl
@[simp] theorem requestEval_now : (s.requestEval).now = s.now := rfl
@[simp] theorem requestEval_roster : (s.requestEval).roster = s.roster := rfl
@[simp] theorem requestEval_windows : (s.requestEval).windows = s.windows := rfl
@[simp] theorem requestEval_meter : (s.requestEval).meter = s.meter := rfl
@[simp] theorem requestEval_gen : (s.requestEval).gen = s.gen := rfl
@[simp] theorem requestEval_disp : (s.requestEval).disp = s.disp := rfl
@[simp] theorem requestEval_bus : (s.requestEval).bus = s.bus := rfl
@[simp] theorem requestEval_journal : (s.requestEval).journal = s.journal := rfl
@[simp] theorem requestEval_linkA : (s.requestEval).linkA = s.linkA := rfl
@[simp] theorem requestEval_linkS : (s.requestEval).linkS = s.linkS := rfl
@[simp] theorem requestEval_linkN : (s.requestEval).linkN = s.linkN := rfl

/-! ### Taking a telegram (R175) -/

@[simp] theorem dequeue_pending : (s.dequeue p).pending = s.pending := by cases p <;> rfl
@[simp] theorem dequeue_freeIndex : (s.dequeue p).freeIndex = s.freeIndex := by cases p <;> rfl
@[simp] theorem dequeue_member : (s.dequeue p).member = s.member := by cases p <;> rfl
@[simp] theorem dequeue_freeze : (s.dequeue p).freeze = s.freeze := by cases p <;> rfl
@[simp] theorem dequeue_lrate : (s.dequeue p).lrate = s.lrate := by cases p <;> rfl
@[simp] theorem dequeue_now : (s.dequeue p).now = s.now := by cases p <;> rfl
@[simp] theorem dequeue_roster : (s.dequeue p).roster = s.roster := by cases p <;> rfl
@[simp] theorem dequeue_windows : (s.dequeue p).windows = s.windows := by cases p <;> rfl
@[simp] theorem dequeue_book : (s.dequeue p).book = s.book := by cases p <;> rfl
@[simp] theorem dequeue_meter : (s.dequeue p).meter = s.meter := by cases p <;> rfl
@[simp] theorem dequeue_gen : (s.dequeue p).gen = s.gen := by cases p <;> rfl
@[simp] theorem dequeue_disp : (s.dequeue p).disp = s.disp := by cases p <;> rfl
@[simp] theorem dequeue_bus : (s.dequeue p).bus = s.bus := by cases p <;> rfl
@[simp] theorem dequeue_journal : (s.dequeue p).journal = s.journal := by cases p <;> rfl

/-! ### Forming a response (R175, R182) -/

@[simp] theorem respond_pending (t : Telegram) (r : ResultCode) (b : ResponseBody) : (s.respond p t r b).pending = s.pending := by cases p <;> rfl
@[simp] theorem respond_freeIndex (t : Telegram) (r : ResultCode) (b : ResponseBody) : (s.respond p t r b).freeIndex = s.freeIndex := by cases p <;> rfl
@[simp] theorem respond_member (t : Telegram) (r : ResultCode) (b : ResponseBody) : (s.respond p t r b).member = s.member := by cases p <;> rfl
@[simp] theorem respond_freeze (t : Telegram) (r : ResultCode) (b : ResponseBody) : (s.respond p t r b).freeze = s.freeze := by cases p <;> rfl
@[simp] theorem respond_lrate (t : Telegram) (r : ResultCode) (b : ResponseBody) : (s.respond p t r b).lrate = s.lrate := by cases p <;> rfl
@[simp] theorem respond_now (t : Telegram) (r : ResultCode) (b : ResponseBody) : (s.respond p t r b).now = s.now := by cases p <;> rfl
@[simp] theorem respond_roster (t : Telegram) (r : ResultCode) (b : ResponseBody) : (s.respond p t r b).roster = s.roster := by cases p <;> rfl
@[simp] theorem respond_windows (t : Telegram) (r : ResultCode) (b : ResponseBody) : (s.respond p t r b).windows = s.windows := by cases p <;> rfl
@[simp] theorem respond_book (t : Telegram) (r : ResultCode) (b : ResponseBody) : (s.respond p t r b).book = s.book := by cases p <;> rfl
@[simp] theorem respond_meter (t : Telegram) (r : ResultCode) (b : ResponseBody) : (s.respond p t r b).meter = s.meter := by cases p <;> rfl
@[simp] theorem respond_gen (t : Telegram) (r : ResultCode) (b : ResponseBody) : (s.respond p t r b).gen = s.gen := by cases p <;> rfl
@[simp] theorem respond_disp (t : Telegram) (r : ResultCode) (b : ResponseBody) : (s.respond p t r b).disp = s.disp := by cases p <;> rfl
@[simp] theorem respond_bus (t : Telegram) (r : ResultCode) (b : ResponseBody) : (s.respond p t r b).bus = s.bus := by cases p <;> rfl
@[simp] theorem respond_journal (t : Telegram) (r : ResultCode) (b : ResponseBody) : (s.respond p t r b).journal = s.journal := by cases p <;> rfl

/-! ### Handing the journal a figure (R164, R166) -/

@[simp] theorem figureChange_pending (k : Kind) (x : Int) : (s.figureChange k x).pending = s.pending := by simp only [State.figureChange, State.raiseIf]; split <;> rfl
@[simp] theorem figureChange_freeIndex (k : Kind) (x : Int) : (s.figureChange k x).freeIndex = s.freeIndex := by simp only [State.figureChange, State.raiseIf]; split <;> rfl
@[simp] theorem figureChange_member (k : Kind) (x : Int) : (s.figureChange k x).member = s.member := by simp only [State.figureChange, State.raiseIf]; split <;> rfl
@[simp] theorem figureChange_freeze (k : Kind) (x : Int) : (s.figureChange k x).freeze = s.freeze := by simp only [State.figureChange, State.raiseIf]; split <;> rfl
@[simp] theorem figureChange_lrate (k : Kind) (x : Int) : (s.figureChange k x).lrate = s.lrate := by simp only [State.figureChange, State.raiseIf]; split <;> rfl
@[simp] theorem figureChange_now (k : Kind) (x : Int) : (s.figureChange k x).now = s.now := by simp only [State.figureChange, State.raiseIf]; split <;> rfl
@[simp] theorem figureChange_roster (k : Kind) (x : Int) : (s.figureChange k x).roster = s.roster := by simp only [State.figureChange, State.raiseIf]; split <;> rfl
@[simp] theorem figureChange_windows (k : Kind) (x : Int) : (s.figureChange k x).windows = s.windows := by simp only [State.figureChange, State.raiseIf]; split <;> rfl
@[simp] theorem figureChange_book (k : Kind) (x : Int) : (s.figureChange k x).book = s.book := by simp only [State.figureChange, State.raiseIf]; split <;> rfl
@[simp] theorem figureChange_meter (k : Kind) (x : Int) : (s.figureChange k x).meter = s.meter := by simp only [State.figureChange, State.raiseIf]; split <;> rfl
@[simp] theorem figureChange_gen (k : Kind) (x : Int) : (s.figureChange k x).gen = s.gen := by simp only [State.figureChange, State.raiseIf]; split <;> rfl
@[simp] theorem figureChange_disp (k : Kind) (x : Int) : (s.figureChange k x).disp = s.disp := by simp only [State.figureChange, State.raiseIf]; split <;> rfl
@[simp] theorem figureChange_bus (k : Kind) (x : Int) : (s.figureChange k x).bus = s.bus := by simp only [State.figureChange, State.raiseIf]; split <;> rfl
@[simp] theorem figureChange_linkA (k : Kind) (x : Int) : (s.figureChange k x).linkA = s.linkA := by simp only [State.figureChange, State.raiseIf]; split <;> rfl
@[simp] theorem figureChange_linkN (k : Kind) (x : Int) : (s.figureChange k x).linkN = s.linkN := by simp only [State.figureChange, State.raiseIf]; split <;> rfl

@[simp] theorem storeFigure_pending (k : Kind) (x : Int) : (s.storeFigure k x).pending = s.pending := rfl
@[simp] theorem storeFigure_freeIndex (k : Kind) (x : Int) : (s.storeFigure k x).freeIndex = s.freeIndex := rfl
@[simp] theorem storeFigure_member (k : Kind) (x : Int) : (s.storeFigure k x).member = s.member := rfl
@[simp] theorem storeFigure_freeze (k : Kind) (x : Int) : (s.storeFigure k x).freeze = s.freeze := rfl
@[simp] theorem storeFigure_lrate (k : Kind) (x : Int) : (s.storeFigure k x).lrate = s.lrate := rfl
@[simp] theorem storeFigure_now (k : Kind) (x : Int) : (s.storeFigure k x).now = s.now := rfl
@[simp] theorem storeFigure_roster (k : Kind) (x : Int) : (s.storeFigure k x).roster = s.roster := rfl
@[simp] theorem storeFigure_windows (k : Kind) (x : Int) : (s.storeFigure k x).windows = s.windows := rfl
@[simp] theorem storeFigure_book (k : Kind) (x : Int) : (s.storeFigure k x).book = s.book := rfl
@[simp] theorem storeFigure_meter (k : Kind) (x : Int) : (s.storeFigure k x).meter = s.meter := rfl
@[simp] theorem storeFigure_gen (k : Kind) (x : Int) : (s.storeFigure k x).gen = s.gen := rfl
@[simp] theorem storeFigure_disp (k : Kind) (x : Int) : (s.storeFigure k x).disp = s.disp := rfl
@[simp] theorem storeFigure_bus (k : Kind) (x : Int) : (s.storeFigure k x).bus = s.bus := rfl
@[simp] theorem storeFigure_linkA (k : Kind) (x : Int) : (s.storeFigure k x).linkA = s.linkA := rfl
@[simp] theorem storeFigure_linkS (k : Kind) (x : Int) : (s.storeFigure k x).linkS = s.linkS := rfl
@[simp] theorem storeFigure_linkN (k : Kind) (x : Int) : (s.storeFigure k x).linkN = s.linkN := rfl

/-! ### The test events (R166) -/

@[simp] theorem testEvent_pending (m : Bool) : (s.testEvent m).pending = s.pending := by simp only [State.testEvent, State.raiseIf]; split <;> rfl
@[simp] theorem testEvent_member (m : Bool) : (s.testEvent m).member = s.member := by simp only [State.testEvent, State.raiseIf]; split <;> rfl
@[simp] theorem testEvent_freeze (m : Bool) : (s.testEvent m).freeze = s.freeze := by simp only [State.testEvent, State.raiseIf]; split <;> rfl
@[simp] theorem testEvent_lrate (m : Bool) : (s.testEvent m).lrate = s.lrate := by simp only [State.testEvent, State.raiseIf]; split <;> rfl
@[simp] theorem testEvent_now (m : Bool) : (s.testEvent m).now = s.now := by simp only [State.testEvent, State.raiseIf]; split <;> rfl
@[simp] theorem testEvent_roster (m : Bool) : (s.testEvent m).roster = s.roster := by simp only [State.testEvent, State.raiseIf]; split <;> rfl
@[simp] theorem testEvent_windows (m : Bool) : (s.testEvent m).windows = s.windows := by simp only [State.testEvent, State.raiseIf]; split <;> rfl
@[simp] theorem testEvent_book (m : Bool) : (s.testEvent m).book = s.book := by simp only [State.testEvent, State.raiseIf]; split <;> rfl
@[simp] theorem testEvent_meter (m : Bool) : (s.testEvent m).meter = s.meter := by simp only [State.testEvent, State.raiseIf]; split <;> rfl
@[simp] theorem testEvent_gen (m : Bool) : (s.testEvent m).gen = s.gen := by simp only [State.testEvent, State.raiseIf]; split <;> rfl
@[simp] theorem testEvent_disp (m : Bool) : (s.testEvent m).disp = s.disp := by simp only [State.testEvent, State.raiseIf]; split <;> rfl
@[simp] theorem testEvent_bus (m : Bool) : (s.testEvent m).bus = s.bus := by simp only [State.testEvent, State.raiseIf]; split <;> rfl
@[simp] theorem testEvent_linkA (m : Bool) : (s.testEvent m).linkA = s.linkA := by simp only [State.testEvent, State.raiseIf]; split <;> rfl
@[simp] theorem testEvent_linkN (m : Bool) : (s.testEvent m).linkN = s.linkN := by simp only [State.testEvent, State.raiseIf]; split <;> rfl

/-! ### Moving the generator (R113, R117, R120) -/

@[simp] theorem moveGen_gen (g : Generator) : (s.moveGen g).gen = g := by simp only [State.moveGen]; split <;> split <;> simp
@[simp] theorem moveGen_pending (g : Generator) : (s.moveGen g).pending = s.pending := by simp only [State.moveGen]; split <;> split <;> simp
@[simp] theorem moveGen_freeIndex (g : Generator) : (s.moveGen g).freeIndex = s.freeIndex := by simp only [State.moveGen]; split <;> split <;> simp
@[simp] theorem moveGen_member (g : Generator) : (s.moveGen g).member = s.member := by simp only [State.moveGen]; split <;> split <;> simp
@[simp] theorem moveGen_freeze (g : Generator) : (s.moveGen g).freeze = s.freeze := by simp only [State.moveGen]; split <;> split <;> simp
@[simp] theorem moveGen_lrate (g : Generator) : (s.moveGen g).lrate = s.lrate := by simp only [State.moveGen]; split <;> split <;> simp
@[simp] theorem moveGen_now (g : Generator) : (s.moveGen g).now = s.now := by simp only [State.moveGen]; split <;> split <;> simp
@[simp] theorem moveGen_roster (g : Generator) : (s.moveGen g).roster = s.roster := by simp only [State.moveGen]; split <;> split <;> simp
@[simp] theorem moveGen_windows (g : Generator) : (s.moveGen g).windows = s.windows := by simp only [State.moveGen]; split <;> split <;> simp
@[simp] theorem moveGen_book (g : Generator) : (s.moveGen g).book = s.book := by simp only [State.moveGen]; split <;> split <;> simp
@[simp] theorem moveGen_meter (g : Generator) : (s.moveGen g).meter = s.meter := by simp only [State.moveGen]; split <;> split <;> simp
@[simp] theorem moveGen_disp (g : Generator) : (s.moveGen g).disp = s.disp := by simp only [State.moveGen]; split <;> split <;> simp
@[simp] theorem moveGen_bus (g : Generator) : (s.moveGen g).bus = s.bus := by simp only [State.moveGen]; split <;> split <;> simp
@[simp] theorem moveGen_linkA (g : Generator) : (s.moveGen g).linkA = s.linkA := by simp only [State.moveGen]; split <;> split <;> simp
@[simp] theorem moveGen_linkN (g : Generator) : (s.moveGen g).linkN = s.linkN := by simp only [State.moveGen]; split <;> split <;> simp

@[simp] theorem moveTest_gen (g : Generator) (m : Bool) : (s.moveTest g m).gen = g := by simp [State.moveTest]
@[simp] theorem moveTest_pending (g : Generator) (m : Bool) : (s.moveTest g m).pending = s.pending := by simp [State.moveTest]
@[simp] theorem moveTest_member (g : Generator) (m : Bool) : (s.moveTest g m).member = s.member := by simp [State.moveTest]
@[simp] theorem moveTest_freeze (g : Generator) (m : Bool) : (s.moveTest g m).freeze = s.freeze := by simp [State.moveTest]
@[simp] theorem moveTest_lrate (g : Generator) (m : Bool) : (s.moveTest g m).lrate = s.lrate := by simp [State.moveTest]
@[simp] theorem moveTest_now (g : Generator) (m : Bool) : (s.moveTest g m).now = s.now := by simp [State.moveTest]
@[simp] theorem moveTest_roster (g : Generator) (m : Bool) : (s.moveTest g m).roster = s.roster := by simp [State.moveTest]
@[simp] theorem moveTest_windows (g : Generator) (m : Bool) : (s.moveTest g m).windows = s.windows := by simp [State.moveTest]
@[simp] theorem moveTest_book (g : Generator) (m : Bool) : (s.moveTest g m).book = s.book := by simp [State.moveTest]
@[simp] theorem moveTest_meter (g : Generator) (m : Bool) : (s.moveTest g m).meter = s.meter := by simp [State.moveTest]
@[simp] theorem moveTest_disp (g : Generator) (m : Bool) : (s.moveTest g m).disp = s.disp := by simp [State.moveTest]
@[simp] theorem moveTest_bus (g : Generator) (m : Bool) : (s.moveTest g m).bus = s.bus := by simp [State.moveTest]
@[simp] theorem moveTest_linkA (g : Generator) (m : Bool) : (s.moveTest g m).linkA = s.linkA := by simp [State.moveTest]
@[simp] theorem moveTest_linkN (g : Generator) (m : Bool) : (s.moveTest g m).linkN = s.linkN := by simp [State.moveTest]

@[simp] theorem loadCapacities_pending : (s.loadCapacities).pending = s.pending := by simp [State.loadCapacities]
@[simp] theorem loadCapacities_freeIndex : (s.loadCapacities).freeIndex = s.freeIndex := by simp [State.loadCapacities]
@[simp] theorem loadCapacities_member : (s.loadCapacities).member = s.member := by simp [State.loadCapacities]
@[simp] theorem loadCapacities_freeze : (s.loadCapacities).freeze = s.freeze := by simp [State.loadCapacities]
@[simp] theorem loadCapacities_lrate : (s.loadCapacities).lrate = s.lrate := by simp [State.loadCapacities]
@[simp] theorem loadCapacities_now : (s.loadCapacities).now = s.now := by simp [State.loadCapacities]
@[simp] theorem loadCapacities_roster : (s.loadCapacities).roster = s.roster := by simp [State.loadCapacities]
@[simp] theorem loadCapacities_windows : (s.loadCapacities).windows = s.windows := by simp [State.loadCapacities]
@[simp] theorem loadCapacities_book : (s.loadCapacities).book = s.book := by simp [State.loadCapacities]
@[simp] theorem loadCapacities_meter : (s.loadCapacities).meter = s.meter := by simp [State.loadCapacities]
@[simp] theorem loadCapacities_disp : (s.loadCapacities).disp = s.disp := by simp [State.loadCapacities]
@[simp] theorem loadCapacities_bus : (s.loadCapacities).bus = s.bus := by simp [State.loadCapacities]
@[simp] theorem loadCapacities_linkA : (s.loadCapacities).linkA = s.linkA := by simp [State.loadCapacities]
@[simp] theorem loadCapacities_linkN : (s.loadCapacities).linkN = s.linkN := by simp [State.loadCapacities]

@[simp] theorem endTest_pending : (s.endTest).pending = s.pending := by simp [State.endTest]
@[simp] theorem endTest_member : (s.endTest).member = s.member := by simp [State.endTest]
@[simp] theorem endTest_freeze : (s.endTest).freeze = s.freeze := by simp [State.endTest]
@[simp] theorem endTest_lrate : (s.endTest).lrate = s.lrate := by simp [State.endTest]
@[simp] theorem endTest_now : (s.endTest).now = s.now := by simp [State.endTest]
@[simp] theorem endTest_roster : (s.endTest).roster = s.roster := by simp [State.endTest]
@[simp] theorem endTest_windows : (s.endTest).windows = s.windows := by simp [State.endTest]
@[simp] theorem endTest_book : (s.endTest).book = s.book := by simp [State.endTest]
@[simp] theorem endTest_meter : (s.endTest).meter = s.meter := by simp [State.endTest]
@[simp] theorem endTest_disp : (s.endTest).disp = s.disp := by simp [State.endTest]
@[simp] theorem endTest_bus : (s.endTest).bus = s.bus := by simp [State.endTest]
@[simp] theorem endTest_linkA : (s.endTest).linkA = s.linkA := by simp [State.endTest]
@[simp] theorem endTest_linkN : (s.endTest).linkN = s.linkN := by simp [State.endTest]

/-! ### The generator at a boundary (R109, R124) -/

@[simp] theorem genBoundary_pending : (s.genBoundary).pending = s.pending := by simp only [State.genBoundary]; split <;> simp
@[simp] theorem genBoundary_member : (s.genBoundary).member = s.member := by simp only [State.genBoundary]; split <;> simp
@[simp] theorem genBoundary_freeze : (s.genBoundary).freeze = s.freeze := by simp only [State.genBoundary]; split <;> simp
@[simp] theorem genBoundary_lrate : (s.genBoundary).lrate = s.lrate := by simp only [State.genBoundary]; split <;> simp
@[simp] theorem genBoundary_now : (s.genBoundary).now = s.now := by simp only [State.genBoundary]; split <;> simp
@[simp] theorem genBoundary_roster : (s.genBoundary).roster = s.roster := by simp only [State.genBoundary]; split <;> simp
@[simp] theorem genBoundary_windows : (s.genBoundary).windows = s.windows := by simp only [State.genBoundary]; split <;> simp
@[simp] theorem genBoundary_book : (s.genBoundary).book = s.book := by simp only [State.genBoundary]; split <;> simp
@[simp] theorem genBoundary_meter : (s.genBoundary).meter = s.meter := by simp only [State.genBoundary]; split <;> simp
@[simp] theorem genBoundary_disp : (s.genBoundary).disp = s.disp := by simp only [State.genBoundary]; split <;> simp
@[simp] theorem genBoundary_bus : (s.genBoundary).bus = s.bus := by simp only [State.genBoundary]; split <;> simp
@[simp] theorem genBoundary_linkA : (s.genBoundary).linkA = s.linkA := by simp only [State.genBoundary]; split <;> simp
@[simp] theorem genBoundary_linkN : (s.genBoundary).linkN = s.linkN := by simp only [State.genBoundary]; split <;> simp

/-! ### The shortfall evaluation (R87 to R90) -/

@[simp] theorem evaluate_expired : s.evaluate.book.expired = s.book.expired := by simp only [State.evaluate]; split <;> simp
@[simp] theorem evaluate_params : s.evaluate.book.params = s.book.params := by simp only [State.evaluate]; split <;> simp
@[simp] theorem evaluate_pending : (s.evaluate).pending = s.pending := by simp only [State.evaluate]; split <;> simp
@[simp] theorem evaluate_freeIndex : (s.evaluate).freeIndex = s.freeIndex := by simp only [State.evaluate]; split <;> simp
@[simp] theorem evaluate_member : (s.evaluate).member = s.member := by simp only [State.evaluate]; split <;> simp
@[simp] theorem evaluate_freeze : (s.evaluate).freeze = s.freeze := by simp only [State.evaluate]; split <;> simp
@[simp] theorem evaluate_lrate : (s.evaluate).lrate = s.lrate := by simp only [State.evaluate]; split <;> simp
@[simp] theorem evaluate_now : (s.evaluate).now = s.now := by simp only [State.evaluate]; split <;> simp
@[simp] theorem evaluate_roster : (s.evaluate).roster = s.roster := by simp only [State.evaluate]; split <;> simp
@[simp] theorem evaluate_windows : (s.evaluate).windows = s.windows := by simp only [State.evaluate]; split <;> simp
@[simp] theorem evaluate_meter : (s.evaluate).meter = s.meter := by simp only [State.evaluate]; split <;> simp
@[simp] theorem evaluate_gen : (s.evaluate).gen = s.gen := by simp only [State.evaluate]; split <;> simp
@[simp] theorem evaluate_disp : (s.evaluate).disp = s.disp := by simp only [State.evaluate]; split <;> simp
@[simp] theorem evaluate_bus : (s.evaluate).bus = s.bus := by simp only [State.evaluate]; split <;> simp
@[simp] theorem evaluate_journal : (s.evaluate).journal = s.journal := by simp only [State.evaluate]; split <;> simp

/-! ### The book at a boundary and a step-back (R84 to R86) -/

@[simp] theorem bookBoundary_pending (k c : Nat) (b : Bool) : (s.bookBoundary k c b).pending = s.pending := by simp [State.bookBoundary]
@[simp] theorem bookBoundary_freeIndex (k c : Nat) (b : Bool) : (s.bookBoundary k c b).freeIndex = s.freeIndex := by simp [State.bookBoundary]
@[simp] theorem bookBoundary_member (k c : Nat) (b : Bool) : (s.bookBoundary k c b).member = s.member := by simp [State.bookBoundary]
@[simp] theorem bookBoundary_freeze (k c : Nat) (b : Bool) : (s.bookBoundary k c b).freeze = s.freeze := by simp [State.bookBoundary]
@[simp] theorem bookBoundary_lrate (k c : Nat) (b : Bool) : (s.bookBoundary k c b).lrate = s.lrate := by simp [State.bookBoundary]
@[simp] theorem bookBoundary_now (k c : Nat) (b : Bool) : (s.bookBoundary k c b).now = s.now := by simp [State.bookBoundary]
@[simp] theorem bookBoundary_roster (k c : Nat) (b : Bool) : (s.bookBoundary k c b).roster = s.roster := by simp [State.bookBoundary]
@[simp] theorem bookBoundary_windows (k c : Nat) (b : Bool) : (s.bookBoundary k c b).windows = s.windows := by simp [State.bookBoundary]
@[simp] theorem bookBoundary_meter (k c : Nat) (b : Bool) : (s.bookBoundary k c b).meter = s.meter := by simp [State.bookBoundary]
@[simp] theorem bookBoundary_gen (k c : Nat) (b : Bool) : (s.bookBoundary k c b).gen = s.gen := by simp [State.bookBoundary]
@[simp] theorem bookBoundary_disp (k c : Nat) (b : Bool) : (s.bookBoundary k c b).disp = s.disp := by simp [State.bookBoundary]
@[simp] theorem bookBoundary_bus (k c : Nat) (b : Bool) : (s.bookBoundary k c b).bus = s.bus := by simp [State.bookBoundary]
@[simp] theorem bookBoundary_journal (k c : Nat) (b : Bool) : (s.bookBoundary k c b).journal = s.journal := by simp [State.bookBoundary]

@[simp] theorem bookStepBack_pending (c : Nat) : (s.bookStepBack c).pending = s.pending := by simp [State.bookStepBack]
@[simp] theorem bookStepBack_freeIndex (c : Nat) : (s.bookStepBack c).freeIndex = s.freeIndex := by simp [State.bookStepBack]
@[simp] theorem bookStepBack_member (c : Nat) : (s.bookStepBack c).member = s.member := by simp [State.bookStepBack]
@[simp] theorem bookStepBack_freeze (c : Nat) : (s.bookStepBack c).freeze = s.freeze := by simp [State.bookStepBack]
@[simp] theorem bookStepBack_lrate (c : Nat) : (s.bookStepBack c).lrate = s.lrate := by simp [State.bookStepBack]
@[simp] theorem bookStepBack_now (c : Nat) : (s.bookStepBack c).now = s.now := by simp [State.bookStepBack]
@[simp] theorem bookStepBack_roster (c : Nat) : (s.bookStepBack c).roster = s.roster := by simp [State.bookStepBack]
@[simp] theorem bookStepBack_windows (c : Nat) : (s.bookStepBack c).windows = s.windows := by simp [State.bookStepBack]
@[simp] theorem bookStepBack_meter (c : Nat) : (s.bookStepBack c).meter = s.meter := by simp [State.bookStepBack]
@[simp] theorem bookStepBack_gen (c : Nat) : (s.bookStepBack c).gen = s.gen := by simp [State.bookStepBack]
@[simp] theorem bookStepBack_disp (c : Nat) : (s.bookStepBack c).disp = s.disp := by simp [State.bookStepBack]
@[simp] theorem bookStepBack_bus (c : Nat) : (s.bookStepBack c).bus = s.bus := by simp [State.bookStepBack]
@[simp] theorem bookStepBack_journal (c : Nat) : (s.bookStepBack c).journal = s.journal := by simp [State.bookStepBack]

/-! ### The clock's moves (R6, R10, R11) -/

@[simp] theorem boundary_pending (k : Nat) (b : Bool) : (s.boundary k b).pending = s.pending := by simp only [State.boundary]; split <;> simp
@[simp] theorem boundary_member (k : Nat) (b : Bool) : (s.boundary k b).member = s.member := by simp only [State.boundary]; split <;> simp
@[simp] theorem boundary_freeze (k : Nat) (b : Bool) : (s.boundary k b).freeze = s.freeze := by simp only [State.boundary]; split <;> simp
@[simp] theorem boundary_lrate (k : Nat) (b : Bool) : (s.boundary k b).lrate = s.lrate := by simp only [State.boundary]; split <;> simp
@[simp] theorem boundary_now (k : Nat) (b : Bool) : (s.boundary k b).now = s.now := by simp only [State.boundary]; split <;> simp
@[simp] theorem boundary_roster (k : Nat) (b : Bool) : (s.boundary k b).roster = s.roster := by simp only [State.boundary]; split <;> simp
@[simp] theorem boundary_windows (k : Nat) (b : Bool) : (s.boundary k b).windows = s.windows := by simp only [State.boundary]; split <;> simp
@[simp] theorem boundary_meter (k : Nat) (b : Bool) : (s.boundary k b).meter = s.meter := by simp only [State.boundary]; split <;> simp
@[simp] theorem boundary_disp (k : Nat) (b : Bool) : (s.boundary k b).disp = s.disp := by simp only [State.boundary]; split <;> simp
@[simp] theorem boundary_bus (k : Nat) (b : Bool) : (s.boundary k b).bus = s.bus := by simp only [State.boundary]; split <;> simp

@[simp] theorem stepBack_pending : (s.stepBack).pending = s.pending := by simp only [State.stepBack]; split <;> simp
@[simp] theorem stepBack_member : (s.stepBack).member = s.member := by simp only [State.stepBack]; split <;> simp
@[simp] theorem stepBack_freeze : (s.stepBack).freeze = s.freeze := by simp only [State.stepBack]; split <;> simp
@[simp] theorem stepBack_lrate : (s.stepBack).lrate = s.lrate := by simp only [State.stepBack]; split <;> simp
@[simp] theorem stepBack_now : (s.stepBack).now = s.now := by simp only [State.stepBack]; split <;> simp
@[simp] theorem stepBack_roster : (s.stepBack).roster = s.roster := by simp only [State.stepBack]; split <;> simp
@[simp] theorem stepBack_windows : (s.stepBack).windows = s.windows := by simp only [State.stepBack]; split <;> simp
@[simp] theorem stepBack_meter : (s.stepBack).meter = s.meter := by simp only [State.stepBack]; split <;> simp
@[simp] theorem stepBack_disp : (s.stepBack).disp = s.disp := by simp only [State.stepBack]; split <;> simp
@[simp] theorem stepBack_bus : (s.stepBack).bus = s.bus := by simp only [State.stepBack]; split <;> simp
@[simp] theorem stepBack_freeIndex : (s.stepBack).freeIndex = s.freeIndex := by simp only [State.stepBack]; split <;> simp

/-! ### What the meter hands over (R99, R103) -/

@[simp] theorem loseLock_pending : (s.loseLock).pending = s.pending := by simp [State.loseLock]
@[simp] theorem loseLock_freeIndex : (s.loseLock).freeIndex = s.freeIndex := by simp [State.loseLock]
@[simp] theorem loseLock_member : (s.loseLock).member = s.member := by simp [State.loseLock]
@[simp] theorem loseLock_freeze : (s.loseLock).freeze = s.freeze := by simp [State.loseLock]
@[simp] theorem loseLock_lrate : (s.loseLock).lrate = s.lrate := by simp [State.loseLock]
@[simp] theorem loseLock_now : (s.loseLock).now = s.now := by simp [State.loseLock]
@[simp] theorem loseLock_roster : (s.loseLock).roster = s.roster := by simp [State.loseLock]
@[simp] theorem loseLock_windows : (s.loseLock).windows = s.windows := by simp [State.loseLock]
@[simp] theorem loseLock_book : (s.loseLock).book = s.book := by simp [State.loseLock]
@[simp] theorem loseLock_meter : (s.loseLock).meter = s.meter := by simp [State.loseLock]
@[simp] theorem loseLock_disp : (s.loseLock).disp = s.disp := by simp [State.loseLock]
@[simp] theorem loseLock_bus : (s.loseLock).bus = s.bus := by simp [State.loseLock]
@[simp] theorem loseLock_linkA : (s.loseLock).linkA = s.linkA := by simp [State.loseLock]
@[simp] theorem loseLock_linkN : (s.loseLock).linkN = s.linkN := by simp [State.loseLock]

@[simp] theorem handStateChange_pending (w : MeterState) (b : Bool) : (s.handStateChange w b).pending = s.pending := by simp only [State.handStateChange]; split <;> simp
@[simp] theorem handStateChange_freeIndex (w : MeterState) (b : Bool) : (s.handStateChange w b).freeIndex = s.freeIndex := by simp only [State.handStateChange]; split <;> simp
@[simp] theorem handStateChange_member (w : MeterState) (b : Bool) : (s.handStateChange w b).member = s.member := by simp only [State.handStateChange]; split <;> simp
@[simp] theorem handStateChange_freeze (w : MeterState) (b : Bool) : (s.handStateChange w b).freeze = s.freeze := by simp only [State.handStateChange]; split <;> simp
@[simp] theorem handStateChange_lrate (w : MeterState) (b : Bool) : (s.handStateChange w b).lrate = s.lrate := by simp only [State.handStateChange]; split <;> simp
@[simp] theorem handStateChange_now (w : MeterState) (b : Bool) : (s.handStateChange w b).now = s.now := by simp only [State.handStateChange]; split <;> simp
@[simp] theorem handStateChange_roster (w : MeterState) (b : Bool) : (s.handStateChange w b).roster = s.roster := by simp only [State.handStateChange]; split <;> simp
@[simp] theorem handStateChange_windows (w : MeterState) (b : Bool) : (s.handStateChange w b).windows = s.windows := by simp only [State.handStateChange]; split <;> simp
@[simp] theorem handStateChange_book (w : MeterState) (b : Bool) : (s.handStateChange w b).book = s.book := by simp only [State.handStateChange]; split <;> simp
@[simp] theorem handStateChange_meter (w : MeterState) (b : Bool) : (s.handStateChange w b).meter = s.meter := by simp only [State.handStateChange]; split <;> simp
@[simp] theorem handStateChange_disp (w : MeterState) (b : Bool) : (s.handStateChange w b).disp = s.disp := by simp only [State.handStateChange]; split <;> simp
@[simp] theorem handStateChange_bus (w : MeterState) (b : Bool) : (s.handStateChange w b).bus = s.bus := by simp only [State.handStateChange]; split <;> simp
@[simp] theorem handStateChange_linkA (w : MeterState) (b : Bool) : (s.handStateChange w b).linkA = s.linkA := by simp only [State.handStateChange]; split <;> simp
@[simp] theorem handStateChange_linkN (w : MeterState) (b : Bool) : (s.handStateChange w b).linkN = s.linkN := by simp only [State.handStateChange]; split <;> simp

@[simp] theorem handReading_pending (w : MeterState) (x : Nat) : (s.handReading w x).pending = s.pending := by simp only [State.handReading]; split <;> simp
@[simp] theorem handReading_freeIndex (w : MeterState) (x : Nat) : (s.handReading w x).freeIndex = s.freeIndex := by simp only [State.handReading]; split <;> simp
@[simp] theorem handReading_member (w : MeterState) (x : Nat) : (s.handReading w x).member = s.member := by simp only [State.handReading]; split <;> simp
@[simp] theorem handReading_freeze (w : MeterState) (x : Nat) : (s.handReading w x).freeze = s.freeze := by simp only [State.handReading]; split <;> simp
@[simp] theorem handReading_lrate (w : MeterState) (x : Nat) : (s.handReading w x).lrate = s.lrate := by simp only [State.handReading]; split <;> simp
@[simp] theorem handReading_now (w : MeterState) (x : Nat) : (s.handReading w x).now = s.now := by simp only [State.handReading]; split <;> simp
@[simp] theorem handReading_roster (w : MeterState) (x : Nat) : (s.handReading w x).roster = s.roster := by simp only [State.handReading]; split <;> simp
@[simp] theorem handReading_windows (w : MeterState) (x : Nat) : (s.handReading w x).windows = s.windows := by simp only [State.handReading]; split <;> simp
@[simp] theorem handReading_book (w : MeterState) (x : Nat) : (s.handReading w x).book = s.book := by simp only [State.handReading]; split <;> simp
@[simp] theorem handReading_meter (w : MeterState) (x : Nat) : (s.handReading w x).meter = s.meter := by simp only [State.handReading]; split <;> simp
@[simp] theorem handReading_disp (w : MeterState) (x : Nat) : (s.handReading w x).disp = s.disp := by simp only [State.handReading]; split <;> simp
@[simp] theorem handReading_bus (w : MeterState) (x : Nat) : (s.handReading w x).bus = s.bus := by simp only [State.handReading]; split <;> simp
@[simp] theorem handReading_linkA (w : MeterState) (x : Nat) : (s.handReading w x).linkA = s.linkA := by simp only [State.handReading]; split <;> simp
@[simp] theorem handReading_linkN (w : MeterState) (x : Nat) : (s.handReading w x).linkN = s.linkN := by simp only [State.handReading]; split <;> simp

@[simp] theorem takeReading_pending (x : Nat) : (s.takeReading x).pending = s.pending := by simp [State.takeReading]
@[simp] theorem takeReading_freeIndex (x : Nat) : (s.takeReading x).freeIndex = s.freeIndex := by simp [State.takeReading]
@[simp] theorem takeReading_member (x : Nat) : (s.takeReading x).member = s.member := by simp [State.takeReading]
@[simp] theorem takeReading_freeze (x : Nat) : (s.takeReading x).freeze = s.freeze := by simp [State.takeReading]
@[simp] theorem takeReading_lrate (x : Nat) : (s.takeReading x).lrate = s.lrate := by simp [State.takeReading]
@[simp] theorem takeReading_now (x : Nat) : (s.takeReading x).now = s.now := by simp [State.takeReading]
@[simp] theorem takeReading_roster (x : Nat) : (s.takeReading x).roster = s.roster := by simp [State.takeReading]
@[simp] theorem takeReading_windows (x : Nat) : (s.takeReading x).windows = s.windows := by simp [State.takeReading]
@[simp] theorem takeReading_book (x : Nat) : (s.takeReading x).book = s.book := by simp [State.takeReading]
@[simp] theorem takeReading_disp (x : Nat) : (s.takeReading x).disp = s.disp := by simp [State.takeReading]
@[simp] theorem takeReading_bus (x : Nat) : (s.takeReading x).bus = s.bus := by simp [State.takeReading]
@[simp] theorem takeReading_linkA (x : Nat) : (s.takeReading x).linkA = s.linkA := by simp [State.takeReading]
@[simp] theorem takeReading_linkN (x : Nat) : (s.takeReading x).linkN = s.linkN := by simp [State.takeReading]

@[simp] theorem acceptEstimate_pending (x : Nat) : (s.acceptEstimate x).pending = s.pending := by simp only [State.acceptEstimate]; split <;> split <;> simp
@[simp] theorem acceptEstimate_freeIndex (x : Nat) : (s.acceptEstimate x).freeIndex = s.freeIndex := by simp only [State.acceptEstimate]; split <;> split <;> simp
@[simp] theorem acceptEstimate_member (x : Nat) : (s.acceptEstimate x).member = s.member := by simp only [State.acceptEstimate]; split <;> split <;> simp
@[simp] theorem acceptEstimate_freeze (x : Nat) : (s.acceptEstimate x).freeze = s.freeze := by simp only [State.acceptEstimate]; split <;> split <;> simp
@[simp] theorem acceptEstimate_lrate (x : Nat) : (s.acceptEstimate x).lrate = s.lrate := by simp only [State.acceptEstimate]; split <;> split <;> simp
@[simp] theorem acceptEstimate_now (x : Nat) : (s.acceptEstimate x).now = s.now := by simp only [State.acceptEstimate]; split <;> split <;> simp
@[simp] theorem acceptEstimate_roster (x : Nat) : (s.acceptEstimate x).roster = s.roster := by simp only [State.acceptEstimate]; split <;> split <;> simp
@[simp] theorem acceptEstimate_windows (x : Nat) : (s.acceptEstimate x).windows = s.windows := by simp only [State.acceptEstimate]; split <;> split <;> simp
@[simp] theorem acceptEstimate_book (x : Nat) : (s.acceptEstimate x).book = s.book := by simp only [State.acceptEstimate]; split <;> split <;> simp
@[simp] theorem acceptEstimate_disp (x : Nat) : (s.acceptEstimate x).disp = s.disp := by simp only [State.acceptEstimate]; split <;> split <;> simp
@[simp] theorem acceptEstimate_bus (x : Nat) : (s.acceptEstimate x).bus = s.bus := by simp only [State.acceptEstimate]; split <;> split <;> simp
@[simp] theorem acceptEstimate_linkA (x : Nat) : (s.acceptEstimate x).linkA = s.linkA := by simp only [State.acceptEstimate]; split <;> split <;> simp
@[simp] theorem acceptEstimate_linkN (x : Nat) : (s.acceptEstimate x).linkN = s.linkN := by simp only [State.acceptEstimate]; split <;> split <;> simp

/-! ### Changes of bus state (R148, R149, R161) -/

@[simp] theorem enterDisabled_pending : (s.enterDisabled).pending = s.pending := rfl
@[simp] theorem enterDisabled_freeIndex : (s.enterDisabled).freeIndex = s.freeIndex := rfl
@[simp] theorem enterDisabled_member : (s.enterDisabled).member = s.member := rfl
@[simp] theorem enterDisabled_freeze : (s.enterDisabled).freeze = s.freeze := rfl
@[simp] theorem enterDisabled_lrate : (s.enterDisabled).lrate = s.lrate := rfl
@[simp] theorem enterDisabled_now : (s.enterDisabled).now = s.now := rfl
@[simp] theorem enterDisabled_windows : (s.enterDisabled).windows = s.windows := rfl
@[simp] theorem enterDisabled_book : (s.enterDisabled).book = s.book := rfl
@[simp] theorem enterDisabled_meter : (s.enterDisabled).meter = s.meter := rfl
@[simp] theorem enterDisabled_gen : (s.enterDisabled).gen = s.gen := rfl
@[simp] theorem enterDisabled_disp : (s.enterDisabled).disp = s.disp := rfl
@[simp] theorem enterDisabled_journal : (s.enterDisabled).journal = s.journal := rfl
@[simp] theorem enterDisabled_linkA : (s.enterDisabled).linkA = s.linkA := rfl
@[simp] theorem enterDisabled_linkS : (s.enterDisabled).linkS = s.linkS := rfl
@[simp] theorem enterDisabled_linkN : (s.enterDisabled).linkN = s.linkN := rfl

@[simp] theorem enterDraining_pending : (s.enterDraining).pending = s.pending := rfl
@[simp] theorem enterDraining_freeIndex : (s.enterDraining).freeIndex = s.freeIndex := rfl
@[simp] theorem enterDraining_member : (s.enterDraining).member = s.member := rfl
@[simp] theorem enterDraining_freeze : (s.enterDraining).freeze = s.freeze := rfl
@[simp] theorem enterDraining_lrate : (s.enterDraining).lrate = s.lrate := rfl
@[simp] theorem enterDraining_now : (s.enterDraining).now = s.now := rfl
@[simp] theorem enterDraining_windows : (s.enterDraining).windows = s.windows := rfl
@[simp] theorem enterDraining_book : (s.enterDraining).book = s.book := rfl
@[simp] theorem enterDraining_meter : (s.enterDraining).meter = s.meter := rfl
@[simp] theorem enterDraining_gen : (s.enterDraining).gen = s.gen := rfl
@[simp] theorem enterDraining_disp : (s.enterDraining).disp = s.disp := rfl
@[simp] theorem enterDraining_journal : (s.enterDraining).journal = s.journal := rfl
@[simp] theorem enterDraining_linkA : (s.enterDraining).linkA = s.linkA := rfl
@[simp] theorem enterDraining_linkS : (s.enterDraining).linkS = s.linkS := rfl
@[simp] theorem enterDraining_linkN : (s.enterDraining).linkN = s.linkN := rfl

@[simp] theorem enterFault_pending : (s.enterFault).pending = s.pending := rfl
@[simp] theorem enterFault_freeIndex : (s.enterFault).freeIndex = s.freeIndex := rfl
@[simp] theorem enterFault_member : (s.enterFault).member = s.member := rfl
@[simp] theorem enterFault_freeze : (s.enterFault).freeze = s.freeze := rfl
@[simp] theorem enterFault_lrate : (s.enterFault).lrate = s.lrate := rfl
@[simp] theorem enterFault_now : (s.enterFault).now = s.now := rfl
@[simp] theorem enterFault_windows : (s.enterFault).windows = s.windows := rfl
@[simp] theorem enterFault_meter : (s.enterFault).meter = s.meter := rfl
@[simp] theorem enterFault_gen : (s.enterFault).gen = s.gen := rfl
@[simp] theorem enterFault_disp : (s.enterFault).disp = s.disp := rfl
@[simp] theorem enterFault_journal : (s.enterFault).journal = s.journal := rfl

@[simp] theorem endFrame_pending : (s.endFrame).pending = s.pending := by simp only [State.endFrame]; split <;> simp
@[simp] theorem endFrame_freeIndex : (s.endFrame).freeIndex = s.freeIndex := by simp only [State.endFrame]; split <;> simp
@[simp] theorem endFrame_member : (s.endFrame).member = s.member := by simp only [State.endFrame]; split <;> simp
@[simp] theorem endFrame_freeze : (s.endFrame).freeze = s.freeze := by simp only [State.endFrame]; split <;> simp
@[simp] theorem endFrame_lrate : (s.endFrame).lrate = s.lrate := by simp only [State.endFrame]; split <;> simp
@[simp] theorem endFrame_now : (s.endFrame).now = s.now := by simp only [State.endFrame]; split <;> simp
@[simp] theorem endFrame_windows : (s.endFrame).windows = s.windows := by simp only [State.endFrame]; split <;> simp
@[simp] theorem endFrame_book : (s.endFrame).book = s.book := by simp only [State.endFrame]; split <;> simp
@[simp] theorem endFrame_meter : (s.endFrame).meter = s.meter := by simp only [State.endFrame]; split <;> simp
@[simp] theorem endFrame_gen : (s.endFrame).gen = s.gen := by simp only [State.endFrame]; split <;> simp
@[simp] theorem endFrame_disp : (s.endFrame).disp = s.disp := by simp only [State.endFrame]; split <;> simp
@[simp] theorem endFrame_journal : (s.endFrame).journal = s.journal := by simp only [State.endFrame]; split <;> simp
@[simp] theorem endFrame_linkA : (s.endFrame).linkA = s.linkA := by simp only [State.endFrame]; split <;> simp
@[simp] theorem endFrame_linkS : (s.endFrame).linkS = s.linkS := by simp only [State.endFrame]; split <;> simp
@[simp] theorem endFrame_linkN : (s.endFrame).linkN = s.linkN := by simp only [State.endFrame]; split <;> simp

@[simp] theorem freezeBus_pending : (s.freezeBus).pending = s.pending := by simp only [State.freezeBus]; split <;> simp
@[simp] theorem freezeBus_freeIndex : (s.freezeBus).freeIndex = s.freeIndex := by simp only [State.freezeBus]; split <;> simp
@[simp] theorem freezeBus_member : (s.freezeBus).member = s.member := by simp only [State.freezeBus]; split <;> simp
@[simp] theorem freezeBus_freeze : (s.freezeBus).freeze = s.freeze := by simp only [State.freezeBus]; split <;> simp
@[simp] theorem freezeBus_lrate : (s.freezeBus).lrate = s.lrate := by simp only [State.freezeBus]; split <;> simp
@[simp] theorem freezeBus_now : (s.freezeBus).now = s.now := by simp only [State.freezeBus]; split <;> simp
@[simp] theorem freezeBus_windows : (s.freezeBus).windows = s.windows := by simp only [State.freezeBus]; split <;> simp
@[simp] theorem freezeBus_book : (s.freezeBus).book = s.book := by simp only [State.freezeBus]; split <;> simp
@[simp] theorem freezeBus_meter : (s.freezeBus).meter = s.meter := by simp only [State.freezeBus]; split <;> simp
@[simp] theorem freezeBus_gen : (s.freezeBus).gen = s.gen := by simp only [State.freezeBus]; split <;> simp
@[simp] theorem freezeBus_disp : (s.freezeBus).disp = s.disp := by simp only [State.freezeBus]; split <;> simp
@[simp] theorem freezeBus_journal : (s.freezeBus).journal = s.journal := by simp only [State.freezeBus]; split <;> simp
@[simp] theorem freezeBus_linkA : (s.freezeBus).linkA = s.linkA := by simp only [State.freezeBus]; split <;> simp
@[simp] theorem freezeBus_linkS : (s.freezeBus).linkS = s.linkS := by simp only [State.freezeBus]; split <;> simp
@[simp] theorem freezeBus_linkN : (s.freezeBus).linkN = s.linkN := by simp only [State.freezeBus]; split <;> simp

@[simp] theorem collided_pending : (s.collided).pending = s.pending := by simp only [State.collided, State.ladder]; split <;> [skip; split] <;> simp
@[simp] theorem collided_freeIndex : (s.collided).freeIndex = s.freeIndex := by simp only [State.collided, State.ladder]; split <;> [skip; split] <;> simp
@[simp] theorem collided_member : (s.collided).member = s.member := by simp only [State.collided, State.ladder]; split <;> [skip; split] <;> simp
@[simp] theorem collided_freeze : (s.collided).freeze = s.freeze := by simp only [State.collided, State.ladder]; split <;> [skip; split] <;> simp
@[simp] theorem collided_lrate : (s.collided).lrate = s.lrate := by simp only [State.collided, State.ladder]; split <;> [skip; split] <;> simp
@[simp] theorem collided_now : (s.collided).now = s.now := by simp only [State.collided, State.ladder]; split <;> [skip; split] <;> simp
@[simp] theorem collided_windows : (s.collided).windows = s.windows := by simp only [State.collided, State.ladder]; split <;> [skip; split] <;> simp
@[simp] theorem collided_meter : (s.collided).meter = s.meter := by simp only [State.collided, State.ladder]; split <;> [skip; split] <;> simp
@[simp] theorem collided_gen : (s.collided).gen = s.gen := by simp only [State.collided, State.ladder]; split <;> [skip; split] <;> simp
@[simp] theorem collided_disp : (s.collided).disp = s.disp := by simp only [State.collided, State.ladder]; split <;> [skip; split] <;> simp
@[simp] theorem collided_journal : (s.collided).journal = s.journal := by simp only [State.collided, State.ladder]; split <;> [skip; split] <;> simp

/-! ### One pass (R127, R137) -/

@[simp] theorem pass_pending (c : PassCause) : (s.pass c).pending = s.pending := by simp [State.pass]
@[simp] theorem pass_freeIndex (c : PassCause) : (s.pass c).freeIndex = s.freeIndex := by simp [State.pass]
@[simp] theorem pass_member (c : PassCause) : (s.pass c).member = s.member := by simp [State.pass]
@[simp] theorem pass_freeze (c : PassCause) : (s.pass c).freeze = s.freeze := by simp [State.pass]
@[simp] theorem pass_lrate (c : PassCause) : (s.pass c).lrate = s.lrate := by simp [State.pass]
@[simp] theorem pass_now (c : PassCause) : (s.pass c).now = s.now := by simp [State.pass]
@[simp] theorem pass_windows (c : PassCause) : (s.pass c).windows = s.windows := by simp [State.pass]
@[simp] theorem pass_book (c : PassCause) : (s.pass c).book = s.book := by simp [State.pass]
@[simp] theorem pass_meter (c : PassCause) : (s.pass c).meter = s.meter := by simp [State.pass]
@[simp] theorem pass_gen (c : PassCause) : (s.pass c).gen = s.gen := by simp [State.pass]

end Sys2Proof.Machine
end

