-- ==== Sys2Proof/Laws/Blocks.lean ====
section
/-! SUPPORT. What each operation that several commands share can do, once: one lemma per operation, so that a statement about a
command need not unfold it. -/

namespace Sys2Proof.Machine

variable (s : State) (p q : Port)

/-! ### The attention sets and the rest of a link -/

/-- A link without its attention set: what only telegrams, breaks and responses move (R171). -/
def State.receive (q : Port) : Link := { s.link q with attention := [] }

/-- Raising a cause adds it to one set, if the port may hold it in its table, and touches nothing else (R179). -/
theorem mem_raise (c e : Cause) : e ∈ ((s.raise p c).link q).attention ↔
    e ∈ (s.link q).attention ∨ (p = q ∧ e = c) := by
  have h : e ∈ Cause.all := by cases e <;> decide
  have hr : ∀ l : Link, e ∈ (l.raise c).attention ↔ e ∈ l.attention ∨ e = c := by
    intro l
    simp [Link.raise, raiseIn, h, or_comm]
  by_cases hq : q = p
  · subst hq
    simp [State.raise, hr]
  · have hp : ¬p = q := fun h => hq h.symm
    simp [State.raise, link_setLink_ne s p q _ hq, hp]

@[simp] theorem receive_raise (c : Cause) : (s.raise p c).receive q = s.receive q := by
  by_cases hq : q = p
  · subst hq
    simp [State.receive, State.raise, Link.raise]
  · simp [State.receive, State.raise, link_setLink_ne s p q _ hq]

@[simp] theorem receive_raiseIf (b : Bool) (c : Cause) : (s.raiseIf b p c).receive q = s.receive q := by
  simp only [State.raiseIf]
  split <;> simp

theorem receive_of_links {t : State} (h : ∀ o, t.link o = s.link o) : t.receive q = s.receive q := by
  simp [State.receive, h]

@[simp] theorem receive_requestEval : s.requestEval.receive q = s.receive q := by simp [State.receive]

@[simp] theorem receive_figureChange (k : Kind) (x : Int) : (s.figureChange k x).receive q = s.receive q := by
  simp only [State.figureChange, receive_raiseIf]
  exact receive_of_links s q fun o => by simp

@[simp] theorem receive_moveGen (g : Generator) : (s.moveGen g).receive q = s.receive q := by
  have h : ({ s with gen := g } : State).receive q = s.receive q := receive_of_links s q fun o => by simp
  simp only [State.moveGen]
  split <;> split <;> simp [h]

@[simp] theorem receive_testEvent (m : Bool) : (s.testEvent m).receive q = s.receive q := by
  simp only [State.testEvent, receive_raiseIf]
  exact receive_of_links s q fun o => by cases o <;> rfl

@[simp] theorem receive_moveTest (g : Generator) (m : Bool) : (s.moveTest g m).receive q = s.receive q := by
  simp only [State.moveTest, receive_testEvent]
  exact receive_of_links s q fun o => by cases o <;> rfl

@[simp] theorem receive_genBoundary : s.genBoundary.receive q = s.receive q := by
  simp only [State.genBoundary, State.endTest, State.loadCapacities]
  split <;> simp

@[simp] theorem receive_evaluate : s.evaluate.receive q = s.receive q := by
  simp only [State.evaluate]
  split
  · rfl
  · simp only [receive_raiseIf]
    exact receive_of_links s q fun o => by simp

@[simp] theorem receive_boundary (old : Nat) (r : Bool) : (s.boundary old r).receive q = s.receive q := by
  have h : ∀ c, (s.bookBoundary old c r).receive q = s.receive q := by
    intro c
    simp only [State.bookBoundary, receive_evaluate, receive_raiseIf]
    exact receive_of_links s q fun o => by simp
  simp only [State.boundary]
  split <;> simp [h]

@[simp] theorem receive_stepBack : s.stepBack.receive q = s.receive q := by
  have h : ∀ c, (s.bookStepBack c).receive q = s.receive q := by
    intro c
    simp only [State.bookStepBack, receive_raiseIf]
    exact receive_of_links s q fun o => by simp
  simp only [State.stepBack]
  split <;> simp [h, State.loadCapacities]

@[simp] theorem receive_handStateChange (w : MeterState) (b : Bool) :
    (s.handStateChange w b).receive q = s.receive q := by
  have h : s.loseLock.receive q = s.receive q := by
    have h1 : ∀ (t : State) (j : Journal), ({ t with journal := j } : State).receive q = t.receive q :=
      fun t j => receive_of_links t q fun o => by simp
    simp only [State.loseLock, h1, receive_moveGen, receive_raise]
  simp only [State.handStateChange, receive_moveGen]
  split <;> simp [h]

/-! ### The operations behind several commands -/

/-- Handing the generator's new items over leaves them in place; only the journal and port S see the figures. -/
theorem moveGen_eq (g : Generator) : s.moveGen g =
    { s with gen := g, journal := (s.moveGen g).journal, linkS := (s.moveGen g).linkS } := by
  have h : ∀ (t : State) (k : Kind) (x : Int), t.figureChange k x =
      { t with journal := (t.figureChange k x).journal, linkS := (t.figureChange k x).linkS } := by
    intro t k x
    simp only [State.figureChange, State.raiseIf]
    split <;> rfl
  simp only [State.moveGen]
  split <;> split
  · rfl
  · rw [h]
  · rw [h]
  · rw [h, h { s with gen := g }]

/-- An evaluation writes the book's risk fields and may raise SHORTFALL at A and S; nothing else moves (R88 to R90). -/
theorem evaluate_eq : s.evaluate =
    { s with
      book := { s.book with records := s.evaluate.book.records }, linkA := s.evaluate.linkA, linkS := s.evaluate.linkS } := by
  simp only [State.evaluate, State.raiseIf]
  split
  · rfl
  · split <;> rfl

/-- The end of a frame: an idle bus, or DISABLED out of DRAINING (R149). -/
theorem endFrame_cases : (s.bus.state = .draining ∧ s.endFrame = s.enterDisabled) ∨
    (s.bus.state ≠ .draining ∧ s.endFrame = { s with bus := { s.bus with frame := .idle } }) := by
  simp only [State.endFrame]
  split
  · next h => exact .inl ⟨h, rfl⟩
  · next h => exact .inr ⟨h, rfl⟩

/-- A collision: DISABLED out of DRAINING, BACKOFF below four in a row, FAULT at the fourth (R160, R161). -/
theorem collided_cases : (s.bus.state = .draining ∧ s.collided = s.enterDisabled) ∨
    (s.bus.state ≠ .draining ∧ s.bus.collisions < 3 ∧ s.collided = { s with bus := { s.bus with
      state := .backoff, frame := .idle, collisions := s.bus.collisions + 1
      backoff := some ((s.bus.collisions + 1) * 10000) } }) ∨
    (s.bus.state ≠ .draining ∧ 3 ≤ s.bus.collisions ∧ s.collided = s.enterFault) := by
  simp only [State.collided, State.ladder]
  split
  · next h => exact .inl ⟨h, rfl⟩
  · next h =>
    split
    · next hn => exact .inr (.inl ⟨h, by omega, rfl⟩)
    · next hn => exact .inr (.inr ⟨h, by omega, rfl⟩)

/-- A figure of 0 opens no record; any other opens one after room is made (R163, R165, R168). -/
theorem openRecord_cases (j : Journal) (k : Kind) (x : Int) (now : Option Time) :
    (x = 0 ∧ j.openRecord k x now = j) ∨ ∃ e : Episode, x ≠ 0 ∧ e.state = .isOpen ∧ e.kind = k ∧
      directionOf x = some e.direction ∧ e.closingTimer = false ∧ e.number = nextSerial j.counter ∧
      j.openRecord k x now = { j with
        records := (makeRoom (j.records.map fun r =>
          if r.openOf k.other then { r with flags := { r.flags with concurrent := true } } else r)).1 ++ [e]
        counter := nextSerial j.counter } := by
  simp only [Journal.openRecord]
  split
  · next h =>
    refine .inl ⟨?_, rfl⟩
    simp only [directionOf] at h
    split at h
    · cases h
    · split at h
      · cases h
      · omega
  · next d h =>
    refine .inr ⟨_, ?_, rfl, rfl, h, rfl, rfl, rfl⟩
    rintro rfl
    simp [directionOf] at h

/-- Room is made by dropping at most one record, never an OPEN one (R168). -/
theorem makeRoom_open (rs : List Episode) (p : Episode → Bool) (hp : ∀ e, p e = true → e.state = .isOpen) :
    (makeRoom rs).1.filter p = rs.filter p := by
  have h : ∀ sel : Episode → Bool, (∀ e, sel e = true → p e = false) → (rs.eraseP sel).filter p = rs.filter p := by
    intro sel hs
    induction rs with
    | nil => rfl
    | cons e es ih =>
      by_cases he : sel e = true
      · simp [he, hs e he]
      · simp [he, List.filter_cons, ih]
  simp only [makeRoom]
  split
  · rfl
  · split
    · refine h _ fun e he => ?_
      cases hpe : p e
      · rfl
      · rw [hp e hpe] at he; cases he
    · refine h _ fun e he => ?_
      cases hpe : p e
      · rfl
      · rw [hp e hpe] at he; cases he

/-! ### What an owning block cannot touch -/

/-- The parts of the state that only the outside moves: the waiting commands, the member and the pins. -/
def State.outside (s : State) : List Instr × Member × Bool × BitVec 2 := (s.pending, s.member, s.freeze, s.lrate)

/-- No owning block touches the waiting commands, the member or the pins. -/
theorem ownOf_outside (r : Request) : (ownOf p r s).state.outside = s.outside := by
  cases r <;> simp only [ownOf]
  all_goals
    try simp only [ownSetTime, State.moveClock, ownEnroll, ownAmend, ownRemove, ownReadSite, ownSetItems]
    try simp only [ownDefineWindow, ownClearWindow, ownSetBranch, ownSetDefaultClass, editWith, ownSuspend, ownResume,
      State.putInForce, ownQueryClass, ownReadWindows]
    try simp only [ownSetOfferParams, ownOfferQuery, ownHold, State.holdAt, State.grant, ownAward, ownRelease,
      State.settleHold, ownReadBook]
    try simp only [ownSetMeter, ownReadMeter, ownSetFlParams, ownArmFl, ownDisarmFl, armAnswer, ownSetPoint,
      ownSetSlParams, ownEnterTest, ownInject, ownLeaveTest]
    try simp only [ownReadBranchLoad, ownReadResponse, ownReadJournal, ownReleaseJournal]
    try simp only [ownBusEnable, ownBusDisable, busAnswer, ownBusConfig, ownBusRestore]
    try simp only [ownSetLinkMode, ownStatus, ownIdentify, refuse]
  all_goals (repeat' split) <;> first | rfl | simp [State.outside]

/-- No owning block touches a link but its attention set, except SET_LINK_MODE on its own port (R176). -/
theorem ownOf_receive (r : Request) (h : ∀ m, r ≠ .setLinkMode m) : (ownOf p r s).state.receive q = s.receive q := by
  cases r <;> simp only [ownOf]
  all_goals
    try simp only [ownSetTime, State.moveClock, ownEnroll, ownAmend, ownRemove, ownReadSite, ownSetItems]
    try simp only [ownDefineWindow, ownClearWindow, ownSetBranch, ownSetDefaultClass, editWith, ownSuspend, ownResume,
      State.putInForce, ownQueryClass, ownReadWindows]
    try simp only [ownSetOfferParams, ownOfferQuery, ownHold, State.holdAt, State.grant, ownAward, ownRelease,
      State.settleHold, ownReadBook]
    try simp only [ownSetMeter, ownReadMeter, ownSetFlParams, ownArmFl, ownDisarmFl, armAnswer, ownSetPoint,
      ownSetSlParams, ownEnterTest, ownInject, ownLeaveTest]
    try simp only [ownReadBranchLoad, ownReadResponse, ownReadJournal, ownReleaseJournal]
    try simp only [ownBusEnable, ownBusDisable, busAnswer, ownBusConfig, ownBusRestore]
    try simp only [ownStatus, ownIdentify, refuse]
  case setLinkMode m => exact absurd rfl (h m)
  all_goals (repeat' split) <;> try simp only [receive_raise, receive_moveGen, receive_moveTest, receive_boundary,
    receive_stepBack, receive_requestEval, receive_handStateChange, State.loadCapacities, State.endTest]
  case status =>
    by_cases hq : q = p
    · subst hq; simp [State.receive]
    · simp [State.receive, link_setLink_ne s p q _ hq]
  all_goals exact receive_of_links _ _ fun o => by cases o <;> rfl

/-! ### Characters, replies and checks (R146, R155, R181) -/

/-- A character without error spells its byte (R146). -/
theorem busCharacter_spells : ∀ b : Byte, (!(busCharacter b).getLsbD 0 && !busCharacterError (busCharacter b)) = true ∧
    (busCharacter b).extractLsb' 1 8 = b := by decide +kernel

/-- The characters of some bytes spell those bytes. -/
theorem replyBytes_characters (bs : List Byte) : replyBytes (bs.map busCharacter) = some bs := by
  unfold replyBytes
  rw [if_pos]
  · simp [List.map_map, Function.comp_def, busCharacter_spells]
  · rw [List.all_map, List.all_eq_true]
    exact fun b _ => (busCharacter_spells b).1

/-- One character that does not begin, or is in error, spoils a reply. -/
theorem replyBytes_none {cs : List (BitVec 11)} {c : BitVec 11} (h : c ∈ cs)
    (bad : (!c.getLsbD 0 && !busCharacterError c) = false) : replyBytes cs = none :=
  if_neg fun all => Bool.false_ne_true (bad.symm.trans (List.all_eq_true.1 all c h))

/-- Everything a character can do at the assembler: it begins or lengthens a telegram that is not complete, or nothing
(R173). -/
theorem collect_cases (l : Link) (b : Byte) :
    (∃ bs, l.assembler.bytes = some bs ∧ unfinished (bs ++ [b]) = true ∧
      l.collect b = { l with assembler := .partialTelegram (bs ++ [b]) }) ∨ l.collect b = l := by
  unfold Link.collect
  split
  · next bs h =>
    split
    · next u => exact .inl ⟨bs, h, u, rfl⟩
    · exact .inr rfl
  · exact .inr rfl

/-- A character of a link spells its byte (R172). -/
theorem linkByte_character : ∀ b : Byte, linkByte (linkCharacter b) = some b := by decide +kernel

/-- What is handed over for a poll of `a` changes the record the poll was begun for and no other (R155). -/
theorem changePolled_eq (a : Address) (f : Site → Site) (rs : List Site) :
    changePolled a f rs = rs.map fun r => if r.address = a ∧ r.polled = true then f r else r := by
  refine List.map_congr_left fun r _ => ?_
  by_cases at_a : r.address = a <;> by_cases mark : r.polled = true <;> simp [at_a, mark]

/-- Where the polled record was deleted, what is handed over for it is discarded (R155). -/
theorem changePolled_of_deleted {a : Address} {rs : List Site} (h : polledAt rs a = none) (f : Site → Site) :
    changePolled a f rs = rs := by
  rw [changePolled_eq]
  refine (List.map_congr_left fun r hr => ?_).trans rs.map_id
  have gone := List.find?_eq_none.1 h r hr
  exact if_neg fun hit => gone (by simp [hit.1, hit.2])

/-- The marks of a poll move no record. -/
@[simp] theorem address_markPolled (a : Address) (rs : List Site) :
    (markPolled a rs).map Site.address = rs.map Site.address := by simp [markPolled, Function.comp_def]

/-- FBTX is high with no frame in progress (R145). -/
@[simp] theorem fbtx_idle (n : Nat) : Frame.idle.fbtx n = true := rfl

/-- TX is high with no response in transmission (R171). -/
theorem tx_of_quiet {l : Link} (h : l.response = none) (n : Nat) : l.tx n = true := by simp [Link.tx, Link.levels, h]

/-- The end of a poll at its reply: a good report is taken and the frame ends, any other outcome is recorded. -/
theorem takeReply_cases (s : State) (a : Address) (bs : List Byte) :
    (replyOutcome a bs = .good ∧ s.takeReply a bs = (s.goodReport a (reportOf bs)).endFrame) ∨
      (replyOutcome a bs ≠ .good ∧ s.takeReply a bs = s.endPoll a (replyOutcome a bs)) := by
  unfold State.takeReply
  cases replyOutcome a bs <;> simp

/-- The two bytes of a field spell it. -/
theorem halfOf_bytes (h : Half) : halfOf (h.extractLsb' 8 8) (h.extractLsb' 0 8) = h := by
  refine BitVec.eq_of_getLsbD_eq fun i hi => ?_
  rw [halfOf, BitVec.getLsbD_append]
  by_cases low : i < 8
  · simp [low]
  · have below : i - 8 < 8 := by omega
    have back : 8 + (i - 8) = i := by omega
    simp [low, below, back]

/-- Bytes with two more behind them pass the check exactly where those two spell the CRC of the others (R181). -/
theorem checkMatches_append (bs : List Byte) (check : Half) : checkMatches (bs ++ bytesOf check) = true ↔ check = crc16 bs := by
  have front : (bs ++ bytesOf check).take ((bs ++ bytesOf check).length - 2) = bs := by simp [bytesOf]
  rw [checkMatches, front, beq_iff_eq, withCheck]
  refine ⟨fun h => ?_, fun h => h ▸ rfl⟩
  have h := List.append_cancel_left h
  simp only [bytesOf, List.cons.injEq, and_true] at h
  rw [← halfOf_bytes check, ← halfOf_bytes (crc16 bs), h.1, h.2]

end Sys2Proof.Machine
end

