-- ==== Sys2Proof/Laws/PerInstr.lean ====
section
/-! SUPPORT. For every row: a request's row names a request that some master link permits, or a code that names no request
(the port table of R178). One lemma per constructor of `Instr`. -/

namespace Sys2Proof.Laws.PermittedSomewhere

open Sys2Proof.Machine

/-- If a row is a request's, that request is permitted on some port, or it is the unnamed one. -/
def Statement (i : Instr) : Prop :=
  ∀ p r, requestRow i = some (p, r) → r = .unnamed ∨ ∃ q : Port, q ∈ portsOf r

/-- A row that is no request. -/
theorem of_event {i : Instr} (h : requestRow i = none) : Statement i := by
  intro p r hr
  rw [h] at hr
  cases hr

/-- A row of a request that port `q` permits. -/
theorem of_permitted {i : Instr} {p : Port} {r : Request} (q : Port) (h : requestRow i = some (p, r))
    (hq : q ∈ portsOf r) : Statement i := by
  intro p' r' hr
  rw [h] at hr
  cases hr
  exact .inr ⟨q, hq⟩

theorem deviceReset (freeze : Bool) (levels : ResetLevels) : Statement (.deviceReset freeze levels) := of_event rfl

theorem tenthElapsed : Statement .tenthElapsed := of_event rfl

theorem setTime (p : Port) (day : BitVec 16) (tenths : Nat) : Statement (.setTime p day tenths) :=
    of_permitted .s rfl (by simp [portsOf])

theorem passTimerExpiry : Statement .passTimerExpiry := of_event rfl

theorem rampTimerExpiry : Statement .rampTimerExpiry := of_event rfl

theorem enroll (p : Port) (address rated capacity floor ceiling : Nat) :
    Statement (.enroll p address rated capacity floor ceiling) :=
    of_permitted .a rfl (by simp [portsOf])

theorem amend (p : Port) (address floor ceiling : Nat) : Statement (.amend p address floor ceiling) :=
    of_permitted .a rfl (by simp [portsOf])

theorem remove (p : Port) (address : Nat) : Statement (.remove p address) := of_permitted .a rfl (by simp [portsOf])

theorem readSite (p : Port) (address : Nat) : Statement (.readSite p address) := of_permitted .a rfl (by simp [portsOf])

theorem setItems (p : Port) (items : ItemsArg) : Statement (.setItems p items) :=
    of_permitted .a rfl (by simp [portsOf])

theorem freshnessExpiry (address : Address) : Statement (.freshnessExpiry address) := of_event rfl

theorem defineWindow (p : Port) (index base mask : Nat) (cls : Option SiteClass) (cap : Option Nat) :
    Statement (.defineWindow p index base mask cls cap) :=
    of_permitted .n rfl (by simp [portsOf])

theorem clearWindow (p : Port) (index : Nat) : Statement (.clearWindow p index) :=
    of_permitted .n rfl (by simp [portsOf])

theorem setBranch (p : Port) (branch : Nat) (cls : Option (Option SiteClass)) (cap exportLimit importLimit : Option Nat) :
    Statement (.setBranch p branch cls cap exportLimit importLimit) :=
    of_permitted .n rfl (by simp [portsOf])

theorem setDefaultClass (p : Port) (cls : Option SiteClass) : Statement (.setDefaultClass p cls) :=
    of_permitted .n rfl (by simp [portsOf])

theorem suspend (p : Port) : Statement (.suspend p) := of_permitted .n rfl (by simp [portsOf])

theorem resume (p : Port) : Statement (.resume p) := of_permitted .n rfl (by simp [portsOf])

theorem queryClass (p : Port) (first last : Nat) : Statement (.queryClass p first last) :=
    of_permitted .n rfl (by simp [portsOf])

theorem readWindows (p : Port) (view : Option View) : Statement (.readWindows p view) :=
    of_permitted .n rfl (by simp [portsOf])

theorem freezeAssertion : Statement .freezeAssertion := of_event rfl

theorem freezeDeassertion : Statement .freezeDeassertion := of_event rfl

theorem setOfferParams (p : Port) (margin duty granularity recovery : Nat) :
    Statement (.setOfferParams p margin duty granularity recovery) :=
    of_permitted .a rfl (by simp [portsOf])

theorem offerQuery (p : Port) (first count : Nat) : Statement (.offerQuery p first count) :=
    of_permitted .a rfl (by simp [portsOf])

theorem hold (p : Port) (slot : Nat) (product : Option Product) (watts : Nat) (expiryDay : BitVec 16) (expiryTenths : Nat) (bidTag : Half) :
    Statement (.hold p slot product watts expiryDay expiryTenths bidTag) :=
    of_permitted .a rfl (by simp [portsOf])

theorem award (p : Port) (slot : Nat) (product : Option Product) (watts : Nat) (bidTag : Half) :
    Statement (.award p slot product watts bidTag) :=
    of_permitted .a rfl (by simp [portsOf])

theorem release (p : Port) (slot : Nat) (product : Option Product) (bidTag : Half) :
    Statement (.release p slot product bidTag) :=
    of_permitted .a rfl (by simp [portsOf])

theorem readBook (p : Port) (first count : Nat) : Statement (.readBook p first count) :=
    of_permitted .a rfl (by simp [portsOf])

theorem holdExpiry (slot : Nat) (product : Product) : Statement (.holdExpiry slot product) := of_event rfl

theorem shortfallEvaluation : Statement .shortfallEvaluation := of_event rfl

theorem gsenseRisingEdge (edge : GsenseEdge) : Statement (.gsenseRisingEdge edge) := of_event rfl

theorem lossTimerExpiry : Statement .lossTimerExpiry := of_event rfl

theorem setMeter (p : Port) (candidates : CandidatesArg) : Statement (.setMeter p candidates) :=
    of_permitted .s rfl (by simp [portsOf])

theorem readMeter (p : Port) : Statement (.readMeter p) := of_permitted .s rfl (by simp [portsOf])

theorem setFlParams (p : Port) (deadband fullDev : Nat) (lossMode : Option LossMode) (holdLimit : Nat) :
    Statement (.setFlParams p deadband fullDev lossMode holdLimit) :=
    of_permitted .s rfl (by simp [portsOf])

theorem armFl (p : Port) : Statement (.armFl p) := of_permitted .s rfl (by simp [portsOf])

theorem disarmFl (p : Port) : Statement (.disarmFl p) := of_permitted .s rfl (by simp [portsOf])

theorem holdTimerExpiry : Statement .holdTimerExpiry := of_event rfl

theorem setPoint (p : Port) (watts : Int) : Statement (.setPoint p watts) := of_permitted .s rfl (by simp [portsOf])

theorem refreshTimerExpiry : Statement .refreshTimerExpiry := of_event rfl

theorem setSlParams (p : Port) (ramp timeout : Nat) : Statement (.setSlParams p ramp timeout) :=
    of_permitted .s rfl (by simp [portsOf])

theorem enterTest (p : Port) (up down : Nat) : Statement (.enterTest p up down) :=
    of_permitted .s rfl (by simp [portsOf])

theorem inject (p : Port) (delta : Int) (duration : Nat) : Statement (.inject p delta duration) :=
    of_permitted .s rfl (by simp [portsOf])

theorem injectionEnd : Statement .injectionEnd := of_event rfl

theorem leaveTest (p : Port) : Statement (.leaveTest p) := of_permitted .s rfl (by simp [portsOf])

theorem readBranchLoad (p : Port) : Statement (.readBranchLoad p) := of_permitted .n rfl (by simp [portsOf])

theorem readResponse (p : Port) : Statement (.readResponse p) := of_permitted .s rfl (by simp [portsOf])

theorem closingTimerExpiry (kind : Kind) : Statement (.closingTimerExpiry kind) := of_event rfl

theorem readJournal (p : Port) (start : Serial) : Statement (.readJournal p start) :=
    of_permitted .s rfl (by simp [portsOf])

theorem releaseJournal (p : Port) (upTo : Serial) : Statement (.releaseJournal p upTo) :=
    of_permitted .s rfl (by simp [portsOf])

theorem busEnable (p : Port) : Statement (.busEnable p) := of_permitted .a rfl (by simp [portsOf])

theorem busDisable (p : Port) : Statement (.busDisable p) := of_permitted .a rfl (by simp [portsOf])

theorem busConfig (p : Port) (rate window : Nat) : Statement (.busConfig p rate window) :=
    of_permitted .a rfl (by simp [portsOf])

theorem busRestore (p : Port) : Statement (.busRestore p) := of_permitted .a rfl (by simp [portsOf])

theorem dispatchBlock : Statement .dispatchBlock := of_event rfl

theorem poll : Statement .poll := of_event rfl

theorem pollSent : Statement .pollSent := of_event rfl

theorem replyWindowExpiry : Statement .replyWindowExpiry := of_event rfl

theorem rateCheckFailed (span : Nat) : Statement (.rateCheckFailed span) := of_event rfl

theorem replyParityError : Statement .replyParityError := of_event rfl

theorem pollEndOnQuiet : Statement .pollEndOnQuiet := of_event rfl

theorem replyGap : Statement .replyGap := of_event rfl

theorem report (characters : List (BitVec 11)) : Statement (.report characters) := of_event rfl

theorem blockComplete : Statement .blockComplete := of_event rfl

theorem collision : Statement .collision := of_event rfl

theorem backoffExpiry : Statement .backoffExpiry := of_event rfl

theorem telegramComplete (p : Port) (front : List Byte) (request : Request) (check : Half) :
    Statement (.telegramComplete p front request check) :=
    of_event rfl

theorem overrunResponse (p : Port) : Statement (.overrunResponse p) := of_event rfl

theorem responseTransmitted (p : Port) : Statement (.responseTransmitted p) := of_event rfl

theorem unnamedRequestCode (p : Port) : Statement (.unnamedRequestCode p) := by
  intro p r h
  cases h
  exact .inl rfl

theorem framingError (character : LinkCharacter) : Statement (.framingError character) := of_event rfl

theorem lengthOutOfRange (p : Port) (length : Half) : Statement (.lengthOutOfRange p length) := of_event rfl

theorem gap (p : Port) : Statement (.gap p) := of_event rfl

theorem linkBreak (p : Port) : Statement (.linkBreak p) := of_event rfl

theorem breakEnd (p : Port) : Statement (.breakEnd p) := of_event rfl

theorem setLinkMode (p : Port) (mode : Option OverrunMode) : Statement (.setLinkMode p mode) :=
    of_permitted .a rfl (by simp [portsOf])

theorem status (p : Port) : Statement (.status p) := of_permitted .a rfl (by simp [portsOf])

theorem identify (p : Port) : Statement (.identify p) := of_permitted .a rfl (by simp [portsOf])

theorem telegramLead (character : LinkCharacter) : Statement (.telegramLead character) := of_event rfl

theorem replyStart : Statement .replyStart := of_event rfl

end Sys2Proof.Laws.PermittedSomewhere
end

