-- ==== Sys2Proof/Laws/Serve.lean ====
section
/-! SUPPORT. The row of a request, once: when it is taken, what it is checked for, and that its effect is its owning block's
(R175, R178). A statement about a request's row cites these and then looks at the owning block's answer alone. -/

namespace Sys2Proof.Machine

open Sys2Proof.Safety

/-- The telegram a port can take for a request is its oldest one (R175). -/
theorem takes_eq_some (s : State) (p : Port) (r : Request) (t : Telegram) : s.takes p r = some t ↔ Oldest s p r t := by
  simp only [State.takes, Oldest]
  cases hq : (s.link p).queue with
  | nil => simp
  | cons x xs =>
    simp only [List.head?_cons, Option.some.injEq]
    constructor
    · intro h
      split at h
      · next hc => cases h; exact ⟨rfl, hc⟩
      · cases h
    · rintro ⟨rfl, h⟩
      rw [if_pos h]

/-- A port that cannot take the telegram of a request leaves the state as it is. -/
theorem serve_of_not_oldest {s : State} {p : Port} {r : Request} (own : State → Answer)
    (h : ∀ t, ¬ Oldest s p r t) : s.serve p r own = s := by
  have : s.takes p r = none := by
    cases ht : s.takes p r with
    | none => rfl
    | some t => exact absurd ((takes_eq_some s p r t).1 ht) (h t)
  simp [State.serve, this]

/-- A telegram that is taken is checked, answered by the owning block or the link controller, and responded to. -/
theorem serve_of_oldest {s : State} {p : Port} {r : Request} {t : Telegram} (own : State → Answer)
    (h : Oldest s p r t) : s.serve p r own =
      ((s.dequeue p).answer p t own).state.respond p t ((s.dequeue p).answer p t own).result
        ((s.dequeue p).answer p t own).body := by
  simp [State.serve, (takes_eq_some s p r t).2 h]

/-- An admitted telegram is answered by the owning block. -/
theorem serve_of_admitted {s : State} {p : Port} {r : Request} {t : Telegram} (own : State → Answer)
    (h : Admitted s p r t) : s.serve p r own =
      (own (s.dequeue p)).state.respond p t (own (s.dequeue p)).result (own (s.dequeue p)).body := by
  obtain ⟨ho, hp, hs, hf⟩ := h
  obtain rfl : t.request = r := ho.2.2.2
  have hc : linkCheck s.member p t = none := by simp [linkCheck, hp, hs, hf]
  rw [serve_of_oldest own ho]
  simp [State.answer, hc]

/-- Everything the row of a request can do: nothing, a refusal of the link controller, or the owning block's answer. -/
theorem serve_cases (s : State) (p : Port) (r : Request) (own : State → Answer) :
    s.serve p r own = s ∨
    (∃ t c, Oldest s p r t ∧ linkCheck s.member p t = some c ∧ s.serve p r own = (s.dequeue p).respond p t c .empty) ∨
    ∃ t, Oldest s p r t ∧ linkCheck s.member p t = none ∧ s.serve p r own =
      (own (s.dequeue p)).state.respond p t (own (s.dequeue p)).result (own (s.dequeue p)).body := by
  by_cases h : ∃ t, Oldest s p r t
  · obtain ⟨t, ht⟩ := h
    rw [serve_of_oldest own ht]
    cases hc : linkCheck s.member p t with
    | none => exact .inr (.inr ⟨t, ht, hc, by simp [State.answer, hc]⟩)
    | some c => exact .inr (.inl ⟨t, c, ht, hc, by simp [State.answer, hc, refuse]⟩)
  · exact .inl (serve_of_not_oldest own fun t ht => h ⟨t, ht⟩)

/-- The meaning of a request's row is the taking of its telegram with its owning block's answer. -/
theorem exec_request {i : Instr} {p : Port} {r : Request} (s : State) (h : requestRow i = some (p, r)) :
    exec i s = .next (s.serve p r (ownOf p r)) := by
  cases i <;> simp only [requestRow, Option.some.injEq, Prod.mk.injEq, reduceCtorEq] at h
  all_goals obtain ⟨rfl, rfl⟩ := h; rfl

/-- A request's row answers with its owning block's answer when its telegram is admitted. -/
theorem exec_of_admitted {i : Instr} {s : State} {p : Port} {r : Request} {t : Telegram}
    (hi : requestRow i = some (p, r)) (h : Admitted s p r t) :
    exec i s = .next ((ownOf p r (s.dequeue p)).state.respond p t (ownOf p r (s.dequeue p)).result
      (ownOf p r (s.dequeue p)).body) := by
  rw [exec_request s hi, serve_of_admitted _ h]

/-- The conclusion `Answers` from the owning block's answer. -/
theorem answers_of_admitted {i : Instr} {s s' : State} {p : Port} {r : Request} {t : Telegram} {c : ResultCode}
    {b : ResponseBody} (hi : requestRow i = some (p, r)) (h : Admitted s p r t)
    (ho : ownOf p r (s.dequeue p) = ⟨s', c, b⟩) : Answers i s p t c b s' := by
  rw [Answers, exec_of_admitted hi h, ho]

end Sys2Proof.Machine
end

