-- ==== Sys2Proof/WellFormed.lean ====
section
/-! DEFINITION. What a command must meet to be an event of its name, where its operands could spell none. -/

namespace Sys2Proof

/-- A command whose operands describe an event: a REPORT of characters without error and of the length its markers fix
(R146, R155), a telegram whose bytes make up a whole one (R173, R182), a link character that is a framing error or, for
TELEGRAM_LEAD, one without error (R172), a length
that is out of range (R173). Every other command is well formed with any
operands; values out of a request's range are answered by the request (R178). -/
def Instr.wellFormed : Instr → Bool
  | .report characters => (Machine.replyBytes characters).any Machine.completeReport
  | .telegramComplete _ front _ check => Machine.completeTelegram (front ++ Machine.bytesOf check)
  | .telegramLead character => (Machine.linkByte character.bits).isSome
  | .framingError character => Machine.linkCharacterError character.bits
  | .lengthOutOfRange _ length => !Machine.lengthInRange length.toNat
  | _ => true

end Sys2Proof
end

