-- ==== Sys2Proof/Tests/Slice0.lean ====
section
/-! SUPPORT. The model's own tests: the ill-formed terms that WellFormed refuses, single steps of the manual's worked cases (the
section named in each comment), and for every statement with hypotheses a state and operands that meet them. -/

set_option Elab.async false

namespace Sys2Proof.Tests

open Sys2Proof.Machine Sys2Proof.Safety

/-! ### States and readers -/

/-- The telegram of a request, with a code and a tag. -/
def tel (r : Request) : Telegram := ⟨0x10, 0x42, r, true, true⟩

/-- A state whose port `p` has the telegram of `r` waiting and nothing in transmission. -/
def asked (s : State) (p : Port) (r : Request) : State := 
  s.setLink p { s.link p with queue := [tel r], response := none }

/-- The state after a command. -/
def after (i : Instr) (s : State) : State :=
  match exec i s with
  | .next t => t
  | _ => s

/-- The result and body a port answers when a request's row runs on its waiting telegram. -/
def answerOf (i : Instr) (s : State) : Option (ResultCode × ResponseBody) :=
  match requestRow i with
  | some (p, r) => ((after i (asked s p r)).link p).response.map fun q => (q.result, q.body)
  | none => none

/-- The state after a request's row has run on its waiting telegram. -/
def afterAsked (i : Instr) (s : State) : State :=
  match requestRow i with
  | some (p, r) => after i (asked s p r)
  | none => s

/-- A FRESH, READY site of class OPEN without a cap, polled, whose gateway reports no available power. -/
def site (a : Address) (rated capacity floor ceiling soc : Nat) : Site :=
  { address := a, rated, capacity, floor, ceiling, lifecycle := .enrolled, freshness := .fresh, freshnessTimer := some 0,
    lastReport := none, soc := some soc, measured := some 0, status := some .ready, available := none, household := none,
    pv := none, lastPoll := some .good, effClass := .openBoth, effCap := none, lastSetpoint := 0, leavingSince := none,
    polled := true }

/-- A window table IN_FORCE whose default class is OPEN. -/
def openTable : WindowTable :=
  let c : Contents := { Contents.reset .ojl256 with defaultClass := .openBoth }
  ⟨.inForce, c, c⟩

/-- A state with a clock, a roster and an open table. -/
def stateAt (t : Time) (roster : List Site) : State :=
  { State.reset with now := some t, roster, windows := openTable }

/-- A book record without risk fields. -/
def record (slot : Nat) (p : Product) (awarded held : Nat) (terms : Option HoldTerms) : BookRecord :=
  ⟨slot, p, awarded, held, terms, none⟩

/-- A state with records in its book. -/
def withBook (s : State) (rs : List BookRecord) : State := { s with book := { s.book with records := rs } }

/-- A reply of these bytes. -/
def report (bytes : List Byte) : Instr := .report (bytes.map busCharacter)

/-- The report of step 2 in 2.8: SoC 640, measured −1,200 W, READY, available 5,550 W. -/
def report2 : List Byte := withCheck [0xF0, 0x02, 0x0B, 0x02, 0x80, 0xFB, 0x50, 0x01, 0x01, 0x15, 0xAE]

/-- A telegram of these bytes, the check the last two of them, that names IDENTIFY. -/
def arrives (p : Port) (bytes : List Byte) : Instr :=
  let n := bytes.length - 2
  .telegramComplete p (bytes.take n) .identify (halfOf (bytes.getD n 0) (bytes.getD (n + 1) 0))

/-- The bytes arrive on a port, one character after the other: those the assembler has not yet, then the last. -/
def arrive (p : Port) (bytes : List Byte) (s : State) : State :=
  let have' := ((s.link p).assembler.bytes.getD []).length
  after (arrives p bytes) ((bytes.dropLast.drop have').foldl (fun s b => after (.telegramLead ⟨p, linkCharacter b⟩) s) s)

/-! ### WellFormed refuses -/

theorem test_wellFormed_refuses_short_report : (report [0xF0, 0x02, 0x0B]).wellFormed = false ∧
    (Instr.report ((report2.map busCharacter).set 3 0x000)).wellFormed = false ∧ (report report2).wellFormed = true := by
  decide +kernel

theorem test_wellFormed_refuses_short_telegram :
    (Instr.telegramComplete .a [0xC3, 0x00, 0x02, 0x10] .identify 0).wellFormed = false := by decide +kernel

theorem test_wellFormed_refuses_good_character :
    (Instr.framingError ⟨.a, linkCharacter 0xC3⟩).wellFormed = false := by decide +kernel

theorem test_wellFormed_refuses_length_in_range :
    (Instr.lengthOutOfRange .a 2).wellFormed = false ∧ (Instr.lengthOutOfRange .a 64).wellFormed = false := by decide

theorem test_wellFormed_takes_the_rest :
    (Instr.lengthOutOfRange .a 1).wellFormed ∧ (Instr.lengthOutOfRange .a 65).wellFormed ∧ Instr.poll.wellFormed := by
  decide

/-! ### Formats (R181 to R183) and the rate check (R154) -/

/-- The check of the nine characters 123456789 is 29B1h (R181). -/
theorem test_crc16_of_digits :
    crc16 [0x31, 0x32, 0x33, 0x34, 0x35, 0x36, 0x37, 0x38, 0x39] = 0x29B1 := by decide +kernel

/-- A setpoint of −4,130 W is sent as FE63h (11.6). -/
theorem test_entry_bytes : (BlockEntry.mk 0x105 (-4130) false).bytes = [0x01, 0x05, 0xFE, 0x63] := by decide +kernel

/-- A block of 32 entries is 132 bytes (11.6). -/
theorem test_block_length : (Block.mk 1 1 false (List.replicate 32 ⟨0x105, 0, false⟩)).bytes.length = 132 := by decide +kernel

/-- On the fleet bus 71h, with four ones, takes a parity bit of 1 (R146). -/
theorem test_busCharacter :
    levelsOf (busCharacter 0x71) = [false, true, false, false, false, true, true, true, false, true, true] ∧
      busCharacterError (busCharacter 0x71) = false ∧ busCharacterError (busCharacter 0x71 ^^^ 0x200) = true := by
  decide +kernel

/-- On a master link C3h goes out low, 1, 1, 0, 0, 0, 0, 1, 1, high; a low stop bit is a framing error (R172). -/
theorem test_linkCharacter :
    levelsOf (linkCharacter 0xC3) = [false, true, true, false, false, false, false, true, true, true] ∧
      linkCharacterError (linkCharacter 0xC3) = false ∧ linkCharacterError 0x186 = true := by decide +kernel

/-- A POLL of 20Bh for PV output: 71h, the address, the item bits and the check; 84 bit times from leader to guard. -/
theorem test_pollBytes :
    let f : Frame := .poll 0x20B ⟨false, true⟩ .transmitting
    f.bytes.take 4 = [0x71, 0x02, 0x0B, 0x04] ∧ f.levels.length = 14 + 2 + 6 * 11 + 2 ∧ f.levels.take 14 =
      List.replicate 14 false ∧ f.fbtx 13 = false ∧ f.fbtx 14 = true ∧ f.fbtx 84 = true ∧ Frame.idle.fbtx 0 = true := by
  decide +kernel

/-- A response with an empty body counts five bytes and is ten bytes long (R182), whatever byte stands for its result. -/
theorem test_responseBytes (r : ResultCode) :
    ((⟨0x22, 0x14, r, 0, 0, .empty⟩ : Response).bytes.take 5 = [0x3C, 0x00, 0x05, 0x22, 0x14]) ∧
      (⟨0x22, 0x14, r, 0, 0, .empty⟩ : Response).bytes.length = 10 := by
  refine ⟨?_, rfl⟩
  simp [Response.bytes, withCheck, ResponseBody.bytes, bytesOf, responseLead]

/-- The spans that pass the check: 190 to 210, 95 to 105 and 48 to 52 REFCLK periods (R154). -/
theorem test_rate_check_spans :
    (List.range 300).filter BusRate.r250k.accepts = List.range' 190 21 ∧
      (List.range 300).filter BusRate.r500k.accepts = List.range' 95 11 ∧
      (List.range 300).filter BusRate.r1000k.accepts = List.range' 48 5 := by decide +kernel

/-- No word spells a command: the table gives no bits. -/
theorem test_no_word_spells_a_command : decodeTableWord 8 0xC3 = none := rfl

/-! ### Slot clock (worked sequence after R12) -/

theorem test_tenthElapsed_boundary :
    ((after .tenthElapsed (stateAt ⟨412, 449999⟩ [])).current = some 39602) ∧
      (after .tenthElapsed (stateAt ⟨65535, 863999⟩ [])).now = some ⟨0, 0⟩ := by decide +kernel

/-- Step 2 of the sequence: the book's record of 39,601 goes and the hold in 39,602 lapses. -/
theorem test_setTime_forward :
    let s := withBook (stateAt ⟨412, 449970⟩ [])
      [record 39601 .slu 4000 0 none, record 39602 .slu 2000 3000 (some ⟨⟨412, 449980⟩, 1⟩)]
    (afterAsked (.setTime .s 412 450120) s).book.records.map (fun r => (r.slot, r.awarded, r.held, r.terms)) =
      [(39602, 2000, 0, none)] := by decide +kernel

/-- Step 7: 29,990 tenths ahead with a record in the book is TIME_JUMP. -/
theorem test_setTime_jump :
    answerOf (.setTime .s 412 480000) (withBook (stateAt ⟨412, 450010⟩ []) [record 39602 .slu 2000 0 none]) =
      some (.timeJump, .clock (some ⟨412, 450010⟩)) := by decide +kernel

theorem test_deviceReset_takes_high_freeze :
    let t := after (.deviceReset true ⟨3, true⟩) State.reset
    t.disp.passNumber = 1 ∧ t.lrate = 3 ∧ t.meter.gsense = true ∧ t.meter.periodStart = none := by decide +kernel

/-! ### Roster (2.8) -/

/-- The enrolled site of 2.8, with the class and cap its window gives. -/
def site20B : Site :=
  { site 0x20B 6000 12000 150 950 640 with
    freshness := .silent, freshnessTimer := none, soc := none, measured := none, status := none, lastPoll := none
    effCap := some 5000 }

theorem test_enroll : (afterAsked (.enroll .a 0x20B 6000 12000 150 950) (stateAt ⟨0, 0⟩ [site 0x100 5000 10000 200 900 600,
    site 0x300 5000 10000 200 900 600])).roster.map Site.address = [0x100, 0x20B, 0x300] := by decide +kernel

/-- A state that awaits the reply of 20Bh. -/
def polled (r : Site) : State :=
  let s := stateAt ⟨0, 0⟩ [r]
  { s with bus := { s.bus with state := .running, frame := .poll 0x20B ⟨false, false⟩ .receiving } }

theorem test_report_figures : (siteAt (after (report report2) (polled site20B)).roster 0x20B).map Site.figures =
    some ⟨5000, 5000, 5000, 5000, 5880, 3720, 9600, 9600⟩ := by decide +kernel

/-- Step 3: at 20 tenths every figure is halved. -/
theorem test_freshnessExpiry_halves :
    (siteAt (after (.freshnessExpiry 0x20B) (after (report report2) (polled site20B))).roster 0x20B).map Site.figures =
      some ⟨2500, 2500, 2500, 2500, 2940, 1860, 4800, 4800⟩ := by decide +kernel

/-- Step 4: SoC 1,030 and +7,400 W are clamped, and the available power becomes absent. -/
theorem test_report_clamps :
    let r := siteAt (after (report (withCheck [0xF0, 0x02, 0x0B, 0x04, 0x06, 0x1C, 0xE8, 0x01, 0x00]))
      (polled { site20B with available := some 5550 })).roster 0x20B
    r.map Site.figures = some ⟨5000, 5000, 5000, 0, 10200, 0, 9600, 9600⟩ ∧
      r.map (fun r => (r.soc, r.measured, r.available)) = some (some 1000, some 6000, none) := by decide +kernel

/-- Step 5: AMEND takes effect at once. -/
theorem test_amend :
    (siteAt (afterAsked (.amend .a 0x20B 300 900) (stateAt ⟨0, 0⟩ [{ site 0x20B 6000 12000 150 950 1000 with
      effCap := some 5000 }])).roster 0x20B).map Site.figures = some ⟨5000, 5000, 5000, 0, 8400, 0, 7200, 7200⟩ := by
  decide +kernel

/-- Step 8: in RUNNING the site becomes LEAVING; otherwise the record is deleted at once (R17). -/
theorem test_remove :
    answerOf (.remove .a 0x20B) (polled site20B) = some (.ok, .removed (some .leaving)) ∧
      (afterAsked (.remove .a 0x20B) (stateAt ⟨0, 0⟩ [site20B])).roster = [] := by decide +kernel

theorem test_setItems : (afterAsked (.setItems .a ⟨true, false, false⟩) State.reset).bus.items = ⟨true, false⟩ := by
  decide +kernel

theorem test_readSite_missing : answerOf (.readSite .a 0x20C) (polled site20B) = some (.noSuchSite, .empty) := by
  decide +kernel

/-! ### Network windows (3.9) -/

/-- The working contents of 3.9. -/
def contents39 : Contents :=
  { branches := ((Contents.reset .ojl256).branches.set 1 ⟨none, none, some 6000, none⟩).set 2
      ⟨some .exportOnly, some 4000, none, some 9000⟩
    varWindows := (((Contents.reset .ojl256).varWindows.set 0 ⟨true, 0x200, 0xF00, .openBoth, some 5000⟩).set 1
      ⟨true, 0x240, 0xFF0, .importOnly, none⟩).set 2 ⟨true, 0x100, 0xFC0, .openBoth, some 3000⟩
    defaultClass := .openBoth }

theorem test_resolution :
    [0x010, 0x105, 0x150, 0x20B, 0x245].map contents39.resolve = [(.openBoth, none), (.openBoth, some 3000),
      (.openBoth, none), (.exportOnly, some 4000), (.frozen, some 4000)] := by decide +kernel

/-- A table being edited with the contents of 3.9. -/
def editing39 : State :=
  { State.reset with windows := { State.reset.windows with working := contents39 }, roster := [site 0x245 5000 10000 200 900 600] }

theorem test_resume :
    (afterAsked (.resume .n) editing39).roster.map (fun r => (r.effClass, r.effCap)) = [(.frozen, some 4000)] ∧
      answerOf (.resume .n) editing39 = some (.ok, .resumed .inForce 1 1) := by decide +kernel

theorem test_queryClass :
    answerOf (.queryClass .n 0x200 0x23F) editing39 = some (.ok, .classes .unset (.uniform .exportOnly (some 4000))) ∧
      answerOf (.queryClass .n 0x200 0x24F) editing39 =
        some (.ok, .classes .unset (.mixed .exportOnly (some 4000) 0x240)) ∧
      answerOf (.queryClass .n 0x100 0x1FF) editing39 =
        some (.ok, .classes .unset (.mixed .openBoth (some 3000) 0x140)) ∧
      answerOf (.queryClass .n 0x300 0x3FF) editing39 = some (.ok, .classes .unset (.uniform .openBoth none)) := by
  decide +kernel

theorem test_defineWindow_refusals :
    answerOf (.defineWindow .n 1 0x241 0xFF0 (some .importOnly) none) editing39 = some (.badBase, .empty) ∧
      answerOf (.defineWindow .n 2 0x100 0xFC3 (some .openBoth) (some 3000)) editing39 = some (.badMask, .empty) := by
  decide +kernel

theorem test_defineWindow : (afterAsked (.defineWindow .n 7 0x240 0xFF0 (some .importOnly) none)
    State.reset).windows.working.varWindows[7]? = some ⟨true, 0x240, 0xFF0, .importOnly, none⟩ := by decide +kernel

theorem test_clearWindow : (afterAsked (.clearWindow .n 1) editing39).windows.working.varWindows[1]? =
    some ⟨false, 0, 0, .frozen, none⟩ := by decide +kernel

theorem test_setBranch : (afterAsked (.setBranch .n 15 none none (some 6000) none) State.reset).windows.working.branches[15]? =
    some ⟨none, none, some 6000, none⟩ := by decide +kernel

theorem test_setDefaultClass :
    (afterAsked (.setDefaultClass .n (some .openBoth)) State.reset).windows.working.defaultClass = .openBoth := by
  decide +kernel

theorem test_suspend :
    (afterAsked (.suspend .n) (stateAt ⟨0, 0⟩ [])).windows.state = .editing ∧
      answerOf (.suspend .n) State.reset = some (.notNow, .tableState .unset) := by decide +kernel

theorem test_readWindows : answerOf (.readWindows .n (some .working)) editing39 =
    some (.ok, .windows contents39 .unset true false) := by decide +kernel

/-! ### Headroom and offers (4.6, 4.7) -/

/-- The fleet and book of 4.6; the current slot is 0. -/
def state46 : State :=
  withBook (stateAt ⟨0, 0⟩ [site 1 5000 10000 200 900 600, site 2 4000 8000 200 1000 500, site 3 3000 5000 200 900 250])
    [record 0 .slu 4000 0 none, record 1 .flu 6000 0 none]

theorem test_offers_before_the_hold :
    [1, 2, 95].map (fun k => (state46.publishedOffer 0 k .slu, state46.publishedOffer 0 k .flu)) =
      [(5000, 5000), (10000, 10000), (10000, 10000)] ∧
      ((state46.headroom 0 .up).slack 0 = 5650) ∧ (state46.headroom 0 .up).energySlack 1 = 4150 := by decide +kernel

/-- The hold of 10,000 W of SLU in slot c+2. -/
def hold46 : Instr := .hold .a 2 (some .slu) 10000 0 18000 0x0A11

theorem test_hold : answerOf hold46 state46 = some (.ok, .granted 0 10000 ⟨0, 18000⟩ 0x0A11 10000) := by decide +kernel

theorem test_offers_after_the_hold :
    let s := afterAsked hold46 state46
    [1, 2, 3, 95].map (fun k => (s.publishedOffer 0 k .slu, s.publishedOffer 0 k .fld)) =
      [(5000, 10000), (1000, 10000), (5000, 10000), (5000, 10000)] := by decide +kernel

/-- 1,010 W of FLU at a duty of 37 % reserves 94 Wh (4.2). -/
theorem test_reservation :
    reservation { Book.reset with records := [record 3 .flu 1010 0 none], params := ⟨10, 37, 1000, 0⟩ } 3 .up = 94 := by
  decide +kernel

theorem test_setOfferParams :
    (afterAsked (.setOfferParams .a 0 40 100 500) State.reset).book.params = ⟨0, 40, 100, 500⟩ ∧
      answerOf (.setOfferParams .a 0 40 99 500) State.reset = some (.badValue, .empty) := by decide +kernel

theorem test_offerQuery_horizon :
    answerOf (.offerQuery .a 0 1) state46 = some (.outOfHorizon, .empty) ∧
      answerOf (.offerQuery .a 95 2) state46 = some (.outOfHorizon, .empty) := by decide +kernel

/-! ### Commitment book (5.9) -/

/-- The book of 5.9 after its step 2, at tenths 470,300 of day 413. -/
def state59 : State :=
  withBook (stateAt ⟨413, 470300⟩ []) [record 39700 .slu 4000 0 none,
    record 39702 .flu 0 4000 (some ⟨⟨413, 475500⟩, 0x0A12⟩), record 39702 .slu 0 8000 (some ⟨⟨413, 474000⟩, 0x0A11⟩)]

/-- Steps 3 and 4. -/
theorem test_hold_refusals :
    answerOf (.hold .a 39702 (some .slu) 2000 413 474500 0x0A13) state59 =
        some (.holdPending, .standing 8000 (some ⟨⟨413, 474000⟩, 0x0A11⟩)) ∧
      answerOf (.hold .a 39702 (some .sld) 3000 413 487000 0x0A14) state59 = some (.badExpiry, .empty) := by decide +kernel

/-- Step 6. -/
theorem test_award : (afterAsked (.award .a 39702 (some .slu) 6000 0x0A11) state59).book.records =
    [record 39700 .slu 4000 0 none, record 39702 .flu 0 4000 (some ⟨⟨413, 475500⟩, 0x0A12⟩),
      record 39702 .slu 6000 0 none] := by decide +kernel

/-- Steps 5 and 8. -/
theorem test_award_refusals :
    answerOf (.award .a 39702 (some .slu) 6000 0x0A1F) state59 =
        some (.tagMismatch, .standing 8000 (some ⟨⟨413, 474000⟩, 0x0A11⟩)) ∧
      answerOf (.award .a 39702 (some .fld) 4000 0x0A12)
        { state59 with book := { state59.book with expired := [⟨39702, .fld, 0x0A12, ⟨413, 475500⟩⟩] } } =
        some (.holdExpired, .expiredAt ⟨413, 475500⟩) := by decide +kernel

theorem test_release : (afterAsked (.release .a 39702 (some .flu) 0x0A12) state59).book.records =
    [record 39700 .slu 4000 0 none, record 39702 .slu 0 8000 (some ⟨⟨413, 474000⟩, 0x0A11⟩)] := by decide +kernel

/-- Step 7. -/
theorem test_holdExpiry :
    let t := after (.holdExpiry 39702 .flu) { state59 with now := some ⟨413, 475500⟩ }
    t.book.expired = [⟨39702, .flu, 0x0A12, ⟨413, 475500⟩⟩] ∧ t.book.records.map BookRecord.product = [.slu, .slu] ∧
      .holdLapsed ∈ t.linkA.attention := by decide +kernel

/-- A hold whose expiry is its slot's start: taken ahead of the boundary, an AWARD between the two is answered HOLD_EXPIRED,
and the boundary removes the entry (R81, R85). -/
theorem test_holdExpiry_before_the_boundary :
    let s := withBook (stateAt ⟨413, 476999⟩ []) [record 39701 .slu 0 8000 (some ⟨⟨413, 477000⟩, 0x0A11⟩)]
    let t := after (.holdExpiry 39701 .slu) s
    answerOf (.award .a 39701 (some .slu) 8000 0x0A11) t = some (.holdExpired, .expiredAt ⟨413, 477000⟩) ∧
      (after .tenthElapsed t).book.expired = [] ∧ t.linkA.attention = (after .tenthElapsed s).linkA.attention := by
  decide +kernel

/-- A hold whose expiry is the boundary of an earlier slot than its own: taken ahead of that boundary, its evaluation no
longer counts the hold (R78, R91). -/
theorem test_holdExpiry_before_an_earlier_boundary :
    let s := withBook (stateAt ⟨413, 476999⟩ []) [record 39703 .slu 0 8000 (some ⟨⟨413, 477000⟩, 0x0A11⟩)]
    let t := after .tenthElapsed (after (.holdExpiry 39703 .slu) s)
    t.book.records = [] ∧ .shortfall ∉ t.linkA.attention ∧ .shortfall ∈ (after .tenthElapsed s).linkA.attention ∧
      after (.holdExpiry 39703 .slu) { s with now := some ⟨413, 476998⟩ } = { s with now := some ⟨413, 476998⟩ } := by
  decide +kernel

theorem test_readBook : answerOf (.readBook .s 39701 1) state59 = some (.ok, .book 39700 []) := by decide +kernel

/-- No fleet stands behind 4,000 W of SLU: the pair has a power deficit of 4,000 W and an energy deficit of 1,000 Wh. -/
theorem test_shortfallEvaluation :
    let s := withBook (stateAt ⟨0, 0⟩ []) [record 1 .slu 4000 0 none]
    let t := after .shortfallEvaluation { s with book := { s.book with evalRequests := 1 } }
    t.book.records.map BookRecord.risk = [some ⟨4000, 1000⟩] ∧ .shortfall ∈ t.linkS.attention := by decide +kernel

/-! ### Frequency meter (6.8, 6.9) -/

/-- The meter of 6.8 after edge 3, its period start at 0. -/
def state68 : State :=
  { State.reset with meter := { Meter.reset with
    gsense := true, state := .searching, periodStart := some 0, estimates := [49890, 49900], lossTimer := true } }

/-- Edges 4 and 6. -/
theorem test_gsenseRisingEdge :
    (after (.gsenseRisingEdge ⟨some 50000, 61200⟩) state68).meter = { state68.meter with periodStart := some 61200 } ∧
      (after (.gsenseRisingEdge ⟨some 100000, 200000⟩) state68).meter.reading = some 49900 ∧
      (after (.gsenseRisingEdge ⟨some 100000, 200000⟩) state68).meter.lockRun = 1 := by decide +kernel

/-- A high level at the reset is no edge; a level held for less than 100 periods is not taken (R95). -/
theorem test_gsense_levels :
    let high := State.afterReset .ojl256 false 0 true
    after (.gsenseRisingEdge ⟨none, 5000⟩) high = high ∧
      (after (.gsenseRisingEdge ⟨some 100, 200⟩) high).meter.periodStart = some 200 ∧
      after (.gsenseRisingEdge ⟨some 101, 200⟩) state68 = state68 ∧
      after (.gsenseRisingEdge ⟨some 99, 200⟩) state68 = state68 ∧
      (after (.gsenseRisingEdge ⟨some 100, 200⟩) state68).meter.periodStart = some 200 := by decide +kernel

/-- The meter of 6.8 after edge 12. -/
def state68b : State :=
  { State.reset with meter := { Meter.reset with
    gsense := true, state := .searching, periodStart := some 0, estimates := [49900, 49890, 49900], reading := some 49900, lockRun := 7,
    lockCandidate := some .fifty, lossTimer := true } }

/-- Edge 13: 10,000,000,000 / 200,361 is 49,910 mHz to the nearest; the eighth reading locks. -/
theorem test_gsense_lock :
    let m := (after (.gsenseRisingEdge ⟨some 100000, 200361⟩) state68b).meter
    m.state = .locked ∧ m.nominal = some 50000 ∧ m.lockRun = 0 ∧ m.estimates = [49890, 49900, 49910] := by decide +kernel

theorem test_lossTimerExpiry :
    let t := after .lossTimerExpiry { state68b with meter := { state68b.meter with
      state := .locked, nominal := some 50000, lockRun := 0, lockCandidate := none } }
    t.meter = { Meter.reset with gsense := true, periodStart := some 0 } ∧ .freqLost ∈ t.linkS.attention := by decide +kernel

theorem test_setMeter :
    answerOf (.setMeter .s ⟨false, false, false⟩) state68 = some (.prohibited, .meterSet .searching ⟨true, true⟩) ∧
      (afterAsked (.setMeter .s ⟨false, true, false⟩) state68).meter.estimates = [] := by decide +kernel

/-! ### Response generator (7.6, 7.7, 7.9) -/

/-- The generator of 7.6. -/
def gen76 : Generator :=
  { Generator.reset with flUp := 6000, flDown := 4000, armed := true, lossMode := .holdLast }

theorem test_targets :
    [110, 15, -120, 300, 153].map (fun x => ({ gen76 with delta := x } : Generator).targetOf) =
      [3000, 0, -2220, 6000, 4430] ∧
      ({ gen76 with flUp := 2000, delta := 153 } : Generator).targetOf = 1470 ∧
      ({ gen76 with flUp := 2000, delta := 50 } : Generator).targetOf = 330 := by decide +kernel

/-- Step 6: the hold begins and keeps the deviation and the target. -/
theorem test_loss_hold :
    let g := ({ gen76 with delta := 153, flTarget := 4430 } : Generator).loseLock
    g.lossHold = some ⟨153, 20⟩ ∧ g.flTarget = 4430 ∧ g.delta = 153 := by decide +kernel

theorem test_holdTimerExpiry :
    let t := after .holdTimerExpiry { State.reset with
      gen := { gen76 with delta := 153, flTarget := 4430, lossHold := some ⟨153, 20⟩ } }
    t.gen.lossHold = none ∧ t.gen.flTarget = 0 := by decide +kernel

/-- The generator of 7.7 before its step 1. -/
def gen77 : Generator := { Generator.reset with slUp := 8000 }

theorem test_setPoint : answerOf (.setPoint .s 12345) { State.reset with gen := gen77 } =
    some (.clamped, .setPoint 12345 8000 0 8000 0) := by decide +kernel

/-- Steps 2, 3 and 6. -/
theorem test_rampTimerExpiry :
    (after .rampTimerExpiry { State.reset with gen := { gen77 with slApplied := 8000 } }).gen.slEffective = 5000 ∧
      (after .rampTimerExpiry { State.reset with gen := { gen77 with slApplied := 8000, slEffective := 5000 } }).gen.slEffective
        = 8000 ∧
      (after .rampTimerExpiry { State.reset with gen := { gen77 with slApplied := -2000, slEffective := 3000 } }).gen.slEffective
        = -2000 := by decide +kernel

/-- Step 7. -/
theorem test_refreshTimerExpiry :
    let t := after .refreshTimerExpiry { State.reset with
      gen := { gen77 with slRequested := -7000, slApplied := -2000, slEffective := -2000, refreshTimer := some 120 } }
    (t.gen.slRequested, t.gen.slApplied, t.gen.slEffective) = (0, 0, -2000) ∧ .signalLost ∈ t.linkS.attention := by
  decide +kernel

/-- Step 1 of 7.9. -/
theorem test_enterTest :
    let t := afterAsked (.enterTest .s 10000 5000) { State.reset with gen := { Generator.reset with armed := true } }
    t.gen.flUp = 10000 ∧ t.gen.flDown = 5000 ∧ t.gen.test = .test := by
  decide +kernel

/-- Steps 2, 4 and 5 of 7.9. -/
theorem test_inject :
    let s : State := { State.reset with gen := { Generator.reset with
      armed := true, test := .test, flUp := 10000, flDown := 5000, testUp := 10000, testDown := 5000 } }
    let t := afterAsked (.inject .s (-250) 30) s
    answerOf (.inject .s 100 50) s = some (.ok, .injected 100 4440) ∧ t.gen.flTarget = -5000 ∧
      (after .injectionEnd t).gen.flTarget = 0 := by decide +kernel

theorem test_leaveTest :
    answerOf (.leaveTest .s) { State.reset with gen := { Generator.reset with test := .test } } =
      some (.ok, .testState .live) := by decide +kernel

theorem test_setFlParams : answerOf (.setFlParams .s 20 30 (some .holdLast) 20) State.reset =
    some (.ok, .flParams 20 30 .holdLast 20) := by decide +kernel

theorem test_setSlParams : (afterAsked (.setSlParams .s 1000 60) State.reset).gen.ramp = 1000 := by decide +kernel

/-- Arming with a LOCKED reading of 49,890 forms the target of step 1 of 7.6 at once. -/
theorem test_armFl :
    let g := { gen76 with armed := false, last := ⟨some 49890, some .locked, some 50000⟩ }
    answerOf (.armFl .s) { State.reset with gen := g } = some (.ok, .arming true 3000) ∧
      answerOf (.disarmFl .s) { State.reset with gen := gen76 } = some (.ok, .arming false 0) := by decide +kernel

/-! ### Dispatch (8.6) -/

/-- A site in the middle of its range. -/
def mid (a : Address) (rated : Nat) : Site := site a rated 10000 200 900 500

/-- The fleet and target of case 1 of 8.6. -/
def case1 : State :=
  let s := stateAt ⟨0, 0⟩ [mid 0x010 5000, mid 0x011 3000, mid 0x105 4000, mid 0x106 4000, mid 0x107 2000]
  let c : Contents := { openTable.inForce with branches := openTable.inForce.branches.set 1 ⟨none, none, some 6000, none⟩ }
  { s with windows := ⟨.inForce, c, c⟩, gen := { s.gen with slUp := 12600, slEffective := 12600 } }

theorem test_pass_case1 :
    let t := after .passTimerExpiry case1
    t.roster.map Site.lastSetpoint = [4130, 2470, 2400, 2400, 1200] ∧ t.disp.dispatched = 12600 ∧
      t.disp.branches.take 2 = [⟨6600, 0, false⟩, ⟨6000, 0, true⟩] := by decide +kernel

/-- The fleet and target of case 2 of 8.6. -/
def case2 : State :=
  let s := stateAt ⟨0, 0⟩ [mid 0x200 3000, mid 0x201 3000, mid 0x300 2500, mid 0x301 2500, mid 0x302 2500, mid 0x400 1000]
  let c : Contents := { openTable.inForce with
    branches := (openTable.inForce.branches.set 2 ⟨none, none, none, some 0⟩).set 3 ⟨none, none, none, some 5000⟩ }
  { s with windows := ⟨.inForce, c, c⟩, gen := { s.gen with slDown := 9000, slEffective := -9000 } }

theorem test_pass_case2 :
    let t := after .passTimerExpiry case2
    t.roster.map Site.lastSetpoint = [0, 0, -1670, -1670, -1660, -1000] ∧ t.disp.capacity = 6000 ∧
      t.disp.shortfall = 3000 := by decide +kernel

theorem test_freezeAssertion :
    let t := after .freezeAssertion case1
    t.roster.map Site.lastSetpoint = [0, 0, 0, 0, 0] ∧ t.disp.shortfall = 12600 ∧ .freeze ∈ t.linkN.attention := by
  decide +kernel

theorem test_freezeDeassertion : (after .freezeDeassertion { State.reset with freeze := true }).freeze = false := by
  decide +kernel

theorem test_readBranchLoad : (answerOf (.readBranchLoad .n) case1).map Prod.fst = some .ok := by decide +kernel

theorem test_readResponse : (answerOf (.readResponse .s) case1).map Prod.fst = some .ok := by decide +kernel

/-! ### Fleet bus (9.8, 9.9) -/

/-- A running bus with two sites, one frame and a collision count. -/
def busAt (f : Frame) (n : Nat) : State :=
  let s := stateAt ⟨0, 0⟩ [mid 0x205 5000, mid 0x206 5000]
  { s with bus := { s.bus with state := .running, frame := f, collisions := n } }

/-- Step 1 of 9.9. -/
theorem test_collision :
    let t := after .collision (busAt (.poll 0x205 ⟨false, false⟩ .transmitting) 0)
    t.bus.state = .backoff ∧ t.bus.backoff = some 10000 ∧ t.roster.map Site.lastPoll = [some .collision, some .good] := by
  decide +kernel

/-- Step 12 of 9.9. -/
theorem test_collision_fault :
    let t := after .collision (busAt (.poll 0x205 ⟨false, false⟩ .transmitting) 3)
    t.bus.state = .fault ∧ .busFault ∈ t.linkA.attention ∧ t.book.evalRequests = 1 := by decide +kernel

theorem test_backoffExpiry :
    (after .backoffExpiry { State.reset with bus := { Bus.reset with state := .backoff, backoff := some 10000 } }).bus.state =
      .running := by decide +kernel

/-- Step 3 of 9.9. -/
theorem test_pollSent : (after .pollSent (busAt (.poll 0x206 ⟨false, false⟩ .transmitting) 1)).bus.collisions = 0 := by
  decide +kernel

theorem test_replyWindowExpiry :
    (after .replyWindowExpiry (busAt (.poll 0x206 ⟨false, false⟩ .awaiting) 0)).roster.map Site.lastPoll =
      [some .good, some .noReply] := by decide +kernel

theorem test_poll :
    (after .poll { busAt .idle 0 with bus := { (busAt .idle 0).bus with pointer := 0x206 } }).bus.frame =
      .poll 0x206 ⟨false, false⟩ .transmitting ∧ (after .poll (busAt .idle 0)).bus.pointer = 0x206 := by decide +kernel

theorem test_poll_ends_the_round :
    let t := after .poll { busAt .idle 0 with bus := { (busAt .idle 0).bus with pointer := 0x207 } }
    t.book.evalRequests = 1 ∧ t.bus.pointer = 0x206 := by decide +kernel

theorem test_reply_phases :
    (after .replyStart (busAt (.poll 0x205 ⟨false, false⟩ .awaiting) 0)).bus.frame =
        .poll 0x205 ⟨false, false⟩ .receiving ∧
      (after (.rateCheckFailed 94) (busAt (.poll 0x205 ⟨false, false⟩ .receiving) 0)).bus.frame =
        .poll 0x205 ⟨false, false⟩ (.failed .rate) ∧
      (after .replyParityError (busAt (.poll 0x205 ⟨false, false⟩ .receiving) 0)).bus.frame =
        .poll 0x205 ⟨false, false⟩ (.failed .parity) := by decide +kernel

/-- A reply with one bit turned over is no report (R146). -/
theorem test_report_character_in_error :
    let cs := report2.map busCharacter
    let s := polled site20B
    after (.report (cs.set 4 (cs.getD 4 0 ^^^ 4))) s = s := by decide +kernel

theorem test_poll_outcomes :
    (after .pollEndOnQuiet (busAt (.poll 0x205 ⟨false, false⟩ (.failed .rate)) 0)).roster.map Site.lastPoll =
        [some .rate, some .good] ∧
      (after .replyGap (busAt (.poll 0x205 ⟨false, false⟩ .receiving) 0)).roster.map Site.lastPoll =
        [some .check, some .good] := by decide +kernel

/-- R155: in DRAINING a REMOVE deletes the polled record and an ENROLL puts a new one at its address; the reply, the gap and
the collision of that poll leave the new record as it was enrolled. -/
theorem test_deleted_meanwhile :
    let again (ph : PollPhase) : State :=
      let s := { stateAt ⟨0, 0⟩ [site20B] with
        bus := { Bus.reset with state := .draining, frame := .poll 0x20B ⟨false, false⟩ ph } }
      let s1 := { afterAsked (.remove .a 0x20B) s with linkA := Link.reset }
      afterAsked (.enroll .a 0x20B 6000 12000 150 950) s1
    let r : Option Site := siteAt (again .receiving).roster 0x20B
    r.isSome = true ∧ r.bind Site.lastPoll = none ∧ (after (report report2) (again .receiving)).roster.head? = r ∧
      (after .replyGap (again .receiving)).roster.head? = r ∧ (after .collision (again .transmitting)).roster.head? = r ∧
      (after .replyGap (again .receiving)).bus.state = .disabled := by decide +kernel

/-- A poll marks its own record and no other. -/
theorem test_poll_marks : (after .poll (busAt .idle 0)).roster.map Site.polled = [true, false] := by decide +kernel

/-- A block of pass 610 for the two sites. -/
def block610 : Block := ⟨610, 610, false, [⟨0x205, 100, false⟩, ⟨0x206, 0, true⟩]⟩

theorem test_dispatchBlock :
    let s := { busAt .idle 0 with bus := { (busAt .idle 0).bus with queue := [block610] } }
    (after .dispatchBlock s).bus.frame = .block block610 ∧
      (after .dispatchBlock { s with freeze := true }).bus.frame = .idle := by decide +kernel

/-- The block of pass 610 ends the record that became LEAVING after pass 609. -/
theorem test_blockComplete :
    let s := busAt (.block block610) 2
    let leaving (n : Nat) : State :=
      { s with roster := [mid 0x205 5000, { mid 0x206 5000 with lifecycle := .leaving, leavingSince := some n }] }
    (after .blockComplete (leaving 609)).roster.length = 1 ∧ (after .blockComplete (leaving 610)).roster.length = 2 := by
  decide +kernel

theorem test_busEnable :
    (afterAsked (.busEnable .a) State.reset).bus.state = .running ∧
      (answerOf (.busEnable .a) (busAt .idle 0)).map Prod.fst = some .notNow := by decide +kernel

theorem test_busDisable :
    (afterAsked (.busDisable .a) (busAt .idle 0)).bus.state = .disabled ∧
      (afterAsked (.busDisable .a) (busAt (.block block610) 0)).bus.state = .draining := by decide +kernel

theorem test_busConfig :
    (afterAsked (.busConfig .a 1000000 20) State.reset).bus.config = ⟨.r1000k, 20⟩ ∧
      (answerOf (.busConfig .a 1000000 19) State.reset).map Prod.fst = some .badValue := by decide +kernel

theorem test_busRestore :
    (afterAsked (.busRestore .a) { State.reset with bus := { Bus.reset with state := .fault, collisions := 4 } }).bus.state =
      .running := by decide +kernel

/-! ### Activation journal (10.7) -/

/-- An episode record of 10.7. -/
def episode (n : Serial) (k : Kind) (d : Direction) (st : EpisodeState) : Episode :=
  ⟨n, k, d, st, none, none, 0, 0, 0, 0, none, ⟨false, false, false, false, false, false⟩, false⟩

/-- The journal of 10.7 before its step 5, with fewer records: 99 CLOSED, 100 CLOSED, 101 and 102 OPEN. -/
def state107 : State :=
  { State.reset with
    journal := ⟨[episode 99 .sl .up .closed, episode 100 .sl .down .closed, episode 101 .sl .up .isOpen,
      episode 102 .fl .up .isOpen], 102, 3000, 5000, false⟩
    gen := { Generator.reset with flTarget := 3000, slEffective := 5000 } }

/-- Step 5: a change of sign closes 102 and opens 103, with EPISODE_CLOSED at S. -/
theorem test_figureChange :
    let t := state107.figureChange .fl (-1200)
    t.journal.records.map (fun e => (e.number, e.state, e.flags.concurrent)) = [(99, .closed, false), (100, .closed, false),
      (101, .isOpen, true), (102, .closed, false), (103, .isOpen, true)] ∧ .episodeClosed ∈ t.linkS.attention := by
  decide +kernel

/-- Step 6. -/
theorem test_readJournal : (afterAsked (.readJournal .s 100) state107).journal.records.map Episode.state =
    [.closed, .read, .isOpen, .isOpen] := by decide +kernel

/-- Step 7: only READ records are dropped. -/
theorem test_releaseJournal :
    (afterAsked (.releaseJournal .s 102) (afterAsked (.readJournal .s 100) state107)).journal.records.map Episode.number =
      [99, 101, 102] := by decide +kernel

theorem test_closingTimerExpiry :
    let s : State := { State.reset with journal := ⟨[{ episode 1 .fl .up .isOpen with closingTimer := true }], 1, 0, 0, false⟩ }
    (after (.closingTimerExpiry .fl) s).journal.records.map Episode.state = [.closed] ∧
      (after (.closingTimerExpiry .sl) s).journal.records.map Episode.state = [.isOpen] := by decide +kernel

/-- A full journal drops its oldest READ record before a CLOSED one (steps 1 and 5). -/
theorem test_makeRoom :
    let rs := episode 69 .sl .up .closed :: episode 70 .sl .up .read :: List.replicate 30 (episode 71 .sl .up .closed)
    (makeRoom rs).1.length = 31 ∧ (makeRoom rs).2 = false ∧ ((makeRoom rs).1.head?.map Episode.number) = some 69 := by
  decide +kernel

/-! ### Master links (worked sequence after R176) -/

/-- Link A as step 3 leaves it: 12h and 13h queued, the response to 11h in transmission. -/
def busyA : State :=
  let s := State.reset
  { s with linkA := { s.linkA with
    assembler := .partialTelegram [0xC3], queue := [⟨0x20, 0x12, .identify, true, true⟩, ⟨0x20, 0x13, .identify, true, true⟩]
    response := some ⟨0x21, 0x11, .ok, 0, 0, .empty⟩ } }

/-- A telegram with code 22h and tag 14h and no body. -/
def telegram14 : List Byte := withCheck [0xC3, 0x00, 0x02, 0x22, 0x14]

/-- Step 4. -/
theorem test_telegramComplete_overrun :
    (arrive .a telegram14 busyA).linkA.overrunMark = some ⟨0x14, 1⟩ := by decide +kernel

/-- Step 5: the response to 12h carries the mark and clears it. -/
theorem test_response_carries_the_mark :
    let t := after (.identify .a) (after (.responseTransmitted .a) (arrive .a telegram14 busyA))
    t.linkA.response.map (fun q => (q.tag, q.overrunCount, q.overrunTag)) = some (0x12, 1, 0x14) ∧
      t.linkA.overrunMark = none ∧ t.linkA.queue.length = 1 := by decide +kernel

/-- In IMMEDIATE mode the OVERRUN response for 14h goes first. -/
theorem test_overrunResponse :
    let s := { busyA with linkA := { busyA.linkA with mode := .immediate } }
    let t := after (.responseTransmitted .a) (arrive .a telegram14 s)
    after (.identify .a) t = t ∧
      (after (.overrunResponse .a) t).linkA.response.map (fun q => (q.tag, q.result)) = some (0x14, .overrun) := by
  decide +kernel

theorem test_telegramComplete_bad_check :
    let t := arrive .a (telegram14.dropLast ++ [0]) busyA
    t.linkA.queue = busyA.linkA.queue ∧ .linkError ∈ t.linkA.attention := by decide +kernel

/-- While hunting 41h is discarded; C3h begins; what follows is collected; a length of 65 is left to its own row. -/
theorem test_telegramLead :
    let feed (bs : List Byte) := (bs.foldl (fun s b => after (.telegramLead ⟨.n, linkCharacter b⟩) s) State.reset).linkN
    (feed [0x41, 0xC3, 0x00, 0x02, 0xC3]).assembler = .partialTelegram [0xC3, 0x00, 0x02, 0xC3] ∧
      (feed [0xC3, 0x00, 0x41]).assembler = .partialTelegram [0xC3, 0x00] ∧ feed [0x41] = Link.reset := by decide +kernel

/-- On the OJL-064 a HOLD of FLU whose body is too short for its product field is BAD_LENGTH, one that holds it UNSUPPORTED
(R178, checks 2 and 3). -/
theorem test_short_hold :
    let r : Request := .hold 1 (some .flu) 1000 0 0 0
    let check (holds : Bool) := linkCheck .ojl064 .a ⟨0x30, 0x01, r, holds, false⟩
    check false = some .badLength ∧ check true = some .unsupported := by decide +kernel

theorem test_assembler_errors :
    [Instr.framingError ⟨.a, 0x186⟩, .gap .a].map (fun i => (after i busyA).linkA.assembler) = [.hunting, .hunting] ∧
      let s := after (.telegramLead ⟨.a, linkCharacter 0x00⟩) busyA
      (after (.lengthOutOfRange .a 65) s).linkA.assembler = .hunting ∧ after (.lengthOutOfRange .a 0x0141) s = s ∧
        after (.lengthOutOfRange .a 64) s = s := by decide +kernel

theorem test_linkBreak :
    let t := after (.linkBreak .a) busyA
    t.linkA.queue = [] ∧ t.linkA.response = none ∧ t.linkA.assembler = .held ∧
      (after (.breakEnd .a) t).linkA.assembler = .hunting := by decide +kernel

theorem test_status :
    answerOf (.status .a) State.reset = some (.ok, .status [.restarted] .inOrder) ∧
      (afterAsked (.status .a) State.reset).linkA.attention = [] := by decide +kernel

theorem test_setLinkMode : (afterAsked (.setLinkMode .n (some .immediate)) State.reset).linkN.mode = .immediate := by
  decide +kernel

theorem test_identify : answerOf (.identify .n) (State.afterReset .ojl064 false 2 false) =
    some (.ok, .identity .ojelta .ojl064 .b 64 4 16 384 32 false 2) := by decide +kernel

/-- An IDENTIFY with a body of one byte is answered BAD_LENGTH, one without a body OK (R178, R180). -/
theorem test_identify_body :
    let answer (bytes : List Byte) : Option ResultCode :=
      (after (.identify .n) (arrive .n bytes State.reset)).linkN.response.map Response.result
    answer (withCheck [0xC3, 0x00, 0x03, 0x22, 0x14, 0x00]) = some .badLength ∧ answer telegram14 = some .ok := by
  decide +kernel

theorem test_unnamedRequestCode : answerOf (.unnamedRequestCode .s) State.reset = some (.notPermitted, .empty) := by
  decide +kernel

theorem test_readMeter_unsupported :
    answerOf (.readMeter .s) (State.afterReset .ojl064 false 0 false) = some (.unsupported, .empty) := by decide +kernel

/-! ### Witnesses: for every statement with hypotheses, states and operands that meet them, clause by clause -/

/-- A request's telegram waits at its port and is admitted: the common hypothesis of the statements about requests. -/
abbrev Meets (s : State) (p : Port) (r : Request) : Prop := Admitted (asked s p r) p r (tel r)

/-- A state with its bus in a given state. -/
def inBus (b : BusState) (s : State) : State := { s with bus := { s.bus with state := b } }

theorem witness_StepRunsFrontCommand : State.reset.pending = [] := rfl

theorem witness_EveryCommandCompletes :
    (∀ f l, Instr.tenthElapsed ≠ .deviceReset f l) ∧ Instr.tenthElapsed ≠ .freezeAssertion ∧
      Instr.tenthElapsed ≠ .freezeDeassertion := ⟨nofun, by decide, by decide⟩

theorem witness_RefusedAtLink :
    let t : Telegram := ⟨0x10, 0x42, .identify, true, false⟩
    let short : State := { State.reset with linkN := { Link.reset with queue := [t] } }
    let m64 := State.afterReset .ojl064 false 0 false
    (requestRow (.busEnable .s) = some (.s, .busEnable) ∧
      Oldest (asked State.reset .s .busEnable) .s .busEnable (tel .busEnable) ∧ .s ∉ portsOf .busEnable) ∧
    (Oldest (asked m64 .s .armFl) .s .armFl (tel .armFl) ∧ .s ∈ portsOf .armFl ∧
      (asked m64 .s .armFl).member = .ojl064 ∧ needsFrequencyLed .armFl true = true) ∧
    Oldest short .n .identify t ∧ .n ∈ portsOf .identify ∧ ¬(short.member = .ojl064 ∧ needsFrequencyLed .identify true = true) ∧
      t.fits = false := by decide +kernel

theorem witness_TakenTelegramAnswered :
    (requestRow (.status .n) = some (.n, .status) ∧ Oldest (asked State.reset .n .status) .n .status (tel .status)) ∧
      (busyA.linkA.response ≠ none ∧ Link.reset.response = none) ∧ ∀ t : Telegram, ¬Oldest State.reset .n .status t :=
  ⟨by decide +kernel, by decide +kernel, fun t h => nomatch h.1⟩

theorem witness_TelegramComplete :
    let front := telegram14.take 5
    let one (m : OverrunMode) (o : Option OverrunMark) (n : Nat) : Link :=
      { Link.reset with
        assembler := .partialTelegram (front ++ [(crc16 front).extractLsb' 8 8])
        queue := List.replicate n (tel .identify), mode := m, overrunMark := o }
    (Link.reset.assembler ≠ .partialTelegram (front ++ [0x12]) ∧
      (one .inOrder none 2).assembler = .partialTelegram (front ++ [(crc16 front).extractLsb' 8 8]) ∧
      completeTelegram (front ++ bytesOf (crc16 front)) = true ∧ completeTelegram (front ++ bytesOf 0) = true ∧
      0 ≠ crc16 front ∧ completeTelegram (front ++ front ++ bytesOf 0) = false ∧
      (one .inOrder none 1).queue.length < 2 ∧ 2 ≤ (one .immediate none 2).queue.length ∧
      (one .immediate none 2).mode = .immediate ∧ (one .inOrder none 2).mode = .inOrder ∧
      (one .inOrder none 2).overrunMark = none ∧ (one .inOrder (some ⟨0x14, 255⟩) 2).overrunMark = some ⟨0x14, 255⟩ ∧
      (some 0 : Option Nat).isSome = (some 25000 : Option Nat).isSome) ∧
      ∃ a b c, Request.release 1 (some .flu) 7 = .release a b c := by
  intro front one
  exact ⟨by decide +kernel +revert, 1, some .flu, 7, rfl⟩

theorem witness_ReceiveAssembler :
    State.reset.linkA.assembler = .hunting ∧ (∃ pre, busyA.linkA.assembler = .partialTelegram pre) ∧
      (unfinished ([0xC3] ++ [0]) = true ∧ unfinished ([0xC3, 0] ++ [0x41]) = false ∧ (0x41 : Byte) ≠ 0xC3) ∧
      ((after (.telegramLead ⟨.a, linkCharacter 0⟩) busyA).linkA.assembler =
        .partialTelegram [0xC3, (65 : Half).extractLsb' 8 8] ∧ 64 < (65 : Half).toNat) ∧ ((0x186 : BitVec 10).getLsbD 0 = false ∧ (0x186 : BitVec 10).getLsbD 9 = false) ∧
      ((0x187 : BitVec 10).getLsbD 0 = true ∧ (linkCharacter 0xC3).getLsbD 9 = true) ∧ ((1 : Half).toNat < 2) ∧ 64 < (65 : Half).toNat ∧ 2 ≤ (2 : Half).toNat ∧ (64 : Half).toNat ≤ 64 :=
  ⟨rfl, ⟨[0xC3], rfl⟩, by decide +kernel⟩

theorem witness_BreakAndTransmitter :
    let l : Link := { Link.reset with overrunPlace := some ⟨0x22, 0x14, 255⟩ }
    Link.reset.assembler = .hunting ∧ (∃ pre, busyA.linkA.assembler = .partialTelegram pre) ∧
      (after (.linkBreak .a) busyA).linkA.assembler = .held ∧ l.response = none ∧
      l.overrunPlace = some ⟨0x22, 0x14, 255⟩ ∧ busyA.linkA.response ≠ none ∧ Link.reset.overrunPlace = none :=
  ⟨rfl, ⟨[0xC3], rfl⟩, by decide +kernel⟩

theorem witness_PortRequests :
    Meets State.reset .a .status ∧ Meets State.reset .s (.setLinkMode (some .immediate)) ∧
      Meets State.reset .n (.setLinkMode none) ∧
      Oldest (asked State.reset .a .unnamed) .a .unnamed (tel .unnamed) := by
  (repeat' apply And.intro) <;> decide +kernel +revert

theorem witness_LinkControllersInvariant :
    exec (.linkBreak .a) busyA = .next (after (.linkBreak .a) busyA) ∧ LinksLaw busyA ∧ AttentionLaw busyA :=
  ⟨rfl, by decide +kernel⟩

theorem witness_TenthElapsed :
    (∀ k ∈ [0, 39700, 6291455], k < 6291456) ∧
    State.reset.now = none ∧ (∀ t ∈ [Time.mk 0 0, ⟨412, 449999⟩, ⟨65535, 863999⟩], TimeLaw t ∧
      (stateAt t []).now = some t) ∧ (0 + 1) % 9000 ≠ 0 ∧ (449999 + 1) % 9000 = 0 ∧ (863999 + 1) % 9000 = 0 ∧
      ({ state59 with gen := { Generator.reset with test := .test } } : State).gen.test = .test ∧
      state59.gen.test = .live ∧ 0 < state59.currentAwards.slu ∧ state59.now ≠ none := by decide +kernel

theorem witness_SetTime :
    let s := stateAt ⟨412, 450000⟩ []
    let v : Time := ⟨412, 450000⟩
    Meets s .s (.setTime 412 450300) ∧ Meets s .s (.setTime 412 864000) ∧ Meets State.reset .s (.setTime 412 0) ∧
      State.reset.now = none ∧ s.now = some v ∧ TimeLaw v ∧ (864000 ≤ 864000) ∧
      (((⟨412, 450300⟩ : Time).diff v).natAbs ≤ 300 ∧ (⟨412, 450300⟩ : Time).slot = v.slot) ∧
      (((⟨412, 458999⟩ : Time).diff ⟨412, 458999⟩).natAbs ≤ 300 ∧ ((⟨413, 0⟩ : Time).diff ⟨412, 863700⟩).natAbs ≤ 300 ∧
        (⟨413, 0⟩ : Time).slot = ((⟨412, 863700⟩ : Time).slot + 1) % 6291456) ∧
      (((⟨412, 449999⟩ : Time).diff v).natAbs ≤ 300 ∧ v.slot = ((⟨412, 449999⟩ : Time).slot + 1) % 6291456) ∧
      (300 < ((⟨412, 450301⟩ : Time).diff v).natAbs ∧ (⟨412, 450301⟩ : Time).slot = v.slot ∧ s.book.records = []) ∧
      (300 < ((⟨412, 480000⟩ : Time).diff v).natAbs ∧ (⟨412, 480000⟩ : Time).slot ≠ v.slot) ∧
      (withBook s [record 39602 .slu 2000 0 none]).book.records ≠ [] ∧
      (∃ r ∈ [record 96 .slu 2000 3000 (some ⟨⟨0, 1⟩, 1⟩)], (r.slot + 6291456 - 0) % 6291456 = 96 ∧ 0 < r.held ∧
        0 < r.awarded) := by decide +kernel

theorem witness_BookInvariant :
    let s := asked state59 .a (.setOfferParams 50 10 100 100000)
    ClockLaw state59 ∧ BookLaw state59 ∧ BookLawAt 39700 state59.book ∧
      exec .tenthElapsed state59 = .next (after .tenthElapsed state59) ∧ ParamsLaw s ∧
      exec (.setOfferParams .a 50 10 100 100000) s = .next (after (.setOfferParams .a 50 10 100 100000) s) :=
  ⟨by decide +kernel, by decide +kernel, by decide +kernel, rfl, by decide +kernel, rfl⟩

theorem witness_AwardsStand :
    let r := record 39700 .slu 4000 0 none
    ClockLaw state59 ∧ BookLaw state59 ∧ r ∈ state59.book.records ∧ r ∈ (after .tenthElapsed state59).book.records ∧
      (∀ p k x w g, Instr.tenthElapsed ≠ .award p k x w g) :=
  ⟨by decide +kernel, by decide +kernel, by decide +kernel, by decide +kernel, nofun⟩

theorem witness_OfferEnergySlack :
    (∀ q ∈ [record 1 .slu 4000 0 none], ¬(q.slot = 1 ∧ q.product = .sld)) ∧ (record 1 .sld 0 500 none).slot = 1 ∧
      (record 1 .sld 0 500 none).product = .sld := by decide +kernel

theorem witness_RosterRequests :
    let s := stateAt ⟨0, 0⟩ [mid 0x205 5000, { mid 0x206 5000 with lifecycle := .leaving, leavingSince := some 1 }]
    let full : State := { State.afterReset .ojl064 false 0 false with roster := List.replicate 64 (mid 0x205 5000) }
    Meets s .a (.enroll 0xFFF 25000 60000 900 1000) ∧ Meets s .a (.enroll 0x1000 500 1000 0 100) ∧
      Meets full .a (.enroll 0 500 1000 0 100) ∧ siteAt s.roster 0xFFF = none ∧ siteAt full.roster 0 = none ∧
      full.member.siteCapacity ≤ full.roster.length ∧ s.roster.length < s.member.siteCapacity ∧
      siteAt s.roster 0x205 = some (mid 0x205 5000) ∧ (mid 0x205 5000).lifecycle = .enrolled ∧
      Meets s .a (.amend 0x205 900 1000) ∧ Meets s .a (.amend 0x206 0 99) ∧ Meets s .a (.remove 0x206) ∧
      (∀ q ∈ [mid 0x205 5000], q.address ≠ (mid 0x206 5000).address) ∧
      ((siteAt s.roster 0x206).map Site.lifecycle = some .leaving) ∧ Meets (inBus .backoff s) .a (.remove 0xFFF) ∧
      (inBus .backoff s).bus.state = .backoff ∧ s.bus.state = .disabled := by
  intros
  (repeat' apply And.intro) <;> decide +kernel +revert

theorem witness_FreshnessExpiry :
    let r := mid 0x205 5000
    let s := stateAt ⟨0, 0⟩ [r, { r with address := 0x206, freshness := .stale, freshnessTimer := some 20 },
      { r with address := 0x207, freshness := .stale, freshnessTimer := some 20, lifecycle := .leaving },
      { r with address := 0x208, freshness := .silent, freshnessTimer := none }]
    siteAt s.roster 0x209 = none ∧ siteAt s.roster 0x205 = some r ∧ r.freshnessTimer = some 0 ∧ r.freshness = .fresh ∧
      ((siteAt s.roster 0x206).map fun r => (r.freshnessTimer, r.freshness, r.lifecycle)) = some (some 20, .stale, .enrolled) ∧
      ((siteAt s.roster 0x207).map fun r => (r.freshnessTimer, r.freshness, r.lifecycle)) = some (some 20, .stale, .leaving) ∧
      ((siteAt s.roster 0x208).map fun r => (r.freshnessTimer, r.freshness)) = some (none, .silent) := by decide +kernel

theorem witness_SiteWeights :
    let r := mid 0x205 5000
    r.lifecycle = .enrolled ∧ r.status = some .ready ∧ r.freshness ≠ .silent ∧ r.effClass.permits .up = true ∧
      r.soc = some 500 ∧ r.floor < 500 ∧ 500 < r.ceiling ∧ (site 1 5000 10000 500 900 500).floor = 500 ∧
      (site 1 5000 10000 200 500 500).ceiling = 500 ∧ site20B.soc = none ∧ r.pw .up ≠ 0 ∧ site20B.pw .up = 0 ∧
      ({ r with freshness := .stale } : Site).freshness = .stale ∧ site20B.effCap = some 5000 := by decide +kernel

theorem witness_RosterInvariant :
    let c : Instr := .freshnessExpiry 0x205
    let s := busAt .idle 0
    exec c s = .next (after c s) ∧ RosterLaw s ∧ WindowLaw s ∧ ClockLaw s ∧ SitesLaw s :=
  ⟨rfl, by decide +kernel, by decide +kernel, by decide +kernel, by decide +kernel⟩

theorem witness_LeavingInvariant :
    let s := { busAt (.block block610) 0 with
      roster := [{ mid 0x206 5000 with lifecycle := .leaving, leavingSince := some 609 }] }
    LeavingLaw s ∧ exec .blockComplete s = .next (after .blockComplete s) := ⟨by decide +kernel, rfl⟩

theorem witness_ParameterRequests :
    Meets State.reset .a (.setItems ⟨true, true, false⟩) ∧ Meets State.reset .a (.setItems ⟨false, false, true⟩) ∧
      Meets State.reset .a (.setOfferParams 50 10 100000 0) ∧ Meets State.reset .a (.setOfferParams 51 10 100 0) ∧
      Meets State.reset .s (.setFlParams 500 510 (some .release) 100) ∧ Meets State.reset .s (.setFlParams 20 29 none 1) ∧
      ({ gen76 with armed := true } : Generator).armed = true ∧ Generator.reset.armed = false ∧
      Meets State.reset .s (.setSlParams 10 600) ∧ Meets State.reset .s (.setSlParams 15 10) := by
  (repeat' apply And.intro) <;> decide +kernel +revert

theorem witness_StateReadings :
    let s := stateAt ⟨0, 0⟩ [mid 0xFFF 5000]
    Meets s .a (.readSite 0xFFF) ∧ Meets s .a (.readSite 0x1000) ∧ Meets s .a (.readSite 0) ∧
      siteAt s.roster (BitVec.ofNat 12 0) = none ∧ siteAt s.roster (BitVec.ofNat 12 0xFFF) = some (mid 0xFFF 5000) ∧
      Meets s .n (.readWindows none) ∧ Meets s .n (.readWindows (some .working)) ∧ Meets s .n (.readWindows (some .inForce)) ∧
      Meets s .s .readMeter ∧ Meets s .n .readBranchLoad ∧ Meets s .s .readResponse ∧ Meets s .a .identify ∧
      s.member = .ojl256 ∧ (State.afterReset .ojl064 false 0 false).member = .ojl064 ∧
      Meets (State.afterReset .ojl064 false 0 false) .n .identify := by
  intros
  (repeat' apply And.intro) <;> decide +kernel +revert

theorem witness_RangeQueries :
    Meets editing39 .n (.queryClass 0x100 0x1FF) ∧ Meets editing39 .n (.queryClass 0 0x1000) ∧
      contents39.resolve 0x140 ≠ contents39.resolve 0x100 ∧
      (∀ n < 64, contents39.resolve (BitVec.ofNat 12 (0x100 + n)) = contents39.resolve 0x100) ∧
      Meets state46 .a (.offerQuery 95 1) ∧ Meets state46 .a (.offerQuery 0 1) ∧ Meets state46 .a (.offerQuery 80 16) ∧
      Meets state46 .a (.offerQuery 6291456 1) ∧ Meets State.reset .a (.offerQuery 0 16) ∧ state46.current = some 0 ∧
      distance 0 80 + 16 - 1 = 95 ∧ Meets state46 .s (.readBook 0 16) ∧ Meets state46 .a (.readBook 80 17) ∧
      Meets state46 .a (.readBook 95 2) ∧ distance 0 95 + 2 - 1 = 96 := by
  (repeat' apply And.intro) <;> decide +kernel +revert

theorem witness_WindowEdits :
    let e := State.reset
    (requestRow (.clearWindow .n 0) = some (.n, .clearWindow 0) ∧ Meets (stateAt ⟨0, 0⟩ []) .n (.clearWindow 0) ∧
      (stateAt ⟨0, 0⟩ []).windows.state = .inForce) ∧ e.windows.state ≠ .inForce ∧
      Meets e .n (.defineWindow 7 0xFFF 0xFFF (some .frozen) (some 25000)) ∧ Meets e .n (.defineWindow 8 0 0 none none) ∧
      Meets e .n (.defineWindow 0 0 0xF0F (some .openBoth) none) ∧ Meets e .n (.defineWindow 0 0x241 0xFF0 (some .openBoth) none) ∧
      ¬(∃ k ≤ 12, 0xF0F = 4096 - 2 ^ (12 - k)) ∧ (∃ k ≤ 12, 0xFFF = 4096 - 2 ^ (12 - k)) ∧
      (∃ k ≤ 12, 0 = 4096 - 2 ^ (12 - k)) ∧ 0x241 &&& 0xFF0 ≠ 0x241 ∧ 0xFFF &&& 0xFFF = 0xFFF ∧
      Meets e .n (.clearWindow 7) ∧ Meets e .n (.clearWindow 8) ∧
      Meets e .n (.setBranch 15 (some (some .openBoth)) none (some 2000000) (some 0)) ∧
      Meets e .n (.setBranch 16 none none none none) ∧ Meets e .n (.setDefaultClass none) ∧
      Meets e .n (.setDefaultClass (some .openBoth)) := by
  have form (m k : Nat) (h : k ≤ 12 ∧ m = 4096 - 2 ^ (12 - k)) : ∃ k ≤ 12, m = 4096 - 2 ^ (12 - k) := ⟨k, h⟩
  intro e
  refine ⟨?_, ?_, ?_, ?_, ?_, ?_, ?_, form 0xFFF 12 (by decide), form 0 0 (by decide), ?_⟩ <;>
    ((repeat' apply And.intro) <;> decide +kernel)

theorem witness_SuspendResume :
    let f := stateAt ⟨0, 0⟩ []
    Meets f .n .suspend ∧ f.windows.state = .inForce ∧ Meets editing39 .n .suspend ∧ editing39.windows.state ≠ .inForce ∧
      Meets f .n .resume ∧ Meets editing39 .n .resume := by decide +kernel

theorem witness_ResolutionMeaning :
    let b := contents39.branch ((0x010 : Address).toNat / 256)
    let ws (a : Address) := contents39.varWindows.filter fun w => w.valid = true ∧ a &&& w.mask = w.base
    b.cls = none ∧ b.cap = none ∧ ws 0x010 = [] ∧ ws 0x245 ≠ [] := by decide +kernel

theorem witness_WindowInvariant :
    let s := asked editing39 .n .resume
    WindowLaw s ∧ exec (.resume .n) s = .next (after (.resume .n) s) := ⟨by decide +kernel, rfl⟩

theorem witness_ResolutionInvariant :
    let s : State := { State.reset with roster := [{ mid 0x245 5000 with effClass := .frozen }] }
    ResolutionLaw s ∧ WindowLaw s ∧ s.windows.state = .unset ∧ s.roster ≠ [] ∧
      exec .passTimerExpiry s = .next (after .passTimerExpiry s) :=
  ⟨by decide +kernel, by decide +kernel, rfl, by decide +kernel, rfl⟩

theorem witness_FreezeEvents :
    let s := busAt (.block block610) 0
    State.reset.freeze = false ∧ s.freeze = false ∧ ({ s with freeze := true } : State).freeze = true ∧
      LeavingLaw { s with freeze := true } ∧ (s.roster ≠ [] ∧ s.bus.state = .running ∧ State.reset.roster = []) ∧
      ((inBus .draining s).bus.state = .draining ∧ s.bus.frame = .block block610) ∧
      (inBus .fault s).bus.state ≠ .running ∧ (inBus .fault s).bus.state ≠ .backoff := by decide +kernel

theorem witness_OfferBounds :
    (State.afterReset .ojl064 false 0 false).member = .ojl064 ∧ state46.member = .ojl256 ∧ Product.flu.frequencyLed = true ∧
      Product.sld.frequencyLed = false ∧ 0 < state46.publishedOffer 0 95 .slu ∧ 10 ≤ 10 ∧ 100 ≤ 100 := by decide +kernel

theorem witness_Hold :
    let r (k w n : Nat) : Request := .hold k (some .slu) w 0 n 1
    let e : Time := ⟨0, 1⟩
    Meets state46 .a (r 2 10000 1) ∧ Meets state46 .a (.hold 6291456 (some .slu) 0 0 0 0) ∧
      Meets state46 .a (.hold 0 none 0 0 0 0) ∧ Meets State.reset .a (r 2 1000 1) ∧ State.reset.now = none ∧
      state46.now = some ⟨0, 0⟩ ∧ (distance 0 96 = 96 ∧ distance 0 3145727 = 3145727) ∧
      (distance 0 0 = 0 ∧ distance 0 3145728 = 3145728) ∧ (distance 0 1 = 1 ∧ distance 0 95 = 95) ∧
      (10000 % state46.book.params.granularity = 0 ∧ 10001 % state46.book.params.granularity ≠ 0) ∧
      (1 ≤ e.diff ⟨0, 0⟩ ∧ 0 ≤ (Time.mk (2 / 96) (2 % 96 * 9000)).diff e) ∧ ¬(1 ≤ (⟨0, 0⟩ : Time).diff ⟨0, 0⟩) ∧
      recordOf state46.book.records 2 .slu = none ∧ state46.publishedOffer 0 2 .slu = 10000 ∧
      ((recordOf state59.book.records 39702 .slu).map BookRecord.held) = some 8000 ∧ 10000 < 11000 := by
  intros
  (repeat' apply And.intro) <;> decide +kernel +revert

theorem witness_AwardAndRelease :
    let z : HoldTerms := ⟨⟨413, 474000⟩, 0x0A11⟩
    let s := { state59 with book := { state59.book with expired := [⟨39702, .fld, 7, ⟨413, 475500⟩⟩] } }
    Meets s .a (.award 39702 (some .slu) 8000 0x0A11) ∧ Meets s .a (.award 39702 none 0 0) ∧
      Meets s .a (.award 6291456 (some .slu) 0 0) ∧ Meets s .a (.release 39702 (some .slu) 0x0A11) ∧
      Meets s .a (.release 6291456 (some .slu) 0) ∧ Meets State.reset .a (.release 0 (some .slu) 0) ∧
      State.reset.now = none ∧ s.current = some 39700 ∧ distance 39700 39700 = 0 ∧ distance 39700 3185428 = 3145728 ∧
      distance 39700 39702 = 2 ∧ recordOf s.book.records 39702 .slu = some (record 39702 .slu 0 8000 (some z)) ∧
      0x0A1F ≠ z.tag ∧ 8000 < 8001 ∧ 8000 % s.book.params.granularity = 0 ∧ 7999 % s.book.params.granularity ≠ 0 ∧
      recordOf s.book.records 39702 .fld = none ∧
      (s.book.expired.find? fun e => e.slot = 39702 ∧ e.product = .fld ∧ e.tag = 7) ≠ none ∧
      (s.book.expired.find? fun e => e.slot = 39702 ∧ e.product = .fld ∧ e.tag = 8) = none := by
  intros
  (repeat' apply And.intro) <;> decide +kernel +revert

theorem witness_HoldExpiry :
    let z : HoldTerms := ⟨⟨413, 475500⟩, 0x0A12⟩
    let r := record 39702 .flu 0 4000 (some z)
    State.reset.now = none ∧ recordOf state59.book.records 39702 .flu = some r ∧ 0 < r.held ∧ r.terms = some z ∧
      ((⟨413, 475499⟩ : Time).diff z.expiry < 0 ∧ ¬z.expiry.tenths % 9000 = 0) ∧
      ((⟨413, 476999⟩ : Time).next = ⟨413, 477000⟩ ∧ (⟨413, 477000⟩ : Time).tenths % 9000 = 0) ∧ 0 ≤ (⟨413, 475500⟩ : Time).diff z.expiry ∧
      recordOf state59.book.records 39703 .flu = none ∧
      recordOf state59.book.records 39700 .slu = some (record 39700 .slu 4000 0 none) := by decide +kernel

theorem witness_ShortfallEvaluation :
    let s := withBook (stateAt ⟨0, 0⟩ []) [record 1 .slu 4000 0 none]
    State.reset.book.evalRequests = 0 ∧ ({ s.book with evalRequests := 1 } : Book).evalRequests = 0 + 1 ∧
      State.reset.now = none ∧ s.current = some 0 ∧
      (∃ r ∈ (after .shortfallEvaluation { s with book := { s.book with evalRequests := 1 } }).book.records,
        r.risk ≠ none) ∧ (∀ r ∈ state46.book.records, r.risk = none) := by decide +kernel

theorem witness_GsenseRisingEdge :
    let taken (fall : Option Nat) (x : Nat) (m : Meter) : Prop := (fall = none ∧ m.gsense = false ∧ m.periodStart = none) ∨
      ∃ f, fall = some f ∧ m.gsense = true ∧ f + 100 ≤ x ∧ ∀ y, m.periodStart = some y → y + 100 ≤ f
    ((State.afterReset .ojl064 false 0 false).member = .ojl064 ∧ State.reset.member = .ojl256 ∧
      taken none 0 Meter.reset ∧ Meter.reset.periodStart = none ∧ ¬taken (some 100) 199 state68.meter ∧
      ¬taken none 200 state68.meter ∧ taken (some 100) 200 state68.meter ∧ state68.meter.periodStart = some 0) ∧
    (153844 - 0 < 153845 ∧ 153845 ≤ 153845 - 0 ∧ 222224 - 0 ≤ 222224 ∧ 222224 < 222225 - 0 ∧
      (state68.meter.estimates ++ [49850]).Perm [49850, 49890, 49900] ∧ ([] ++ [50000] : List Nat).length ≠ 3 ∧
      Meter.reset.state = .noSignal) ∧
    (state68.meter.state ≠ .locked ∧
      let l := { state68b.meter with state := .locked, nominal := some 50000, unlockRun := 7 }
      l.state = .locked ∧ ({ l with reading := some 55000 }.count 55000).state ≠ .locked) ∧
    gen76.test = .live ∧ gen76.lossHold = none ∧ ({ gen76 with lossHold := some ⟨153, 20⟩ } : Generator).lossHold ≠ none ∧
      ({ gen76 with test := .test } : Generator).test = .test := by
  refine ⟨⟨rfl, rfl, .inl ⟨rfl, rfl, rfl⟩, rfl, ?_, ?_, .inr ⟨100, rfl, rfl, by decide, ?_⟩, rfl⟩, by decide +kernel,
    by decide +kernel, by decide +kernel⟩
  · rintro (⟨h, -⟩ | ⟨f, h, -, h1, -⟩) <;> cases h
    omega
  · rintro (⟨-, h, -⟩ | ⟨f, h, -⟩) <;> cases h
  · rintro y ⟨⟩
    decide

theorem witness_ReadingCounts :
    let l := { state68b.meter with state := .locked, nominal := some 50000, lockRun := 0, lockCandidate := none, unlockRun := 7 }
    Meter.reset.state = .noSignal ∧ state68.meter.state = .searching ∧
      (state68.meter.candidates.fifty = true ∧ 47500 ≤ 50000 + 2500 ∧ 50000 ≤ 47500 + 2500) ∧
      (¬(55000 ≤ 50000 + 2500 ∧ 50000 ≤ 55000 + 2500) ∧ ¬(55000 ≤ 60000 + 2500 ∧ 60000 ≤ 55000 + 2500)) ∧
      (state68b.meter.lockCandidate = some .fifty ∧ 8 ≤ state68b.meter.lockRun + 1 ∧ state68.meter.lockRun + 1 < 8) ∧
      l.state = .locked ∧ l.nominal = some 50000 ∧ 8 ≤ l.unlockRun + 1 ∧
      ¬(47499 ≤ 50000 + 2500 ∧ 50000 ≤ 47499 + 2500) ∧ (52500 ≤ 50000 + 2500) := by decide +kernel

theorem witness_LossTimerAndSetMeter :
    State.reset.meter.lossTimer = false ∧ state68.meter.lossTimer = true ∧ Meets state68 .s (.setMeter ⟨true, false, false⟩) ∧
      Meets state68 .s (.setMeter ⟨false, false, false⟩) ∧ Meets state68 .s (.setMeter ⟨true, true, true⟩) ∧
      state68.gen.armed = false ∧ Meets { state68 with gen := gen76 } .s (.setMeter ⟨false, true, false⟩) ∧
      gen76.armed = true ∧ gen76.test = .live ∧ gen76.lossHold = none ∧ ({ gen76 with flTarget := 3000 } : Generator).flTarget ≠ 0 ∧ gen76.lossMode = .holdLast ∧
      ({ gen76 with test := .test } : Generator).test = .test ∧ MeterState.noSignal ≠ .locked := by decide +kernel

theorem witness_MeterInvariant :
    let c : Instr := .gsenseRisingEdge ⟨some 100000, 200361⟩
    MeterLaw state68b ∧ exec c state68b = .next (after c state68b) := ⟨by decide +kernel, rfl⟩

theorem witness_Arming :
    let s : State := { State.reset with gen := gen76 }
    Meets s .s .armFl ∧ gen76.armed = true ∧ Meets State.reset .s .armFl ∧ State.reset.gen.armed = false ∧
      Meets s .s .disarmFl ∧ Meets State.reset .s .disarmFl := by decide +kernel

theorem witness_GeneratorTimers :
    Generator.reset.lossHold = none ∧ ({ gen76 with lossHold := some ⟨153, 20⟩ } : Generator).lossHold ≠ none ∧
      Generator.reset.injection = none ∧ ({ gen76 with injection := some ⟨100, 50⟩ } : Generator).injection ≠ none ∧
      Generator.reset.refreshTimer = none ∧ ({ gen77 with refreshTimer := some 120 } : Generator).refreshTimer ≠ none ∧
      ((5000 : Int) - 0).natAbs ≤ gen77.ramp ∧ (gen77.ramp < ((5010 : Int) - 0).natAbs ∧ (0 : Int) < 5010) ∧
      (gen77.ramp < ((-5010 : Int) - 0).natAbs ∧ (-5010 : Int) < 0) := by decide +kernel

theorem witness_SetPoint :
    let s : State := { State.reset with gen := gen77 }
    Meets s .s (.setPoint 12345) ∧ Meets s .s (.setPoint (-7)) ∧
      ((8000 : Int).natAbs ≤ (max (-(gen77.slDown : Int)) (min gen77.slUp 12345)).natAbs ∧
        (max (-(gen77.slDown : Int)) (min gen77.slUp 12345)).natAbs < (8000 : Int).natAbs + 10 ∧ (8000 : Int) % 10 = 0 ∧
        0 ≤ 8000 * max (-(gen77.slDown : Int)) (min gen77.slUp 12345)) := by decide +kernel

theorem witness_TestMode :
    let tst : State := { State.reset with gen := { Generator.reset with test := .test } }
    Meets State.reset .s (.enterTest 6400000 0) ∧ Meets State.reset .s (.enterTest 6400010 0) ∧ State.reset.gen.test = .live ∧
      ¬(0 < State.reset.currentAwards.flu ∨ 0 < State.reset.currentAwards.fld ∨ 0 < State.reset.currentAwards.slu ∨
        0 < State.reset.currentAwards.sld) ∧ 0 < state59.currentAwards.slu ∧ Meets state59 .s (.enterTest 0 0) ∧
      Meets tst .s (.enterTest 0 0) ∧ Meets tst .s (.inject (-2000) 600) ∧ Meets tst .s (.inject 2001 1) ∧
      Meets State.reset .s (.inject 2000 1) ∧ Meets tst .s .leaveTest ∧ Meets State.reset .s .leaveTest ∧
      tst.gen.test = .test ∧ (∃ e ∈ state107.journal.records, e.state = .isOpen) ∧
      (∀ e ∈ State.reset.journal.records, e.state ≠ .isOpen) := by
  intros
  (repeat' apply And.intro) <;> decide +kernel +revert

theorem witness_FlTargetInvariant :
    let g : Generator := { gen76 with delta := 21 }
    let s : State := { State.reset with gen := { gen76 with delta := 153, flTarget := 4430, injection := some ⟨153, 1⟩ } }
    FlTargetLaw s ∧ exec .injectionEnd s = .next (after .injectionEnd s) ∧ Generator.reset.armed = false ∧
      ({ gen76 with delta := -20 } : Generator).delta.natAbs ≤ gen76.deadband ∧ g.armed = true ∧
      g.deadband < g.delta.natAbs ∧ g.deadband < g.fullDev ∧ ({ gen76 with delta := 200 } : Generator).delta.natAbs = g.fullDev :=
  ⟨by decide +kernel, rfl, by decide +kernel⟩

theorem witness_GeneratorInvariant :
    let s : State := { State.reset with gen := { gen76 with lossHold := some ⟨153, 20⟩, slUp := 8000, slApplied := 8000 } }
    GeneratorRanges s ∧ HoldLaw s ∧ SlLaw s ∧ exec .rampTimerExpiry s = .next (after .rampTimerExpiry s) :=
  ⟨by decide +kernel, by decide +kernel, by decide +kernel, rfl⟩

theorem witness_CapacityInvariant :
    let s : State := { state59 with gen := { Generator.reset with slUp := 4000 } }
    ClockLaw s ∧ BookLaw s ∧ CapacityLaw s ∧ exec .tenthElapsed s = .next (after .tenthElapsed s) :=
  ⟨by decide +kernel, by decide +kernel, by decide +kernel, rfl⟩

theorem witness_PassRecords :
    case1.roster ≠ [] ∧ (inBus .running case1).bus.state = .running ∧ State.reset.roster = [] ∧
      case1.bus.state = .disabled ∧
      (let t := after .passTimerExpiry case1
       ∃ b < 16, ∃ x y : BranchLoad, case1.disp.branches[b]? = some x ∧ t.disp.branches[b]? = some y ∧ x.saturated = false ∧
        y.saturated = true) :=
  ⟨by decide +kernel, by decide +kernel, by decide +kernel, by decide +kernel,
    ⟨1, by decide, ⟨0, 0, false⟩, ⟨6000, 0, true⟩, by decide +kernel⟩⟩

/-- For PassTotal, PassEachSite and PassBranchLimits. -/
theorem witness_Pass :
    (RosterLaw case1 ∧ WindowLaw case1 ∧ case1.freeze = false ∧
      0 < (case1.gen.flTarget + case1.gen.slEffective).tdiv 10 * 10 ∧ RosterLaw case2 ∧ WindowLaw case2 ∧
      (case2.gen.flTarget + case2.gen.slEffective).tdiv 10 * 10 < 0 ∧
      (case1.windows.inForce.branch 1).exportLimit = some 6000 ∧ (case2.windows.inForce.branch 3).importLimit = some 5000 ∧
      (after .passTimerExpiry case1).disp.branches[1]? = some ⟨6000, 0, true⟩ ∧
      (after .passTimerExpiry case2).disp.branches[3]? = some ⟨0, -5000, true⟩ ∧
      12600 < dispatchBound case1 .up ∧ dispatchBound case2 .down ≤ 9000 ∧
      (after .freezeAssertion case1).freeze = true) ∧
    (exec .passTimerExpiry case1 = .next (after .passTimerExpiry case1) ∧
      exec .freezeAssertion case1 = .next (after .freezeAssertion case1)) ∧
    TakesPass .passTimerExpiry case1 ∧ TakesPass .freezeAssertion case1 ∧ TakesPass (.deviceReset true ⟨3, false⟩) case1 :=
  ⟨by decide +kernel, ⟨rfl, rfl⟩, .inl rfl, .inr (.inl ⟨rfl, rfl⟩), .inr (.inr ⟨⟨3, false⟩, rfl⟩)⟩

theorem witness_BusRequests :
    let s := busAt .idle 0
    Meets State.reset .a .busEnable ∧ State.reset.bus.state = .disabled ∧ Meets s .a .busEnable ∧
      s.bus.state = .running ∧ s.bus.frame = .idle ∧ Meets s .a .busDisable ∧ (busAt (.block block610) 0).bus.frame ≠ .idle ∧
      (∀ b ∈ [BusState.backoff, .fault, .disabled, .draining], Meets (inBus b s) .a .busDisable ∧
        (inBus b s).bus.state = b) ∧
      Meets s .a (.busConfig 250000 20) ∧ Meets s .a (.busConfig 1000000 200) ∧ Meets s .a (.busConfig 250001 20) ∧
      Meets s .a (.busConfig 500000 201) ∧ 10000000 = 250000 * BusRate.r250k.bitTime ∧
      10000000 = 1000000 * BusRate.r1000k.bitTime ∧ Meets (inBus .fault s) .a .busRestore ∧ Meets s .a .busRestore := by
  intros
  (repeat' apply And.intro) <;> decide +kernel +revert

theorem witness_Arbiter :
    let s := busAt .idle 0
    let free (s : State) : Prop := s.bus.state = .running ∧ s.bus.frame = .idle
    let next (s : State) (x : Address) : Option Site := s.roster.find? fun r => x.toNat ≤ r.address.toNat
    ¬free State.reset ∧ free s ∧ s.bus.queue = [] ∧ next s 0 = some (mid 0x205 5000) ∧ next s 0x207 = none ∧
      (0x207 : Address) ≠ 0 ∧ next { s with roster := [mid 0xFFF 5000] } 0x207 = some (mid 0xFFF 5000) ∧
      next { s with roster := [] } 0 = none ∧
      ({ s.bus with queue := [block610] } : Bus).queue = block610 :: [] ∧ block610.freeze = false ∧ s.freeze = false ∧
      ({ s with freeze := true } : State).freeze = true ∧
      (busAt (.poll 0x205 ⟨false, false⟩ .transmitting) 0).bus.frame = .poll 0x205 ⟨false, false⟩ .transmitting ∧
      (inBus .backoff s).bus.state = .backoff :=
  ⟨fun h => by simp [State.reset, State.afterReset, Bus.reset] at h, ⟨rfl, rfl⟩, by decide +kernel⟩

theorem witness_Replies :
    let s := polled site20B
    (∀ a items ph, State.reset.bus.frame ≠ .poll a items ph) ∧ s.bus.frame = .poll 0x20B ⟨false, false⟩ .receiving ∧
      s.bus.config.rate = .r500k ∧ 94 < 95 ∧ 105 < 106 ∧ ((List.range' 1 9).countP fun i => (0x4E2 : BitVec 11).getLsbD i) % 2 = 0 ∧
      (0x0E2 : BitVec 11).getLsbD 10 = false ∧ (0x4E3 : BitVec 11).getLsbD 0 = true ∧ completeReport report2 = true ∧
      report2.getD 0 0 = 0xF0 ∧ checkMatches report2 = true ∧
      (reportOf report2).address = (0x20B : Address).zeroExtend 16 ∧ (reportOf report2).status = .ready ∧
      (reportOf report2).address ≠ (0x20C : Address).zeroExtend 16 ∧ completeReport (report2.drop 1) = false ∧
      completeReport (report2.dropLast ++ [0]) = true ∧ checkMatches (report2.dropLast ++ [0]) = false ∧
      (∀ r ∈ polledAt s.roster 0x20B, r.status ≠ some .ready ∨ (reportOf report2).status = .ready) ∧
      polledAt (busAt .idle 0).roster 0x205 = some (mid 0x205 5000) ∧ (mid 0x205 5000).status = some .ready ∧
      polledAt [{ site20B with polled := false }] 0x20B = none ∧
      (reportOf (withCheck [0xF0, 0x02, 0x05, 0, 0, 0, 0, 0, 0])).status = .offline :=
  ⟨nofun, by decide +kernel⟩

theorem witness_FrameEnds :
    (busAt (.block block610) 3).bus.frame = .block block610 ∧ (busAt (.block block610) 3).bus.state ≠ .draining ∧
      (inBus .draining (busAt (.block block610) 0)).bus.state = .draining ∧
      (busAt (.poll 0x205 ⟨false, false⟩ .transmitting) 2).bus.frame = .poll 0x205 ⟨false, false⟩ .transmitting ∧
      (∀ x, (busAt .idle 0).bus.frame ≠ .block x) ∧ ∀ a i, (busAt .idle 0).bus.frame ≠ .poll a i .transmitting :=
  ⟨by decide +kernel, by decide +kernel, by decide +kernel, by decide +kernel, nofun, nofun⟩

theorem witness_BusInvariant :
    let s := { busAt (.block block610) 3 with bus := { (busAt (.block block610) 3).bus with queue := [block610] } }
    exec .collision s = .next (after .collision s) ∧ BusLaw s ∧ OnePassQueue s := ⟨rfl, by decide +kernel⟩

theorem witness_FreezeBlocksInvariant :
    let b : Block := { block610 with freeze := true, entries := [⟨0x205, 0, false⟩] }
    let s : State := { busAt .idle 0 with freeze := true, bus := { (busAt .idle 0).bus with queue := [b] } }
    FreezeLaw s ∧ exec .dispatchBlock s = .next (after .dispatchBlock s) ∧ s.bus.frame ≠ .block b ∧
      (after .dispatchBlock s).bus.frame = .block b := ⟨by decide +kernel, rfl, by decide +kernel⟩

theorem witness_FigureChanges :
    let e := episode 102 .fl .up .isOpen
    let full (st : EpisodeState) := List.replicate 31 (episode 1 .fl .up .closed) ++ [episode 2 .fl .up st]
    JournalLaw state107 ∧ state107.journal.records.length < 32 ∧ (-1200 : Int) ≠ 0 ∧ (32 ≤ (full .read).length ∧
      full .read = List.replicate 31 (episode 1 .fl .up .closed) ++ episode 2 .fl .up .read :: [] ∧
      (∀ y ∈ List.replicate 31 (episode 1 .fl .up .closed), y.state ≠ .read) ∧
      full .isOpen = [] ++ episode 1 .fl .up .closed :: (full .isOpen).drop 1 ∧ ∀ y ∈ full .isOpen, y.state ≠ .read) ∧ e ∈ state107.journal.records ∧ e.state = .isOpen ∧ e.kind = .fl ∧
      (e.direction = .up ↔ 0 < (3010 : Int)) ∧ ¬(e.direction = .up ↔ 0 < (-1200 : Int)) ∧
      (∀ e ∈ State.reset.journal.records, ¬(e.state = .isOpen ∧ e.kind = .fl)) ∧ JournalLaw State.reset := by
  decide +kernel

theorem witness_JournalCommands :
    let e := { episode 1 .fl .up .isOpen with closingTimer := true }
    Meets state107 .s (.readJournal 100) ∧ Meets state107 .s (.releaseJournal 0xFFFFFFFF) ∧
      (∀ e ∈ state107.journal.records, e.state = .isOpen → e.kind = .fl → e.closingTimer = false) ∧
      (∃ x ∈ [e], x.state = .isOpen ∧ x.kind = .fl ∧ x.closingTimer = true) := by decide +kernel

theorem witness_FigureInvariant :
    FigureLaw state107 ∧ exec .rampTimerExpiry state107 = .next (after .rampTimerExpiry state107) :=
  ⟨by decide +kernel, rfl⟩

theorem witness_EpisodeInvariant :
    JournalLaw state107 ∧ EpisodeLaw state107 ∧
      exec .rampTimerExpiry state107 = .next (after .rampTimerExpiry state107) := ⟨by decide +kernel, by decide +kernel, rfl⟩

end Sys2Proof.Tests
end

