-- ==== Sys2Proof/Proofs/Clock.lean ====
section
/-! PROOFS. The slot clock: the figures of R5, the signed difference of R9, and the moves of the clock (R4, R6, R9 to R11). -/

namespace Sys2Proof.Machine

open Sys2Proof.Safety

variable (s : State)

/-! ### Slots of a time (R5) -/

theorem slot_eq (t : Time) : t.slot = t.day * 96 + t.tenths / 9000 := rfl

theorem abs_eq (t : Time) : t.abs = t.day * 864000 + t.tenths := rfl

/-- The absolute time counts 9,000 tenths for each slot (R5). -/
theorem abs_eq_slot (t : Time) : t.abs = t.slot * 9000 + t.tenths % 9000 := by
  rw [abs_eq, slot_eq]
  omega

/-- A time within its ranges lies in one of the absolute slots (R5). -/
theorem slot_lt_wrap {t : Time} (h : TimeLaw t) : t.slot < 6291456 := by
  obtain ⟨hday, htenths⟩ := h
  simp only [Config.dayWrap, Config.tenthsPerDay] at hday htenths
  rw [slot_eq]
  omega

theorem distance_eq (c k : Nat) : distance c k = (k + 6291456 - c) % 6291456 := rfl

/-- From a slot of the circle the distance ahead is the difference modulo the number of slots (R5). -/
theorem distance_eq_emod {c : Nat} (h : c < 6291456) (k : Nat) :
    (distance c k : Int) = ((k : Int) - c) % 6291456 := by
  rw [distance_eq]
  omega

/-- The slot after `c` is 1 ahead of it (R5). -/
theorem distance_of_next {c k : Nat} (hc : c < 6291456) (hk : k = (c + 1) % 6291456) : distance c k = 1 := by
  rw [distance_eq]
  omega

/-- The slot before `c` is the farthest ahead of it (R5). -/
theorem distance_of_previous {c k : Nat} (hk : k < 6291456) (hc : c = (k + 1) % 6291456) :
    distance c k = 6291455 := by
  rw [distance_eq, hc]
  omega

theorem ne_of_next {c k : Nat} (hk : k = (c + 1) % 6291456) : k ≠ c := by omega

/-! ### One tenth on (R4) -/

theorem next_eq (t : Time) :
    t.next = if t.tenths + 1 < 864000 then ⟨t.day, t.tenths + 1⟩ else ⟨(t.day + 1) % 65536, 0⟩ := rfl

/-- Within a slot one tenth on is one tenth more of the same day and slot (R4). -/
theorem next_within {t : Time} (h : TimeLaw t) (within : (t.tenths + 1) % 9000 ≠ 0) :
    t.next = ⟨t.day, t.tenths + 1⟩ ∧ t.next.slot = t.slot := by
  obtain ⟨-, htenths⟩ := h
  simp only [Config.tenthsPerDay] at htenths
  have hnext : t.next = ⟨t.day, t.tenths + 1⟩ := by rw [next_eq, if_pos (by omega)]
  refine ⟨hnext, ?_⟩
  simp only [hnext, slot_eq]
  omega

/-- At the end of a slot one tenth on is the start of the next slot, of the next day at the end of the day (R4, R5). -/
theorem next_boundary {t : Time} (h : TimeLaw t) (boundary : (t.tenths + 1) % 9000 = 0) :
    t.next = (if t.tenths + 1 = 864000 then ⟨(t.day + 1) % 65536, 0⟩ else ⟨t.day, t.tenths + 1⟩) ∧
      t.next.slot = (t.slot + 1) % 6291456 := by
  obtain ⟨hday, htenths⟩ := h
  simp only [Config.dayWrap, Config.tenthsPerDay] at hday htenths
  by_cases dayEnd : t.tenths + 1 = 864000
  · have hnext : t.next = ⟨(t.day + 1) % 65536, 0⟩ := by rw [next_eq, if_neg (by omega)]
    rw [if_pos dayEnd]
    refine ⟨hnext, ?_⟩
    simp only [hnext, slot_eq]
    omega
  · have hnext : t.next = ⟨t.day, t.tenths + 1⟩ := by rw [next_eq, if_pos (by omega)]
    rw [if_neg dayEnd]
    refine ⟨hnext, ?_⟩
    simp only [hnext, slot_eq]
    omega

/-! ### The signed difference (R9) -/

theorem diff_eq (u t : Time) :
    u.diff t = ((u.abs : Int) - t.abs + 28311552000) % 56623104000 - 28311552000 := rfl

/-- The difference is the one of the plain difference's residues that lies around 0 (R9). -/
theorem diff_range (u t : Time) : -28311552000 ≤ u.diff t ∧ u.diff t ≤ 28311551999 ∧
    (u.diff t - ((u.abs : Int) - t.abs)) % 56623104000 = 0 := by
  rw [diff_eq]
  omega

/-- A correction shorter than a slot stays in the slot or moves to one beside it, around the circle of slots (R9). -/
theorem slot_of_small_diff {u t : Time} (hu : TimeLaw u) (ht : TimeLaw t) (small : (u.diff t).natAbs ≤ 300) :
    u.slot = t.slot ∨ u.slot = (t.slot + 1) % 6291456 ∨ t.slot = (u.slot + 1) % 6291456 := by
  have hus := slot_lt_wrap hu
  have hts := slot_lt_wrap ht
  rw [diff_eq, abs_eq_slot, abs_eq_slot] at small
  omega

/-! ### The clock's moves (R6, R10, R11) -/

theorem currentAwards_of_unset (h : s.now = none) : s.currentAwards = ⟨0, 0, 0, 0⟩ := by
  simp [State.currentAwards, State.current, h]

theorem currentAwards_of_set {t : Time} (h : s.now = some t) :
    s.currentAwards = ⟨awardedOf s.book.records t.slot .flu, awardedOf s.book.records t.slot .fld,
      awardedOf s.book.records t.slot .slu, awardedOf s.book.records t.slot .sld⟩ := by
  simp [State.currentAwards, State.current, h]

/-- A boundary of a clock that shows `u` is the book's part for the slot of `u`, then the generator's (R6). -/
theorem boundary_of_now (u : Time) (old : Nat) (reset : Bool) :
    { s with now := some u }.boundary old reset =
      ({ s with now := some u }.bookBoundary old u.slot reset).genBoundary := rfl

/-- A step-back of a clock that shows `u` is the book's part for the slot of `u`, then a load (R11). -/
theorem stepBack_of_now (u : Time) :
    { s with now := some u }.stepBack = ({ s with now := some u }.bookStepBack u.slot).loadCapacities := rfl

theorem moveClock_within {t u : Time} (h : u.slot = t.slot) (reset : Bool) :
    s.moveClock t u reset = { s with now := some u } := by
  simp [State.moveClock, h]

/-- A correction into the next slot makes its boundary (R10). -/
theorem moveClock_forward {t u : Time} (ht : TimeLaw t) (h : u.slot = (t.slot + 1) % 6291456) :
    s.moveClock t u false = ({ s with now := some u }.bookBoundary t.slot u.slot false).genBoundary := by
  have leaves := ne_of_next h
  have ahead : distance t.slot u.slot < Config.pastFrom := by
    rw [distance_of_next (slot_lt_wrap ht) h]; decide
  simp [State.moveClock, leaves, ahead, boundary_of_now]

/-- A correction into the slot before steps back (R11). -/
theorem moveClock_back {t u : Time} (hu : TimeLaw u) (h : t.slot = (u.slot + 1) % 6291456) :
    s.moveClock t u false = ({ s with now := some u }.bookStepBack u.slot).loadCapacities := by
  have leaves := (ne_of_next h).symm
  have past : ¬distance t.slot u.slot < Config.pastFrom := by
    rw [distance_of_previous (slot_lt_wrap hu) h]; decide
  simp [State.moveClock, leaves, past, stepBack_of_now]

/-- A re-set into another slot makes its boundary, however far it goes (R10). -/
theorem moveClock_reset {t u : Time} (h : u.slot ≠ t.slot) :
    s.moveClock t u true = ({ s with now := some u }.bookBoundary t.slot u.slot true).genBoundary := by
  simp [State.moveClock, h, boundary_of_now]

/-! ### TENTH_ELAPSED (R4, R6) -/

theorem tenthElapsed_unset (h : s.now = none) : exec .tenthElapsed s = .next s := by
  simp [exec, execTenthElapsed, h]

theorem tenthElapsed_within {t : Time} (now : s.now = some t) (h : TimeLaw t) (within : (t.tenths + 1) % 9000 ≠ 0) :
    exec .tenthElapsed s = .next { s with now := some ⟨t.day, t.tenths + 1⟩ } := by
  obtain ⟨hnext, stays⟩ := next_within h within
  simp only [exec, execTenthElapsed, now, if_pos stays]
  rw [hnext]

theorem tenthElapsed_boundary {t : Time} (now : s.now = some t) (h : TimeLaw t)
    (boundary : (t.tenths + 1) % 9000 = 0) : exec .tenthElapsed s =
      .next (({ s with now := some t.next }.bookBoundary t.slot t.next.slot false).genBoundary) := by
  have leaves : t.next.slot ≠ t.slot := ne_of_next (next_boundary h boundary).2
  simp only [exec, execTenthElapsed, now, if_neg leaves, boundary_of_now]

/-! ### SET_TIME at the clock (R9) -/

theorem not_tenthsPerDay_le {tenths : Nat} (h : tenths < 864000) : ¬Config.tenthsPerDay ≤ tenths := Nat.not_le.2 h

theorem ownSetTime_badValue {tenths : Nat} (h : 864000 ≤ tenths) (day : BitVec 16) :
    ownSetTime day tenths s = ⟨s, .badValue, .clock s.now⟩ := by
  simp [ownSetTime, Config.tenthsPerDay, h, refuse]

section
variable {s} {tenths : Nat} (h : tenths < 864000) (day : BitVec 16)
include h

/-- A first time starts the clock and loads the capacities, without a boundary (R9, R109). -/
theorem ownSetTime_unset (now : s.now = none) : ownSetTime day tenths s =
    ⟨{ s with now := some ⟨day.toNat, tenths⟩ }.loadCapacities, .ok, .clock (some ⟨day.toNat, tenths⟩)⟩ := by
  simp [ownSetTime, not_tenthsPerDay_le h, now]

/-- A correction of at most 300 tenths moves the clock (R9). -/
theorem ownSetTime_small {v : Time} (now : s.now = some v) (small : (Time.diff ⟨day.toNat, tenths⟩ v).natAbs ≤ 300) :
    ownSetTime day tenths s =
      ⟨s.moveClock v ⟨day.toNat, tenths⟩ false, .ok, .clock (some ⟨day.toNat, tenths⟩)⟩ := by
  have small' : ((Time.diff ⟨day.toNat, tenths⟩ v).natAbs : Int) ≤ Config.maxCorrection := by
    rw [Config.maxCorrection]; omega
  simp only [ownSetTime, if_neg (not_tenthsPerDay_le h), now, if_pos small']

/-- A larger change re-sets a clock whose book holds no record (R9). -/
theorem ownSetTime_reset {v : Time} (now : s.now = some v) (large : 300 < (Time.diff ⟨day.toNat, tenths⟩ v).natAbs)
    (free : s.book.records = []) : ownSetTime day tenths s =
      ⟨s.moveClock v ⟨day.toNat, tenths⟩ true, .ok, .clock (some ⟨day.toNat, tenths⟩)⟩ := by
  have large' : ¬((Time.diff ⟨day.toNat, tenths⟩ v).natAbs : Int) ≤ Config.maxCorrection := by
    rw [Config.maxCorrection]; omega
  simp only [ownSetTime, if_neg (not_tenthsPerDay_le h), now, if_neg large', free,
    List.isEmpty_nil, if_true]

/-- A larger change is refused while the book holds a record (R9). -/
theorem ownSetTime_timeJump {v : Time} (now : s.now = some v)
    (large : 300 < (Time.diff ⟨day.toNat, tenths⟩ v).natAbs) (held : s.book.records ≠ []) :
    ownSetTime day tenths s = ⟨s, .timeJump, .clock (some v)⟩ := by
  have large' : ¬((Time.diff ⟨day.toNat, tenths⟩ v).natAbs : Int) ≤ Config.maxCorrection := by
    rw [Config.maxCorrection]; omega
  simp only [ownSetTime, if_neg (not_tenthsPerDay_le h), now, if_neg large',
    List.isEmpty_iff, if_neg held, refuse]

end

end Sys2Proof.Machine
end


-- ==== Sys2Proof/Proofs/SlotChange.lean ====
section
/-! PROOFS. What a change of the current slot does at the book and at the generator, spelled (R73, R84 to R86, R109, R120,
R124). -/

namespace Sys2Proof.Machine

variable (s : State)

/-- A cause raised on a condition, the condition as a proposition. -/
theorem raiseIf_eq_ite {b : Bool} {P : Prop} [Decidable P] (h : b = true ↔ P) (p : Port) (c : Cause) :
    s.raiseIf b p c = if P then s.raise p c else s := by
  simp [State.raiseIf, h]

theorem holding_iff (r : BookRecord) : r.holding = true ↔ 0 < r.held := by simp [BookRecord.holding]

/-! ### The book at a boundary (R84 to R86) -/

/-- What a boundary from slot `old` into slot `c` leaves of a record: nothing of one of the old slot; one of the new slot
without its hold, and nothing of it if it then has no award (R72, R84, R85). -/
def BookRecord.pastBoundary (old c : Nat) (r : BookRecord) : Option BookRecord :=
  if r.slot = old then none
  else if r.slot = c ∧ 0 < r.held then
    if r.awarded = 0 then none else some { r with held := 0, terms := none }
  else some r

theorem endHolds_of_boundary (old c : Nat) (rs : List BookRecord) :
    endHolds (fun r => r.slot == c && r.holding) (rs.filter fun r => r.slot != old) =
      rs.filterMap (BookRecord.pastBoundary old c) := by
  rw [endHolds, List.filterMap_filter]
  refine List.filterMap_congr fun r _ => ?_
  by_cases gone : r.slot = old <;> simp [BookRecord.pastBoundary, gone, holding_iff]

/-- The state with its book carried over a boundary, before HOLD_LAPSED and the evaluation (R84 to R86). -/
def State.bookCarried (old c : Nat) (reset : Bool) : State :=
  { s with book := { s.book with
    records := s.book.records.filterMap (BookRecord.pastBoundary old c)
    expired := if reset then [] else s.book.expired.filter fun e => e.slot ≠ c } }

/-- A hold lapses at a boundary into slot `c` where a record of that slot, but not of the old one, carries one (R85). -/
theorem lapses_iff (old c : Nat) (rs : List BookRecord) :
    ((rs.filter fun r => r.slot != old).any fun r => r.slot == c && r.holding) = true ↔
      ∃ r ∈ rs, r.slot ≠ old ∧ r.slot = c ∧ 0 < r.held := by
  simp [holding_iff]

/-- The book's part of a boundary: the book is carried over, HOLD_LAPSED is raised at A where a hold lapsed, and an
evaluation is taken (R84 to R86). -/
theorem bookBoundary_eq (old c : Nat) (reset : Bool)
    [Decidable (∃ r ∈ s.book.records, r.slot ≠ old ∧ r.slot = c ∧ 0 < r.held)] :
    s.bookBoundary old c reset =
      (if ∃ r ∈ s.book.records, r.slot ≠ old ∧ r.slot = c ∧ 0 < r.held then
        (s.bookCarried old c reset).raise .a .holdLapsed else s.bookCarried old c reset).evaluate := by
  rw [← raiseIf_eq_ite _ (lapses_iff old c s.book.records)]
  simp only [State.bookBoundary, endHolds_of_boundary, State.bookCarried]
  simp only [bne, beq_eq_decide, ne_eq, decide_not]

/-- A requested evaluation, taken, is the evaluation alone (R87). -/
theorem shortfallEvaluation_requested : exec .shortfallEvaluation s.requestEval = .next s.evaluate := rfl

/-! ### The book at a step-back (R86) -/

/-- The state with the records and list entries of the slot at distance 96 gone, before the causes of R86. -/
def State.bookWithoutFar (c : Nat) : State :=
  { s with book := { s.book with
    records := s.book.records.filter fun r => distance c r.slot ≠ 96
    expired := s.book.expired.filter fun e => distance c e.slot ≠ 96 } }

/-- Something stands on a record that a step-back to slot `c` deletes (R86). -/
theorem any_far_iff (c : Nat) (rs : List BookRecord) {f : BookRecord → Bool} {P : BookRecord → Prop}
    (h : ∀ r, f r = true ↔ P r) : ((rs.filter fun r => distance c r.slot == Config.horizon).any f) = true ↔
      ∃ r ∈ rs, distance c r.slot = 96 ∧ P r := by
  simp [h, Config.horizon]

/-- The book's part of a step-back to slot `c`: HOLD_LAPSED at A for a hold that went, SHORTFALL at A and S for an award
(R86). -/
theorem bookStepBack_eq (c : Nat) [Decidable (∃ r ∈ s.book.records, distance c r.slot = 96 ∧ 0 < r.held)]
    [Decidable (∃ r ∈ s.book.records, distance c r.slot = 96 ∧ 0 < r.awarded)] :
    let x := if ∃ r ∈ s.book.records, distance c r.slot = 96 ∧ 0 < r.held then
      (s.bookWithoutFar c).raise .a .holdLapsed else s.bookWithoutFar c
    s.bookStepBack c = if ∃ r ∈ s.book.records, distance c r.slot = 96 ∧ 0 < r.awarded then
      (x.raise .a .shortfall).raise .s .shortfall else x := by
  have held := any_far_iff c s.book.records holding_iff
  have awarded := any_far_iff c s.book.records fun r => decide_eq_true_iff (p := 0 < r.awarded)
  simp only [State.bookStepBack, raiseIf_eq_ite _ held, raiseIf_eq_ite _ awarded]
  simp only [State.bookWithoutFar, beq_eq_decide, ne_eq, decide_not, Config.horizon]
  split <;> rfl

/-! ### The generator's part (R73, R109, R120, R124) -/

theorem awards_any_iff (a : Awards) : a.any = true ↔ 0 < a.flu ∨ 0 < a.fld ∨ 0 < a.slu ∨ 0 < a.sld := by
  simp [Awards.any, or_assoc]

/-- In LIVE, or in a slot without an award, a boundary loads the capacities (R109). -/
theorem genBoundary_load (h : s.gen.test = .live ∨ ¬s.currentAwards.any = true) : s.genBoundary = s.loadCapacities := by
  refine if_neg fun ⟨test, award⟩ => ?_
  rcases h with live | none
  · rw [live] at test; cases test
  · exact none award

/-- A test ends at a boundary into a slot with an award, with TEST_ENDED at S (R124). -/
theorem genBoundary_endTest (test : s.gen.test = .test) (award : s.currentAwards.any = true) :
    s.genBoundary = s.endTest.raise .s .testEnded := if_pos ⟨test, award⟩

theorem withCapacities_live {g : Generator} (h : g.test = .live) (m : Member) (a : Awards) : g.withCapacities m a =
    { g with flUp := a.flu, flDown := a.fld, slUp := a.slu / 10 * 10, slDown := a.sld / 10 * 10 } := by
  simp [Generator.withCapacities, h, down10]

theorem withCapacities_test {g : Generator} (h : g.test = .test) (m : Member) (a : Awards) : g.withCapacities m a =
    { g with
      flUp := if m = .ojl064 then 0 else g.testUp, flDown := if m = .ojl064 then 0 else g.testDown
      slUp := g.testUp, slDown := g.testDown } := by
  simp [Generator.withCapacities, h]

/-- A load: the four capacities, then the SL values limited to their new bounds, then the FL target (R109, R113, R116,
R120). -/
theorem load_of_capacities {g g1 : Generator} {m : Member} {a : Awards} (h : g1 = g.withCapacities m a) :
    let within (x : Int) : Int := max (-(g1.slDown : Int)) (min g1.slUp x)
    let g2 : Generator := { g1 with
      slApplied := (within g1.slRequested).tdiv 10 * 10, slEffective := within g1.slEffective }
    g.load m a = { g2 with flTarget := g2.targetOf } := by
  subst h
  rfl

end Sys2Proof.Machine
end

