-- ==== Sys2Proof/Proofs/ClockObligations.lean ====
section
/-! PROOFS. The statements about TENTH_ELAPSED and SET_TIME. -/

namespace Sys2Proof.Proofs

open Sys2Proof.Machine Sys2Proof.Safety

/-- Settles O12: the figures of R5 are the model's by definition; a tenth by the place of the time in its slot; each part of
the boundary by its own lemma. -/
theorem tenthElapsed : Obligations.TenthElapsed := by
  refine ⟨fun t => ⟨slot_eq t, abs_eq t, next_eq t⟩, fun _ => rfl,
    fun c k => ⟨distance_eq c k, fun hc => distance_eq_emod hc k⟩, fun s => ⟨tenthElapsed_unset s, fun t now law => ?_⟩,
    fun s old c reset => ?book, fun s => ?generator, fun _ => rfl, fun g m a => ?load, fun s => ?awards⟩
  · refine ⟨tenthElapsed_within s now law, fun boundary => ⟨t.next, ?_, ?_, tenthElapsed_boundary s now law boundary⟩⟩
    · exact (next_boundary law boundary).1
    · exact (next_boundary law boundary).2
  case book =>
    intro changed lapsed
    rw [shortfallEvaluation_requested, bookBoundary_eq]
    rfl
  case generator =>
    intro g a awarded left
    have award : s.currentAwards.any = true ↔ awarded := awards_any_iff _
    refine ⟨fun h => genBoundary_load s (h.imp_right (mt award.1)), fun test h => ?_⟩
    exact genBoundary_endTest s test (award.2 h)
  case load =>
    intro test g1 within g2
    have capacities : g1 = g.withCapacities m a := by
      cases mode : g.test with
      | live => rw [withCapacities_live mode]; simp only [g1, mode]
      | test => rw [withCapacities_test mode]; simp only [g1, mode, test]
    have requested : g1.slRequested = g.slRequested ∧ g1.slEffective = g.slEffective := by
      rw [capacities]
      cases mode : g.test <;> simp [Generator.withCapacities, mode]
    simpa only [g2, within, requested.1, requested.2] using load_of_capacities capacities
  case awards =>
    exact ⟨currentAwards_of_unset s, fun t now => currentAwards_of_set s now⟩

/-- Settles O13: the difference by the residues around 0; each row of R9's table by the answer of the clock's owner and the
move it makes. -/
theorem setTime : Obligations.SetTime := by
  refine ⟨diff_range, fun s c => ?stepBack, fun p day tenths t s admitted => ?requests⟩
  case stepBack =>
    intro far kept held awarded
    classical
    refine ⟨if held then kept.raise .a .holdLapsed else kept, fun h => if_pos h, fun h => if_neg h, fun h => ?_, fun h => ?_⟩
    · exact (bookStepBack_eq s c).trans (if_pos h)
    · exact (bookStepBack_eq s c).trans (if_neg h)
  case requests =>
    intro i d u
    have answers {r : ResultCode} {b : ResponseBody} {s' : State} (own : ownSetTime day tenths d = ⟨s', r, b⟩) :
        Answers i s p t r b s' := answers_of_admitted rfl admitted own
    have now_d : d.now = s.now := dequeue_now s p
    have book_d : d.book = s.book := dequeue_book s p
    refine ⟨fun h => ?_, fun h now => ?_, fun v now law h => ?_⟩
    · exact answers (now_d ▸ ownSetTime_badValue d h day)
    · exact answers (ownSetTime_unset h day (now_d.trans now))
    have setTo : d.now = some v := now_d.trans now
    have lawU : TimeLaw u := ⟨day.isLt, h⟩
    refine ⟨fun small same => ?_, fun small next => ?_, fun small back => ?_, slot_of_small_diff lawU law,
      fun large free same => ?_, fun large free other => ?_, fun large held => ?_⟩
    · exact answers (moveClock_within d same false ▸ ownSetTime_small h day setTo small)
    · exact answers (moveClock_forward d law next ▸ ownSetTime_small h day setTo small)
    · exact answers (moveClock_back d lawU back ▸ ownSetTime_small h day setTo small)
    · exact answers (moveClock_within d same true ▸ ownSetTime_reset h day setTo large (book_d ▸ free))
    · exact answers (moveClock_reset d other ▸ ownSetTime_reset h day setTo large (book_d ▸ free))
    · exact answers (ownSetTime_timeJump h day setTo large (book_d ▸ held))

end Sys2Proof.Proofs
end

