-- ==== Sys2Proof/Proofs/Offers.lean ====
section
/-! PROOFS. A published offer: what the margin, the granularity and the energy slack bound it by (R54, R60 to R62). -/

namespace Sys2Proof.Machine

/-! ### The roundings of an offer (R61, R62) -/

/-- The margin and the granularity only lower an offer (R62). -/
theorem margin_granularity_le (x m g : Nat) : x * (100 - m) / 100 / g * g ≤ x :=
  calc x * (100 - m) / 100 / g * g ≤ x * (100 - m) / 100 := Nat.div_mul_le_self _ _
    _ ≤ x * 100 / 100 := Nat.div_le_div_right (Nat.mul_le_mul_left x (Nat.sub_le 100 m))
    _ = x := Nat.mul_div_cancel x (by decide)

/-- A sum of at most 400 × `es` W-percent reserves at most `es` Wh (R55). -/
theorem ceilDiv_le_of_le {x es : Nat} (h : x ≤ 400 * es) : ceilDiv x 400 ≤ es := by
  simp only [ceilDiv]
  omega

theorem product_direction_up_iff (p : Product) : p.direction = .up ↔ p = .flu ∨ p = .slu := by
  cases p <;> decide

theorem product_direction_down_iff (p : Product) : p.direction = .down ↔ p = .fld ∨ p = .sld := by
  cases p <;> decide

theorem product_frequencyLed_iff (p : Product) : p.frequencyLed = true ↔ p = .flu ∨ p = .fld := by
  cases p <;> decide

/-! ### The parts of an offer (R60 to R62) -/

section
variable (s : State) (h : Headroom) (k n : Nat) (p : Product)

/-- The power that the energy slack sustains: over the slot signal-led, over the FL duty frequency-led (R61). -/
def sustained (s : State) (es : Nat) (p : Product) : Nat :=
  if p.frequencyLed then 400 * es / s.book.params.duty else 4 * es

theorem rawOffer_eq : rawOffer s h k n p =
    (min (powerHeadroom s h k p.direction) (sustained s (h.energySlack n) p)).toNat := rfl

/-- A raw offer is within the power that the energy slack sustains (R61). -/
theorem rawOffer_le_sustained : rawOffer s h k n p ≤ sustained s (h.energySlack n) p := by
  rw [rawOffer_eq]
  omega

/-- A raw offer above 0 is within the power headroom (R61). -/
theorem rawOffer_le_power (pos : 0 < rawOffer s h k n p) :
    (rawOffer s h k n p : Int) ≤ powerHeadroom s h k p.direction := by
  rw [rawOffer_eq] at pos ⊢
  omega

/-- The power headroom, and so a raw offer, is within the fleet capacity (R60, R61). -/
theorem rawOffer_le_capacity : rawOffer s h k n p ≤ h.capacity := by
  rw [rawOffer_eq, powerHeadroom]
  omega

/-- The FL products of the OJL-064 are never offered (R62). -/
theorem published_unsupported (m : s.member = .ojl064) (fl : p.frequencyLed = true) : published s h k n p = 0 :=
  if_pos ⟨m, fl⟩

/-- Any other offer is the raw one less the margin, rounded down to the granularity (R62). -/
theorem published_supported (supported : s.member = .ojl256 ∨ p.frequencyLed = false) : published s h k n p =
    rawOffer s h k n p * (100 - s.book.params.margin) / 100 / s.book.params.granularity *
      s.book.params.granularity := by
  refine if_neg fun ⟨m, fl⟩ => ?_
  rcases supported with big | sl
  · rw [big] at m; cases m
  · rw [sl] at fl; cases fl

/-- Everything a published offer can be (R62). -/
theorem published_cases : published s h k n p = 0 ∨ published s h k n p =
    rawOffer s h k n p * (100 - s.book.params.margin) / 100 / s.book.params.granularity *
      s.book.params.granularity := ite_eq_or_eq _ _ _

theorem published_le_rawOffer : published s h k n p ≤ rawOffer s h k n p := by
  rcases published_cases s h k n p with zero | eq
  · simp [zero]
  · rw [eq]
    exact margin_granularity_le _ _ _

/-- An offer is a multiple of the granularity (R62). -/
theorem published_mod_granularity : published s h k n p % s.book.params.granularity = 0 := by
  rcases published_cases s h k n p with zero | eq
  · simp [zero]
  · rw [eq]
    exact Nat.mul_mod_left _ _

end

end Sys2Proof.Machine
end

