-- ==== Sys2Proof/Proofs/OfferObligations.lean ====
section
/-! PROOFS. The statement about published offers. -/

namespace Sys2Proof.Proofs

open Sys2Proof.Machine Sys2Proof.Safety

/-- Settles O31: an offer is at most its raw offer, which is at most each of the figures it is the least of. -/
theorem offerBounds : Obligations.OfferBounds := by
  refine ⟨fun p => ⟨product_direction_up_iff p, product_direction_down_iff p, product_frequencyLed_iff p⟩, ⟨rfl, rfl, rfl, rfl⟩,
    fun s c k p => ?offer, fun es y _ _ => ⟨?_, ?_⟩, fun s c d => ?fleet⟩
  case offer =>
    intro h n es y pu raw g o
    have power : powerHeadroom s h k p.direction = pu := rfl
    have energyTerm : (if p.frequencyLed = true then ((400 * es / y : Nat) : Int) else 4 * es) = sustained s es p := by
      simp only [sustained, Nat.cast_ite, Nat.cast_mul, Nat.cast_ofNat, y]
    have raw_eq : raw.toNat = rawOffer s h k n p := by
      rw [rawOffer_eq, power]
      calc raw.toNat = (max 0 (min pu (sustained s es p))).toNat := by simp only [raw, energyTerm]
        _ = (min pu (sustained s es p)).toNat := by omega
    have below : o ≤ rawOffer s h k n p := published_le_rawOffer s h k n p
    have energy : o ≤ sustained s es p := below.trans (rawOffer_le_sustained s h k n p)
    refine ⟨published_unsupported s h k n p, fun supported => ?_, power, published_mod_granularity s h k n p,
      below.trans (rawOffer_le_capacity s h k n p), fun pos => ?_, fun sl => ?_, fun fl => ?_⟩
    · exact raw_eq ▸ published_supported s h k n p supported
    · exact (Int.ofNat_le.2 below).trans (rawOffer_le_power s h k n p (pos.trans_le below))
    · simpa [sustained, sl] using energy
    · simpa [sustained, fl] using energy
  · exact ceilDiv_le_of_le (Nat.div_mul_le_self _ _)
  · exact ceilDiv_le_of_le (by omega)
  case fleet =>
    intro h power bound
    refine ⟨rfl, rfl, rfl, ?_, rfl, rfl⟩
    have limits (b : Nat) : bound b = s.windows.inForce.limit d b := by cases d <;> rfl
    have weights (b : Nat) : power b = branchPower s.roster d b := by
      simp only [power, branchPower, sitesOf, branchOf, beq_eq_decide]
    refine congrArg List.sum (List.map_congr_left fun b _ => ?_)
    rw [← limits, ← weights]
    cases bound b <;> rfl

end Sys2Proof.Proofs
end

