-- ==== Sys2Proof/Proofs/Reset.lean ====
section
/-! PROOFS. The state after reset meets the law of every block (R3), and the FREEZE assertion that a reset with FREEZE high
takes (R50). -/

namespace Sys2Proof.Machine

open Sys2Proof.Safety

section
variable (m : Member) (f : Bool) (l : BitVec 2) (g : Bool)

/-! ### Roster and window table: no record, and the reset contents (R13, R31 to R37) -/

theorem rosterLaw_afterReset : RosterLaw (State.afterReset m f l g) := ⟨.nil, Nat.zero_le _⟩

theorem no_site_afterReset (r : Site) : r ∉ (State.afterReset m f l g).roster := List.not_mem_nil

theorem contentsLaw_reset : ContentsLaw m (Contents.reset m) := by
  refine ⟨List.length_replicate, List.length_replicate, fun w hw => ?_, fun w hw => ?_⟩
  · rw [List.eq_of_mem_replicate hw]; decide
  · rw [List.eq_of_mem_replicate hw]; decide

theorem windowLaw_afterReset : WindowLaw (State.afterReset m f l g) :=
  ⟨contentsLaw_reset m, contentsLaw_reset m, fun _ => rfl, fun _ => rfl⟩

/-! ### Clock and book: UNSET and empty (R3, R63, R71) -/

theorem clockLaw_afterReset : ClockLaw (State.afterReset m f l g) := nofun

theorem bookLaw_afterReset : BookLaw (State.afterReset m f l g) := ⟨fun _ => ⟨rfl, rfl⟩, nofun⟩

theorem paramsLaw_afterReset : ParamsLaw (State.afterReset m f l g) := by
  simp only [ParamsLaw, State.afterReset]
  decide

/-! ### Meter and generator (R94, R108) -/

theorem gsense_afterReset : (State.afterReset m f l g).meter.gsense = (g && decide (m = .ojl256)) := by
  cases m <;> simp [State.afterReset]

theorem meterLaw_afterReset : MeterLaw (State.afterReset m f l g) := by
  simp only [MeterLaw, State.afterReset]
  decide

theorem generatorRanges_afterReset : GeneratorRanges (State.afterReset m f l g) := by
  simp only [GeneratorRanges, State.afterReset]
  decide

theorem holdLaw_afterReset : HoldLaw (State.afterReset m f l g) := ⟨nofun, nofun⟩

/-- In LIVE with no slot current the capacities are 0, as after reset (R73, R109). -/
theorem capacityLaw_afterReset : CapacityLaw (State.afterReset m f l g) := by
  rw [CapacityLaw, currentAwards_of_unset _ rfl, withCapacities_live rfl]
  rfl

theorem flTargetLaw_afterReset : FlTargetLaw (State.afterReset m f l g) := rfl

theorem slLaw_afterReset : SlLaw (State.afterReset m f l g) := by
  simp only [SlLaw, State.afterReset]
  decide

/-! ### Fleet bus: DISABLED, idle, with nothing queued (R145) -/

theorem busLaw_afterReset : BusLaw (State.afterReset m f l g) := by
  simp only [BusLaw, State.afterReset]
  decide

theorem onePassQueue_afterReset : OnePassQueue (State.afterReset m f l g) := nofun

theorem freezeLaw_afterReset : FreezeLaw (State.afterReset m f l g) := ⟨nofun, nofun⟩

/-! ### Journal: no record, both figures 0 (R163) -/

theorem journalLaw_afterReset : JournalLaw (State.afterReset m f l g) := by
  simp only [JournalLaw, State.afterReset]
  decide

theorem figureLaw_afterReset : FigureLaw (State.afterReset m f l g) := ⟨rfl, rfl⟩

theorem episodeLaw_afterReset : EpisodeLaw (State.afterReset m f l g) := by
  simp [EpisodeLaw, State.afterReset, Journal.reset]

/-! ### Links: empty and hunting, RESTARTED the one cause (R171, R179) -/

@[simp] theorem link_afterReset (p : Port) : (State.afterReset m f l g).link p = .reset := by cases p <;> rfl

theorem linkLaw_reset : LinkLaw Link.reset := by decide

theorem linksLaw_afterReset : LinksLaw (State.afterReset m f l g) := ⟨linkLaw_reset, linkLaw_reset, linkLaw_reset⟩

theorem attentionLaw_afterReset : AttentionLaw (State.afterReset m f l g) := by
  intro p _
  rw [link_afterReset]
  cases p <;> decide

theorem linkLines_reset (n : Nat) : Link.reset.tx n = true ∧ Link.reset.holdLine = false ∧ Link.reset.attn = true :=
  ⟨tx_of_quiet rfl n, rfl, rfl⟩

end

/-! ### A reset with FREEZE high (R50, R127) -/

/-- The assertion right after reset: no block is in transmission and no record OPEN, so it raises FREEZE at S and N, and its
pass over the empty roster only counts itself (R51, R127, R136, R139, R159). -/
theorem assertFreeze_afterReset (m : Member) (l : BitVec 2) (g : Bool) (waiting : List Instr) (free : Nat) :
    State.assertFreeze { State.afterReset m false l g with pending := waiting, freeIndex := free } =
      { State.afterReset m true l g with
        pending := waiting, freeIndex := free
        disp := { Dispatcher.reset with passNumber := 1, cause := some .freeze, passes := 1 }
        linkS := { Link.reset with attention := [.restarted, .freeze] }
        linkN := { Link.reset with attention := [.restarted, .freeze] } } := rfl

end Sys2Proof.Machine
end

