-- ==== Sys2Proof/Proofs/ResetObligations.lean ====
section
/-! PROOFS. The statements about the state after reset. -/

namespace Sys2Proof.Proofs

open Sys2Proof.Machine Sys2Proof.Safety

/-- Settles O3: with FREEZE low a reset is the after-reset state by definition, with FREEZE high its assertion follows. -/
theorem deviceReset : Obligations.DeviceReset :=
  fun lrate gsense s => ⟨rfl, congrArg Host.Outcome.next (assertFreeze_afterReset s.member lrate gsense s.pending s.freeIndex)⟩

/-- Settles O4: each law by its block's value after reset. -/
theorem resetMeetsEveryLaw : Obligations.ResetMeetsEveryLaw := by
  intro m f l g s
  refine ⟨rfl, rfl, gsense_afterReset m f l g, ⟨rfl, fbtx_idle⟩, fun p n => ?links, rosterLaw_afterReset m f l g, ?sites,
    ?resolution, windowLaw_afterReset m f l g, clockLaw_afterReset m f l g, bookLaw_afterReset m f l g,
    paramsLaw_afterReset m f l g, meterLaw_afterReset m f l g, generatorRanges_afterReset m f l g,
    holdLaw_afterReset m f l g, capacityLaw_afterReset m f l g, flTargetLaw_afterReset m f l g, slLaw_afterReset m f l g,
    busLaw_afterReset m f l g, onePassQueue_afterReset m f l g, ?leaving, freezeLaw_afterReset m f l g,
    journalLaw_afterReset m f l g, figureLaw_afterReset m f l g, episodeLaw_afterReset m f l g,
    linksLaw_afterReset m f l g, attentionLaw_afterReset m f l g⟩
  case links => exact link_afterReset m f l g p ▸ linkLines_reset n
  case sites => exact fun r hr => absurd hr (no_site_afterReset m f l g r)
  case resolution => exact fun r hr => absurd hr (no_site_afterReset m f l g r)
  case leaving => exact fun r hr => absurd hr (no_site_afterReset m f l g r)

end Sys2Proof.Proofs
end

