-- ==== Sys2Proof/Proofs/SiteWeights.lean ====
section
/-! PROOFS. The weights and energies of a site in a direction, and what bounds them (R25 to R27). -/

namespace Sys2Proof.Machine

variable (r : Site) (d : Direction)

/-! ### The power weight (R25) -/

/-- The conditions under which a site has no power weight in a direction (R25). -/
def Site.excluded : Prop :=
  r.lifecycle = .leaving ∨ r.status ≠ some .ready ∨ r.freshness = .silent ∨ r.effClass.permits d = false

/-- The smallest of rated power, effective cap and available power, an absent figure not counting (R25). -/
def Site.powerBound : Nat := min r.rated (min (r.effCap.getD r.rated) (r.available.getD r.rated))

theorem pw_of_excluded {r : Site} {d : Direction} (h : r.excluded d) : r.pw d = 0 := if_pos h

theorem pw_of_eligible {r : Site} {d : Direction} (h : ¬r.excluded d) : r.pw d =
    if r.freshness = .stale then r.powerBound / 20 * 10 else r.powerBound / 10 * 10 := if_neg h

theorem pw_mod_ten : r.pw d % 10 = 0 := by
  by_cases h : r.excluded d
  · rw [pw_of_excluded h]
  · rw [pw_of_eligible h]
    split <;> exact Nat.mul_mod_left _ _

theorem pw_le_powerBound : r.pw d ≤ r.powerBound := by
  by_cases h : r.excluded d
  · exact pw_of_excluded h ▸ Nat.zero_le _
  · rw [pw_of_eligible h]
    split <;> omega

theorem pw_le_rated : r.pw d ≤ r.rated := (pw_le_powerBound r d).trans (Nat.min_le_left _ _)

theorem pw_le_effCap {c : Nat} (h : r.effCap = some c) : r.pw d ≤ c := by
  have bound : r.powerBound ≤ c := by simp [Site.powerBound, h]
  exact (pw_le_powerBound r d).trans bound

theorem pw_le_available {c : Nat} (h : r.available = some c) : r.pw d ≤ c := by
  have bound : r.powerBound ≤ c := by simp [Site.powerBound, h]
  exact (pw_le_powerBound r d).trans bound

/-! ### The dispatch weight (R26) -/

theorem dw_of_room {r : Site} {d : Direction} (h : r.hasRoom d = true) : r.dw d = r.pw d := if_pos h

theorem dw_of_no_room {r : Site} {d : Direction} (h : r.hasRoom d = false) : r.dw d = 0 :=
  if_neg (by simp [h])

theorem dw_le_pw : r.dw d ≤ r.pw d := by
  cases h : r.hasRoom d
  · exact dw_of_no_room h ▸ Nat.zero_le _
  · exact (dw_of_room h).le

theorem dw_mod_ten : r.dw d % 10 = 0 := by
  cases h : r.hasRoom d
  · rw [dw_of_no_room h]
  · exact dw_of_room h ▸ pw_mod_ten r d

theorem dw_le_rated : r.dw d ≤ r.rated := (dw_le_pw r d).trans (pw_le_rated r d)

theorem hasRoom_up {r : Site} {x : Nat} (h : r.soc = some x) : r.hasRoom .up = true ↔ r.floor < x := by
  simp [Site.hasRoom, h]

theorem hasRoom_down {r : Site} {x : Nat} (h : r.soc = some x) : r.hasRoom .down = true ↔ x < r.ceiling := by
  simp [Site.hasRoom, h]

/-- A site that never reported has no room in either direction (R26). -/
theorem hasRoom_of_no_soc {r : Site} (h : r.soc = none) : r.hasRoom d = false := by
  cases d <;> simp [Site.hasRoom, h]

/-! ### Energies (R27) -/

theorem counted_of_no_weight {r : Site} {d : Direction} (h : r.pw d = 0) (wh : Nat) : r.counted d wh = 0 := if_pos h

/-- Where the site has a weight, an energy counts in full, and half while STALE (R27). -/
theorem counted_of_weight {r : Site} {d : Direction} (h : r.pw d ≠ 0) (wh : Nat) :
    r.counted d wh = wh / (if r.freshness = .stale then 2 else 1) := by
  rw [Site.counted, if_neg h]
  split <;> simp

end Sys2Proof.Machine
end

