-- ==== Sys2Proof/Proofs/SiteWeightsObligations.lean ====
section
/-! PROOFS. The statement about the weights of a site. -/

namespace Sys2Proof.Proofs

open Sys2Proof.Machine Sys2Proof.Safety

/-- Settles O18: the power weight by whether the site is excluded, the dispatch weight by its room, the energies by the
power weight. -/
theorem siteWeights : Obligations.SiteWeights := by
  intro r d soc
  refine ⟨pw_of_excluded, fun enrolled ready reports permitted => ?eligible, fun x known => ⟨?_, ?_, ?_, ?_⟩,
    fun unknown => dw_of_no_room (hasRoom_of_no_soc d unknown), pw_mod_ten r d, dw_le_pw r d, pw_le_rated r d,
    fun _ => pw_le_effCap r d, fun _ => pw_le_available r d, fun none => ⟨?_, counted_of_no_weight none _⟩,
    fun some => ⟨counted_of_weight some _, ?_⟩⟩
  case eligible =>
    have eligible : ¬r.excluded d := by simp [Site.excluded, enrolled, ready, reports, permitted]
    refine ⟨fun fresh => ?_, fun stale => ?_⟩
    · rw [pw_of_eligible eligible, fresh, if_neg nofun, Nat.mul_comm, Site.powerBound]
    · rw [pw_of_eligible eligible, if_pos stale, Nat.mul_comm, Site.powerBound]
  · exact fun above => dw_of_room ((hasRoom_up known).2 above)
  · exact fun below => dw_of_room ((hasRoom_down known).2 below)
  · exact fun above => dw_of_no_room (Bool.eq_false_iff.2 fun room => by have := (hasRoom_up known).1 room; omega)
  · exact fun below => dw_of_no_room (Bool.eq_false_iff.2 fun room => by have := (hasRoom_down known).1 room; omega)
  · cases d <;> exact counted_of_no_weight none _
  · cases d <;> exact counted_of_weight some _

end Sys2Proof.Proofs
end

