-- ==== Sys2Proof/Proofs/SiteRequests.lean ====
section
/-! PROOFS. The requests of the roster and the freshness timer: the list operations behind them, and what the roster answers
in each case (R13 to R17, R19, R23, R24). -/

namespace Sys2Proof.Machine

open Sys2Proof.Safety

/-! ### Records in address order (R13) -/

theorem addSite_perm (x : Site) (rs : List Site) : (addSite x rs).Perm (x :: rs) := List.perm_orderedInsert _ _ _

theorem siteAt_eq_none_iff (a : Address) (rs : List Site) : siteAt rs a = none ↔ ∀ r ∈ rs, r.address ≠ a := by
  simp [siteAt]

theorem siteAt_of_first {r : Site} {pre : List Site} (h : ∀ q ∈ pre, q.address ≠ r.address) (post : List Site) :
    siteAt (pre ++ r :: post) r.address = some r := by
  have before : pre.find? (fun q => q.address == r.address) = none := (siteAt_eq_none_iff r.address pre).2 h
  simp [siteAt, List.find?_append, before]

theorem siteAt_mem {rs : List Site} {a : Address} {r : Site} (h : siteAt rs a = some r) : r ∈ rs ∧ r.address = a :=
  ⟨List.mem_of_find?_eq_some h, by simpa using List.find?_some h⟩

theorem isLeaving_iff (r : Site) : r.isLeaving = true ↔ r.lifecycle = .leaving := by simp [Site.isLeaving]

theorem not_isLeaving {r : Site} (h : r.lifecycle = .enrolled) : ¬r.isLeaving = true := by simp [Site.isLeaving, h]

theorem carriesBlocks_iff (b : BusState) : b.carriesBlocks = true ↔ b = .running ∨ b = .backoff := by
  cases b <;> simp [BusState.carriesBlocks]

/-! ### Ranges of the arguments (R14, R16) -/

theorem limitsInRange_iff (floor ceiling : Nat) : limitsInRange floor ceiling = true ↔
    floor ≤ 900 ∧ 100 ≤ ceiling ∧ ceiling ≤ 1000 ∧ floor + 100 ≤ ceiling := by
  simp [limitsInRange, and_assoc]

theorem enrollInRange_iff (a rated capacity floor ceiling : Nat) : enrollInRange a rated capacity floor ceiling = true ↔
    a < 4096 ∧ 500 ≤ rated ∧ rated ≤ 25000 ∧ rated % 10 = 0 ∧ 1000 ≤ capacity ∧ capacity ≤ 60000 ∧
      floor ≤ 900 ∧ 100 ≤ ceiling ∧ ceiling ≤ 1000 ∧ floor + 100 ≤ ceiling := by
  simp [enrollInRange, addressInRange, limitsInRange_iff, and_assoc]

theorem amendInRange_iff (a floor ceiling : Nat) : (addressInRange a && limitsInRange floor ceiling) = true ↔
    a < 4096 ∧ floor ≤ 900 ∧ 100 ≤ ceiling ∧ ceiling ≤ 1000 ∧ floor + 100 ≤ ceiling := by
  simp [addressInRange, limitsInRange_iff]

variable {s : State}

/-! ### ENROLL (R14, R15) -/

section
variable {a rated capacity floor ceiling : Nat}

theorem ownEnroll_badValue (h : enrollInRange a rated capacity floor ceiling = false) :
    ownEnroll a rated capacity floor ceiling s = ⟨s, .badValue, .empty⟩ := by
  simp [ownEnroll, h, refuse]

variable (h : enrollInRange a rated capacity floor ceiling = true)
include h

theorem ownEnroll_addressTaken {r : Site} (taken : siteAt s.roster (BitVec.ofNat 12 a) = some r) :
    ownEnroll a rated capacity floor ceiling s = ⟨s, .addressTaken, .taken r.lifecycle⟩ := by
  simp [ownEnroll, h, taken, refuse]

theorem ownEnroll_rosterFull (unused : siteAt s.roster (BitVec.ofNat 12 a) = none)
    (full : s.member.siteCapacity ≤ s.roster.length) :
    ownEnroll a rated capacity floor ceiling s = ⟨s, .rosterFull, .empty⟩ := by
  simp [ownEnroll, h, unused, full, refuse]

/-- An accepted ENROLL adds the new record with the resolution of its address, and requests an evaluation (R15). -/
theorem ownEnroll_ok (unused : siteAt s.roster (BitVec.ofNat 12 a) = none)
    (room : s.roster.length < s.member.siteCapacity) :
    ownEnroll a rated capacity floor ceiling s =
      ⟨{ s with roster := addSite (.enrolled (BitVec.ofNat 12 a) rated capacity floor ceiling
          (s.windows.inForce.resolve (BitVec.ofNat 12 a))) s.roster }.requestEval, .ok,
        .enrolled (BitVec.ofNat 12 a) (s.windows.inForce.resolve (BitVec.ofNat 12 a)).1
          (s.windows.inForce.resolve (BitVec.ofNat 12 a)).2⟩ := by
  simp [ownEnroll, h, unused, Nat.not_le.2 room]

end

/-! ### AMEND (R16) -/

section
variable {a floor ceiling : Nat}

theorem ownAmend_badValue (h : (addressInRange a && limitsInRange floor ceiling) = false) :
    ownAmend a floor ceiling s = ⟨s, .badValue, .empty⟩ := by
  simp only [ownAmend, h, refuse, Bool.not_false, if_true]

variable (h : (addressInRange a && limitsInRange floor ceiling) = true)
include h

theorem ownAmend_noSuchSite (unused : siteAt s.roster (BitVec.ofNat 12 a) = none) :
    ownAmend a floor ceiling s = ⟨s, .noSuchSite, .empty⟩ := by
  simp [ownAmend, h, unused, refuse]

theorem ownAmend_notNow {r : Site} (found : siteAt s.roster (BitVec.ofNat 12 a) = some r) (leaving : r.lifecycle = .leaving) :
    ownAmend a floor ceiling s = ⟨s, .notNow, .empty⟩ := by
  simp [ownAmend, h, found, (isLeaving_iff r).2 leaving, refuse]

theorem ownAmend_ok {r : Site} (found : siteAt s.roster (BitVec.ofNat 12 a) = some r) (enrolled : r.lifecycle = .enrolled) :
    ownAmend a floor ceiling s =
      ⟨{ s with roster := changeSite (BitVec.ofNat 12 a) (fun r => { r with floor, ceiling }) s.roster }.requestEval, .ok,
        .limits floor ceiling⟩ := by
  simp [ownAmend, h, found, not_isLeaving enrolled]

end

/-! ### REMOVE (R17) -/

section
variable {a : Nat}

theorem ownRemove_badValue (h : 4096 ≤ a) : ownRemove a s = ⟨s, .badValue, .empty⟩ := by
  simp [ownRemove, addressInRange, Nat.not_lt.2 h, refuse]

variable (h : a < 4096)
include h

theorem ownRemove_noSuchSite (unused : siteAt s.roster (BitVec.ofNat 12 a) = none) :
    ownRemove a s = ⟨s, .noSuchSite, .empty⟩ := by
  simp [ownRemove, addressInRange, h, unused, refuse]

theorem ownRemove_notNow {r : Site} (found : siteAt s.roster (BitVec.ofNat 12 a) = some r) (leaving : r.lifecycle = .leaving) :
    ownRemove a s = ⟨s, .notNow, .empty⟩ := by
  simp [ownRemove, addressInRange, h, found, (isLeaving_iff r).2 leaving, refuse]

/-- While the bus carries blocks, a removed site becomes LEAVING (R17). -/
theorem ownRemove_leaving {r : Site} (found : siteAt s.roster (BitVec.ofNat 12 a) = some r)
    (enrolled : r.lifecycle = .enrolled) (carries : s.bus.state.carriesBlocks = true) : ownRemove a s =
      ⟨{ s with roster := changeSite (BitVec.ofNat 12 a) (Site.leave s.disp.passes) s.roster }.requestEval, .ok,
        .removed (some .leaving)⟩ := by
  simp [ownRemove, addressInRange, h, found, not_isLeaving enrolled, carries]

/-- Where the bus carries no block, a removed site is deleted at once (R17). -/
theorem ownRemove_deleted {r : Site} (found : siteAt s.roster (BitVec.ofNat 12 a) = some r)
    (enrolled : r.lifecycle = .enrolled) (silent : s.bus.state.carriesBlocks = false) : ownRemove a s =
      ⟨{ s with roster := s.roster.filter fun r => r.address ≠ BitVec.ofNat 12 a }.requestEval, .ok, .removed none⟩ := by
  simp [ownRemove, addressInRange, h, found, not_isLeaving enrolled, silent, bne, beq_eq_decide]

end

/-! ### READ_SITE (R19) -/

theorem ownReadSite_badValue {a : Nat} (h : 4096 ≤ a) : ownReadSite a s = ⟨s, .badValue, .empty⟩ := by
  simp [ownReadSite, addressInRange, Nat.not_lt.2 h, refuse]

theorem ownReadSite_noSuchSite {a : Nat} (h : a < 4096) (unused : siteAt s.roster (BitVec.ofNat 12 a) = none) :
    ownReadSite a s = ⟨s, .noSuchSite, .empty⟩ := by
  simp [ownReadSite, addressInRange, h, unused, refuse]

theorem ownReadSite_ok {a : Nat} (h : a < 4096) {r : Site} (found : siteAt s.roster (BitVec.ofNat 12 a) = some r) :
    ownReadSite a s = ⟨s, .ok, .site r r.figures⟩ := by
  simp [ownReadSite, addressInRange, h, found]

/-! ### Freshness (R23, R24) -/

section
variable {a : Address} {r : Site}

theorem freshnessExpiry_no_site (h : siteAt s.roster a = none) : exec (.freshnessExpiry a) s = .next s := by
  simp [exec, execFreshnessExpiry, h]

variable (found : siteAt s.roster a = some r)
include found

/-- A stopped timer does not expire, and a SILENT site has none to expire (R23). -/
theorem freshnessExpiry_stopped (h : r.freshnessTimer = none ∨ r.freshness = .silent) :
    exec (.freshnessExpiry a) s = .next s := by
  simp only [exec, execFreshnessExpiry, found]
  rcases h with h | h
  · simp [h]
  · simp only [h]
    split <;> simp_all

theorem freshnessExpiry_fresh {n : Nat} (running : r.freshnessTimer = some n) (h : r.freshness = .fresh) :
    exec (.freshnessExpiry a) s = .next { s with
      roster := changeSite a (fun r => { r with freshness := .stale, freshnessTimer := some 20 }) s.roster } := by
  simp [exec, execFreshnessExpiry, found, running, h]

theorem freshnessExpiry_stale {n : Nat} (running : r.freshnessTimer = some n) (h : r.freshness = .stale) :
    exec (.freshnessExpiry a) s =
      let silent : State := { s with
        roster := changeSite a (fun r => { r with freshness := .silent, freshnessTimer := none }) s.roster }
      .next (if r.isLeaving then silent else (silent.raise .a .siteSilent).requestEval) := by
  simp [exec, execFreshnessExpiry, found, running, h]

end

end Sys2Proof.Machine
end

