-- ==== Sys2Proof/Proofs/SiteRequestObligations.lean ====
section
/-! PROOFS. The statements about the requests of the roster and its freshness timers. -/

namespace Sys2Proof.Proofs

open Sys2Proof.Machine Sys2Proof.Safety

/-- Settles O16: each request by its owning block's answer in the case the checks leave. -/
theorem rosterRequests : Obligations.RosterRequests := by
  refine ⟨addSite_perm, siteAt_eq_none_iff, fun r pre post h => siteAt_of_first h post, ?enroll, ?amend, ?remove⟩
  case enroll =>
    intro p a rated capacity floor ceiling t s admitted
    rw [← dequeue_roster s p, ← dequeue_windows s p, ← dequeue_member s p, ← dequeue_book s p]
    intro i d ad ok w
    have inRange : enrollInRange a rated capacity floor ceiling = true ↔ ok := enrollInRange_iff ..
    refine ⟨fun h => answers_of_admitted rfl admitted (ownEnroll_badValue (Bool.eq_false_iff.2 fun r => h (inRange.1 r))),
      fun r h taken => answers_of_admitted rfl admitted (ownEnroll_addressTaken (inRange.2 h) taken),
      fun h unused full => answers_of_admitted rfl admitted (ownEnroll_rosterFull (inRange.2 h) unused full),
      fun h unused room => answers_of_admitted rfl admitted (ownEnroll_ok (inRange.2 h) unused room)⟩
  case amend =>
    intro p a floor ceiling t s admitted
    rw [← dequeue_roster s p, ← dequeue_book s p]
    intro i d ad ok
    have inRange : (addressInRange a && limitsInRange floor ceiling) = true ↔ ok := amendInRange_iff ..
    refine ⟨fun h => answers_of_admitted rfl admitted (ownAmend_badValue (Bool.eq_false_iff.2 fun r => h (inRange.1 r))),
      fun h unused => answers_of_admitted rfl admitted (ownAmend_noSuchSite (inRange.2 h) unused),
      fun r h found => ⟨fun leaving => answers_of_admitted rfl admitted (ownAmend_notNow (inRange.2 h) found leaving),
        fun enrolled => answers_of_admitted rfl admitted (ownAmend_ok (inRange.2 h) found enrolled)⟩⟩
  case remove =>
    intro p a t s admitted
    rw [← dequeue_roster s p, ← dequeue_book s p, ← dequeue_bus s p, ← dequeue_disp s p]
    intro i d ad
    refine ⟨fun h => answers_of_admitted rfl admitted (ownRemove_badValue h),
      fun h unused => answers_of_admitted rfl admitted (ownRemove_noSuchSite h unused),
      fun r h found => ⟨fun leaving => answers_of_admitted rfl admitted (ownRemove_notNow h found leaving),
        fun enrolled carries => ?_, fun enrolled other => ?_⟩⟩
    · have carries := (carriesBlocks_iff _).2 carries
      exact answers_of_admitted rfl admitted (ownRemove_leaving h found enrolled carries)
    · have silent : d.bus.state.carriesBlocks = false := by
        rcases other with state | state | state <;> rw [state] <;> rfl
      exact answers_of_admitted rfl admitted (ownRemove_deleted h found enrolled silent)

/-- Settles O17: the record at the address decides, by its timer and its freshness. -/
theorem freshnessExpiry : Obligations.FreshnessExpiry := by
  intro a s i
  refine ⟨freshnessExpiry_no_site, fun r found => ?_⟩
  intro silent
  refine ⟨fun n running fresh => freshnessExpiry_fresh found running fresh, fun n running stale enrolled => ?_,
    fun n running stale leaving => ?_, freshnessExpiry_stopped found⟩
  · exact (freshnessExpiry_stale found running stale).trans (congrArg _ (if_neg (not_isLeaving enrolled)))
  · exact (freshnessExpiry_stale found running stale).trans (congrArg _ (if_pos ((isLeaving_iff r).2 leaving)))

end Sys2Proof.Proofs
end

