-- ==== Sys2Proof/Proofs/ParametersAndReadings.lean ====
section
/-! PROOFS. What the parameter requests and the reading requests answer in each case (R20, R49, R64, R106, R110, R119, R143,
R144, R180). -/

namespace Sys2Proof.Machine

variable {s : State}

/-! ### Parameters (R20, R64, R110, R119) -/

theorem ownSetItems_badValue {x : ItemsArg} (h : x.other = true) : ownSetItems x s = ⟨s, .badValue, .empty⟩ := by
  simp [ownSetItems, h, refuse]

theorem ownSetItems_ok {x : ItemsArg} (h : x.other = false) : ownSetItems x s =
    ⟨{ s with bus := { s.bus with items := ⟨x.household, x.pv⟩ } }, .ok, .items ⟨x.household, x.pv⟩⟩ := by
  simp [ownSetItems, h]

theorem offerParamsInRange_iff (m y g q : Nat) : offerParamsInRange m y g q = true ↔
    m ≤ 50 ∧ 10 ≤ y ∧ y ≤ 100 ∧ 100 ≤ g ∧ g ≤ 100000 ∧ q ≤ 100000 := by
  simp [offerParamsInRange, and_assoc]

theorem ownSetOfferParams_badValue {m y g q : Nat} (h : offerParamsInRange m y g q = false) :
    ownSetOfferParams m y g q s = ⟨s, .badValue, .empty⟩ := by
  simp [ownSetOfferParams, h, refuse]

theorem ownSetOfferParams_ok {m y g q : Nat} (h : offerParamsInRange m y g q = true) : ownSetOfferParams m y g q s =
    ⟨{ s with book := { s.book with params := ⟨m, y, g, q⟩ } }, .ok, .offerParams ⟨m, y, g, q⟩⟩ := by
  simp [ownSetOfferParams, h]

theorem flParamsInRange_iff (db fd hl : Nat) : flParamsInRange db fd hl = true ↔
    db ≤ 500 ∧ db + 10 ≤ fd ∧ fd ≤ 2000 ∧ 1 ≤ hl ∧ hl ≤ 100 := by
  simp [flParamsInRange, and_assoc]

theorem ownSetFlParams_badValue {db fd hl : Nat} {lm : Option LossMode}
    (h : lm = none ∨ flParamsInRange db fd hl = false) : ownSetFlParams db fd lm hl s = ⟨s, .badValue, .empty⟩ := by
  cases lm with
  | none => rfl
  | some m => simp [ownSetFlParams, h.resolve_left nofun, refuse]

theorem ownSetFlParams_notNow {db fd hl : Nat} (h : flParamsInRange db fd hl = true) (armed : s.gen.armed = true)
    (m : LossMode) : ownSetFlParams db fd (some m) hl s = ⟨s, .notNow, .empty⟩ := by
  simp [ownSetFlParams, h, armed, refuse]

theorem ownSetFlParams_ok {db fd hl : Nat} (h : flParamsInRange db fd hl = true) (disarmed : s.gen.armed = false)
    (m : LossMode) : ownSetFlParams db fd (some m) hl s =
      ⟨{ s with gen := { s.gen with deadband := db, fullDev := fd, lossMode := m, holdLimit := hl } }, .ok,
        .flParams db fd m hl⟩ := by
  simp [ownSetFlParams, h, disarmed]

theorem slParamsInRange_iff (ramp timeout : Nat) : slParamsInRange ramp timeout = true ↔
    10 ≤ ramp ∧ ramp ≤ 1000000 ∧ ramp % 10 = 0 ∧ 10 ≤ timeout ∧ timeout ≤ 600 := by
  simp [slParamsInRange, and_assoc]

theorem ownSetSlParams_badValue {ramp timeout : Nat} (h : slParamsInRange ramp timeout = false) :
    ownSetSlParams ramp timeout s = ⟨s, .badValue, .empty⟩ := by
  simp [ownSetSlParams, h, refuse]

theorem ownSetSlParams_ok {ramp timeout : Nat} (h : slParamsInRange ramp timeout = true) : ownSetSlParams ramp timeout s =
    ⟨{ s with gen := { s.gen with ramp := ramp, refreshTimeout := timeout } }, .ok, .slParams ramp timeout⟩ := by
  simp [ownSetSlParams, h]

/-! ### Readings (R49, R143, R180) -/

/-- The working contents differ from the in-force ones, as READ_WINDOWS says it (R49). -/
theorem ownReadWindows_named (v : View) : ownReadWindows (some v) s =
    ⟨s, .ok, .windows (match v with
      | .working => s.windows.working
      | .inForce => s.windows.inForce) s.windows.state (decide (s.windows.working ≠ s.windows.inForce)) s.freeze⟩ := by
  cases v <;> simp [ownReadWindows, bne, beq_eq_decide]

/-- The measured power of a branch is that of its sites that are not SILENT (R143). -/
theorem measuredSum_sitesOf (rs : List Site) (b : Nat) : measuredSum (sitesOf rs b) =
    ((rs.filter fun r => r.address.toNat / 256 = b ∧ r.freshness ≠ .silent).map fun r => r.measured.getD 0).sum := by
  rw [measuredSum, sitesOf, List.filter_filter]
  congr 2
  refine List.filter_congr fun r _ => ?_
  rw [Bool.decide_and, Bool.and_comm, branchOf, beq_eq_decide, Site.reporting, bne, beq_eq_decide, decide_not]

theorem branchReport_eq (b : Nat) : s.branchReport b = ⟨s.disp.branches.getD b ⟨0, 0, false⟩,
    (s.windows.inForce.branch b).exportLimit, (s.windows.inForce.branch b).importLimit,
    ((s.roster.filter fun r => r.address.toNat / 256 = b ∧ r.freshness ≠ .silent).map
      fun r => r.measured.getD 0).sum⟩ := by
  rw [← measuredSum_sitesOf]
  rfl

theorem ownIdentify_of_member {m : Member} (h : s.member = m) : ownIdentify s =
    ⟨s, .ok, .identity .ojelta m .b m.siteCapacity m.windowCount 16 384 32 (m == .ojl256) s.lrate⟩ := by
  subst h
  rfl

end Sys2Proof.Machine
end

