-- ==== Sys2Proof/Proofs/ParameterAndReadingObligations.lean ====
section
/-! PROOFS. The statements about the parameter requests and the reading requests. -/

namespace Sys2Proof.Proofs

open Sys2Proof.Machine Sys2Proof.Safety

/-- Settles O21: each request by its owning block's answer, its range check spelled. -/
theorem parameterRequests : Obligations.ParameterRequests := by
  intro p t s
  rw [← dequeue_bus s p, ← dequeue_book s p, ← dequeue_gen s p]
  intro d
  have outOfRange {b : Bool} {P : Prop} (spelled : b = true ↔ P) (h : ¬P) : b = false :=
    Bool.eq_false_iff.2 fun inRange => h (spelled.1 inRange)
  refine ⟨fun x admitted => ⟨fun h => ?_, fun h => ?_⟩, ?offer, ?fl, ?sl⟩
  · exact answers_of_admitted rfl admitted (ownSetItems_badValue h)
  · exact answers_of_admitted rfl admitted (ownSetItems_ok h)
  case offer =>
    intro m y g q admitted ok
    have spelled : offerParamsInRange m y g q = true ↔ ok := offerParamsInRange_iff ..
    exact ⟨fun h => answers_of_admitted rfl admitted (ownSetOfferParams_badValue (outOfRange spelled h)),
      fun h => answers_of_admitted rfl admitted (ownSetOfferParams_ok (spelled.2 h))⟩
  case fl =>
    intro db fd lm hl admitted i ok
    have spelled : flParamsInRange db fd hl = true ↔ ok := flParamsInRange_iff ..
    refine ⟨fun h => answers_of_admitted rfl admitted (ownSetFlParams_badValue (h.imp id (outOfRange spelled))),
      fun m named h armed => ?_, fun m named h disarmed => ?_⟩
    · subst named
      exact answers_of_admitted rfl admitted (ownSetFlParams_notNow (spelled.2 h) armed m)
    · subst named
      exact answers_of_admitted rfl admitted (ownSetFlParams_ok (spelled.2 h) disarmed m)
  case sl =>
    intro ramp timeout admitted i ok
    have spelled : slParamsInRange ramp timeout = true ↔ ok := slParamsInRange_iff ..
    exact ⟨fun h => answers_of_admitted rfl admitted (ownSetSlParams_badValue (outOfRange spelled h)),
      fun h => answers_of_admitted rfl admitted (ownSetSlParams_ok (spelled.2 h))⟩

/-- Settles O22: each reading by its owning block's answer, which leaves the state as it is. -/
theorem stateReadings : Obligations.StateReadings := by
  intro p t s
  rw [← dequeue_roster s p, ← dequeue_windows s p, ← dequeue_meter s p, ← dequeue_gen s p, ← dequeue_disp s p,
    ← dequeue_member s p, ← dequeue_freeze s p, ← dequeue_lrate s p]
  intro d m g x
  refine ⟨fun a admitted => ⟨fun h => ?_, fun h unused => ?_, fun r h found => ?_⟩, fun admitted => ?_, fun admitted => ?_,
    fun admitted => ?_, fun admitted => ?_, fun admitted => ?_, fun admitted => ?_, fun admitted => ?_⟩
  · exact answers_of_admitted rfl admitted (ownReadSite_badValue h)
  · exact answers_of_admitted rfl admitted (ownReadSite_noSuchSite h unused)
  · exact answers_of_admitted rfl admitted (ownReadSite_ok h found)
  · exact answers_of_admitted rfl admitted rfl
  · exact answers_of_admitted rfl admitted (ownReadWindows_named .working)
  · exact answers_of_admitted rfl admitted (ownReadWindows_named .inForce)
  · exact answers_of_admitted rfl admitted rfl
  · refine ⟨(List.range 16).map d.branchReport, answers_of_admitted rfl admitted rfl, by simp, fun b hb => ?_⟩
    rw [List.getElem?_map, List.getElem?_range hb, Option.map_some, branchReport_eq]
  · exact answers_of_admitted rfl admitted rfl
  · exact ⟨fun member => answers_of_admitted rfl admitted (ownIdentify_of_member member),
      fun member => answers_of_admitted rfl admitted (ownIdentify_of_member member)⟩

end Sys2Proof.Proofs
end

