-- ==== Sys2Proof/Proofs/FrameEnds.lean ====
section
/-! PROOFS. How a frame of the fleet bus ends: idle, DISABLED out of DRAINING, or the collision ladder (R18, R149, R158,
R160, R161). -/

namespace Sys2Proof.Machine

variable (s : State)

/-! ### The three ends of a frame -/

theorem deleteLeaving_eq (rs : List Site) : deleteLeaving rs = rs.filter fun r => r.lifecycle ≠ .leaving := by
  simp [deleteLeaving, Site.isLeaving, beq_eq_decide]

/-- The bus after DISABLED is entered: no frame, nothing queued, count 0, the held configuration applied (R148 to R150). -/
def Bus.disabled (b : Bus) : Bus :=
  { b with
    state := .disabled, frame := .idle, queue := [], collisions := 0, backoff := none
    config := b.heldConfig.getD b.config, heldConfig := none }

theorem enterDisabled_eq : s.enterDisabled =
    { s with bus := s.bus.disabled, roster := s.roster.filter fun r => r.lifecycle ≠ .leaving } := by
  rw [← deleteLeaving_eq]
  rfl

theorem enterFault_eq : s.enterFault = ((({ s with
    roster := s.roster.filter fun r => r.lifecycle ≠ .leaving
    bus := { s.bus with state := .fault, frame := .idle, queue := [], collisions := 4, backoff := none }
    book := { s.book with evalRequests := s.book.evalRequests + 1 } } : State).raise .a .busFault).raise .s
      .busFault).raise .n .busFault := by
  rw [← deleteLeaving_eq]
  rfl

theorem endFrame_draining {s : State} (h : s.bus.state = .draining) : s.endFrame = s.enterDisabled := if_pos h

theorem endFrame_not_draining {s : State} (h : s.bus.state ≠ .draining) :
    s.endFrame = { s with bus := { s.bus with frame := .idle } } := if_neg h

theorem collided_draining {s : State} (h : s.bus.state = .draining) : s.collided = s.enterDisabled := if_pos h

/-- Out of DRAINING a collision climbs the ladder: BACKOFF up to the third in a row, FAULT at the fourth (R161). -/
theorem collided_not_draining {s : State} (h : s.bus.state ≠ .draining) : s.collided = if s.bus.collisions < 3 then
    { s with bus := { s.bus with
      state := .backoff, frame := .idle, collisions := s.bus.collisions + 1
      backoff := some ((s.bus.collisions + 1) * 10000) } }
    else s.enterFault := by
  rcases collided_cases s with ⟨draining, -⟩ | ⟨-, few, eq⟩ | ⟨-, many, eq⟩
  · exact absurd draining h
  · rw [eq, if_pos few]
  · rw [eq, if_neg (Nat.not_lt.2 many)]

/-! ### BLOCK_COMPLETE and COLLISION (R158, R160) -/

/-- A block ends the LEAVING records it marks, of those that were LEAVING before its pass (R18, log 15). -/
theorem endedBy_iff (b : Block) (r : Site) : r.endedBy b = true ↔ r.lifecycle = .leaving ∧
    (∃ e ∈ b.entries, e.leaving = true ∧ e.address = r.address) ∧ ∃ n, r.leavingSince = some n ∧ n < b.taken := by
  simp [Site.endedBy, isLeaving_iff, Option.any_eq_true, and_assoc]

theorem blockComplete_of_block {b : Block} (h : s.bus.frame = .block b) : exec .blockComplete s = .next
    ({ s with roster := s.roster.filter fun r => !r.endedBy b, bus := { s.bus with collisions := 0 } } : State).endFrame := by
  simp only [exec, execBlockComplete, h]

theorem blockComplete_of_no_block (h : ∀ x, s.bus.frame ≠ .block x) : exec .blockComplete s = .next s := by
  simp only [exec, execBlockComplete]

theorem collision_of_block {b : Block} (h : s.bus.frame = .block b) :
    exec .collision s = .next ({ s with bus := { s.bus with queue := [] } } : State).collided := by
  simp only [exec, execCollision, h]

/-- A collision in a poll is recorded in the record the poll was begun for (R155, R160). -/
theorem collision_of_poll {a : Address} {i : ItemSet} (h : s.bus.frame = .poll a i .transmitting) :
    exec .collision s = .next ({ s with roster := s.roster.map fun r =>
      if r.address = a ∧ r.polled = true then { r with lastPoll := some .collision } else r } : State).collided := by
  simp only [exec, execCollision, h, State.failedPoll, changePolled_eq]

theorem collision_of_no_sending (block : ∀ x, s.bus.frame ≠ .block x)
    (poll : ∀ a i, s.bus.frame ≠ .poll a i .transmitting) : exec .collision s = .next s := by
  simp only [exec, execCollision]

end Sys2Proof.Machine
end

