-- ==== Sys2Proof/Proofs/FrameEndObligations.lean ====
section
/-! PROOFS. The statement about the ends of frames. -/

namespace Sys2Proof.Proofs

open Sys2Proof.Machine Sys2Proof.Safety

/-- Settles O54: the event by the frame in progress, its end by whether the bus is DRAINING. -/
theorem frameEnds : Obligations.FrameEnds := by
  intro s b disabled ladder
  have collided (rs : List Site) (q : List Block) (h : b.state ≠ .draining) :
      ({ s with roster := rs, bus := { b with queue := q } } : State).collided = ladder rs q := by
    rw [collided_not_draining, enterFault_eq]
    exact h
  have drained (rs : List Site) (q : List Block) (n : Nat) :
      ({ s with roster := rs, bus := { b with queue := q, collisions := n } } : State).enterDisabled = disabled rs := by
    rw [enterDisabled_eq]
    rfl
  refine ⟨blockComplete_of_no_block s, fun x block => ?_, fun a i poll => ?_, collision_of_no_sending s⟩
  · intro rest
    have kept : (s.roster.filter fun r => !r.endedBy x) = rest :=
      List.filter_congr fun r _ => by simp only [← endedBy_iff, Bool.not_eq_true, Bool.decide_eq_false]
    have complete := blockComplete_of_block s block
    have collision := collision_of_block s block
    rw [kept] at complete
    refine ⟨fun h => ?_, fun h => ?_, fun h => ?_, fun h => ?_⟩
    · exact complete.trans (congrArg _ (endFrame_not_draining (by exact h)))
    · exact complete.trans (congrArg _ ((endFrame_draining (by exact h)).trans (drained rest b.queue 0)))
    · exact collision.trans (congrArg _ (collided s.roster [] h))
    · exact collision.trans (congrArg _ ((collided_draining (by exact h)).trans (drained s.roster [] b.collisions)))
  · intro rs
    have collision := collision_of_poll s poll
    refine ⟨fun h => ?_, fun h => ?_⟩
    · exact collision.trans (congrArg _ (collided rs b.queue h))
    · exact collision.trans (congrArg _ ((collided_draining (by exact h)).trans (drained rs b.queue b.collisions)))

end Sys2Proof.Proofs
end

