-- ==== Sys2Proof/Proofs/ReportFormat.lean ====
section
/-! PROOFS. The characters of the fleet bus and the layout of a REPORT (R146, R155, R183). -/

namespace Sys2Proof.Machine

/-! ### Characters (R146) -/

/-- A sampled character that begins none or is in error: a high start bit, an even number of ones, or a low stop bit. -/
def spoiled (c : BitVec 11) : Prop :=
  c.getLsbD 0 = true ∨ ((List.range' 1 9).countP fun i => c.getLsbD i) % 2 = 0 ∨ c.getLsbD 10 = false

/-- Ones counted in a field of a character are ones counted in place. -/
theorem countP_extract (c : BitVec 11) (n : Nat) : (List.range n).countP (fun i => (c.extractLsb' 1 n).getLsbD i) =
    (List.range' 1 n).countP fun i => c.getLsbD i := by
  rw [List.range'_eq_map_range, List.countP_map]
  refine List.countP_congr fun i hi => ?_
  simp [List.mem_range.1 hi]

theorem oddOnes_extract (c : BitVec 11) (n : Nat) : oddOnes (c.extractLsb' 1 n) = true ↔
    ((List.range' 1 n).countP fun i => c.getLsbD i) % 2 = 1 := by
  rw [oddOnes, countP_extract, beq_iff_eq]

/-- The test of reception is the one of R146: a character is spoiled where it does not begin one or is in error. -/
theorem spoiled_iff (c : BitVec 11) : spoiled c ↔ (!c.getLsbD 0 && !busCharacterError c) = false := by
  have even : (((List.range' 1 9).countP fun i => c.getLsbD i) % 2 = 0) ↔ oddOnes (c.extractLsb' 1 9) = false := by
    rw [← Bool.not_eq_true, oddOnes_extract]
    omega
  rw [spoiled, even, busCharacterError]
  cases c.getLsbD 0 <;> cases c.getLsbD 10 <;> simp

theorem not_spoiled_busCharacter (b : Byte) : ¬spoiled (busCharacter b) := by
  rw [spoiled_iff, (busCharacter_spells b).1]
  nofun

/-- The ones of a character's data bits and its parity bit are odd only where that bit is the odd parity of the data. -/
theorem parity_of_not_spoiled {c : BitVec 11} (h : ¬spoiled c) : c.getLsbD 9 = !oddOnes (c.extractLsb' 1 8) := by
  obtain ⟨-, odd, -⟩ : _ ∧ _ ∧ _ := by simpa only [spoiled, not_or] using h
  have data := oddOnes_extract c 8
  rw [show List.range' 1 9 = List.range' 1 8 ++ [9] from rfl, List.countP_append] at odd
  rw [← Bool.not_eq_not, Bool.not_not, eq_comm, Bool.eq_iff_iff, data]
  rw [List.countP_singleton] at odd
  cases parity : c.getLsbD 9 <;> rw [parity] at odd <;> simp at odd ⊢ <;> omega

/-- The bits of a character: start, data with the least significant first, odd parity, stop (R146). -/
theorem getLsbD_busCharacter (b : Byte) (i : Nat) : (busCharacter b).getLsbD i =
    if i < 1 then false else if i < 9 then b.getLsbD (i - 1) else if i < 10 then !oddOnes b else decide (i = 10) := by
  unfold busCharacter
  rw [BitVec.getLsbD_append, BitVec.getLsbD_append, BitVec.getLsbD_append]
  by_cases start : i < 1
  · simp [start]
  by_cases data : i < 9
  · simp [start, data, show i - 1 < 8 by omega]
  by_cases parity : i < 10
  · obtain rfl : i = 9 := by omega
    simp
  · simp [start, data, parity, show ¬i - 1 < 8 by omega, show ¬i - 1 - 8 < 1 by omega]
    omega

theorem busCharacter_of_not_spoiled {c : BitVec 11} (h : ¬spoiled c) : c = busCharacter (c.extractLsb' 1 8) := by
  obtain ⟨start, -, stop⟩ : _ ∧ _ ∧ _ := by simpa only [spoiled, not_or] using h
  have parity := parity_of_not_spoiled h
  refine BitVec.eq_of_getLsbD_eq fun i hi => ?_
  rw [getLsbD_busCharacter]
  split
  · obtain rfl : i = 0 := by omega
    simpa using start
  split
  · simp [show i - 1 < 8 by omega, show 1 + (i - 1) = i by omega]
  split
  · obtain rfl : i = 9 := by omega
    exact parity
  · obtain rfl : i = 10 := by omega
    simpa using stop

theorem levelsOf_busCharacter : ∀ b : Byte, levelsOf (busCharacter b) = Safety.busLevels b := by decide +kernel

/-! ### Fields of a REPORT (R183) -/

theorem halfOf_toNat (hi lo : Byte) : (halfOf hi lo).toNat = hi.toNat * 256 + lo.toNat := by
  have h := lo.isLt
  rw [halfOf, BitVec.toNat_append, ← Nat.shiftLeft_add_eq_or_of_lt h, Nat.shiftLeft_eq]

theorem halfOf_toInt (hi lo : Byte) : (halfOf hi lo).toInt =
    if hi.toNat * 256 + lo.toNat < 32768 then ((hi.toNat * 256 + lo.toNat : Nat) : Int)
    else ((hi.toNat * 256 + lo.toNat : Nat) : Int) - 65536 := by
  rw [BitVec.toInt_eq_toNat_cond, halfOf_toNat]
  split <;> split <;> omega

theorem bytesOf_halfOf (hi lo : Byte) : bytesOf (halfOf hi lo) = [hi, lo] := by
  have high : (halfOf hi lo).extractLsb' 8 8 = hi := BitVec.eq_of_getLsbD_eq fun i h => by
    rw [BitVec.getLsbD_extractLsb', halfOf, BitVec.getLsbD_append]
    simp [h]
  have low : (halfOf hi lo).extractLsb' 0 8 = lo := BitVec.eq_of_getLsbD_eq fun i h => by
    rw [BitVec.getLsbD_extractLsb', halfOf, BitVec.getLsbD_append]
    simp [h]
  rw [bytesOf, high, low]

/-- The two check bytes behind some bytes match exactly where they are the bytes of the CRC (R181). -/
theorem checkMatches_bytes (bs : List Byte) (hi lo : Byte) : checkMatches (bs ++ [hi, lo]) = true ↔
    hi = (crc16 bs).extractLsb' 8 8 ∧ lo = (crc16 bs).extractLsb' 0 8 := by
  rw [← bytesOf_halfOf hi lo, checkMatches_append]
  constructor
  · intro h
    have bytes := bytesOf_halfOf hi lo
    rw [h, bytesOf] at bytes
    simp only [List.cons.injEq] at bytes
    exact ⟨bytes.1.symm, bytes.2.1.symm⟩
  · rintro ⟨rfl, rfl⟩
    exact halfOf_bytes _

/-- 1 for a marker that is set, 0 for one that is not. -/
def markerCount (bs : List Byte) (i : Nat) : Nat := if (bs.getD 8 0).getLsbD i = true then 1 else 0

/-- The number two bytes of a REPORT spell, high byte first. -/
def twoBytes (bs : List Byte) (i : Nat) : Nat := (bs.getD i 0).toNat * 256 + (bs.getD (i + 1) 0).toNat

theorem fieldAt_toNat (bs : List Byte) (i : Nat) : (fieldAt bs i).toNat = twoBytes bs i := halfOf_toNat _ _

theorem countP_take_markersOf (bs : List Byte) : ((markersOf bs).take 0).countP id = 0 ∧
    ((markersOf bs).take 1).countP id = markerCount bs 0 ∧
    ((markersOf bs).take 2).countP id = markerCount bs 0 + markerCount bs 1 ∧
    (markersOf bs).countP id = markerCount bs 0 + markerCount bs 1 + markerCount bs 2 := by
  simp [markersOf, List.countP_cons, markerCount]
  omega

theorem completeReport_iff (bs : List Byte) : completeReport bs = true ↔ 9 ≤ bs.length ∧
    bs.length = 11 + 2 * (markerCount bs 0 + markerCount bs 1 + markerCount bs 2) := by
  rw [completeReport, reportLength, (countP_take_markersOf bs).2.2.2]
  simp

/-- An optional field stands where its marker is set, behind the fields of the markers set before it (R183). -/
theorem optionalField_eq (bs : List Byte) {i n : Nat} (h : i < 3) (before : ((markersOf bs).take i).countP id = n) :
    optionalField bs i = if (bs.getD 8 0).getLsbD i = true then some (twoBytes bs (9 + 2 * n)) else none := by
  have marker : (markersOf bs).getD i false = (bs.getD 8 0).getLsbD i := by
    interval_cases i <;> rfl
  rw [optionalField, marker, before, fieldAt_toNat]

theorem optionalField_le {bs : List Byte} {i x : Nat} (h : optionalField bs i = some x) : x ≤ 65535 := by
  rw [optionalField] at h
  split at h
  · cases h
    exact Nat.le_of_lt_succ (BitVec.isLt _)
  · cases h

theorem status_ready_iff (bs : List Byte) : (reportOf bs).status = .ready ↔ bs.getD 7 0 = 0x01 := by
  simp only [reportOf]
  split <;> simp_all

end Sys2Proof.Machine
end

