-- ==== Sys2Proof/Proofs/Replies.lean ====
section
/-! PROOFS. The phases of a poll's reply, its outcomes, and what a good report writes (R21, R22, R153 to R155). -/

namespace Sys2Proof.Machine

variable (s : State)

/-! ### Events outside their phase (log 1) -/

/-- Without a poll in progress no event of a reply does anything. -/
theorem reply_events_of_no_poll (h : ∀ a items ph, s.bus.frame ≠ .poll a items ph) (span : Nat)
    (chars : List (BitVec 11)) :
    exec .replyStart s = .next s ∧ exec .replyWindowExpiry s = .next s ∧ exec .pollEndOnQuiet s = .next s ∧
      exec (.rateCheckFailed span) s = .next s ∧ exec .replyParityError s = .next s ∧ exec .replyGap s = .next s ∧
      exec (.report chars) s = .next s := by
  cases frame : s.bus.frame with
  | poll a items ph => exact absurd frame (h a items ph)
  | idle | block =>
    simp [exec, execReplyStart, execReplyWindowExpiry, execPollEndOnQuiet, execRateCheckFailed, execReplyParityError,
      execReplyGap, execReport, frame]

variable {a : Address} {items : ItemSet} {ph : PollPhase} (frame : s.bus.frame = .poll a items ph)

section
include frame

/-- A reply begins, or does not begin, only inside its window (R153). -/
theorem window_events_of_not_awaiting (h : ph ≠ .awaiting) :
    exec .replyStart s = .next s ∧ exec .replyWindowExpiry s = .next s := by
  cases ph <;> simp_all [exec, execReplyStart, execReplyWindowExpiry]

theorem pollEndOnQuiet_of_not_failed (h : ∀ o, ph ≠ .failed o) : exec .pollEndOnQuiet s = .next s := by
  cases ph <;> simp_all [exec, execPollEndOnQuiet]

/-- Characters are judged only while a reply is received (R154, R155). -/
theorem reception_events_of_not_receiving (h : ph ≠ .receiving) (span : Nat) (chars : List (BitVec 11)) :
    exec (.rateCheckFailed span) s = .next s ∧ exec .replyParityError s = .next s ∧ exec .replyGap s = .next s ∧
      exec (.report chars) s = .next s := by
  cases ph <;> simp_all [exec, execRateCheckFailed, execReplyParityError, execReplyGap, execReport]

end

/-! ### The end of a poll (R22, R149, R155) -/

/-- The frame of `s` ends with what `u` has beside the bus: idle, or DISABLED out of DRAINING (R149). -/
theorem endFrame_of_bus {u : State} (h : u.bus = s.bus) : u.endFrame = if s.bus.state = .draining then
      { u with bus := s.bus.disabled, roster := u.roster.filter fun r => r.lifecycle ≠ .leaving }
    else { u with bus := { s.bus with frame := .idle } } := by
  rw [State.endFrame, enterDisabled_eq, h]

/-- A failed poll is recorded in the record the poll was begun for (R22, R155). -/
theorem endPoll_eq (o : PollOutcome) : s.endPoll a o = ({ s with roster := s.roster.map fun r =>
    if r.address = a ∧ r.polled = true then { r with lastPoll := some o } else r } : State).endFrame := by
  rw [State.endPoll, State.failedPoll, changePolled_eq]

/-! ### The rate check (R154) -/

/-- The spans the rate check accepts at each rate: five bit times, 5 % to either side (R154). -/
theorem accepts_iff (r : BusRate) (span : Nat) : r.accepts span = true ↔ (match r with
    | .r250k => 190 ≤ span ∧ span ≤ 210
    | .r500k => 95 ≤ span ∧ span ≤ 105
    | .r1000k => 48 ≤ span ∧ span ≤ 52) := by
  rw [BusRate.accepts, decide_eq_true_iff]
  cases r <;> simp only [BusRate.bitTime] <;> omega

/-! ### A complete reply (R155) -/

theorem report_of_incomplete {bytes : List Byte} (h : completeReport bytes = false) :
    exec (.report (bytes.map busCharacter)) s = .next s := by
  simp only [exec, execReport, replyBytes_characters, Option.filter_some, h]
  split <;> simp_all

theorem report_of_spoiled {chars : List (BitVec 11)} (h : ∃ c ∈ chars, spoiled c) : exec (.report chars) s = .next s := by
  obtain ⟨c, mem, bad⟩ := h
  simp only [exec, execReport, replyBytes_none mem ((spoiled_iff c).1 bad), Option.filter_none]
  split <;> simp_all

theorem report_of_complete {bytes : List Byte} (receiving : s.bus.frame = .poll a items .receiving)
    (h : completeReport bytes = true) : exec (.report (bytes.map busCharacter)) s = .next (s.takeReply a bytes) := by
  simp only [exec, execReport, replyBytes_characters, Option.filter_some, h, receiving, if_true]

theorem takeReply_check {bytes : List Byte} (h : bytes.getD 0 0 ≠ 0xF0 ∨ checkMatches bytes = false) :
    s.takeReply a bytes = s.endPoll a .check := by
  have outcome : replyOutcome a bytes = .check := if_pos h
  simp only [State.takeReply, outcome]

section
variable {bytes : List Byte} (lead : bytes.getD 0 0 = 0xF0) (check : checkMatches bytes = true)
include lead check

/-- With a good lead and check the address decides (R155). -/
theorem replyOutcome_of_checked : replyOutcome a bytes =
    if (reportOf bytes).address ≠ a.zeroExtend 16 then .noReply else .good := by
  have passed : ¬(bytes.getD 0 0 ≠ timingCharacter ∨ checkMatches bytes = false) := by
    rw [not_or, check]
    exact ⟨not_not.2 lead, nofun⟩
  rw [replyOutcome, if_neg passed]

theorem takeReply_noReply (h : (reportOf bytes).address ≠ a.zeroExtend 16) : s.takeReply a bytes = s.endPoll a .noReply := by
  simp only [State.takeReply, replyOutcome_of_checked lead check, if_pos h]

theorem takeReply_good (h : (reportOf bytes).address = a.zeroExtend 16) :
    s.takeReply a bytes = (s.goodReport a (reportOf bytes)).endFrame := by
  simp only [State.takeReply, replyOutcome_of_checked lead check, if_neg (not_not.2 h)]

end

/-! ### A good report (R21) -/

theorem polledAt_eq (rs : List Site) : polledAt rs a = rs.find? fun r => r.address = a ∧ r.polled = true := by
  rw [polledAt]
  congr 1
  funext r
  simp [beq_eq_decide]

variable {s}

theorem goodReport_deleted (h : polledAt s.roster a = none) (q : Report) : s.goodReport a q = s := by
  simp [State.goodReport, h]

section
variable {r : Site} (found : polledAt s.roster a = some r) {q : Report}
include found

/-- From READY to OFFLINE a good report asks for an evaluation (R21). -/
theorem goodReport_to_offline (ready : r.status = some .ready) (offline : q.status = .offline) : s.goodReport a q =
    ({ s with roster := changePolled a (Site.takeReport s.now q) s.roster } : State).requestEval := by
  simp [State.goodReport, found, ready, offline]

theorem goodReport_plain (h : ¬(r.status = some .ready ∧ q.status = .offline)) : s.goodReport a q =
    { s with roster := changePolled a (Site.takeReport s.now q) s.roster } := by
  simp [State.goodReport, found, h]

end

end Sys2Proof.Machine
end

