-- ==== Sys2Proof/Proofs/ReplyObligations.lean ====
section
/-! PROOFS. The statement about the reply to a poll. -/

namespace Sys2Proof.Proofs

open Sys2Proof.Machine Sys2Proof.Safety

/-- Settles O53: the layout field by field, the characters bit by bit, the events by the phase of the poll. -/
theorem replies : Obligations.Replies := by
  unfold Obligations.Replies
  intro bad
  refine ⟨fun bs => ?layout, fun c => ⟨fun good => ⟨_, busCharacter_of_not_spoiled good⟩, ?_⟩, levelsOf_busCharacter,
    reply_events_of_no_poll, fun a items ph s frame => ?phases⟩
  case layout =>
    intro two on one q
    have before := countP_take_markersOf bs
    refine ⟨completeReport_iff bs, fieldAt_toNat bs 1, fieldAt_toNat bs 3, halfOf_toInt _ _, status_ready_iff bs,
      optionalField_eq bs (n := 0) (by decide) before.1, optionalField_eq bs (by decide) before.2.1,
      optionalField_eq bs (by decide) before.2.2.1, fun hi lo => checkMatches_bytes bs hi lo⟩
  · rintro ⟨b, rfl⟩
    exact not_spoiled_busCharacter b
  case phases =>
    intro at' ended ends record?
    have end_of {u : State} (bus : u.bus = s.bus) : u.endFrame = ended u := endFrame_of_bus s bus
    have poll_end (o : PollOutcome) : s.endPoll a o = ends o := (endPoll_eq s o).trans (end_of rfl)
    refine ⟨fun h => ?_, window_events_of_not_awaiting s frame, fun o h => ?_, pollEndOnQuiet_of_not_failed s frame,
      fun h span chars => reception_events_of_not_receiving s frame h span chars, fun h => ?receiving⟩
    · subst h
      refine ⟨by simp [exec, execReplyStart, frame, State.setPhase, at'], ?_⟩
      simp only [exec, execReplyWindowExpiry, frame, poll_end]
    · subst h
      simp only [exec, execPollEndOnQuiet, frame, poll_end]
    case receiving =>
      subst h
      refine ⟨?_, fun chars h => report_of_spoiled s h, ?_, fun span outside => ?_, fun span inside => ?_, fun bytes => ?report⟩
      · simp only [exec, execReplyParityError, frame, State.setPhase, at']
      · simp only [exec, execReplyGap, frame, poll_end]
      · have rejected : s.bus.config.rate.accepts span = false := by
          rw [← Bool.not_eq_true, accepts_iff]
          cases rate : s.bus.config.rate <;> simp only [rate] at outside ⊢ <;> omega
        simp [exec, execRateCheckFailed, frame, State.setPhase, at', rejected]
      · have accepted : s.bus.config.rate.accepts span = true := by
          rw [accepts_iff]
          cases rate : s.bus.config.rate <;> simp only [rate] at inside ⊢ <;> omega
        simp [exec, execRateCheckFailed, frame, accepted]
      case report =>
        intro i
        refine ⟨report_of_incomplete s, fun complete => ?_⟩
        have taken := report_of_complete s frame complete
        refine ⟨fun h => ?_, fun lead check h => ?_, fun lead check h => ?_⟩
        · rw [taken, takeReply_check s h, poll_end]
        · rw [taken, takeReply_noReply s lead check h, poll_end]
        · intro q written
          have report : changePolled a (Site.takeReport s.now q) s.roster = written.roster := changePolled_eq ..
          have found : polledAt s.roster a = record? := polledAt_eq s.roster
          rw [takeReply_good s lead check h] at taken
          have ended_as {u v : State} (good : s.goodReport a q = u) (bus : u.bus = s.bus) (same : u = v) :
              exec i s = .next (ended v) :=
            taken.trans (congrArg _ ((congrArg State.endFrame good).trans ((end_of bus).trans (congrArg ended same))))
          refine ⟨fun deleted => ended_as (goodReport_deleted (found.trans deleted) q) rfl rfl,
            fun ⟨r, stands, ready⟩ offline => ?_, fun other => ?_⟩
          · refine ended_as (goodReport_to_offline (found.trans stands) ready offline) rfl ?_
            rw [report]
            rfl
          · cases stands : polledAt s.roster a with
            | none =>
              refine ended_as (goodReport_deleted stands q) rfl ?_
              have same : written.roster = s.roster := report.symm.trans (changePolled_of_deleted stands _)
              show s = { s with roster := written.roster }
              rw [same]
            | some r =>
              have plain : ¬(r.status = some .ready ∧ q.status = .offline) := fun ⟨ready, offline⟩ =>
                other.elim (fun never => never r (found.symm.trans stands) ready) fun q_ready => by simp [offline] at q_ready
              refine ended_as (goodReport_plain stands plain) rfl ?_
              rw [report]

end Sys2Proof.Proofs
end

