-- ==== Sys2Proof/Proofs/GroupDivision.lean ====
section
/-! PROOFS. The division of a group (R134): every step of 10 W is handed out, to sites with a fractional part, so that the
group gets its target and no site more than its weight; and a site is passed over only at its branch's limit. -/

namespace Sys2Proof.Machine

/-! ### Shares and their sums -/

theorem Share.branch_lt (e : Share) : e.branch < 16 := by
  have := e.address.isLt
  unfold Share.branch branchOf
  omega

/-- The sums over the branches add up to the sum over the group. -/
theorem sum_over_branches (f : Share → Nat) (g : List Share) :
    ((List.range 16).map fun b => ((sharesIn g b).map f).sum).sum = (g.map f).sum := by
  induction g with
  | nil => simp [sharesIn]
  | cons e es ih =>
    have head (b : Nat) : ((sharesIn (e :: es) b).map f).sum =
        (if e.branch = b then f e else 0) + ((sharesIn es b).map f).sum := by
      by_cases h : e.branch = b <;> simp [sharesIn, h]
    have once : ((List.range 16).map fun b => if e.branch = b then f e else 0).sum = f e := by
      have := Finset.sum_ite_eq (Finset.range 16) e.branch fun _ => f e
      rw [if_pos (Finset.mem_range.2 e.branch_lt)] at this
      exact this
    simp only [head, List.sum_map_add, once, ih, List.map_cons, List.sum_cons]

/-- A share of distinct ones counts 10 W for each one of `given` among them. -/
theorem sum_steps {g given : List Share} (distinct : g.Nodup) (once : given.Nodup) (sub : given ⊆ g) :
    (g.map fun e => if given.contains e then 10 else 0).sum = 10 * given.length := by
  have found : (g.filter given.contains).Perm given := by
    refine (List.perm_ext_iff_of_nodup (distinct.filter _) once).2 fun e => ?_
    simpa using @sub e
  have count : (g.map fun e => if given.contains e then 10 else 0).sum = 10 * (g.filter given.contains).length := by
    clear distinct sub found
    induction g with
    | nil => rfl
    | cons e es ih =>
      rw [List.map_cons, List.sum_cons, ih, List.filter_cons]
      split <;> simp
      omega
  rw [count, found.length_eq]

/-! ### The exact share of a site (R134) -/

section
variable (gt wg : Nat) (e : Share)

/-- The exact share is its base and its fractional part, over the group's weight. -/
theorem Share.exact_eq : gt * e.weight = wg * e.base gt wg + e.fraction gt wg := by
  have := Nat.div_add_mod (gt * e.weight) (wg * 10)
  rw [Share.base, Share.fraction, ← Nat.mul_assoc, this]

theorem Share.base_mod_ten : e.base gt wg % 10 = 0 := Nat.mul_mod_right _ _

theorem Share.fraction_lt {wg : Nat} (h : 0 < wg) : e.fraction gt wg < wg * 10 := Nat.mod_lt _ (by omega)

end

theorem sum_base_mod_ten (gt wg : Nat) (g : List Share) : (g.map (Share.base gt wg)).sum % 10 = 0 := by
  induction g with
  | nil => rfl
  | cons e es ih =>
    have := e.base_mod_ten gt wg
    rw [List.map_cons, List.sum_cons]
    omega

/-- The exact shares of some sites: their bases and their fractional parts. -/
theorem sum_exact (gt wg : Nat) (g : List Share) : gt * weightSum g =
    wg * (g.map (Share.base gt wg)).sum + (g.map (Share.fraction gt wg)).sum := by
  rw [weightSum, ← List.sum_map_mul_left, ← List.sum_map_mul_left, ← List.sum_map_add]
  exact congrArg List.sum (List.map_congr_left fun e _ => e.exact_eq gt wg)

/-! ### Handing out the steps (R134) -/

section
variable (lim : Nat → Option Nat) (bases : Nat → Nat)

/-- With `given` handed out, a step for `e` would carry its branch above its limit. -/
def Blocked (given : List Share) (e : Share) : Prop :=
  ∃ l, lim e.branch = some l ∧ l < bases e.branch + 10 * ((sharesIn given e.branch).length + 1)

theorem blocked_iff (given : List Share) (e : Share) : Blocked lim bases given e ↔
    ((lim e.branch).any fun l => l < bases e.branch + 10 * ((sharesIn given e.branch).length + 1)) = true := by
  simp [Blocked, Option.any_eq_true]

theorem Blocked.mono {lim : Nat → Option Nat} {bases : Nat → Nat} {given more : List Share} {e : Share}
    (h : Blocked lim bases given e) (sub : given.Sublist more) : Blocked lim bases more e := by
  obtain ⟨l, limit, above⟩ := h
  have := (sub.filter fun x => x.branch == e.branch).length_le
  exact ⟨l, limit, by unfold sharesIn at above ⊢; omega⟩

theorem handOut_cons_blocked {given : List Share} {e : Share} (h : Blocked lim bases given e) (es : List Share) (n : Nat) :
    handOut lim bases (e :: es) (n + 1) given = handOut lim bases es (n + 1) given := by
  rw [handOut, if_pos ((blocked_iff ..).1 h)]

theorem handOut_cons_free {given : List Share} {e : Share} (h : ¬Blocked lim bases given e) (es : List Share) (n : Nat) :
    handOut lim bases (e :: es) (n + 1) given = handOut lim bases es n (e :: given) := by
  rw [handOut, if_neg fun above => h ((blocked_iff ..).2 above)]

/-- The shares that get a step: those that had one, and some of those in line, each once; no more than there are steps. -/
theorem handOut_bounds (es : List Share) (n : Nat) (given : List Share) :
    (handOut lim bases es n given).Sublist (es.reverse ++ given) ∧ given.Sublist (handOut lim bases es n given) ∧
      (handOut lim bases es n given).length ≤ n + given.length := by
  induction es generalizing n given with
  | nil => simp [handOut]
  | cons e es ih =>
    cases n with
    | zero => simp [handOut]
    | succ n =>
      by_cases h : Blocked lim bases given e
      · rw [handOut_cons_blocked lim bases h]
        obtain ⟨sub, keeps, short⟩ := ih (n + 1) given
        refine ⟨sub.trans ?_, keeps, short⟩
        simp
      · rw [handOut_cons_free lim bases h]
        obtain ⟨sub, keeps, short⟩ := ih n (e :: given)
        refine ⟨by simpa using sub, (List.sublist_cons_self e given).trans keeps, ?_⟩
        rw [List.length_cons] at short
        omega

/-- Why a share in line got no step: the ones before it had its branch at its limit, or they took all the steps. -/
theorem handOut_passes {R : Share → Share → Prop} (es : List Share) (n : Nat) (given : List Share)
    (order : es.Pairwise R) (before : ∀ x ∈ given, ∀ y ∈ es, R x y) (y : Share) (inLine : y ∈ es) :
    y ∈ handOut lim bases es n given ∨
      (∃ part, part.Sublist (handOut lim bases es n given) ∧ (∀ x ∈ part, R x y) ∧ Blocked lim bases part y) ∨
      ((handOut lim bases es n given).length = n + given.length ∧ ∀ x ∈ handOut lim bases es n given, R x y) := by
  induction es generalizing n given with
  | nil => cases inLine
  | cons e es ih =>
    cases n with
    | zero => exact .inr (.inr ⟨by simp [handOut], fun x hx => before x (by simpa [handOut] using hx) y inLine⟩)
    | succ n =>
      obtain ⟨first, rest⟩ := List.pairwise_cons.1 order
      by_cases h : Blocked lim bases given e
      · rw [handOut_cons_blocked lim bases h]
        rcases List.mem_cons.1 inLine with rfl | later
        · exact .inr (.inl ⟨given, (handOut_bounds lim bases es (n + 1) given).2.1, fun x hx => before x hx y inLine, h⟩)
        · exact ih (n + 1) given rest (fun x hx z hz => before x hx z (List.mem_cons_of_mem e hz)) later
      · rw [handOut_cons_free lim bases h]
        rcases List.mem_cons.1 inLine with rfl | later
        · exact .inl ((handOut_bounds lim bases es n (y :: given)).2.1.subset List.mem_cons_self)
        · have before' : ∀ x ∈ e :: given, ∀ z ∈ es, R x z := fun x hx z hz =>
            (List.mem_cons.1 hx).elim (fun is_e => is_e ▸ first z hz) fun hx =>
              before x hx z (List.mem_cons_of_mem e hz)
          have := ih n (e :: given) rest before' later
          rwa [List.length_cons, ← Nat.add_assoc, Nat.add_right_comm] at this

end

/-! ### The steps of a group (R134) -/

/-- The sum of the bases of a group's sites in a branch. -/
def branchBase (g : List Share) (gt b : Nat) : Nat := ((sharesIn g b).map (Share.base gt (weightSum g))).sum

/-- The 10 W steps that the bases leave of a group's target. -/
def leftoverSteps (g : List Share) (gt : Nat) : Nat := (gt - (g.map (Share.base gt (weightSum g))).sum) / 10

/-- A group of distinct sites with a weight and a target in steps of 10 W, none of whose limited branches has an exact share
above its limit. -/
structure Divisible (lim : Nat → Option Nat) (g : List Share) (gt : Nat) : Prop where
  distinct : g.Nodup
  weighted : 0 < weightSum g
  tens : gt % 10 = 0
  limits : ∀ b l, lim b = some l → l % 10 = 0 ∧ gt * weightSum (sharesIn g b) ≤ l * weightSum g

section
variable (lim : Nat → Option Nat) (g : List Share) (gt : Nat)

/-- The shares of a group in the order in which steps are handed out. -/
def stepOrder : List Share := g.insertionSort (stepsBefore gt (weightSum g))

theorem stepsOf_eq : stepsOf lim g gt = handOut lim (branchBase g gt) (stepOrder g gt) (leftoverSteps g gt) [] := rfl

theorem mem_stepOrder (e : Share) : e ∈ stepOrder g gt ↔ e ∈ g := (List.perm_insertionSort _ g).mem_iff

theorem stepOrder_pairwise : (stepOrder g gt).Pairwise (stepsBefore gt (weightSum g)) := by
  have total : Std.Total (stepsBefore gt (weightSum g)) := ⟨fun x y => by
    rcases lt_trichotomy (x.fraction gt (weightSum g)) (y.fraction gt (weightSum g)) with h | h | h
    · exact .inr (.inl h)
    · exact (BitVec.le_total x.address y.address).imp (fun a => .inr ⟨h, a⟩) fun a => .inr ⟨h.symm, a⟩
    · exact .inl (.inl h)⟩
  have trans : IsTrans Share (stepsBefore gt (weightSum g)) := ⟨fun x y z hxy hyz => by
    simp only [stepsBefore] at *
    rcases hxy with hxy | ⟨hxy, axy⟩ <;> rcases hyz with hyz | ⟨hyz, ayz⟩
    · omega
    · omega
    · omega
    · exact .inr ⟨hxy.trans hyz, BitVec.le_trans axy ayz⟩⟩
  exact List.pairwise_insertionSort _ g

theorem stepsOf_nodup (h : g.Nodup) : (stepsOf lim g gt).Nodup := by
  have order : (stepOrder g gt).Nodup := ((List.perm_insertionSort _ g).nodup_iff).2 h
  have sub := (handOut_bounds lim (branchBase g gt) (stepOrder g gt) (leftoverSteps g gt) []).1
  rw [List.append_nil] at sub
  exact (List.nodup_reverse.2 order).sublist sub

theorem stepsOf_subset : stepsOf lim g gt ⊆ g := fun e he => by
  have sub := (handOut_bounds lim (branchBase g gt) (stepOrder g gt) (leftoverSteps g gt) []).1
  rw [List.append_nil] at sub
  exact (mem_stepOrder g gt e).1 (List.mem_reverse.1 (sub.subset he))

theorem stepsOf_length_le : (stepsOf lim g gt).length ≤ leftoverSteps g gt :=
  (handOut_bounds lim (branchBase g gt) (stepOrder g gt) (leftoverSteps g gt) []).2.2

/-- Why a site of the group got no step: the ones before it had its branch at its limit, or they took all the steps. -/
theorem stepsOf_passes {y : Share} (hy : y ∈ g) : y ∈ stepsOf lim g gt ∨
    (∃ part, part.Sublist (stepsOf lim g gt) ∧ (∀ x ∈ part, stepsBefore gt (weightSum g) x y) ∧
      Blocked lim (branchBase g gt) part y) ∨
    ((stepsOf lim g gt).length = leftoverSteps g gt ∧ ∀ x ∈ stepsOf lim g gt, stepsBefore gt (weightSum g) x y) :=
  handOut_passes lim (branchBase g gt) (stepOrder g gt) (leftoverSteps g gt) [] (stepOrder_pairwise g gt)
    (fun _ hx => absurd hx List.not_mem_nil) y ((mem_stepOrder g gt y).2 hy)

end

section
variable {lim : Nat → Option Nat} {g : List Share} {gt : Nat}

/-- A branch whose sites with a fractional part all have a step has its exact share covered. -/
theorem exact_le_of_all_given (distinct : g.Nodup) (weighted : 0 < weightSum g) {given : List Share} (b : Nat)
    (all : ∀ y ∈ sharesIn g b, 0 < y.fraction gt (weightSum g) → y ∈ given) :
    gt * weightSum (sharesIn g b) ≤ weightSum g * (branchBase g gt b + 10 * (sharesIn given b).length) := by
  have fractions : ((sharesIn g b).map (Share.fraction gt (weightSum g))).sum ≤
      weightSum g * 10 * (sharesIn given b).length := by
    have positive : ((sharesIn g b).map (Share.fraction gt (weightSum g))).sum ≤
        weightSum g * 10 * ((sharesIn g b).filter fun y => 0 < y.fraction gt (weightSum g)).length := by
      clear all distinct
      induction sharesIn g b with
      | nil => simp
      | cons e es ih =>
        have := e.fraction_lt gt weighted
        rw [List.map_cons, List.sum_cons, List.filter_cons]
        by_cases pos : 0 < e.fraction gt (weightSum g)
        · simp only [pos, decide_true, if_true, List.length_cons, Nat.mul_add]
          omega
        · simp only [pos, decide_false, if_false, Bool.false_eq_true]
          omega
    have among : ((sharesIn g b).filter fun y => 0 < y.fraction gt (weightSum g)) ⊆ sharesIn given b := fun y hy => by
      obtain ⟨inBranch, pos⟩ := List.mem_filter.1 hy
      exact List.mem_filter.2 ⟨all y inBranch (of_decide_eq_true pos), (List.mem_filter.1 inBranch).2⟩
    have short := (List.subperm_of_subset ((distinct.filter _).filter _) among).length_le
    exact positive.trans (Nat.mul_le_mul_left _ short)
  rw [sum_exact gt (weightSum g), branchBase, Nat.mul_add, ← Nat.mul_assoc]
  exact Nat.add_le_add_left fractions _

/-- A branch that is at its limit has its exact share covered. -/
theorem exact_le_of_blocked (h : Divisible lim g gt) {given : List Share} {y : Share}
    (blocked : Blocked lim (branchBase g gt) given y) : gt * weightSum (sharesIn g y.branch) ≤
      weightSum g * (branchBase g gt y.branch + 10 * (sharesIn given y.branch).length) := by
  obtain ⟨l, limit, above⟩ := blocked
  obtain ⟨tens, exact_le⟩ := h.limits y.branch l limit
  have base_tens : branchBase g gt y.branch % 10 = 0 := sum_base_mod_ten _ _ _
  have covered : l ≤ branchBase g gt y.branch + 10 * (sharesIn given y.branch).length := by omega
  calc gt * weightSum (sharesIn g y.branch) ≤ l * weightSum g := exact_le
    _ = weightSum g * l := Nat.mul_comm _ _
    _ ≤ _ := Nat.mul_le_mul_left _ covered

/-- Where every site with a fractional part has a step or its branch at its limit, the steps cover what the bases leave. -/
theorem leftoverSteps_le (h : Divisible lim g gt) {given : List Share}
    (all : ∀ y ∈ g, 0 < y.fraction gt (weightSum g) → y ∈ given ∨ Blocked lim (branchBase g gt) given y) :
    leftoverSteps g gt ≤ given.length := by
  have branch (b : Nat) : gt * weightSum (sharesIn g b) ≤
      weightSum g * (branchBase g gt b + 10 * (sharesIn given b).length) := by
    by_cases free : ∀ y ∈ sharesIn g b, 0 < y.fraction gt (weightSum g) → y ∈ given
    · exact exact_le_of_all_given h.distinct h.weighted b free
    · push Not at free
      obtain ⟨y, hy, pos, out⟩ := free
      obtain ⟨inGroup, inBranch⟩ := List.mem_filter.1 hy
      obtain rfl := beq_iff_eq.1 inBranch
      exact exact_le_of_blocked h ((all y inGroup pos).resolve_left out)
  have total : gt * weightSum g ≤
      weightSum g * ((g.map (Share.base gt (weightSum g))).sum + 10 * given.length) := by
    have sums := List.sum_le_sum fun b (_ : b ∈ List.range 16) => branch b
    have steps : ((List.range 16).map fun b => (sharesIn given b).length).sum = given.length := by
      simpa using sum_over_branches (fun _ => 1) given
    have bases : ((List.range 16).map fun b => branchBase g gt b).sum = (g.map (Share.base gt (weightSum g))).sum :=
      sum_over_branches _ g
    have weights : ((List.range 16).map fun b => weightSum (sharesIn g b)).sum = weightSum g :=
      sum_over_branches Share.weight g
    rwa [List.sum_map_mul_left, List.sum_map_mul_left, List.sum_map_add, List.sum_map_mul_left, steps, bases,
      weights] at sums
  have := Nat.le_of_mul_le_mul_left (Nat.mul_comm gt _ ▸ total) h.weighted
  unfold leftoverSteps
  omega

/-- Every step of a group is handed out, and only sites with a fractional part get one (R134). -/
theorem stepsOf_complete (h : Divisible lim g gt) : (stepsOf lim g gt).length = leftoverSteps g gt ∧
    ∀ e ∈ stepsOf lim g gt, 0 < e.fraction gt (weightSum g) := by
  by_cases early : ∃ y, 0 < y.fraction gt (weightSum g) ∧ (stepsOf lim g gt).length = leftoverSteps g gt ∧
      ∀ x ∈ stepsOf lim g gt, stepsBefore gt (weightSum g) x y
  · obtain ⟨y, pos, length, before⟩ := early
    exact ⟨length, fun e he => by have := before e he; simp only [stepsBefore] at this; omega⟩
  · have short := stepsOf_length_le lim g gt
    have keeps := List.length_filter_le (fun e : Share => 0 < e.fraction gt (weightSum g)) (stepsOf lim g gt)
    have enough : leftoverSteps g gt ≤
        ((stepsOf lim g gt).filter fun e => 0 < e.fraction gt (weightSum g)).length := by
      refine leftoverSteps_le h fun y hy pos => ?_
      rcases stepsOf_passes lim g gt hy with given | ⟨part, sub, before, blocked⟩ | taken
      · exact .inl (List.mem_filter.2 ⟨given, decide_eq_true pos⟩)
      · refine .inr (blocked.mono ?_)
        have all : part.filter (fun e => 0 < e.fraction gt (weightSum g)) = part :=
          List.filter_eq_self.2 fun x hx => by
            have := before x hx
            simp only [stepsBefore] at this
            exact decide_eq_true (by omega)
        exact all ▸ sub.filter _
      · exact absurd ⟨y, pos, taken⟩ early
    have whole : ((stepsOf lim g gt).filter fun e => 0 < e.fraction gt (weightSum g)).length =
        (stepsOf lim g gt).length := by omega
    exact ⟨by omega, fun e he => of_decide_eq_true (List.length_filter_eq_length_iff.1 whole e he)⟩

end

/-! ### The magnitudes of a group (R134) -/

/-- What the division of a group gives one of its shares. -/
def divideWatts (lim : Nat → Option Nat) (g : List Share) (gt : Nat) (e : Share) : Nat :=
  e.base gt (weightSum g) + if (stepsOf lim g gt).contains e then 10 else 0

theorem divideGroup_eq (lim : Nat → Option Nat) (g : List Share) (gt : Nat) :
    divideGroup lim g gt = g.map fun e => ⟨e.address, divideWatts lim g gt e⟩ := rfl

section
variable {lim : Nat → Option Nat} {g : List Share} {gt : Nat}

theorem divideWatts_mod_ten (e : Share) : divideWatts lim g gt e % 10 = 0 := by
  have := e.base_mod_ten gt (weightSum g)
  unfold divideWatts
  split <;> omega

theorem divideWatts_cases (e : Share) : divideWatts lim g gt e = e.base gt (weightSum g) ∨
    divideWatts lim g gt e = e.base gt (weightSum g) + 10 := by
  unfold divideWatts
  split <;> simp

theorem mem_stepsOf_iff (e : Share) : e ∈ stepsOf lim g gt ↔
    divideWatts lim g gt e = e.base gt (weightSum g) + 10 := by
  simp [divideWatts]

/-- The magnitudes in a branch: the bases, and 10 W for each step given there. -/
theorem sum_divideWatts_branch (distinct : g.Nodup) (b : Nat) : ((sharesIn g b).map (divideWatts lim g gt)).sum =
    branchBase g gt b + 10 * (sharesIn (stepsOf lim g gt) b).length := by
  have steps := sum_steps (distinct.filter fun e => e.branch == b)
    ((stepsOf_nodup lim g gt distinct).filter fun e => e.branch == b)
    fun e he => List.mem_filter.2 ((List.mem_filter.1 he).imp_left (@stepsOf_subset lim g gt e))
  unfold branchBase sharesIn
  rw [← steps, ← List.sum_map_add]
  refine congrArg List.sum (List.map_congr_left fun e he => ?_)
  simp [divideWatts, List.mem_filter.1 he]

/-- The magnitudes of a group add up to its target (R134). -/
theorem sum_divideWatts (h : Divisible lim g gt) : (g.map (divideWatts lim g gt)).sum = gt := by
  have steps := sum_steps h.distinct (stepsOf_nodup lim g gt h.distinct) (stepsOf_subset lim g gt)
  have exact_sum := sum_exact gt (weightSum g) g
  have base_le : (g.map (Share.base gt (weightSum g))).sum ≤ gt := by
    refine Nat.le_of_mul_le_mul_left ?_ h.weighted
    rw [Nat.mul_comm _ gt, exact_sum]
    exact Nat.le_add_right _ _
  have base_tens := sum_base_mod_ten gt (weightSum g) g
  have tens := h.tens
  have complete := (stepsOf_complete h).1
  unfold leftoverSteps at complete
  calc (g.map (divideWatts lim g gt)).sum
      = (g.map (Share.base gt (weightSum g))).sum + 10 * (stepsOf lim g gt).length := by
        rw [← steps, ← List.sum_map_add]
        rfl
    _ = gt := by omega

/-- No share gets more than its weight, where the group's target is no more than its weight (R134). -/
theorem divideWatts_le_weight (h : Divisible lim g gt) (fits : gt ≤ weightSum g) {e : Share} (tens : e.weight % 10 = 0) :
    divideWatts lim g gt e ≤ e.weight := by
  have exact_le : weightSum g * e.base gt (weightSum g) + e.fraction gt (weightSum g) ≤ weightSum g * e.weight :=
    e.exact_eq gt (weightSum g) ▸ Nat.mul_le_mul_right _ fits
  have base_tens := e.base_mod_ten gt (weightSum g)
  by_cases step : e ∈ stepsOf lim g gt
  · have fraction := (stepsOf_complete h).2 e step
    have below : e.base gt (weightSum g) < e.weight :=
      Nat.lt_of_mul_lt_mul_left (a := weightSum g) (by omega)
    rw [(mem_stepsOf_iff e).1 step]
    omega
  · rw [(divideWatts_cases e).resolve_right fun given => step ((mem_stepsOf_iff e).2 given)]
    exact Nat.le_of_mul_le_mul_left (by omega) h.weighted

/-- A share is passed over by a later one only where its own step would carry its branch above its limit (R134). -/
theorem passed_over (distinct : g.Nodup) {x y : Share} (hy : y ∈ g)
    (given : divideWatts lim g gt x = x.base gt (weightSum g) + 10)
    (without : divideWatts lim g gt y = y.base gt (weightSum g)) (order : ¬stepsBefore gt (weightSum g) x y) :
    ∃ l, lim y.branch = some l ∧ l < ((sharesIn g y.branch).map (divideWatts lim g gt)).sum + 10 := by
  rcases stepsOf_passes lim g gt hy with step | ⟨part, sub, -, blocked⟩ | ⟨-, before⟩
  · have := (mem_stepsOf_iff y).1 step
    omega
  · obtain ⟨l, limit, above⟩ := blocked.mono sub
    refine ⟨l, limit, ?_⟩
    rw [sum_divideWatts_branch distinct]
    omega
  · exact absurd (before x ((mem_stepsOf_iff x).2 given)) order

end

end Sys2Proof.Machine
end

