-- ==== Sys2Proof/Proofs/SaturationRounds.lean ====
section
/-! PROOFS. The saturation rounds (R132): what every round keeps, that the rounds come to an end, and what then holds. -/

namespace Sys2Proof.Machine

/-! ### Sums over some branches -/

theorem sum_filter_eq (p : Nat → Bool) (f : Nat → Nat) (bs : List Nat) :
    ((bs.filter p).map f).sum = (bs.map fun b => if p b then f b else 0).sum := by
  induction bs with
  | nil => rfl
  | cons b bs ih =>
    rw [List.filter_cons, List.map_cons, List.sum_cons, ← ih]
    split <;> simp

/-- Distinct branches, picked out of all branches in order, are those branches. -/
theorem filter_range_perm {bs : List Nat} (distinct : bs.Nodup) (range : ∀ b ∈ bs, b < 16) :
    ((List.range 16).filter bs.contains).Perm bs := by
  refine (List.perm_ext_iff_of_nodup (List.nodup_range.filter _) distinct).2 fun b => ?_
  simpa using range b

theorem sum_filter_add (p : Nat → Bool) (f : Nat → Nat) (bs : List Nat) :
    ((bs.filter p).map f).sum + ((bs.filter fun b => !p b).map f).sum = (bs.map f).sum := by
  rw [← List.sum_append, ← List.map_append]
  exact ((List.filter_append_perm p bs).map f).sum_eq

/-! ### Weights under their limits (R130) -/

section
variable (es : List Share) (lim : Nat → Option Nat)

theorem underLimit_le (l : Option Nat) (w : Nat) : underLimit l w ≤ w := by
  cases l <;> simp [underLimit]

theorem underLimit_zero (l : Option Nat) : underLimit l 0 = 0 := Nat.le_zero.1 (underLimit_le l 0)

theorem mem_weightedBranches (b : Nat) : b ∈ weightedBranches es ↔ b < 16 ∧ 0 < branchWeight es b := by
  simp [weightedBranches, Config.branchCount]

theorem weightedBranches_nodup : (weightedBranches es).Nodup := List.nodup_range.filter _

theorem branchWeight_pos_of_mem {e : Share} (mem : e ∈ es) (pos : 0 < e.weight) : 0 < branchWeight es e.branch := by
  have inBranch : e ∈ sharesIn es e.branch := List.mem_filter.2 ⟨mem, beq_self_eq_true _⟩
  exact pos.trans_le (List.le_sum_of_mem (List.mem_map_of_mem inBranch))

/-- A branch without weight adds nothing to the dispatch capacity (R130). -/
theorem dispatchCapacity_eq : dispatchCapacity es lim =
    ((weightedBranches es).map fun b => underLimit (lim b) (branchWeight es b)).sum := by
  rw [dispatchCapacity, weightedBranches, sum_filter_eq]
  refine congrArg List.sum (List.map_congr_left fun b _ => ?_)
  by_cases pos : 0 < branchWeight es b
  · simp [pos]
  · rw [Nat.eq_zero_of_not_pos pos, underLimit_zero]
    rfl

/-! ### What every round keeps (R132) -/

/-- The sum of the weights of some branches. -/
def weightOf (bs : List Nat) : Nat := (bs.map (branchWeight es)).sum

/-- The sum of the limits of some branches. -/
def limitOf (bs : List Nat) : Nat := (bs.map fun b => (lim b).getD 0).sum

/-- The sum of the weights of some branches, each under its limit. -/
def roomOf (bs : List Nat) : Nat := (bs.map fun b => underLimit (lim b) (branchWeight es b)).sum

theorem roomOf_le_weightOf (bs : List Nat) : roomOf es lim bs ≤ weightOf es bs :=
  List.sum_le_sum fun _ _ => underLimit_le _ _

/-- The branches that carry weight are active or saturated, the saturated ones hold their limits, the remainder fits under
the limits of the active ones, and a saturated branch's limit is under its share of that remainder. -/
structure RoundsLaw (target : Nat) (r : Rounds) : Prop where
  parts : (r.active ++ r.saturated).Perm (weightedBranches es)
  spent : r.remainder + limitOf lim r.saturated = target
  fits : r.remainder < roomOf es lim r.active
  cut : ∀ b ∈ r.saturated, ∃ l, lim b = some l ∧ l * weightOf es r.active < r.remainder * branchWeight es b

variable {es lim}

theorem RoundsLaw.fits_weight {target : Nat} {r : Rounds} (h : RoundsLaw es lim target r) :
    r.remainder < weightOf es r.active := h.fits.trans_le (roomOf_le_weightOf es lim r.active)

theorem roundsLaw_first {target : Nat} (h : target < dispatchCapacity es lim) :
    RoundsLaw es lim target ⟨weightedBranches es, target, []⟩ where
  parts := by rw [List.append_nil]
  spent := rfl
  fits := h.trans_eq (dispatchCapacity_eq es lim)
  cut := nofun

theorem saturates_iff (wa rm b : Nat) : saturates es lim wa rm b = true ↔
    ∃ l, lim b = some l ∧ l * wa < rm * branchWeight es b := by
  simp [saturates, Option.any_eq_true]

/-- A branch that saturates has its limit under its weight, where the remainder is no more than the active weight. -/
theorem underLimit_of_saturates {wa rm b : Nat} (h : saturates es lim wa rm b = true) (fits : rm ≤ wa) :
    underLimit (lim b) (branchWeight es b) = (lim b).getD 0 := by
  obtain ⟨l, limit, under⟩ := (saturates_iff ..).1 h
  have below : l < branchWeight es b := by
    refine Nat.lt_of_mul_lt_mul_right (a := wa) (under.trans_le ?_)
    rw [Nat.mul_comm (branchWeight es b)]
    exact Nat.mul_le_mul_right _ fits
  simp [underLimit, limit, below.le]

/-- The round that saturates the branches `out` of the active ones. -/
def nextRound (es : List Share) (lim : Nat → Option Nat) (r : Rounds) : Rounds :=
  let sat := saturates es lim (weightOf es r.active) r.remainder
  ⟨r.active.filter fun b => !sat b, r.remainder - limitOf lim (r.active.filter sat), r.saturated ++ r.active.filter sat⟩

theorem saturationRounds_succ (fuel : Nat) (r : Rounds) : saturationRounds es lim (fuel + 1) r =
    if (r.active.filter (saturates es lim (weightOf es r.active) r.remainder)).isEmpty then r
    else saturationRounds es lim fuel (nextRound es lim r) := rfl

/-- Taking branches below the average out of the remainder leaves no less for each unit of weight. -/
theorem ratio_grows {R W out wOut wNew l w : Nat} (split : wOut + wNew = W) (low : out * W ≤ R * wOut) (fits : out ≤ R)
    (some_left : 0 < wNew) (under : l * W < R * w) : l * wNew < (R - out) * w := by
  obtain ⟨rest, rfl⟩ := Nat.exists_eq_add_of_le fits
  rw [Nat.add_sub_cancel_left]
  subst split
  have grows : (out + rest) * wNew ≤ rest * (wOut + wNew) := by nlinarith
  refine Nat.lt_of_mul_lt_mul_right (a := wOut + wNew) ?_
  calc l * wNew * (wOut + wNew) = l * (wOut + wNew) * wNew := by ring
    _ < (out + rest) * w * wNew := Nat.mul_lt_mul_of_pos_right under some_left
    _ = (out + rest) * wNew * w := by ring
    _ ≤ rest * (wOut + wNew) * w := Nat.mul_le_mul_right _ grows
    _ = rest * w * (wOut + wNew) := by ring

theorem RoundsLaw.next {target : Nat} {r : Rounds} (h : RoundsLaw es lim target r) :
    RoundsLaw es lim target (nextRound es lim r) := by
  have fits := h.fits_weight
  let sat := saturates es lim (weightOf es r.active) r.remainder
  let out := r.active.filter sat
  let stay := r.active.filter fun b => !sat b
  have weights : weightOf es out + weightOf es stay = weightOf es r.active := sum_filter_add sat _ _
  have rooms : roomOf es lim out + roomOf es lim stay = roomOf es lim r.active := sum_filter_add sat _ _
  have out_room : roomOf es lim out = limitOf lim out :=
    congrArg List.sum (List.map_congr_left fun b hb =>
      underLimit_of_saturates (List.mem_filter.1 hb).2 fits.le)
  have out_low : limitOf lim out * weightOf es r.active ≤ r.remainder * weightOf es out := by
    unfold limitOf weightOf
    rw [← List.sum_map_mul_right, ← List.sum_map_mul_left]
    refine List.sum_le_sum fun b hb => ?_
    obtain ⟨l, limit, under⟩ := (saturates_iff ..).1 (List.mem_filter.1 hb).2
    rw [limit]
    exact under.le
  have out_le : limitOf lim out ≤ r.remainder := by
    refine Nat.le_of_mul_le_mul_right (out_low.trans ?_) (Nat.zero_lt_of_lt fits)
    exact Nat.mul_le_mul_left _ (by omega)
  have stay_fits : r.remainder - limitOf lim out < roomOf es lim stay := by
    have := h.fits
    omega
  have stay_weight : 0 < weightOf es stay :=
    (Nat.zero_le _).trans_lt (stay_fits.trans_le (roomOf_le_weightOf es lim stay))
  refine ⟨?_, ?_, stay_fits, fun b hb => ?_⟩
  · have swap : (stay ++ (r.saturated ++ out)).Perm (out ++ stay ++ r.saturated) := by
      rw [← List.append_assoc, List.append_assoc out]
      exact List.perm_append_comm
    exact swap.trans (((List.filter_append_perm sat r.active).append_right r.saturated).trans h.parts)
  · have sums : limitOf lim (r.saturated ++ out) = limitOf lim r.saturated + limitOf lim out := by
      simp [limitOf]
    have := h.spent
    change r.remainder - limitOf lim out + limitOf lim (r.saturated ++ out) = target
    omega
  · have under : ∃ l, lim b = some l ∧ l * weightOf es r.active < r.remainder * branchWeight es b :=
      (List.mem_append.1 hb).elim (h.cut b) fun hb => (saturates_iff ..).1 (List.mem_filter.1 hb).2
    obtain ⟨l, limit, under⟩ := under
    exact ⟨l, limit, ratio_grows weights out_low out_le stay_weight under⟩

/-! ### The end of the rounds (R132) -/

theorem saturationRounds_law {target : Nat} (fuel : Nat) {r : Rounds} (h : RoundsLaw es lim target r) :
    RoundsLaw es lim target (saturationRounds es lim fuel r) := by
  induction fuel generalizing r with
  | zero => exact h
  | succ fuel ih =>
    rw [saturationRounds_succ]
    split
    · exact h
    · exact ih h.next

/-- Each round but the last takes an active branch away, so with more rounds than branches they end by themselves. -/
theorem saturationRounds_settled (fuel : Nat) (r : Rounds) (enough : r.active.length < fuel) :
    let q := saturationRounds es lim fuel r
    ∀ b ∈ q.active, saturates es lim (weightOf es q.active) q.remainder b = false := by
  induction fuel generalizing r with
  | zero => omega
  | succ fuel ih =>
    rw [saturationRounds_succ]
    split
    · next none =>
      intro q b hb
      have := List.filter_eq_nil_iff.1 (List.isEmpty_iff.1 none) b hb
      simpa using this
    · next some =>
      refine ih _ (Nat.lt_of_succ_le (Nat.le_of_lt_succ (Nat.lt_of_le_of_lt ?_ enough)))
      have pos : 0 < (r.active.filter (saturates es lim (weightOf es r.active) r.remainder)).length :=
        List.length_pos_iff.2 (by simpa using some)
      have split := (List.filter_append_perm (saturates es lim (weightOf es r.active) r.remainder) r.active).length_eq
      rw [List.length_append] at split
      simp only [nextRound]
      omega

/-- The rounds of a pass: all branches with weight to begin with, and the whole target. -/
def finalRounds (es : List Share) (lim : Nat → Option Nat) (target : Nat) : Rounds :=
  saturationRounds es lim (Config.branchCount + 1) ⟨weightedBranches es, target, []⟩

theorem finalRounds_law {target : Nat} (h : target < dispatchCapacity es lim) :
    RoundsLaw es lim target (finalRounds es lim target) := saturationRounds_law _ (roundsLaw_first h)

/-- At the end no active branch saturates: its limit is no less than its share of the remainder (R132). -/
theorem finalRounds_active {target b l : Nat} (active : b ∈ (finalRounds es lim target).active) (limit : lim b = some l) :
    (finalRounds es lim target).remainder * branchWeight es b ≤ l * weightOf es (finalRounds es lim target).active := by
  have few : (weightedBranches es).length < Config.branchCount + 1 :=
    Nat.lt_succ_of_le ((List.length_filter_le _ _).trans List.length_range.le)
  have settled := saturationRounds_settled (es := es) (lim := lim) (Config.branchCount + 1)
    ⟨weightedBranches es, target, []⟩ few b active
  exact Nat.le_of_not_lt fun under => Bool.false_ne_true (settled.symm.trans ((saturates_iff ..).2 ⟨l, limit, under⟩))

end

end Sys2Proof.Machine
end

