-- ==== Sys2Proof/Proofs/Allocation.lean ====
section
/-! PROOFS. The allocation of a target's magnitude (R130 to R132): what each share gets, that its group is divided by R134, and
which branches are saturated. -/

namespace Sys2Proof.Machine

/-! ### What the shares and the limits of a pass are like (R2, R26, R31) -/

/-- Shares of distinct addresses with weights in steps of 10 W, and limits in steps of 10 W. -/
structure PassLaw (es : List Share) (lim : Nat → Option Nat) : Prop where
  addresses : (es.map Share.address).Nodup
  weighted : ∀ e ∈ es, 0 < e.weight
  tens : ∀ e ∈ es, e.weight % 10 = 0
  limits : ∀ b l, lim b = some l → l % 10 = 0

section
variable {es : List Share} {lim : Nat → Option Nat} (law : PassLaw es lim)
include law

theorem PassLaw.distinct : es.Nodup := law.addresses.of_map

theorem PassLaw.eq_of_address {x y : Share} (hx : x ∈ es) (hy : y ∈ es) (h : x.address = y.address) : x = y :=
  List.inj_on_of_nodup_map law.addresses hx hy h

/-- A saturated branch can be divided as a group of its own. -/
theorem PassLaw.divisible_branch {b l : Nat} (limit : lim b = some l) (weight : 0 < branchWeight es b) :
    Divisible (fun _ => none) (sharesIn es b) l where
  distinct := law.distinct.filter _
  weighted := weight
  tens := law.limits b l limit
  limits := nofun

end

/-! ### The groups (R131, R132) -/

/-- The group of the branches that stay active. -/
def restShares (es : List Share) (r : Rounds) : List Share := es.filter fun e => r.active.contains e.branch

/-- Of the group that stays, a branch has all its shares if it is active and none otherwise. -/
theorem weightSum_restShares_branch (es : List Share) (r : Rounds) (b : Nat) :
    weightSum (sharesIn (restShares es r) b) = if r.active.contains b then branchWeight es b else 0 := by
  have all : sharesIn (restShares es r) b = (sharesIn es b).filter fun _ => r.active.contains b := by
    simp only [sharesIn, restShares, List.filter_filter]
    refine List.filter_congr fun e _ => ?_
    by_cases h : e.branch = b
    · rw [h, Bool.and_comm]
    · rw [beq_eq_false_iff_ne.2 h, Bool.false_and, Bool.and_false]
  rw [all]
  cases r.active.contains b
  · rw [List.filter_false, if_neg nofun]
    rfl
  · rw [List.filter_true, if_pos rfl]
    rfl

section
variable {es : List Share} {lim : Nat → Option Nat} {target : Nat} {r : Rounds} (law : RoundsLaw es lim target r)
include law

theorem RoundsLaw.active_nodup : r.active.Nodup :=
  (law.parts.nodup_iff.2 (weightedBranches_nodup es)).of_append_left

theorem RoundsLaw.saturated_nodup : r.saturated.Nodup :=
  (law.parts.nodup_iff.2 (weightedBranches_nodup es)).of_append_right

theorem RoundsLaw.active_or_saturated (b : Nat) :
    b < 16 ∧ 0 < branchWeight es b ↔ b ∈ r.active ∨ b ∈ r.saturated := by
  rw [← mem_weightedBranches, ← law.parts.mem_iff, List.mem_append]

theorem RoundsLaw.not_active_of_saturated {b : Nat} (h : b ∈ r.saturated) : b ∉ r.active := fun active =>
  List.disjoint_of_nodup_append (law.parts.nodup_iff.2 (weightedBranches_nodup es)) active h

theorem RoundsLaw.weightSum_restShares : weightSum (restShares es r) = weightOf es r.active := by
  have sums := sum_over_branches Share.weight (restShares es r)
  have parts : ∀ b, ((sharesIn (restShares es r) b).map Share.weight).sum =
      if r.active.contains b then branchWeight es b else 0 := weightSum_restShares_branch es r
  simp only [parts, ← sum_filter_eq] at sums
  have range : ∀ b ∈ r.active, b < 16 := fun b hb => ((law.active_or_saturated b).2 (.inl hb)).1
  exact sums.symm.trans ((filter_range_perm law.active_nodup range).map _).sum_eq

end

/-- The branches that are not saturated carry the weight of the active ones. -/
theorem weight_of_unsaturated {es : List Share} {lim : Nat → Option Nat} {target : Nat} {r : Rounds}
    (law : RoundsLaw es lim target r) :
    weightOf es ((List.range 16).filter fun b => !r.saturated.contains b) = weightOf es r.active := by
  have range : ∀ b ∈ r.active, b < 16 := fun b hb => ((law.active_or_saturated b).2 (.inl hb)).1
  have active : weightOf es ((List.range 16).filter r.active.contains) = weightOf es r.active :=
    ((filter_range_perm law.active_nodup range).map _).sum_eq
  rw [← active, weightOf, weightOf, sum_filter_eq, sum_filter_eq]
  refine congrArg List.sum (List.map_congr_left fun b hb => ?_)
  have parts := law.active_or_saturated b
  by_cases active : b ∈ r.active
  · have unsat : b ∉ r.saturated := fun sat => law.not_active_of_saturated sat active
    simp [active, unsat]
  · by_cases sat : b ∈ r.saturated
    · simp [active, sat]
    · have weightless : branchWeight es b = 0 := by
        have := List.mem_range.1 hb
        by_contra weighted
        exact (parts.1 ⟨this, Nat.pos_of_ne_zero weighted⟩).elim active sat
      simp [weightless]

/-- Below capacity the saturated branches are those whose limit is under their share of what the others are left (R132). -/
theorem saturated_iff_under {es : List Share} {lim : Nat → Option Nat} {target : Nat}
    (below : target < dispatchCapacity es lim) {b : Nat} (range : b < 16) :
    b ∈ (finalRounds es lim target).saturated ↔ ∃ l, lim b = some l ∧
      l * weightOf es (finalRounds es lim target).active <
        (finalRounds es lim target).remainder * branchWeight es b := by
  have rounds := finalRounds_law below
  refine ⟨rounds.cut b, fun ⟨l, limit, under⟩ => ?_⟩
  have weighted : 0 < branchWeight es b := Nat.pos_of_mul_pos_left (Nat.zero_lt_of_lt under)
  refine ((rounds.active_or_saturated b).1 ⟨range, weighted⟩).resolve_left fun active => ?_
  exact absurd under (Nat.not_lt.2 (finalRounds_active active limit))

/-- What the limits of the saturated branches leave of the target is the remainder. -/
theorem rest_of_saturated {es : List Share} {lim : Nat → Option Nat} {target : Nat} {r : Rounds}
    (law : RoundsLaw es lim target r) :
    target - limitOf lim ((List.range 16).filter r.saturated.contains) = r.remainder := by
  have range : ∀ b ∈ r.saturated, b < 16 := fun b hb => ((law.active_or_saturated b).2 (.inr hb)).1
  have limits : limitOf lim ((List.range 16).filter r.saturated.contains) = limitOf lim r.saturated :=
    ((filter_range_perm law.saturated_nodup range).map _).sum_eq
  have := law.spent
  omega

/-- The group that stays can be divided as one: every active branch's exact share is within its limit (R132). -/
theorem divisible_rest {es : List Share} {lim : Nat → Option Nat} {target : Nat} (law : PassLaw es lim)
    (tens : target % 10 = 0) (below : target < dispatchCapacity es lim) :
    Divisible lim (restShares es (finalRounds es lim target)) (finalRounds es lim target).remainder where
  distinct := law.distinct.filter _
  weighted := by
    rw [(finalRounds_law below).weightSum_restShares]
    exact (Nat.zero_le _).trans_lt (finalRounds_law below).fits_weight
  tens := by
    have rounds := finalRounds_law below
    have limits : limitOf lim (finalRounds es lim target).saturated % 10 = 0 := by
      refine Nat.mod_eq_zero_of_dvd (List.dvd_sum fun x hx => ?_)
      obtain ⟨b, hb, rfl⟩ := List.mem_map.1 hx
      obtain ⟨l, limit, -⟩ := rounds.cut b hb
      rw [limit]
      exact Nat.dvd_of_mod_eq_zero (law.limits b l limit)
    have := rounds.spent
    omega
  limits := fun b l limit => by
    have rounds := finalRounds_law below
    refine ⟨law.limits b l limit, ?_⟩
    rw [weightSum_restShares_branch, rounds.weightSum_restShares]
    split
    · next active => exact finalRounds_active (by simpa using active) limit
    · simp

/-! ### What each share gets (R131 to R135) -/

section
variable (es : List Share) (lim : Nat → Option Nat) (target : Nat)

/-- What the allocation of a target gives a share. -/
def allocatedWatts (e : Share) : Nat :=
  if dispatchCapacity es lim ≤ target then
    if cutBranch es lim e.branch then divideWatts (fun _ => none) (sharesIn es e.branch) ((lim e.branch).getD 0) e
    else e.weight
  else if (finalRounds es lim target).saturated.contains e.branch then
    divideWatts (fun _ => none) (sharesIn es e.branch) ((lim e.branch).getD 0) e
  else divideWatts lim (restShares es (finalRounds es lim target)) (finalRounds es lim target).remainder e

theorem cutBranch_iff (b : Nat) : cutBranch es lim b = true ↔ ∃ l, lim b = some l ∧ l < branchWeight es b := by
  simp [cutBranch, Option.any_eq_true]

/-- A branch's part at or above capacity, share by share (R131). -/
theorem fullBranch_eq (b : Nat) : fullBranch es lim b = (sharesIn es b).map fun e => ⟨e.address,
    if cutBranch es lim e.branch then divideWatts (fun _ => none) (sharesIn es e.branch) ((lim e.branch).getD 0) e
    else e.weight⟩ := by
  have at_b : ∀ e ∈ sharesIn es b, e.branch = b := fun e he => beq_iff_eq.1 (List.mem_filter.1 he).2
  unfold fullBranch
  split
  · next l limit =>
    split
    · next cut =>
      rw [divideGroup_eq]
      refine List.map_congr_left fun e he => ?_
      rw [at_b e he, if_pos ((cutBranch_iff es lim b).2 ⟨l, limit, cut⟩), limit]
      rfl
    · next full =>
      refine List.map_congr_left fun e he => ?_
      rw [at_b e he, if_neg]
      rintro h
      obtain ⟨l', limit', cut⟩ := (cutBranch_iff es lim b).1 h
      cases limit.symm.trans limit'
      exact full cut
  · next limit =>
    refine List.map_congr_left fun e he => ?_
    rw [at_b e he, if_neg]
    rintro h
    obtain ⟨l', limit', -⟩ := (cutBranch_iff es lim b).1 h
    cases limit.symm.trans limit'

variable {es lim target}

/-- An allocation gives every share its own magnitude and nothing to anyone else. -/
theorem mem_allocate_given (weighted : ∀ e ∈ es, 0 < e.weight) (g : Given) : g ∈ (allocate es lim target).given ↔
    ∃ e ∈ es, g = ⟨e.address, allocatedWatts es lim target e⟩ := by
  have in_branch : ∀ e ∈ es, e.branch < 16 ∧ 0 < branchWeight es e.branch := fun e he =>
    ⟨e.branch_lt, branchWeight_pos_of_mem es he (weighted e he)⟩
  by_cases full : dispatchCapacity es lim ≤ target
  · have alloc : (allocate es lim target).given = ((weightedBranches es).map (fullBranch es lim)).flatten := by
      rw [allocate, if_pos full, allocateFull]
    simp only [alloc, List.mem_flatten, List.mem_map, fullBranch_eq, allocatedWatts, if_pos full]
    constructor
    · rintro ⟨_, ⟨b, -, rfl⟩, part⟩
      obtain ⟨e, he, rfl⟩ := List.mem_map.1 part
      exact ⟨e, List.mem_of_mem_filter he, rfl⟩
    · rintro ⟨e, he, rfl⟩
      exact ⟨_, ⟨e.branch, (mem_weightedBranches es _).2 (in_branch e he), rfl⟩,
        List.mem_map.2 ⟨e, List.mem_filter.2 ⟨he, beq_self_eq_true _⟩, rfl⟩⟩
  · have alloc : (allocate es lim target).given =
        ((finalRounds es lim target).saturated.map fun b =>
          divideGroup (fun _ => none) (sharesIn es b) ((lim b).getD 0)).flatten ++
        divideGroup lim (restShares es (finalRounds es lim target)) (finalRounds es lim target).remainder := by
      rw [allocate, if_neg full]
      rfl
    have rounds := finalRounds_law (Nat.lt_of_not_le full)
    simp only [alloc, List.mem_append, List.mem_flatten, List.mem_map, divideGroup_eq, allocatedWatts, if_neg full]
    constructor
    · rintro (⟨_, ⟨b, sat, rfl⟩, part⟩ | ⟨e, part, rfl⟩)
      · obtain ⟨e, inBranch, rfl⟩ := List.mem_map.1 part
        obtain ⟨he, at_b⟩ := List.mem_filter.1 inBranch
        obtain rfl := beq_iff_eq.1 at_b
        exact ⟨e, he, by rw [if_pos (List.elem_eq_true_of_mem sat)]⟩
      · obtain ⟨he, active⟩ := List.mem_filter.1 part
        have unsat : ¬(finalRounds es lim target).saturated.contains e.branch = true := fun sat =>
          rounds.not_active_of_saturated (List.contains_iff_mem.1 sat) (List.contains_iff_mem.1 active)
        exact ⟨e, he, by rw [if_neg unsat]⟩
    · rintro ⟨e, he, rfl⟩
      split
      · next sat =>
        exact .inl ⟨_, ⟨e.branch, by simpa using sat, rfl⟩,
          List.mem_map.2 ⟨e, List.mem_filter.2 ⟨he, beq_self_eq_true _⟩, rfl⟩⟩
      · next unsat =>
        have active := ((rounds.active_or_saturated e.branch).1 (in_branch e he)).resolve_right (by simpa using unsat)
        exact .inr ⟨e, List.mem_filter.2 ⟨he, List.elem_eq_true_of_mem active⟩, rfl⟩

/-- What an allocation gives an address is what its entries of that address say. -/
theorem wattsAt_of_mem {al : Allocation} {a : Address} {w : Nat} (given : ⟨a, w⟩ ∈ al.given)
    (only : ∀ g ∈ al.given, g.address = a → g.watts = w) : al.wattsAt a = w := by
  unfold Allocation.wattsAt
  cases found : al.given.find? fun g => g.address == a with
  | none => exact absurd (beq_self_eq_true a) (List.find?_eq_none.1 found _ given)
  | some g =>
    have at_a : g.address = a := beq_iff_eq.1 (List.find?_some (p := fun g : Given => g.address == a) found)
    exact only g (List.mem_of_find?_eq_some found) at_a

section
variable (law : PassLaw es lim)
include law

theorem wattsAt_of_share {e : Share} (he : e ∈ es) :
    (allocate es lim target).wattsAt e.address = allocatedWatts es lim target e := by
  have given : ⟨e.address, allocatedWatts es lim target e⟩ ∈ (allocate es lim target).given :=
    (mem_allocate_given law.weighted _).2 ⟨e, he, rfl⟩
  have only : ∀ g ∈ (allocate es lim target).given, g.address = e.address →
      g.watts = allocatedWatts es lim target e := fun g hg same => by
    obtain ⟨x, hx, rfl⟩ := (mem_allocate_given law.weighted g).1 hg
    rw [law.eq_of_address hx he same]
  exact wattsAt_of_mem given only

theorem wattsAt_of_no_share {a : Address} (h : ∀ e ∈ es, e.address ≠ a) : (allocate es lim target).wattsAt a = 0 := by
  have none : (allocate es lim target).given.find? (fun g => g.address == a) = none :=
    List.find?_eq_none.2 fun g hg => by
      obtain ⟨e, he, rfl⟩ := (mem_allocate_given law.weighted g).1 hg
      simpa using h e he
  rw [Allocation.wattsAt, none]
  rfl

end

/-! ### The saturated branches (R131, R132) -/

/-- At or above capacity the saturated branches are those whose limit cuts their weight (R131). -/
theorem saturated_of_full (full : dispatchCapacity es lim ≤ target) {b : Nat} (range : b < 16) :
    b ∈ (allocate es lim target).saturated ↔ ∃ l, lim b = some l ∧ l < branchWeight es b := by
  have alloc : (allocate es lim target).saturated = (weightedBranches es).filter (cutBranch es lim) := by
    rw [allocate, if_pos full, allocateFull]
  rw [alloc, List.mem_filter, mem_weightedBranches, cutBranch_iff]
  exact ⟨And.right, fun ⟨l, limit, cut⟩ => ⟨⟨range, Nat.zero_lt_of_lt cut⟩, l, limit, cut⟩⟩

theorem saturated_of_shared (below : target < dispatchCapacity es lim) :
    (allocate es lim target).saturated = (finalRounds es lim target).saturated := by
  rw [allocate, if_neg (Nat.not_le.2 below)]
  rfl

/-- A saturated branch is divided at its limit, which cuts its weight (R131, R132). -/
theorem allocatedWatts_of_saturated {b : Nat} (range : b < 16) (sat : b ∈ (allocate es lim target).saturated) :
    ∃ l, lim b = some l ∧ l < branchWeight es b ∧
      ∀ e, e.branch = b → allocatedWatts es lim target e = divideWatts (fun _ => none) (sharesIn es b) l e := by
  by_cases full : dispatchCapacity es lim ≤ target
  · obtain ⟨l, limit, cut⟩ := (saturated_of_full full range).1 sat
    refine ⟨l, limit, cut, ?_⟩
    rintro e rfl
    rw [allocatedWatts, if_pos full, if_pos ((cutBranch_iff es lim _).2 ⟨l, limit, cut⟩), limit]
    rfl
  · have rounds := finalRounds_law (Nat.lt_of_not_le full)
    rw [saturated_of_shared (Nat.lt_of_not_le full)] at sat
    obtain ⟨l, limit, under⟩ := rounds.cut b sat
    have cut : l < branchWeight es b := by
      refine Nat.lt_of_mul_lt_mul_right (a := weightOf es (finalRounds es lim target).active) ?_
      rw [Nat.mul_comm (branchWeight es b)]
      exact under.trans_le (Nat.mul_le_mul_right _ rounds.fits_weight.le)
    refine ⟨l, limit, cut, ?_⟩
    rintro e rfl
    rw [allocatedWatts, if_neg full, if_pos (List.contains_iff_mem.2 sat), limit]
    rfl

/-- At or above capacity a branch that is not saturated has its full weights (R131). -/
theorem allocatedWatts_of_full (full : dispatchCapacity es lim ≤ target) {e : Share}
    (unsat : e.branch ∉ (allocate es lim target).saturated) : allocatedWatts es lim target e = e.weight := by
  rw [saturated_of_full full e.branch_lt, ← cutBranch_iff] at unsat
  rw [allocatedWatts, if_pos full, if_neg unsat]

/-- Below capacity the shares of the branches that are not saturated are divided as one group (R132). -/
theorem allocatedWatts_of_rest (below : target < dispatchCapacity es lim) {e : Share}
    (unsat : e.branch ∉ (allocate es lim target).saturated) : allocatedWatts es lim target e =
      divideWatts lim (restShares es (finalRounds es lim target)) (finalRounds es lim target).remainder e := by
  rw [saturated_of_shared below, ← List.contains_iff_mem] at unsat
  rw [allocatedWatts, if_neg (Nat.not_le.2 below), if_neg unsat]

/-- A share gets a multiple of 10 W, no more than its weight (R134, R135). -/
theorem allocatedWatts_bounds (law : PassLaw es lim) (tens : target % 10 = 0) {e : Share} (he : e ∈ es) :
    allocatedWatts es lim target e % 10 = 0 ∧ allocatedWatts es lim target e ≤ e.weight := by
  by_cases sat : e.branch ∈ (allocate es lim target).saturated
  · obtain ⟨l, limit, cut, eq⟩ := allocatedWatts_of_saturated e.branch_lt sat
    rw [eq e rfl]
    exact ⟨divideWatts_mod_ten e, divideWatts_le_weight (law.divisible_branch limit (Nat.zero_lt_of_lt cut)) cut.le
      (law.tens e he)⟩
  · by_cases full : dispatchCapacity es lim ≤ target
    · rw [allocatedWatts_of_full full sat]
      exact ⟨law.tens e he, le_rfl⟩
    · have below := Nat.lt_of_not_le full
      have rounds := finalRounds_law below
      rw [allocatedWatts_of_rest below sat]
      refine ⟨divideWatts_mod_ten e, divideWatts_le_weight (divisible_rest law tens below) ?_ (law.tens e he)⟩
      rw [rounds.weightSum_restShares]
      exact rounds.fits_weight.le

end

end Sys2Proof.Machine
end

