-- ==== Sys2Proof/Proofs/PassSetpoints.lean ====
section
/-! PROOFS. The setpoints a pass writes (R129, R130, R135, R136): the shares of the roster, and what each record gets. -/

namespace Sys2Proof.Machine

open Sys2Proof.Safety

/-! ### The limits of a legal window table (R31) -/

/-- Every branch window of a legal window table is within its ranges. -/
theorem branch_law {m : Member} {c : Contents} (h : ContentsLaw m c) (b : Nat) : BranchWindowLaw (c.branch b) := by
  obtain ⟨-, -, branches, -⟩ := h
  unfold Contents.branch
  rw [List.getD_eq_getElem?_getD]
  cases found : c.branches[b]? with
  | none => exact (by decide : BranchWindowLaw BranchWindow.reset)
  | some w => exact branches w (List.mem_of_getElem? found)

/-- A branch limit of a legal window table is a multiple of 10 W. -/
theorem limit_mod_ten {m : Member} {c : Contents} (h : ContentsLaw m c) {d : Direction} {b l : Nat}
    (limit : c.limit d b = some l) : l % 10 = 0 := by
  have in_range {x : Option Nat} (range : branchLimitInRange x = true) (is_l : x = some l) : l % 10 = 0 := by
    subst is_l
    simp only [branchLimitInRange, Option.all_some, Bool.and_eq_true, beq_iff_eq] at range
    exact range.2
  obtain ⟨-, exportRange, importRange⟩ := branch_law h b
  cases d
  · exact in_range exportRange limit
  · exact in_range importRange limit

/-! ### The shares of a roster (R130) -/

/-- The share of a site in a direction. -/
def Site.share (d : Direction) (r : Site) : Share := ⟨r.address, r.dw d⟩

theorem sharesOf_eq (rs : List Site) (d : Direction) : sharesOf rs d = (rs.map (Site.share d)).filter fun e => 0 < e.weight := rfl

theorem share_mem {rs : List Site} {d : Direction} {r : Site} (mem : r ∈ rs) (pos : 0 < r.dw d) :
    r.share d ∈ sharesOf rs d := List.mem_filter.2 ⟨List.mem_map_of_mem mem, decide_eq_true pos⟩

theorem mem_sharesOf {rs : List Site} {d : Direction} {e : Share} (h : e ∈ sharesOf rs d) :
    ∃ r ∈ rs, r.share d = e ∧ 0 < r.dw d := by
  obtain ⟨mem, pos⟩ := List.mem_filter.1 h
  obtain ⟨r, hr, rfl⟩ := List.mem_map.1 mem
  exact ⟨r, hr, rfl, of_decide_eq_true pos⟩

/-- The shares of the weighted sites that meet a test are the shares that meet it. -/
theorem map_share_filter (rs : List Site) (d : Direction) (p : Share → Bool) {q : Site → Bool}
    (same : ∀ r ∈ rs, q r = (p (r.share d) && decide (0 < r.dw d))) :
    (rs.filter q).map (Site.share d) = (sharesOf rs d).filter p := by
  rw [sharesOf_eq, List.filter_filter, List.filter_map]
  exact congrArg _ (List.filter_congr same)

/-- Shares without weight add nothing to a sum of weights. -/
theorem weightSum_filter_pos (es : List Share) : weightSum (es.filter fun e => 0 < e.weight) = weightSum es := by
  induction es with
  | nil => rfl
  | cons e es ih =>
    simp only [weightSum, List.filter_cons, List.map_cons, List.sum_cons] at ih ⊢
    split
    · rw [List.map_cons, List.sum_cons, ih]
    · next zero =>
      have : e.weight = 0 := by simpa using zero
      omega

/-- Wb is the sum of the weights of the branch's shares (R130). -/
theorem dispatchWeight_eq (s : State) (d : Direction) (b : Nat) :
    dispatchWeight s d b = branchWeight (sharesOf s.roster d) b := by
  have branch : sharesIn (sharesOf s.roster d) b =
      ((sitesOf s.roster b).map (Site.share d)).filter fun e => 0 < e.weight := by
    rw [sharesIn, sharesOf_eq, List.filter_comm, List.filter_map]
    rfl
  rw [branchWeight, branch, weightSum_filter_pos, weightSum, List.map_map]
  rfl

theorem dispatchBound_eq (s : State) (d : Direction) :
    dispatchBound s d = dispatchCapacity (sharesOf s.roster d) (s.windows.inForce.limit d) := by
  simp only [dispatchBound, dispatchCapacity, dispatchWeight_eq]

theorem addresses_nodup {s : State} (h : RosterLaw s) : (s.roster.map Site.address).Nodup :=
  List.pairwise_map.2 (h.1.imp fun lt => BitVec.ne_of_lt lt)

theorem eq_of_address {s : State} (h : RosterLaw s) {x y : Site} (hx : x ∈ s.roster) (hy : y ∈ s.roster)
    (same : x.address = y.address) : x = y := List.inj_on_of_nodup_map (addresses_nodup h) hx hy same

/-- The shares of a roster in address order, against a legal window table. -/
theorem passLaw {s : State} (roster : RosterLaw s) (windows : WindowLaw s) (d : Direction) :
    PassLaw (sharesOf s.roster d) (s.windows.inForce.limit d) where
  addresses := by
    have sub := (List.filter_sublist (p := fun e : Share => decide (0 < e.weight))
      (l := s.roster.map (Site.share d))).map Share.address
    rw [List.map_map] at sub
    exact (addresses_nodup roster).sublist sub
  weighted := fun e he => of_decide_eq_true (List.mem_filter.1 he).2
  tens := fun e he => by
    obtain ⟨r, -, rfl, -⟩ := mem_sharesOf he
    exact dw_mod_ten r d
  limits := fun _ _ limit => limit_mod_ten windows.2.1 limit

/-! ### The target and the allocation of a pass (R129, R136) -/

variable (s : State)

theorem passTarget_mod_ten : s.passTarget.natAbs % 10 = 0 := by
  unfold State.passTarget zero10
  omega

theorem directionOf_eq_some (x : Int) (d : Direction) :
    directionOf x = some d ↔ d = .up ∧ 0 < x ∨ d = .down ∧ x < 0 := by
  unfold directionOf
  cases d <;> split <;> [skip; split; skip; split] <;> simp <;> omega

theorem wattsAt_zero (a : Address) : Allocation.zero.wattsAt a = 0 := rfl

variable {s}

theorem passAllocation_of_freeze (h : s.freeze = true) : s.passAllocation = .zero := by
  unfold State.passAllocation
  split
  · rfl
  · rw [if_pos h]

theorem passAllocation_of_no_direction (h : directionOf s.passTarget = none) : s.passAllocation = .zero := by
  simp only [State.passAllocation, h]

theorem passAllocation_of_direction {d : Direction} (freeze : s.freeze = false) (h : directionOf s.passTarget = some d) :
    s.passAllocation =
      allocate (sharesOf s.roster d) (s.windows.inForce.limit d) s.passTarget.natAbs := by
  simp only [State.passAllocation, h, freeze, Bool.false_eq_true, if_false]

section
variable (roster : RosterLaw s) (windows : WindowLaw s) {d : Direction} (freeze : s.freeze = false)
  (direction : directionOf s.passTarget = some d) {r : Site} (mem : r ∈ s.roster)
include roster windows freeze direction mem

/-- A site with weight gets what the allocation gives its share. -/
theorem wattsAt_of_weight (pos : 0 < r.dw d) : s.passAllocation.wattsAt r.address =
    allocatedWatts (sharesOf s.roster d) (s.windows.inForce.limit d) s.passTarget.natAbs (r.share d) := by
  rw [passAllocation_of_direction freeze direction]
  exact wattsAt_of_share (e := r.share d) (passLaw roster windows d) (share_mem mem pos)

/-- A site without weight gets nothing (R135). -/
theorem wattsAt_of_no_weight (zero : r.dw d = 0) : s.passAllocation.wattsAt r.address = 0 := by
  rw [passAllocation_of_direction freeze direction]
  refine wattsAt_of_no_share (passLaw roster windows d) fun e he same => ?_
  obtain ⟨x, hx, rfl, pos⟩ := mem_sharesOf he
  rw [eq_of_address roster hx mem same] at pos
  omega

/-- Every site gets a multiple of 10 W within its dispatch weight (R134, R135). -/
theorem wattsAt_bounds : s.passAllocation.wattsAt r.address % 10 = 0 ∧ s.passAllocation.wattsAt r.address ≤ r.dw d := by
  rcases Nat.eq_zero_or_pos (r.dw d) with zero | pos
  · rw [wattsAt_of_no_weight roster windows freeze direction mem zero]
    exact ⟨rfl, Nat.zero_le _⟩
  · rw [wattsAt_of_weight roster windows freeze direction mem pos]
    exact allocatedWatts_bounds (passLaw roster windows d) (passTarget_mod_ten s) (share_mem mem pos)

end

/-! ### The setpoints of a pass (R135, R137) -/

section
variable (c : PassCause)

theorem pass_roster : (s.pass c).roster = s.roster.map fun r => { r with
    lastSetpoint := s.passTarget.sign * (s.passAllocation.wattsAt r.address : Int) } := by
  simp [State.pass, State.setpointsWritten]

theorem pass_target : (s.pass c).disp.target = s.passTarget := by
  simp [State.pass, State.passRecord]

/-- A record after a pass is one before it with its new setpoint: it stands at its address with its weights (R137). -/
theorem mem_pass_roster {x : Site} (h : x ∈ (s.pass c).roster) : ∃ r ∈ s.roster, (∀ d, x.share d = r.share d) ∧
    x.lastSetpoint = s.passTarget.sign * (s.passAllocation.wattsAt r.address : Int) := by
  rw [pass_roster] at h
  obtain ⟨r, mem, rfl⟩ := List.mem_map.1 h
  exact ⟨r, mem, fun _ => rfl, rfl⟩

/-- Under FREEZE a pass writes 0 for every site (R136). -/
theorem pass_setpoint_of_freeze (freeze : s.freeze = true) {x : Site} (h : x ∈ (s.pass c).roster) : x.lastSetpoint = 0 := by
  obtain ⟨r, -, -, setpoint⟩ := mem_pass_roster c h
  rw [setpoint, passAllocation_of_freeze freeze, wattsAt_zero]
  exact Int.mul_zero _

/-- Every setpoint of a pass is a multiple of 10 W of the target's sign, within the dispatch weight (R134, R135). -/
theorem pass_setpoint (roster : RosterLaw s) (windows : WindowLaw s) {x : Site} (h : x ∈ (s.pass c).roster) :
    x.lastSetpoint % 10 = 0 ∧
      (0 < (s.pass c).disp.target → 0 ≤ x.lastSetpoint ∧ x.lastSetpoint ≤ x.dw .up) ∧
      ((s.pass c).disp.target < 0 → x.lastSetpoint ≤ 0 ∧ -(x.dw .down : Int) ≤ x.lastSetpoint) := by
  rw [pass_target]
  cases freeze : s.freeze with
  | true =>
    rw [pass_setpoint_of_freeze c freeze h]
    omega
  | false =>
    obtain ⟨r, mem, share, setpoint⟩ := mem_pass_roster c h
    have weight (d : Direction) : x.dw d = r.dw d := congrArg Share.weight (share d)
    rw [setpoint, weight, weight]
    rcases lt_trichotomy s.passTarget 0 with neg | zero | pos
    · obtain ⟨tens, within⟩ := wattsAt_bounds roster windows freeze ((directionOf_eq_some ..).2 (.inr ⟨rfl, neg⟩)) mem
      rw [Int.sign_eq_neg_one_of_neg neg]
      omega
    · simp [zero]
    · obtain ⟨tens, within⟩ := wattsAt_bounds roster windows freeze ((directionOf_eq_some ..).2 (.inl ⟨rfl, pos⟩)) mem
      rw [Int.sign_eq_one_of_pos pos]
      omega

end

end Sys2Proof.Machine
end

