-- ==== Sys2Proof/Proofs/PassDivision.lean ====
section
/-! PROOFS. How a pass allocates (R131 to R134): which branches its record flags, and how each of its groups is divided. -/

namespace Sys2Proof.Machine

open Sys2Proof.Safety

/-- A FREEZE assertion ends in a pass that reads FREEZE high (R50, R136). -/
theorem assertFreeze_eq_pass (s : State) : ∃ u : State, u.freeze = true ∧ s.assertFreeze = u.pass .freeze :=
  ⟨({ s with freeze := true, journal := s.journal.flagFreeze } : State).raiseFreeze.freezeBus,
    by simp [State.raiseFreeze], rfl⟩

/-- A command that takes a pass is the timer's, whose pass is of its own state, or takes one that reads FREEZE high. -/
theorem takesPass_cases {c : Instr} {s t : State} (takes : TakesPass c s) (next : exec c s = .next t) :
    s.pass .timer = t ∨ ∃ u : State, u.freeze = true ∧ u.pass .freeze = t := by
  rcases takes with rfl | ⟨rfl, low⟩ | ⟨levels, rfl⟩
  · exact .inl (Host.Outcome.next.inj next)
  · obtain ⟨u, high, eq⟩ := assertFreeze_eq_pass s
    refine .inr ⟨u, high, ?_⟩
    simpa [exec, execFreezeAssertion, low, eq] using next
  · obtain ⟨u, high, eq⟩ := assertFreeze_eq_pass { State.afterReset s.member false levels.lrate levels.gsense with
      pending := s.pending, freeIndex := s.freeIndex }
    refine .inr ⟨u, high, ?_⟩
    simpa [exec, execDeviceReset, eq] using next

/-- Sites whose magnitudes are those of a group's division are divided as R134 says. -/
theorem dividedBy_of_divideWatts {d : Direction} {lim : Nat → Option Nat} {g : List Site} {gt : Nat} {shares : List Share}
    (same : g.map (Site.share d) = shares) (div : Divisible lim shares gt) {m : Site → Nat}
    (magnitude : ∀ r ∈ g, m r = divideWatts lim shares gt (r.share d)) : DividedBy d lim g gt m := by
  subst same
  unfold DividedBy
  intro wg base part
  have weight : wg = weightSum (g.map (Site.share d)) := by
    rw [weightSum, List.map_map]
    rfl
  have base_eq (r : Site) : base r = (r.share d).base gt (weightSum (g.map (Site.share d))) := weight ▸ rfl
  have part_eq (r : Site) : part r = (r.share d).fraction gt (weightSum (g.map (Site.share d))) := weight ▸ rfl
  refine ⟨fun r hr => ?_, ?_, fun x hx y hy given without order => ?_⟩
  · rw [magnitude r hr, base_eq]
    exact divideWatts_cases _
  · have sum := sum_divideWatts div
    rw [List.map_map] at sum
    rw [List.map_congr_left magnitude]
    exact sum
  · rw [magnitude x hx, base_eq] at given
    rw [magnitude y hy, base_eq] at without
    rw [part_eq, part_eq] at order
    have before : ¬stepsBefore gt (weightSum (g.map (Site.share d))) (x.share d) (y.share d) := by
      rintro (more | ⟨tie, low⟩)
      · omega
      · exact order.elim (fun less => by omega) fun ⟨_, lower⟩ => BitVec.not_le.2 lower low
    obtain ⟨l, limit, above⟩ := passed_over div.distinct (List.mem_map_of_mem hy) given without before
    refine ⟨l, limit, above.trans_eq ?_⟩
    have branch : sharesIn (g.map (Site.share d)) (y.share d).branch =
        (g.filter fun r => branchOf r.address = branchOf y.address).map (Site.share d) := by
      rw [sharesIn, List.filter_map]
      exact congrArg _ (List.filter_congr fun r _ => beq_eq_decide _ _)
    rw [branch, List.map_map, List.map_congr_left fun r hr => magnitude r (List.mem_of_mem_filter hr)]
    rfl

/-- The flag that a pass records of a branch (R137). -/
theorem pass_flag (s : State) (c : PassCause) {b : Nat} (range : b < 16) :
    ((s.pass c).disp.branches.getD b ⟨0, 0, false⟩).saturated = s.passAllocation.saturated.contains b := by
  have record : (s.pass c).disp.branches =
      (List.range 16).map (branchLoadOf s.setpointsWritten s.passAllocation.saturated) := by
    simp [State.pass, State.passRecord, Config.branchCount]
  rw [record, List.getD_eq_getElem?_getD, List.getElem?_map, List.getElem?_range range]
  rfl

/-- A pass leaves the weights of the sites as they are. -/
theorem sharesOf_pass (s : State) (c : PassCause) (d : Direction) : sharesOf (s.pass c).roster d = sharesOf s.roster d := by
  rw [pass_roster, sharesOf, List.map_map]
  rfl

section
variable {s : State} (roster : RosterLaw s) (windows : WindowLaw s) {d : Direction} (freeze : s.freeze = false)
  (direction : directionOf s.passTarget = some d) (c : PassCause)
include roster windows freeze direction

/-- The magnitude of a weighted site's setpoint is what the allocation gives its share (R135). -/
theorem pass_magnitude {r : Site} (mem : r ∈ (s.pass c).roster) (pos : 0 < r.dw d) : r.lastSetpoint.natAbs =
    allocatedWatts (sharesOf s.roster d) (s.windows.inForce.limit d) s.passTarget.natAbs (r.share d) := by
  obtain ⟨x, stands, share, setpoint⟩ := mem_pass_roster c mem
  have target : s.passTarget ≠ 0 := by
    rintro zero
    rw [zero] at direction
    cases direction
  have weight : r.dw d = x.dw d := congrArg Share.weight (share d)
  rw [setpoint, share, Int.natAbs_mul, Int.natAbs_sign_of_ne_zero target, Nat.one_mul, Int.natAbs_natCast]
  exact wattsAt_of_weight roster windows freeze direction stands (weight ▸ pos)

/-- A saturated branch is divided at its limit, whatever its own steps carry it to (R131, R132). -/
theorem saturated_divided {b : Nat} (range : b < 16) (sat : s.passAllocation.saturated.contains b = true) :
    ∃ l, s.windows.inForce.limit d b = some l ∧ DividedBy d (fun _ => none)
      ((s.pass c).roster.filter fun r => branchOf r.address = b ∧ 0 < r.dw d) l (fun r => r.lastSetpoint.natAbs) := by
  rw [passAllocation_of_direction freeze direction, List.contains_iff_mem] at sat
  obtain ⟨l, limit, cut, eq⟩ := allocatedWatts_of_saturated range sat
  have group : ((s.pass c).roster.filter fun r => branchOf r.address = b ∧ 0 < r.dw d).map (Site.share d) =
      sharesIn (sharesOf s.roster d) b := by
    rw [← sharesOf_pass s c]
    exact map_share_filter _ d _ fun r _ => by simp [Site.share, Share.branch, beq_eq_decide]
  refine ⟨l, limit, dividedBy_of_divideWatts group
    ((passLaw roster windows d).divisible_branch limit (Nat.zero_lt_of_lt cut)) fun r hr => ?_⟩
  obtain ⟨mem, chosen⟩ := List.mem_filter.1 hr
  obtain ⟨inBranch, pos⟩ := of_decide_eq_true chosen
  rw [pass_magnitude roster windows freeze direction c mem pos]
  exact eq _ inBranch

/-- At or above capacity a site of a branch that is not saturated gets its full weight (R131). -/
theorem full_weight (full : dispatchBound s d ≤ s.passTarget.natAbs) {r : Site} (mem : r ∈ (s.pass c).roster)
    (unsat : s.passAllocation.saturated.contains (branchOf r.address) = false) : r.lastSetpoint.natAbs = r.dw d := by
  rw [dispatchBound_eq] at full
  rcases Nat.eq_zero_or_pos (r.dw d) with zero | pos
  · obtain ⟨x, stands, share, setpoint⟩ := mem_pass_roster c mem
    have weight : r.dw d = x.dw d := congrArg Share.weight (share d)
    rw [zero, setpoint, wattsAt_of_no_weight roster windows freeze direction stands (weight ▸ zero)]
    simp
  · rw [pass_magnitude roster windows freeze direction c mem pos]
    rw [passAllocation_of_direction freeze direction, ← Bool.not_eq_true, List.contains_iff_mem] at unsat
    exact allocatedWatts_of_full full unsat

/-- Below capacity the sites of the branches that are not saturated are divided as one group (R132). -/
theorem rest_divided (below : s.passTarget.natAbs < dispatchBound s d) : DividedBy d (s.windows.inForce.limit d)
    ((s.pass c).roster.filter fun r => s.passAllocation.saturated.contains (branchOf r.address) = false ∧ 0 < r.dw d)
    (finalRounds (sharesOf s.roster d) (s.windows.inForce.limit d) s.passTarget.natAbs).remainder
    (fun r => r.lastSetpoint.natAbs) := by
  rw [dispatchBound_eq] at below
  rw [passAllocation_of_direction freeze direction]
  have rounds := finalRounds_law below
  have group : ((s.pass c).roster.filter fun r =>
        (allocate (sharesOf s.roster d) (s.windows.inForce.limit d) s.passTarget.natAbs).saturated.contains
          (branchOf r.address) = false ∧ 0 < r.dw d).map (Site.share d) =
      restShares (sharesOf s.roster d)
        (finalRounds (sharesOf s.roster d) (s.windows.inForce.limit d) s.passTarget.natAbs) := by
    rw [← sharesOf_pass s c] at rounds ⊢
    refine map_share_filter _ d _ fun r mem => ?_
    rcases Nat.eq_zero_or_pos (r.dw d) with zero | pos
    · simp [zero]
    · have weighted : branchOf r.address < 16 ∧ 0 < branchWeight (sharesOf (s.pass c).roster d) (branchOf r.address) :=
        ⟨(r.share d).branch_lt, branchWeight_pos_of_mem _ (share_mem mem pos) pos⟩
      have placed := (rounds.active_or_saturated _).1 weighted
      have apart := rounds.not_active_of_saturated (b := branchOf r.address)
      rw [saturated_of_shared (by rwa [sharesOf_pass])]
      simp only [pos, and_true, decide_true, Bool.and_true, Site.share, Share.branch]
      rw [Bool.eq_iff_iff, decide_eq_true_iff, ← Bool.not_eq_true, List.contains_iff_mem, List.contains_iff_mem]
      exact ⟨placed.resolve_right, fun active sat => apart sat active⟩
  refine dividedBy_of_divideWatts group
    (divisible_rest (passLaw roster windows d) (passTarget_mod_ten s) below) fun r hr => ?_
  obtain ⟨mem, chosen⟩ := List.mem_filter.1 hr
  obtain ⟨unsat, pos⟩ := of_decide_eq_true chosen
  rw [pass_magnitude roster windows freeze direction c mem pos]
  rw [← Bool.not_eq_true, List.contains_iff_mem] at unsat
  exact allocatedWatts_of_rest below unsat

end

end Sys2Proof.Machine
end

