-- ==== Sys2Proof/Proofs/PassSiteObligations.lean ====
section
/-! PROOFS. The statement about how a pass allocates to each site. -/

namespace Sys2Proof.Proofs

open Sys2Proof.Machine Sys2Proof.Safety

/-- Settles O49: under FREEZE every setpoint is 0; otherwise the pass is that of the timer, and its record's flags are the
saturated branches of its allocation. -/
theorem passEachSite : Obligations.PassEachSite := by
  intro c s t roster windows takes next
  rcases takesPass_cases takes next with rfl | ⟨u, high, rfl⟩
  case inr =>
    refine ⟨fun r mem => ?_, fun d low => absurd ((pass_freeze u .freeze).trans high) (by rw [low]; nofun)⟩
    rw [pass_setpoint_of_freeze .freeze high mem]
    omega
  case inl =>
    refine ⟨fun r mem => pass_setpoint .timer roster windows mem, fun d freeze sign => ?_⟩
    have freeze : s.freeze = false := pass_freeze s .timer ▸ freeze
    rw [pass_target] at sign ⊢
    have direction : directionOf s.passTarget = some d := (directionOf_eq_some ..).2 sign
    intro goal m limit weight flag branches rest
    have flag_eq {b : Nat} (range : b < 16) : flag b = s.passAllocation.saturated.contains b := pass_flag s .timer range
    have alloc := passAllocation_of_direction freeze direction
    have bound := dispatchBound_eq s d
    refine ⟨fun b range flagged => saturated_divided roster windows freeze direction .timer range (flag_eq range ▸ flagged),
      fun full => ⟨fun b range => ?_, fun r mem unflagged => ?_⟩, fun below => ?rest⟩
    · rw [flag_eq range, alloc, List.contains_iff_mem, saturated_of_full (bound ▸ full) range]
      simp only [weight, dispatchWeight_eq]
      exact Iff.rfl
    · exact full_weight roster windows freeze direction .timer full mem
        (flag_eq (r.share d).branch_lt ▸ unflagged)
    case rest =>
      rw [bound] at below
      have rounds := finalRounds_law below
      have sat : s.passAllocation.saturated = (finalRounds (sharesOf s.roster d) limit goal).saturated :=
        alloc ▸ saturated_of_shared below
      have flagged : branches true =
          (List.range 16).filter (finalRounds (sharesOf s.roster d) limit goal).saturated.contains :=
        List.filter_congr fun b hb => by rw [flag_eq (List.mem_range.1 hb), sat]; simp
      have unflagged : branches false =
          (List.range 16).filter fun b => !(finalRounds (sharesOf s.roster d) limit goal).saturated.contains b :=
        List.filter_congr fun b hb => by rw [flag_eq (List.mem_range.1 hb), sat]; simp
      have rest_eq : rest = (finalRounds (sharesOf s.roster d) limit goal).remainder := by
        rw [← rest_of_saturated rounds, ← flagged]
        rfl
      have weight_eq : ((branches false).map weight).sum =
          weightOf (sharesOf s.roster d) (finalRounds (sharesOf s.roster d) limit goal).active := by
        rw [← weight_of_unsaturated rounds, ← unflagged, weightOf]
        exact congrArg List.sum (List.map_congr_left fun b _ => dispatchWeight_eq s d b)
      refine ⟨fun b range => ?_, ?_⟩
      · rw [flag_eq range, sat, List.contains_iff_mem, saturated_iff_under below range, weight_eq, rest_eq]
        simp only [weight, dispatchWeight_eq]
        exact Iff.rfl
      · rw [rest_eq]
        have divided := rest_divided roster windows freeze direction .timer (bound ▸ below)
        have group : ((s.pass .timer).roster.filter fun r => flag (branchOf r.address) = false ∧ 0 < r.dw d) =
            (s.pass .timer).roster.filter fun r =>
              s.passAllocation.saturated.contains (branchOf r.address) = false ∧ 0 < r.dw d :=
          List.filter_congr fun r _ => by rw [flag_eq (b := branchOf r.address) (r.share d).branch_lt]
        exact group ▸ divided

end Sys2Proof.Proofs
end

