-- ==== Sys2Proof/Proofs/RosterChanges.lean ====
section
/-! PROOFS. Everything a command can do to the roster (R14 to R18, R21 to R24, R29, R137, R148): it adds one new record, or it
keeps some of the records and changes each of them in one of a few ways. -/

namespace Sys2Proof.Machine

open Sys2Proof.Safety

/-! ### What can happen to a record -/

/-- A change that a command can make to one site record of state `s`. -/
inductive SiteChange (s : State) : Site → Site → Prop
  | unchanged (r : Site) : SiteChange s r r
  /-- AMEND (R16). -/
  | amended (r : Site) (floor ceiling : Nat) (range : limitsInRange floor ceiling = true) :
      SiteChange s r { r with floor, ceiling }
  /-- REMOVE, while the bus carries blocks (R17). -/
  | left (r : Site) (n : Nat) (carries : s.bus.state.carriesBlocks = true) : SiteChange s r (r.leave n)
  /-- RESUME (R44). -/
  | rewritten (r : Site) : SiteChange s r (r.rewritten s.windows.working)
  /-- A good report (R21). -/
  | reported (r : Site) (bytes : List Byte) : SiteChange s r (r.takeReport s.now (reportOf bytes))
  /-- Any other outcome of a poll (R22). -/
  | failed (r : Site) (o : PollOutcome) : SiteChange s r { r with lastPoll := some o }
  /-- The beginning of a poll (log 27). -/
  | marked (r : Site) (mark : Bool) : SiteChange s r { r with polled := mark }
  /-- The freshness timer at 20 tenths: the site at its address was FRESH (R23). -/
  | staled (r : Site) (fresh : RosterLaw s → r.freshness = .fresh) :
      SiteChange s r { r with freshness := .stale, freshnessTimer := some 20 }
  /-- The freshness timer at 60 tenths (R23). -/
  | silenced (r : Site) : SiteChange s r { r with freshness := .silent, freshnessTimer := none }
  /-- A pass: the setpoint within the site's rated power, in steps of 10 W (R134, R137). -/
  | instructed (r : Site) (x : Int)
      (range : RosterLaw s → WindowLaw s → x.natAbs ≤ r.rated ∧ x % 10 = 0) : SiteChange s r { r with lastSetpoint := x }

section
variable {s : State} {r x : Site}

/-- No change moves a record to another address. -/
theorem SiteChange.address (h : SiteChange s r x) : x.address = r.address := by cases h <;> rfl

/-- Only a REMOVE while the bus carries blocks makes a record LEAVING (R17). -/
theorem SiteChange.leaving (h : SiteChange s r x) (leaving : x.isLeaving = true) :
    r.isLeaving = true ∨ s.bus.state.carriesBlocks = true := by
  cases h with
  | left n carries => exact .inr carries
  | _ => exact .inl leaving

end

/-! ### What can happen to the roster -/

/-- What the statements about the roster read of a state. -/
def State.sites (s : State) : List Site × Member × BusState := (s.roster, s.member, s.bus.state)

/-- The records of `t` are some of the records of `s`, each changed in one of the ways of `SiteChange`; and where the bus
carried blocks it does so still, or no record is LEAVING (R18, R148). -/
structure RosterKept (s t : State) : Prop where
  member : t.member = s.member
  records : ∃ (keep : Site → Bool) (change : Site → Site), t.roster = (s.roster.filter keep).map change ∧
    ∀ r ∈ s.roster, SiteChange s r (change r)
  leaving : s.bus.state.carriesBlocks = true →
    t.bus.state.carriesBlocks = true ∨ ∀ r ∈ t.roster, r.isLeaving = false

/-- Everything a command can do to the roster: keep and change records, or add one for a free address (R14, R15). -/
inductive RosterStep (s t : State) : Prop
  | kept (h : RosterKept s t)
  | enrolled (a rated capacity floor ceiling : Nat) (range : enrollInRange a rated capacity floor ceiling = true)
      (unused : siteAt s.roster (BitVec.ofNat 12 a) = none) (room : s.roster.length < s.member.siteCapacity)
      (sites : t.sites = (addSite (.enrolled (BitVec.ofNat 12 a) rated capacity floor ceiling
        (s.windows.inForce.resolve (BitVec.ofNat 12 a))) s.roster, s.member, s.bus.state))

section
variable {s t u : State}

theorem sites_eq_iff : t.sites = u.sites ↔ t.roster = u.roster ∧ t.member = u.member ∧ t.bus.state = u.bus.state := by
  simp [State.sites]

theorem RosterKept.congr (h : RosterKept s u) (same : t.sites = u.sites) : RosterKept s t := by
  obtain ⟨roster, member, bus⟩ := sites_eq_iff.1 same
  obtain ⟨member', records, leaving⟩ := h
  exact ⟨member.trans member', roster ▸ records, by rwa [roster, bus]⟩

theorem RosterStep.congr (h : RosterStep s u) (same : t.sites = u.sites) : RosterStep s t := by
  cases h with
  | kept h => exact .kept (h.congr same)
  | enrolled a rated capacity floor ceiling range unused room sites =>
    exact .enrolled a rated capacity floor ceiling range unused room (same.trans sites)

/-- Each record changed in its place, on a bus whose state still carries the blocks it carried. -/
theorem RosterKept.of_map (change : Site → Site) (roster : t.roster = s.roster.map change) (member : t.member = s.member)
    (bus : s.bus.state.carriesBlocks = true → t.bus.state.carriesBlocks = true)
    (changes : ∀ r ∈ s.roster, SiteChange s r (change r)) : RosterKept s t :=
  ⟨member, ⟨fun _ => true, change, by rw [roster, List.filter_true], changes⟩, fun carries => .inl (bus carries)⟩

theorem RosterKept.of_bus (roster : t.roster = s.roster) (member : t.member = s.member)
    (bus : s.bus.state.carriesBlocks = true → t.bus.state.carriesBlocks = true) : RosterKept s t :=
  .of_map id (by rw [roster, List.map_id]) member bus fun r _ => .unchanged r

theorem RosterKept.of_sites (same : t.sites = s.sites) : RosterKept s t := by
  obtain ⟨roster, member, bus⟩ := sites_eq_iff.1 same
  exact .of_bus roster member (bus ▸ id)

/-- A change of the records that a test selects. -/
theorem siteChange_ite (p : Site → Prop) [DecidablePred p] {f : Site → Site} {r : Site}
    (h : p r → SiteChange s r (f r)) : SiteChange s r (if p r then f r else r) := by
  split
  · next hp => exact h hp
  · exact .unchanged r

/-- Dropping further records keeps the rest as they are. -/
theorem RosterKept.filter (h : RosterKept s u) (p : Site → Bool) (roster : t.roster = u.roster.filter p)
    (member : t.member = u.member)
    (leaving : t.bus.state = u.bus.state ∨ ∀ r ∈ t.roster, r.isLeaving = false) : RosterKept s t := by
  obtain ⟨member', ⟨keep, change, records, changes⟩, leaving'⟩ := h
  refine ⟨member.trans member', ⟨fun r => p (change r) && keep r, change, ?_, changes⟩, fun carries => ?_⟩
  · rw [roster, records, List.filter_map, List.filter_filter]
    rfl
  · rcases leaving with bus | none
    · rw [bus]
      exact (leaving' carries).imp id fun none r hr => none r (List.mem_of_mem_filter (roster ▸ hr))
    · exact .inr none

/-! ### Changes of bus state (R148, R149, R160, R161) -/

theorem not_leaving_of_mem_deleteLeaving {rs : List Site} {r : Site} (h : r ∈ deleteLeaving rs) : r.isLeaving = false := by
  simpa using (List.mem_filter.1 h).2

/-- A bus that enters DISABLED, DRAINING or FAULT deletes the LEAVING records (R18, R148). -/
theorem RosterKept.deleteLeaving (h : RosterKept s u) (roster : t.roster = deleteLeaving u.roster)
    (member : t.member = u.member) : RosterKept s t :=
  h.filter _ roster member (.inr fun _ hr => not_leaving_of_mem_deleteLeaving (roster ▸ hr))

theorem RosterKept.enterDisabled (h : RosterKept s u) : RosterKept s u.enterDisabled := h.deleteLeaving rfl rfl

theorem RosterKept.enterDraining (h : RosterKept s u) : RosterKept s u.enterDraining := h.deleteLeaving rfl rfl

theorem RosterKept.endFrame (h : RosterKept s u) : RosterKept s u.endFrame := by
  rcases endFrame_cases u with ⟨-, eq⟩ | ⟨-, eq⟩
  · exact eq ▸ h.enterDisabled
  · exact eq ▸ h.congr rfl

theorem RosterKept.collided (h : RosterKept s u) : RosterKept s u.collided := by
  rcases collided_cases u with ⟨-, eq⟩ | ⟨-, -, eq⟩ | ⟨-, -, eq⟩
  · exact eq ▸ h.enterDisabled
  · rw [eq]
    exact ⟨h.member, h.records, fun _ => .inl rfl⟩
  · exact eq ▸ h.deleteLeaving rfl rfl

end

end Sys2Proof.Machine
end

