-- ==== Sys2Proof/Proofs/RosterSteps.lean ====
section
/-! PROOFS. Every command, as a change of the roster: the requests by their owning blocks, the events one by one. -/

namespace Sys2Proof.Machine

open Sys2Proof.Safety

variable (s : State)

/-! ### Polls and reports (R21, R22, R152, R155) -/

theorem failedPoll_kept (a : Address) (o : PollOutcome) : RosterKept s (s.failedPoll a o) :=
  .of_map _ (changePolled_eq a _ s.roster) rfl id fun r _ =>
    siteChange_ite (fun r => r.address = a ∧ r.polled = true) (f := fun r => { r with lastPoll := some o }) fun _ => .failed r o

theorem endPoll_kept (a : Address) (o : PollOutcome) : RosterKept s (s.endPoll a o) := (failedPoll_kept s a o).endFrame

theorem goodReport_kept (a : Address) (bytes : List Byte) : RosterKept s (s.goodReport a (reportOf bytes)) := by
  cases found : polledAt s.roster a with
  | none => rw [goodReport_deleted found]; exact .of_sites rfl
  | some r =>
    have written : RosterKept s { s with roster := changePolled a (Site.takeReport s.now (reportOf bytes)) s.roster } :=
      .of_map _ (changePolled_eq a _ s.roster) rfl id fun r _ =>
        siteChange_ite (fun r => r.address = a ∧ r.polled = true) fun _ => .reported r bytes
    by_cases offline : r.status = some .ready ∧ (reportOf bytes).status = .offline
    · rw [goodReport_to_offline found offline.1 offline.2]
      exact written.congr rfl
    · rw [goodReport_plain found offline]
      exact written

theorem takeReply_kept (a : Address) (bytes : List Byte) : RosterKept s (s.takeReply a bytes) := by
  rcases takeReply_cases s a bytes with ⟨-, eq⟩ | ⟨-, eq⟩
  · exact eq ▸ (goodReport_kept s a bytes).endFrame
  · exact eq ▸ endPoll_kept s a _

theorem beginPoll_kept {u : State} (same : u.sites = s.sites) (a : Address) : RosterKept s (u.beginPoll a) := by
  obtain ⟨roster, member, bus⟩ := sites_eq_iff.1 same
  have marked : RosterKept s { u with
      roster := markPolled a u.roster, bus := { u.bus with frame := .poll a u.bus.items .transmitting, pointer := a + 1 } } :=
    .of_map _ (congrArg (markPolled a) roster) member (by simp [bus]) fun r _ => .marked r (r.address == a)
  unfold State.beginPoll
  split
  · exact marked.congr rfl
  · exact marked

/-! ### Passes (R127, R136, R137) -/

theorem pass_bus_state (c : PassCause) : (s.pass c).bus.state = s.bus.state := by
  simp only [State.pass, raiseIf_bus, Bus.handOver]
  split <;> rfl

theorem pass_timer_kept : RosterKept s (s.pass .timer) := by
  refine .of_map _ (pass_roster .timer) (pass_member s .timer) (by rw [pass_bus_state]; exact id) fun r mem =>
    .instructed r _ fun roster windows => ?_
  cases freeze : s.freeze with
  | true => simp [passAllocation_of_freeze freeze, wattsAt_zero]
  | false =>
    cases direction : directionOf s.passTarget with
    | none => simp [passAllocation_of_no_direction direction, wattsAt_zero]
    | some d =>
      obtain ⟨tens, within⟩ := wattsAt_bounds roster windows freeze direction mem
      have rated := dw_le_rated r d
      rcases Int.sign_trichotomy s.passTarget with sign | sign | sign <;> rw [sign] <;> omega

/-- A FREEZE assertion leaves the roster, or drops its LEAVING records out of DRAINING, before its pass (R149, R159). -/
theorem freezeBus_roster : s.freezeBus.sites = s.sites ∨ s.freezeBus.roster = deleteLeaving s.roster := by
  unfold State.freezeBus
  split
  · next b frame =>
    rcases endFrame_cases { s with bus := { s.bus with queue := s.bus.queue.filter fun b => b.freeze } } with
      ⟨-, eq⟩ | ⟨-, eq⟩
    · exact .inr (eq ▸ rfl)
    · exact .inl (eq ▸ rfl)
  · exact .inl rfl

/-- The pass of a FREEZE assertion writes 0 into every record that is left (R136). -/
theorem assertFreeze_kept : RosterKept s s.assertFreeze := by
  let w : State := ({ s with freeze := true, journal := s.journal.flagFreeze } : State).raiseFreeze
  have before : w.sites = s.sites := by simp [w, State.raiseFreeze, State.sites]
  obtain ⟨roster, member, bus⟩ := sites_eq_iff.1 before
  have high : w.freezeBus.freeze = true := by simp [w, State.raiseFreeze]
  have zeros : (w.freezeBus.pass .freeze).roster = w.freezeBus.roster.map fun r => { r with lastSetpoint := 0 } := by
    rw [pass_roster, passAllocation_of_freeze high]
    simp [wattsAt_zero]
  have change (r : Site) : SiteChange s r { r with lastSetpoint := 0 } := .instructed r 0 fun _ _ => by simp
  rcases freezeBus_roster w with same | dropped
  · obtain ⟨roster', -, bus'⟩ := sites_eq_iff.1 same
    refine .of_map _ (by rw [← roster, ← roster']; exact zeros) (by simpa [State.assertFreeze] using member) ?_ fun r _ => change r
    rw [← bus, ← bus', ← pass_bus_state w.freezeBus .freeze]
    exact id
  · rw [dropped, roster] at zeros
    refine ⟨by simpa [State.assertFreeze] using member, ⟨_, _, zeros, fun r _ => change r⟩, fun _ => .inr fun r hr => ?_⟩
    rw [show s.assertFreeze.roster = _ from zeros] at hr
    obtain ⟨q, hq, rfl⟩ := List.mem_map.1 hr
    have stays := not_leaving_of_mem_deleteLeaving hq
    exact stays

end Sys2Proof.Machine
end

