-- ==== Sys2Proof/Proofs/RosterEvents.lean ====
section
/-! PROOFS. Every event of the pins, the timers, the fleet bus and the links, as a change of the roster. -/

namespace Sys2Proof.Machine

open Sys2Proof.Safety

section
variable {s t : State}

/-! ### Timers and pins -/

theorem passTimerExpiry_kept (h : exec .passTimerExpiry s = .next t) : RosterKept s t := by
  cases h
  exact pass_timer_kept s

/-- A FRESH site at its timer: in a sorted roster only the record found at the address is changed. -/
theorem staled_kept {a : Address} {r : Site} (found : siteAt s.roster a = some r) (fresh : r.freshness = .fresh) :
    RosterKept s { s with
      roster := changeSite a (fun r => { r with freshness := .stale, freshnessTimer := some 20 }) s.roster } := by
  obtain ⟨mem, at_a⟩ := siteAt_mem found
  refine .of_map _ rfl rfl id fun q hq => siteChange_ite (fun q => q.address = a)
    (f := fun q => { q with freshness := .stale, freshnessTimer := some 20 }) fun same => .staled q fun sorted => ?_
  rw [eq_of_address sorted hq mem (same.trans at_a.symm)]
  exact fresh

theorem silenced_kept (a : Address) : RosterKept s { s with
    roster := changeSite a (fun r => { r with freshness := .silent, freshnessTimer := none }) s.roster } :=
  .of_map _ rfl rfl id fun q _ => siteChange_ite (fun q => q.address = a)
    (f := fun q => { q with freshness := .silent, freshnessTimer := none }) fun _ => .silenced q

theorem freshnessExpiry_kept {a : Address} (h : exec (.freshnessExpiry a) s = .next t) : RosterKept s t := by
  simp only [exec, execFreshnessExpiry] at h
  cases found : siteAt s.roster a with
  | none =>
    simp only [found] at h
    cases h
    exact .of_sites rfl
  | some r =>
    simp only [found] at h
    split at h
    · next fresh =>
      cases h
      exact staled_kept found fresh
    · split at h <;> cases h
      · exact silenced_kept a
      · exact (silenced_kept a).congr (by simp [State.sites])
    · cases h
      exact .of_sites rfl

theorem freezeAssertion_kept (h : exec .freezeAssertion s = .next t) : RosterKept s t := by
  cases h
  cases s.freeze with
  | false => exact assertFreeze_kept s
  | true => exact .of_sites rfl

/-- A device reset leaves no record (R3, R13). -/
theorem deviceReset_kept {freeze : Bool} {levels : ResetLevels} (h : exec (.deviceReset freeze levels) s = .next t) :
    RosterKept s t := by
  let u : State :=
    { State.afterReset s.member false levels.lrate levels.gsense with pending := s.pending, freeIndex := s.freeIndex }
  have empty : RosterKept s u :=
    ⟨rfl, ⟨fun _ => false, id, by simp [u, State.afterReset], fun r _ => .unchanged r⟩, fun _ =>
      .inr (by simp [u, State.afterReset])⟩
  cases h
  cases freeze with
  | false => exact empty
  | true =>
    show RosterKept s u.assertFreeze
    obtain ⟨member, ⟨keep, change, records, -⟩, -⟩ := assertFreeze_kept u
    have none_left : u.assertFreeze.roster = [] := by simpa [u, State.afterReset] using records
    exact ⟨member, ⟨fun _ => false, id, by simpa using none_left, fun r _ => .unchanged r⟩,
      fun _ => .inr (by simp [none_left])⟩

/-! ### The fleet bus -/

theorem poll_kept (h : exec .poll s = .next t) : RosterKept s t := by
  cases h
  split
  · split
    · exact beginPoll_kept s (u := s) rfl _
    · split
      · exact .of_sites rfl
      · split
        · exact beginPoll_kept s (u := s.endRound) (by simp [State.sites, State.endRound]) _
        · exact .of_sites (by simp [State.sites, State.endRound])
  · exact .of_sites rfl

/-- The events that end a poll with an outcome other than a report. -/
theorem pollEnd_kept (c : Instr) (ending : c ∈ [Instr.replyWindowExpiry, .pollEndOnQuiet, .replyGap])
    (h : exec c s = .next t) : RosterKept s t := by
  simp only [List.mem_cons, List.not_mem_nil, or_false] at ending
  rcases ending with rfl | rfl | rfl
  all_goals
    cases h
    split
    · exact endPoll_kept s _ _
    · exact .of_sites rfl

theorem report_kept {characters : List (BitVec 11)} (h : exec (.report characters) s = .next t) : RosterKept s t := by
  cases h
  split
  · exact takeReply_kept s _ _
  · exact .of_sites rfl

/-- A completed block drops the LEAVING records whose removal it carried (R18). -/
theorem blockComplete_kept (h : exec .blockComplete s = .next t) : RosterKept s t := by
  cases h
  split
  · next b _ =>
    have dropped : RosterKept s { s with
        roster := s.roster.filter fun r => !r.endedBy b, bus := { s.bus with collisions := 0 } } :=
      (RosterKept.of_sites (t := s) rfl).filter (fun r => !r.endedBy b) rfl rfl (.inl rfl)
    exact dropped.endFrame
  · exact .of_sites rfl

theorem collision_kept (h : exec .collision s = .next t) : RosterKept s t := by
  cases h
  split
  · exact (failedPoll_kept s _ _).collided
  · exact (RosterKept.of_sites (s := s) (t := { s with bus := { s.bus with queue := [] } }) rfl).collided
  · exact .of_sites rfl

theorem backoffExpiry_kept (h : exec .backoffExpiry s = .next t) : RosterKept s t := by
  cases h
  split
  · exact .of_bus rfl rfl fun _ => rfl
  · exact .of_sites rfl

/-! ### Every event -/

/-- Every row that is not a request's keeps and changes records; it adds none (R14). -/
theorem event_kept {c : Instr} (row : requestRow c = none) (h : exec c s = .next t) : RosterKept s t := by
  cases c with
  | deviceReset freeze levels => exact deviceReset_kept h
  | passTimerExpiry => exact passTimerExpiry_kept h
  | freshnessExpiry a => exact freshnessExpiry_kept h
  | freezeAssertion => exact freezeAssertion_kept h
  | poll => exact poll_kept h
  | replyWindowExpiry | pollEndOnQuiet | replyGap => exact pollEnd_kept _ (by simp) h
  | report characters => exact report_kept h
  | blockComplete => exact blockComplete_kept h
  | collision => exact collision_kept h
  | backoffExpiry => exact backoffExpiry_kept h
  | tenthElapsed | rampTimerExpiry | freezeDeassertion | holdExpiry slot product | shortfallEvaluation
  | lossTimerExpiry | holdTimerExpiry | refreshTimerExpiry | injectionEnd
  | closingTimerExpiry kind =>
    cases h
    refine .of_sites ?_
    repeat' split
    all_goals simp [State.sites, State.raiseFreeze]
  | gsenseRisingEdge edge =>
    simp only [exec, execGsenseRisingEdge] at h
    cases h
    refine .of_sites ?_
    repeat' split
    all_goals simp [State.sites]
  | dispatchBlock | pollSent | rateCheckFailed span | replyParityError | replyStart =>
    cases h
    refine .of_sites ?_
    repeat' split
    all_goals rfl
  | telegramComplete p front request check | overrunResponse p | responseTransmitted p | framingError character
  | lengthOutOfRange p length | gap p | linkBreak p | breakEnd p | telegramLead character =>
    cases h
    refine .of_sites ?_
    repeat' split
    all_goals simp [State.sites]
  | _ => nomatch row

end

end Sys2Proof.Machine
end

