-- ==== Sys2Proof/Proofs/RosterCommands.lean ====
section
/-! PROOFS. Every request, and with the events every command, as a change of the roster. -/

namespace Sys2Proof.Machine

open Sys2Proof.Safety

/-! ### The requests that reach the roster or the bus (R14 to R17, R44, R148, R149, R161) -/

section
variable (s : State)

theorem ownEnroll_step (a rated capacity floor ceiling : Nat) :
    RosterStep s (ownEnroll a rated capacity floor ceiling s).state := by
  have same : RosterStep s s := .kept (.of_sites rfl)
  cases range : enrollInRange a rated capacity floor ceiling with
  | false => rw [ownEnroll_badValue range]; exact same
  | true =>
    cases unused : siteAt s.roster (BitVec.ofNat 12 a) with
    | some r => rw [ownEnroll_addressTaken range unused]; exact same
    | none =>
      rcases Nat.lt_or_ge s.roster.length s.member.siteCapacity with room | full
      · rw [ownEnroll_ok range unused room]
        exact .enrolled a rated capacity floor ceiling range unused room rfl
      · rw [ownEnroll_rosterFull range unused full]
        exact same

theorem ownAmend_kept (a floor ceiling : Nat) : RosterKept s (ownAmend a floor ceiling s).state := by
  have same : RosterKept s s := .of_sites rfl
  cases range : addressInRange a && limitsInRange floor ceiling with
  | false => rw [ownAmend_badValue range]; exact same
  | true =>
    cases found : siteAt s.roster (BitVec.ofNat 12 a) with
    | none => rw [ownAmend_noSuchSite range found]; exact same
    | some r =>
      cases life : r.lifecycle with
      | leaving => rw [ownAmend_notNow range found life]; exact same
      | enrolled =>
        rw [ownAmend_ok range found life]
        exact .of_map _ rfl rfl id fun q _ => siteChange_ite (fun q => q.address = BitVec.ofNat 12 a)
          (f := fun q => { q with floor, ceiling }) fun _ => .amended q floor ceiling (Bool.and_eq_true_iff.1 range).2

/-- REMOVE marks the record LEAVING while the bus carries blocks, and drops it at once otherwise (R17). -/
theorem ownRemove_kept (a : Nat) : RosterKept s (ownRemove a s).state := by
  have same : RosterKept s s := .of_sites rfl
  rcases Nat.lt_or_ge a 4096 with range | range
  · cases found : siteAt s.roster (BitVec.ofNat 12 a) with
    | none => rw [ownRemove_noSuchSite range found]; exact same
    | some r =>
      cases life : r.lifecycle with
      | leaving => rw [ownRemove_notNow range found life]; exact same
      | enrolled =>
        cases carries : s.bus.state.carriesBlocks with
        | true =>
          rw [ownRemove_leaving range found life carries]
          exact .of_map _ rfl rfl id fun q _ => siteChange_ite (fun q => q.address = BitVec.ofNat 12 a)
            (f := Site.leave s.disp.passes) fun _ => .left q _ carries
        | false =>
          rw [ownRemove_deleted range found life carries]
          exact same.filter _ rfl rfl (.inl rfl)
  · rw [ownRemove_badValue range]
    exact same

theorem ownResume_kept : RosterKept s (ownResume s).state := by
  unfold ownResume
  split
  · exact .of_sites rfl
  · exact .of_map _ rfl rfl id fun q _ => .rewritten q

theorem ownBusEnable_kept : RosterKept s (ownBusEnable s).state := by
  unfold ownBusEnable
  split
  · exact .of_bus rfl rfl fun _ => rfl
  · exact .of_sites rfl

theorem ownBusRestore_kept : RosterKept s (ownBusRestore s).state := by
  unfold ownBusRestore
  split
  · exact .of_bus rfl rfl fun _ => rfl
  · exact .of_sites rfl

theorem ownBusDisable_kept : RosterKept s (ownBusDisable s).state := by
  have same : RosterKept s s := .of_sites rfl
  unfold ownBusDisable
  split
  · split
    · exact same.enterDisabled
    · exact same.enterDraining
  · exact same.enterDisabled
  · exact same.enterDisabled
  · exact same
  · exact same

/-- No other request reaches the roster, the member or the bus state. -/
theorem ownOf_kept (p : Port) (r : Request)
    (other : ∀ a rated capacity floor ceiling, r ≠ .enroll a rated capacity floor ceiling) :
    RosterKept s (ownOf p r s).state := by
  cases r with
  | enroll a rated capacity floor ceiling => exact absurd rfl (other _ _ _ _ _)
  | amend a floor ceiling => exact ownAmend_kept s a floor ceiling
  | remove a => exact ownRemove_kept s a
  | resume => exact ownResume_kept s
  | busEnable => exact ownBusEnable_kept s
  | busDisable => exact ownBusDisable_kept s
  | busRestore => exact ownBusRestore_kept s
  | _ =>
    refine .of_sites ?_
    simp only [ownOf]
    try simp only [ownSetTime, State.moveClock, ownReadSite, ownSetItems]
    try simp only [ownDefineWindow, ownClearWindow, ownSetBranch, ownSetDefaultClass, editWith, ownSuspend, ownQueryClass,
      ownReadWindows]
    try simp only [ownSetOfferParams, ownOfferQuery, ownHold, State.holdAt, State.grant, ownAward, ownRelease,
      State.settleHold, ownReadBook]
    try simp only [ownSetMeter, ownReadMeter, ownSetFlParams, ownArmFl, ownDisarmFl, armAnswer, ownSetPoint,
      ownSetSlParams, ownEnterTest, ownInject, ownLeaveTest]
    try simp only [ownReadBranchLoad, ownReadResponse, ownReadJournal, ownReleaseJournal]
    try simp only [ownBusConfig, busAnswer]
    try simp only [ownSetLinkMode, ownStatus, ownIdentify, refuse]
    repeat' split
    all_goals simp [State.sites]

theorem ownOf_rosterStep (p : Port) (r : Request) : RosterStep s (ownOf p r s).state := by
  by_cases enroll : ∃ a rated capacity floor ceiling, r = .enroll a rated capacity floor ceiling
  · obtain ⟨a, rated, capacity, floor, ceiling, rfl⟩ := enroll
    exact ownEnroll_step s a rated capacity floor ceiling
  · push Not at enroll
    exact .kept (ownOf_kept s p r enroll)

end

/-! ### Every command -/

section
variable {s d t : State}

/-- What a change of the records reads of a state. -/
theorem SiteChange.congr {r x : Site} (h : SiteChange d r x) (sites : d.sites = s.sites) (now : d.now = s.now)
    (windows : d.windows = s.windows) : SiteChange s r x := by
  obtain ⟨roster, member, bus⟩ := sites_eq_iff.1 sites
  have roster_law : RosterLaw s → RosterLaw d := by simp only [RosterLaw, roster, member]; exact id
  have window_law : WindowLaw s → WindowLaw d := by simp only [WindowLaw, member, windows]; exact id
  cases h with
  | unchanged => exact .unchanged r
  | amended floor ceiling range => exact .amended r floor ceiling range
  | left n carries => exact .left r n (bus ▸ carries)
  | rewritten => exact windows ▸ .rewritten r
  | reported bytes => exact now ▸ .reported r bytes
  | failed o => exact .failed r o
  | marked mark => exact .marked r mark
  | staled fresh => exact .staled r fun sorted => fresh (roster_law sorted)
  | silenced => exact .silenced r
  | instructed x range => exact .instructed r x fun sorted legal => range (roster_law sorted) (window_law legal)

/-- Taking a telegram out of its FIFO moves nothing that the roster reads. -/
theorem RosterStep.of_dequeue {p : Port} (h : RosterStep (s.dequeue p) t) : RosterStep s t := by
  cases h with
  | kept h =>
    obtain ⟨member, ⟨keep, change, records, changes⟩, leaving⟩ := h
    simp only [dequeue_member, dequeue_roster, dequeue_bus] at member records changes leaving
    exact .kept ⟨member, ⟨keep, change, records, fun r hr =>
      (changes r hr).congr (by simp [State.sites]) (by simp) (by simp)⟩, leaving⟩
  | enrolled a rated capacity floor ceiling range unused room sites =>
    simp only [dequeue_member, dequeue_roster, dequeue_bus, dequeue_windows] at unused room sites
    exact .enrolled a rated capacity floor ceiling range unused room sites

theorem request_rosterStep {c : Instr} {p : Port} {r : Request} (row : requestRow c = some (p, r))
    (h : exec c s = .next t) : RosterStep s t := by
  rw [exec_request s row] at h
  cases h
  rcases serve_cases s p r (ownOf p r) with eq | ⟨u, code, -, -, eq⟩ | ⟨u, -, -, eq⟩ <;> rw [eq]
  · exact .kept (.of_sites rfl)
  · exact .kept (.of_sites (by simp [State.sites]))
  · exact (ownOf_rosterStep (s.dequeue p) p r).of_dequeue.congr (by simp [State.sites])

/-- Every command keeps and changes records of the roster, or adds one. -/
theorem exec_rosterStep {c : Instr} (h : exec c s = .next t) : RosterStep s t := by
  cases row : requestRow c with
  | none => exact .kept (event_kept row h)
  | some pr => exact request_rosterStep row h

end

end Sys2Proof.Machine
end

