-- ==== Sys2Proof/Proofs/RosterLaws.lean ====
section
/-! PROOFS. The laws of the roster (R13, R15, R18, R23, R35) through every change of the roster. -/

namespace Sys2Proof.Machine

open Sys2Proof.Safety

/-! ### Resolved caps (R31, R32, R35) -/

theorem smallest_mem {xs : List Nat} {y : Nat} (h : smallest xs = some y) : y ∈ xs := by
  induction xs generalizing y with
  | nil => cases h
  | cons x xs ih =>
    simp only [smallest] at h
    split at h
    · cases h
      exact List.mem_cons_self
    · next z rest =>
      cases h
      rcases Nat.le_total x z with le | le
      · rw [Nat.min_eq_left le]
        exact List.mem_cons_self
      · rw [Nat.min_eq_right le]
        exact List.mem_cons_of_mem x (ih rest)

/-- Every window that takes part carries a cap within its range, or none. -/
theorem taking_cap {m : Member} {c : Contents} (h : ContentsLaw m c) (a : Address) {w : Option SiteClass × Option Nat}
    (mem : w ∈ c.taking a) : capInRange w.2 = true := by
  rcases List.mem_append.1 mem with branch | variable_window
  · split at branch
    · rw [List.mem_singleton.1 branch]
      exact (branch_law h _).1
    · cases branch
  · obtain ⟨-, -, -, variable_laws⟩ := h
    obtain ⟨v, hv, rfl⟩ := List.mem_map.1 variable_window
    exact (variable_laws v (List.mem_of_mem_filter hv)).1

/-- The cap that a legal table resolves for an address is a cap of one of its windows. -/
theorem resolve_cap {m : Member} {c : Contents} (h : ContentsLaw m c) (a : Address) :
    capInRange (c.resolve a).2 = true := by
  unfold Contents.resolve
  split
  · rfl
  · cases least : smallest ((c.taking a).filterMap Prod.snd) with
    | none => rfl
    | some y =>
      obtain ⟨w, mem, cap⟩ := List.mem_filterMap.1 (smallest_mem least)
      exact cap ▸ taking_cap h a mem

/-! ### One record (R13, R23) -/

/-- A new record of a legal ENROLL stands within its table (R15). -/
theorem enrolled_law {a rated capacity floor ceiling : Nat} (range : enrollInRange a rated capacity floor ceiling = true)
    {m : Member} {c : Contents} (windows : ContentsLaw m c) (b : Address) :
    SiteLaw (.enrolled b rated capacity floor ceiling (c.resolve b)) := by
  obtain ⟨-, rated_low, rated_high, tens, capacity_low, capacity_high, limits⟩ := (enrollInRange_iff ..).1 range
  refine ⟨⟨rated_low, rated_high, tens, capacity_low, capacity_high, (limitsInRange_iff ..).2 limits, nofun, nofun, nofun,
    nofun, nofun, nofun, resolve_cap windows b, Nat.zero_le _, rfl⟩, ?_, ?_, nofun, nofun, fun _ => rfl, ?_⟩
  all_goals simp [Site.enrolled, Site.isLeaving]

variable {s : State} {r x : Site}

/-- The clamped figures of a good report are within R13's table (R21). -/
theorem takeReport_law {now : Option Time} (clock : ∀ t ∈ now, TimeLaw t) (law : SiteLaw r) (bytes : List Byte) :
    SiteLaw (r.takeReport now (reportOf bytes)) := by
  obtain ⟨⟨rated_low, rated_high, tens, capacity_low, capacity_high, limits, -, -, -, -, -, -, cap, setpoint⟩,
    -, -, -, -, -, leaving⟩ := law
  refine ⟨⟨rated_low, rated_high, tens, capacity_low, capacity_high, limits, clock, ?_, ?_, ?_, ?_, ?_, cap, setpoint⟩,
    by simp [Site.takeReport], by simp [Site.takeReport], fun _ => ⟨rfl, rfl⟩, nofun, nofun, leaving⟩
  · rintro _ ⟨⟩
    exact Nat.min_le_right _ _
  · rintro _ ⟨⟩
    show (max (-(r.rated : Int)) (min r.rated (reportOf bytes).measured)).natAbs ≤ r.rated
    omega
  · intro w hw
    obtain ⟨v, -, rfl⟩ := Option.map_eq_some_iff.1 hw
    exact Nat.min_le_right _ _
  · exact fun _ hw => optionalField_le hw
  · exact fun _ hw => optionalField_le hw

/-- Every change that a command can make to a record keeps it within its law. -/
theorem SiteChange.law (h : SiteChange s r x) (roster : RosterLaw s) (windows : WindowLaw s) (clock : ClockLaw s)
    (law : SiteLaw r) : SiteLaw x := by
  cases h with
  | unchanged | failed o | marked mark => exact law
  | reported bytes => exact takeReport_law clock law bytes
  | amended floor ceiling range =>
    obtain ⟨⟨rated_low, rated_high, tens, capacity_low, capacity_high, -, values⟩, rest⟩ := law
    exact ⟨⟨rated_low, rated_high, tens, capacity_low, capacity_high, range, values⟩, rest⟩
  | left n carries =>
    obtain ⟨ranges, soc, measured, fresh, stale, silent, -⟩ := law
    exact ⟨ranges, soc, measured, fresh, stale, silent, by simp [Site.leave, Site.isLeaving]⟩
  | rewritten =>
    obtain ⟨⟨rated_low, rated_high, tens, capacity_low, capacity_high, limits, last, soc, measured, available, household,
      pv, -, setpoint⟩, rest⟩ := law
    exact ⟨⟨rated_low, rated_high, tens, capacity_low, capacity_high, limits, last, soc, measured, available, household,
      pv, resolve_cap windows.1 r.address, setpoint⟩, rest⟩
  | staled fresh =>
    obtain ⟨ranges, soc, measured, of_fresh, -, -, leaving⟩ := law
    exact ⟨ranges, soc, measured, nofun, fun _ => ⟨rfl, (of_fresh (fresh roster)).2⟩, nofun, leaving⟩
  | silenced =>
    obtain ⟨ranges, soc, measured, -, -, -, leaving⟩ := law
    exact ⟨ranges, soc, measured, nofun, nofun, fun _ => rfl, leaving⟩
  | instructed x range =>
    obtain ⟨within, tens_x⟩ := range roster windows
    obtain ⟨⟨rated_low, rated_high, tens, capacity_low, capacity_high, limits, last, soc, measured, available, household,
      pv, cap, -, -⟩, rest⟩ := law
    exact ⟨⟨rated_low, rated_high, tens, capacity_low, capacity_high, limits, last, soc, measured, available, household,
      pv, cap, within.trans rated_high, tens_x⟩, rest⟩

/-! ### The roster -/

/-- A record for a free address is added in its place. -/
theorem addSite_sorted {x : Site} {rs : List Site} (sorted : rs.Pairwise fun p q => p.address < q.address)
    (unused : ∀ r ∈ rs, r.address ≠ x.address) : (addSite x rs).Pairwise fun p q => p.address < q.address := by
  induction rs with
  | nil => exact List.pairwise_singleton _ _
  | cons y ys ih =>
    obtain ⟨below, sorted_ys⟩ := List.pairwise_cons.1 sorted
    have apart : y.address ≠ x.address := unused y List.mem_cons_self
    unfold addSite List.orderedInsert
    split
    · next le =>
      have lt : x.address < y.address := by bv_omega
      refine List.pairwise_cons.2 ⟨fun z hz => ?_, sorted⟩
      rcases List.mem_cons.1 hz with rfl | hz
      · exact lt
      · exact BitVec.lt_trans lt (below z hz)
    · next gt =>
      refine List.pairwise_cons.2 ⟨fun z hz => ?_, ih sorted_ys fun r hr => unused r (List.mem_cons_of_mem y hr)⟩
      rcases List.mem_cons.1 ((addSite_perm x ys).mem_iff.1 hz) with rfl | hz
      · bv_omega
      · exact below z hz

variable {t : State}

theorem roster_of_sites {rs : List Site} (sites : t.sites = (rs, s.member, s.bus.state)) :
    t.roster = rs ∧ t.member = s.member ∧ t.bus.state = s.bus.state := by
  simpa [State.sites] using sites

theorem RosterStep.rosterLaw (h : RosterStep s t) (law : RosterLaw s) : RosterLaw t := by
  obtain ⟨sorted, within⟩ := law
  cases h with
  | kept h =>
    obtain ⟨member, ⟨keep, change, records, changes⟩, -⟩ := h
    have kept : (s.roster.filter keep).Sublist s.roster := List.filter_sublist
    rw [RosterLaw, records, member, List.length_map]
    refine ⟨List.pairwise_map.2 ((sorted.sublist kept).imp_of_mem fun {p q} hp hq lt => ?_), kept.length_le.trans within⟩
    rwa [(changes p (kept.subset hp)).address, (changes q (kept.subset hq)).address]
  | enrolled a rated capacity floor ceiling range unused room sites =>
    obtain ⟨roster, member, -⟩ := roster_of_sites sites
    rw [RosterLaw, roster, member, (addSite_perm _ _).length_eq]
    exact ⟨addSite_sorted sorted ((siteAt_eq_none_iff _ _).1 unused), room⟩

theorem RosterStep.sitesLaw (h : RosterStep s t) (roster : RosterLaw s) (windows : WindowLaw s) (clock : ClockLaw s)
    (law : SitesLaw s) : SitesLaw t := by
  intro x hx
  cases h with
  | kept h =>
    obtain ⟨-, ⟨keep, change, records, changes⟩, -⟩ := h
    obtain ⟨r, hr, rfl⟩ := List.mem_map.1 (records ▸ hx)
    have mem : r ∈ s.roster := List.mem_of_mem_filter hr
    exact (changes r mem).law roster windows clock (law r mem)
  | enrolled a rated capacity floor ceiling range unused room sites =>
    obtain ⟨added, -, -⟩ := roster_of_sites sites
    rcases List.mem_cons.1 ((addSite_perm _ _).mem_iff.1 (added ▸ hx)) with rfl | mem
    · exact enrolled_law range windows.2.1 _
    · exact law x mem

/-- Only a REMOVE while the bus carries blocks makes a record LEAVING, and the bus state that ends this deletes it. -/
theorem RosterStep.leavingLaw (h : RosterStep s t) (law : LeavingLaw s) : LeavingLaw t := by
  intro x hx leaving
  cases h with
  | kept h =>
    obtain ⟨-, ⟨keep, change, records, changes⟩, bus⟩ := h
    obtain ⟨r, hr, rfl⟩ := List.mem_map.1 (records ▸ hx)
    have mem : r ∈ s.roster := List.mem_of_mem_filter hr
    have carries : s.bus.state.carriesBlocks = true := ((changes r mem).leaving leaving).elim (law r mem) id
    rcases bus carries with carries | none_leaving
    · exact carries
    · exact absurd leaving (by simp [none_leaving _ hx])
  | enrolled a rated capacity floor ceiling range unused room sites =>
    obtain ⟨added, -, bus⟩ := roster_of_sites sites
    rcases List.mem_cons.1 ((addSite_perm _ _).mem_iff.1 (added ▸ hx)) with rfl | mem
    · cases leaving
    · exact bus ▸ law x mem leaving

end Sys2Proof.Machine
end

