-- ==== Sys2Proof/Proofs/RosterInvariantObligations.lean ====
section
/-! PROOFS. The invariants of the roster (O19, O20), from what every command can do to it. -/

namespace Sys2Proof.Proofs

open Sys2Proof.Machine Sys2Proof.Safety

/-- Settles O19: every command adds one record for a free address within the capacity, or keeps some records and changes
each in a way that leaves its address and its ranges. -/
theorem rosterInvariant : Obligations.RosterInvariant := by
  intro c s t h
  have step : RosterStep s t := exec_rosterStep h
  exact ⟨step.rosterLaw, step.sitesLaw⟩

/-- Settles O20: a record becomes LEAVING only while the bus carries blocks, and the commands that end this drop it. -/
theorem leavingInvariant : Obligations.LeavingInvariant := by
  intro c s t law h
  exact (exec_rosterStep h).leavingLaw law

end Sys2Proof.Proofs
end

