-- ==== Sys2Proof/Proofs/TableChanges.lean ====
section
/-! PROOFS. What a command leaves of the pins, the window table and the classes of the records: the operations behind the
events, each once. -/

namespace Sys2Proof.Machine

open Sys2Proof.Safety

/-! ### The classes and caps of the records (R13, R35) -/

/-- The address of a record with the class and cap it carries. -/
def Site.resolution (r : Site) : Address × SiteClass × Option Nat := (r.address, r.effClass, r.effCap)

/-- The addresses of the roster with the classes and caps their records carry. -/
def State.resolutions (s : State) : List (Address × SiteClass × Option Nat) := s.roster.map Site.resolution

/-- The resolution law reads the addresses, classes and caps of the records alone (R36). -/
theorem resolutionLaw_iff (s : State) :
    ResolutionLaw s ↔ ∀ x ∈ s.resolutions, x.2 = s.windows.inForce.resolve x.1 := by
  simp [ResolutionLaw, State.resolutions, Site.resolution]

/-- The step leaves the waiting commands, the member, the pins and the window table, adds no record and gives none another
class or cap. -/
structure TableKept (s t : State) : Prop where
  outside : t.outside = s.outside
  windows : t.windows = s.windows
  classes : t.resolutions ⊆ s.resolutions

section
variable {s t u : State}

theorem outside_eq_iff : t.outside = s.outside ↔
    t.pending = s.pending ∧ t.member = s.member ∧ t.freeze = s.freeze ∧ t.lrate = s.lrate := by simp [State.outside]

theorem TableKept.refl (s : State) : TableKept s s := ⟨rfl, rfl, List.Subset.refl _⟩

theorem TableKept.trans (h : TableKept s t) (h' : TableKept t u) : TableKept s u :=
  ⟨h'.outside.trans h.outside, h'.windows.trans h.windows, List.Subset.trans h'.classes h.classes⟩

theorem TableKept.of_roster (outside : t.outside = s.outside) (windows : t.windows = s.windows)
    (roster : t.roster = s.roster) : TableKept s t :=
  ⟨outside, windows, by rw [State.resolutions, roster]; exact List.Subset.refl _⟩

/-- Records that are changed in place keep their classes and caps where each change does. -/
theorem TableKept.of_map {change : Site → Site} (outside : t.outside = s.outside) (windows : t.windows = s.windows)
    (roster : t.roster = s.roster.map change) (changes : ∀ r, (change r).resolution = r.resolution) : TableKept s t := by
  refine ⟨outside, windows, ?_⟩
  rw [State.resolutions, roster, List.map_map, show Site.resolution ∘ change = Site.resolution from funext changes]
  exact List.Subset.refl _

/-- Records that are deleted leave the classes and caps of the others. -/
theorem TableKept.of_filter {keep : Site → Bool} (outside : t.outside = s.outside) (windows : t.windows = s.windows)
    (roster : t.roster = s.roster.filter keep) : TableKept s t := by
  refine ⟨outside, windows, ?_⟩
  rw [State.resolutions, roster]
  exact (List.filter_sublist.map _).subset

end

section
variable (s : State)

/-! ### Records in place (R16, R17, R21 to R23) -/

theorem changeSite_kept (a : Address) {f : Site → Site} (h : ∀ r, (f r).resolution = r.resolution) :
    TableKept s { s with roster := changeSite a f s.roster } :=
  .of_map rfl rfl rfl fun r => by split <;> [exact h r; rfl]

theorem changePolled_kept (a : Address) {f : Site → Site} (h : ∀ r, (f r).resolution = r.resolution) :
    TableKept s { s with roster := changePolled a f s.roster } :=
  changeSite_kept s a fun r => by split <;> [exact h r; rfl]

theorem requestEval_tableKept : TableKept s s.requestEval := .of_roster rfl rfl rfl

/-! ### The bus (R148, R149, R152, R155, R160, R161) -/

theorem enterDisabled_tableKept : TableKept s s.enterDisabled := .of_filter rfl rfl rfl

theorem enterDraining_tableKept : TableKept s s.enterDraining := .of_filter rfl rfl rfl

theorem endFrame_tableKept : TableKept s s.endFrame := by
  rcases endFrame_cases s with ⟨-, eq⟩ | ⟨-, eq⟩ <;> rw [eq]
  · exact enterDisabled_tableKept s
  · exact .of_roster rfl rfl rfl

theorem collided_tableKept : TableKept s s.collided := by
  rcases collided_cases s with ⟨-, eq⟩ | ⟨-, -, eq⟩ | ⟨-, -, eq⟩ <;> rw [eq]
  · exact enterDisabled_tableKept s
  · exact .of_roster rfl rfl rfl
  · exact .of_filter rfl rfl rfl

theorem failedPoll_tableKept (a : Address) (o : PollOutcome) : TableKept s (s.failedPoll a o) :=
  changePolled_kept s a fun _ => rfl

theorem endPoll_tableKept (a : Address) (o : PollOutcome) : TableKept s (s.endPoll a o) :=
  (failedPoll_tableKept s a o).trans (endFrame_tableKept _)

theorem goodReport_tableKept (a : Address) (q : Report) : TableKept s (s.goodReport a q) := by
  have written : TableKept s { s with roster := changePolled a (Site.takeReport s.now q) s.roster } :=
    changePolled_kept s a fun _ => rfl
  cases found : polledAt s.roster a with
  | none => rw [goodReport_deleted found]; exact .refl s
  | some r =>
    by_cases offline : r.status = some .ready ∧ q.status = .offline
    · rw [goodReport_to_offline found offline.1 offline.2]
      exact written.trans (requestEval_tableKept _)
    · rw [goodReport_plain found offline]
      exact written

theorem takeReply_tableKept (a : Address) (bytes : List Byte) : TableKept s (s.takeReply a bytes) := by
  rcases takeReply_cases s a bytes with ⟨-, eq⟩ | ⟨-, eq⟩ <;> rw [eq]
  · exact (goodReport_tableKept s a _).trans (endFrame_tableKept _)
  · exact endPoll_tableKept s a _

theorem endRound_tableKept : TableKept s s.endRound := .of_roster rfl rfl rfl

theorem beginPoll_tableKept (a : Address) : TableKept s (s.beginPoll a) := by
  have marked : TableKept s { s with
      roster := markPolled a s.roster, bus := { s.bus with frame := .poll a s.bus.items .transmitting, pointer := a + 1 } } :=
    .of_map rfl rfl rfl fun _ => rfl
  unfold State.beginPoll
  split
  · exact marked.trans (endRound_tableKept _)
  · exact marked

/-! ### Passes and FREEZE (R50, R137, R159) -/

theorem pass_tableKept (c : PassCause) : TableKept s (s.pass c) :=
  .of_map (by simp [State.outside]) (by simp) (pass_roster c) fun _ => rfl

theorem raiseFreeze_tableKept : TableKept s s.raiseFreeze := .of_roster rfl rfl rfl

theorem freezeBus_tableKept : TableKept s s.freezeBus := by
  have cut : TableKept s { s with bus := { s.bus with queue := s.bus.queue.filter fun b => b.freeze } } :=
    .of_roster rfl rfl rfl
  unfold State.freezeBus
  split
  · exact cut.trans (endFrame_tableKept _)
  · exact cut

/-- An assertion moves the FREEZE level and nothing else of these (R50). -/
theorem assertFreeze_tableKept : TableKept { s with freeze := true } s.assertFreeze := by
  have flagged : TableKept { s with freeze := true } { s with freeze := true, journal := s.journal.flagFreeze } :=
    .of_roster rfl rfl rfl
  exact ((flagged.trans (raiseFreeze_tableKept _)).trans (freezeBus_tableKept _)).trans (pass_tableKept _ _)

end

end Sys2Proof.Machine
end

