-- ==== Sys2Proof/Proofs/TableEvents.lean ====
section
/-! PROOFS. Every event that is not a request's, as a step that keeps the pins, the window table and the classes of the
records; the FREEZE events move the level alone, and the reset is apart. -/

namespace Sys2Proof.Machine

open Sys2Proof.Safety

section
variable {s t : State}

theorem freshnessExpiry_tableKept {a : Address} (h : exec (.freshnessExpiry a) s = .next t) : TableKept s t := by
  have silenced : TableKept s { s with
      roster := changeSite a (fun r => { r with freshness := .silent, freshnessTimer := none }) s.roster } :=
    changeSite_kept s a fun _ => rfl
  simp only [exec, execFreshnessExpiry] at h
  cases found : siteAt s.roster a with
  | none =>
    simp only [found] at h
    cases h
    exact .refl s
  | some r =>
    simp only [found] at h
    split at h
    · cases h
      exact changeSite_kept s a fun _ => rfl
    · split at h <;> cases h
      · exact silenced
      · exact silenced.trans (.of_roster rfl rfl rfl)
    · cases h
      exact .refl s

theorem poll_tableKept (h : exec .poll s = .next t) : TableKept s t := by
  cases h
  split
  · split
    · exact beginPoll_tableKept s _
    · split
      · exact .refl s
      · split
        · exact (endRound_tableKept s).trans (beginPoll_tableKept _ _)
        · exact endRound_tableKept s
  · exact .refl s

theorem collision_tableKept (h : exec .collision s = .next t) : TableKept s t := by
  have emptied : TableKept s { s with bus := { s.bus with queue := [] } } := .of_roster rfl rfl rfl
  cases h
  split
  · exact (failedPoll_tableKept s _ _).trans (collided_tableKept _)
  · exact emptied.trans (collided_tableKept _)
  · exact .refl s

theorem blockComplete_tableKept (h : exec .blockComplete s = .next t) : TableKept s t := by
  cases h
  split
  · next b _ =>
    have dropped : TableKept s { s with
        roster := s.roster.filter fun r => !r.endedBy b, bus := { s.bus with collisions := 0 } } := .of_filter rfl rfl rfl
    exact dropped.trans (endFrame_tableKept _)
  · exact .refl s

/-- The FREEZE events leave the level they are named for: high after an assertion, low after a deassertion (R50). -/
theorem freezeAssertion_tableKept (h : exec .freezeAssertion s = .next t) : TableKept { s with freeze := true } t := by
  cases h
  split
  · next high =>
    have same : ({ s with freeze := true } : State) = s := by rw [← high]
    exact same ▸ .refl s
  · exact assertFreeze_tableKept s

theorem freezeDeassertion_tableKept (h : exec .freezeDeassertion s = .next t) : TableKept { s with freeze := false } t := by
  cases h
  split
  · exact raiseFreeze_tableKept _
  · next low =>
    have same : ({ s with freeze := false } : State) = s := by rw [← Bool.eq_false_iff.2 low]
    exact same ▸ .refl s

/-- Every other event, but the reset. -/
theorem event_tableKept {c : Instr} (row : requestRow c = none) (reset : ∀ f l, c ≠ .deviceReset f l)
    (assertion : c ≠ .freezeAssertion) (deassertion : c ≠ .freezeDeassertion) (h : exec c s = .next t) : TableKept s t := by
  cases c with
  | deviceReset f l => exact absurd rfl (reset f l)
  | freezeAssertion => exact absurd rfl assertion
  | freezeDeassertion => exact absurd rfl deassertion
  | passTimerExpiry => cases h; exact pass_tableKept s .timer
  | freshnessExpiry a => exact freshnessExpiry_tableKept h
  | poll => exact poll_tableKept h
  | replyWindowExpiry | pollEndOnQuiet | replyGap =>
    cases h
    split
    · exact endPoll_tableKept s _ _
    · exact .refl s
  | report characters =>
    cases h
    split
    · exact takeReply_tableKept s _ _
    · exact .refl s
  | blockComplete => exact blockComplete_tableKept h
  | collision => exact collision_tableKept h
  | backoffExpiry | dispatchBlock | pollSent | rateCheckFailed span | replyParityError | replyStart =>
    cases h
    refine .of_roster ?_ ?_ ?_ <;> repeat' split
    all_goals rfl
  | gsenseRisingEdge edge =>
    simp only [exec, execGsenseRisingEdge] at h
    cases h
    refine .of_roster ?_ ?_ ?_ <;> repeat' split
    all_goals simp [State.outside]
  | tenthElapsed | rampTimerExpiry | holdExpiry slot product | shortfallEvaluation | lossTimerExpiry | holdTimerExpiry
  | refreshTimerExpiry | injectionEnd | closingTimerExpiry kind | telegramComplete p front request check
  | overrunResponse p | responseTransmitted p | framingError character | lengthOutOfRange p length | gap p | linkBreak p
  | breakEnd p | telegramLead character =>
    cases h
    refine .of_roster ?_ ?_ ?_ <;> repeat' split
    all_goals simp [State.outside]
  | _ => nomatch row

/-- Every event but the reset keeps all of this but the FREEZE level, which only the FREEZE events move (R50). -/
theorem event_tableKept_but_level {c : Instr} (row : requestRow c = none) (reset : ∀ f l, c ≠ .deviceReset f l)
    (h : exec c s = .next t) : ∃ level, TableKept { s with freeze := level } t ∧
      (c ≠ .freezeAssertion → c ≠ .freezeDeassertion → level = s.freeze) := by
  by_cases assertion : c = .freezeAssertion
  · exact ⟨true, freezeAssertion_tableKept (assertion ▸ h), absurd assertion⟩
  · by_cases deassertion : c = .freezeDeassertion
    · exact ⟨false, freezeDeassertion_tableKept (deassertion ▸ h), fun _ => absurd deassertion⟩
    · exact ⟨s.freeze, event_tableKept row reset assertion deassertion h, fun _ _ => rfl⟩

end

end Sys2Proof.Machine
end

