-- ==== Sys2Proof/Proofs/EveryCommand.lean ====
section
/-! PROOFS. Every command answers a next state, and what it leaves of the waiting commands, the member and the pins. -/

namespace Sys2Proof.Machine

open Sys2Proof.Safety

/-- No command faults or is refused: the meaning of each row is a next state as it stands. -/
theorem exec_answers (c : Instr) (s : State) : ∃ t, exec c s = .next t := by
  cases c <;> exact ⟨_, rfl⟩

section
variable {s t : State}

@[simp] theorem outside_dequeue (p : Port) : (s.dequeue p).outside = s.outside := by simp [State.outside]

@[simp] theorem outside_respond (p : Port) (u : Telegram) (r : ResultCode) (b : ResponseBody) :
    (s.respond p u r b).outside = s.outside := by simp [State.outside]

/-- A request leaves the waiting commands, the member and the pins. -/
theorem request_outside {c : Instr} {p : Port} {r : Request} (row : requestRow c = some (p, r)) (h : exec c s = .next t) :
    t.outside = s.outside := by
  rw [exec_request s row] at h
  cases h
  rcases serve_cases s p r (ownOf p r) with eq | ⟨u, code, -, -, eq⟩ | ⟨u, -, -, eq⟩ <;> rw [eq]
  · simp
  · simp [ownOf_outside]

/-- A device reset leaves the waiting commands and the member (log 16), no record, and the window table as after reset. -/
theorem deviceReset_table {f : Bool} {l : ResetLevels} (h : exec (.deviceReset f l) s = .next t) :
    t.pending = s.pending ∧ t.member = s.member ∧ t.windows = .reset s.member ∧ t.roster = [] := by
  cases h
  cases f
  · exact ⟨rfl, rfl, rfl, rfl⟩
  · rw [if_pos rfl, assertFreeze_afterReset]
    exact ⟨rfl, rfl, rfl, rfl⟩

/-- Every command but the reset leaves the waiting commands, the member and the strap, and the FREEZE level too unless it is
a FREEZE event (R50, R172). -/
theorem exec_outside {c : Instr} (reset : ∀ f l, c ≠ .deviceReset f l) (h : exec c s = .next t) :
    ∃ level, t.outside = ({ s with freeze := level } : State).outside ∧
      (c ≠ .freezeAssertion → c ≠ .freezeDeassertion → level = s.freeze) := by
  cases row : requestRow c with
  | some pr => exact ⟨s.freeze, request_outside row h, fun _ _ => rfl⟩
  | none =>
    obtain ⟨level, kept, same⟩ := event_tableKept_but_level row reset h
    exact ⟨level, kept.outside, same⟩

end

end Sys2Proof.Machine
end

