-- ==== Sys2Proof/Proofs/EveryCommandObligations.lean ====
section
/-! PROOFS. The statement about every command. -/

namespace Sys2Proof.Proofs

open Sys2Proof.Machine Sys2Proof.Safety

/-- Settles O2: the reset by the state it leaves, every other command by what it leaves of the outside. -/
theorem everyCommandCompletes : Obligations.EveryCommandCompletes := by
  intro c s
  obtain ⟨t, h⟩ := exec_answers c s
  refine ⟨t, h, ?_⟩
  by_cases reset : ∃ f l, c = .deviceReset f l
  · obtain ⟨f, l, rfl⟩ := reset
    obtain ⟨pending, member, -, -⟩ := deviceReset_table h
    exact ⟨pending, member, fun other => absurd rfl (other f l)⟩
  · push Not at reset
    obtain ⟨level, outside, same⟩ := exec_outside reset h
    obtain ⟨pending, member, freeze, lrate⟩ := outside_eq_iff.1 outside
    exact ⟨pending, member, fun _ => ⟨lrate, fun assertion deassertion => freeze.trans (same assertion deassertion)⟩⟩

end Sys2Proof.Proofs
end

