-- ==== Sys2Proof/Proofs/WindowRequests.lean ====
section
/-! PROOFS. The requests of the window table: what the table answers in each case (R31 to R33, R36 to R45). -/

namespace Sys2Proof.Machine

open Sys2Proof.Safety

/-! ### Ranges of the arguments (R31 to R33) -/

theorem capInRange_eq_false_iff (cap : Option Nat) :
    capInRange cap = false ↔ ∃ c, cap = some c ∧ (25000 < c ∨ c % 10 ≠ 0) := by
  cases cap <;> simp [capInRange, -Bool.and_eq_false_imp, Bool.and_eq_false_iff]

theorem branchLimitInRange_eq_false_iff (l : Option Nat) :
    branchLimitInRange l = false ↔ ∃ x, l = some x ∧ (Config.maxBranchLimit < x ∨ x % 10 ≠ 0) := by
  cases l <;> simp [branchLimitInRange, -Bool.and_eq_false_imp, Bool.and_eq_false_iff]

/-- A mask of the legal form is one of 13 numbers (R33). -/
theorem maskForm_iff {mask : Nat} (h : mask < 4096) :
    maskForm (BitVec.ofNat 12 mask) = true ↔ ∃ k ≤ 12, mask = 4096 - 2 ^ (12 - k) := by
  have ones : ∀ k < 13, ((BitVec.allOnes 12) <<< (12 - k)).toNat = 4096 - 2 ^ (12 - k) := by decide
  simp only [maskForm, List.any_eq_true, List.mem_range, beq_iff_eq, ← BitVec.toNat_inj, BitVec.toNat_ofNat]
  rw [Nat.mod_eq_of_lt h]
  refine exists_congr fun k => ⟨fun ⟨small, eq⟩ => ?_, fun ⟨small, eq⟩ => ?_⟩
  · exact ⟨Nat.lt_succ_iff.1 small, eq.trans (ones k small)⟩
  · exact ⟨Nat.lt_succ_iff.2 small, eq.trans (ones k (Nat.lt_succ_iff.2 small)).symm⟩

theorem baseFits_iff {base mask : Nat} (hb : base < 4096) (hm : mask < 4096) :
    baseFits (BitVec.ofNat 12 base) (BitVec.ofNat 12 mask) = true ↔ base &&& mask = base := by
  simp [baseFits, ← BitVec.toNat_inj, Nat.mod_eq_of_lt hb, Nat.mod_eq_of_lt hm]

/-! ### The shape of an edit (R38) -/

section
variable {s : State} {own : Contents → Except ResultCode (Contents × EditedItem)}

theorem editWith_inForce (h : s.windows.state = .inForce) :
    editWith s own = ⟨s, .windowsInForce, .tableState .inForce⟩ := by
  simp [editWith, h, refuse]

variable (h : s.windows.state ≠ .inForce)
include h

theorem editWith_refused {r : ResultCode} (refused : own s.windows.working = .error r) :
    editWith s own = ⟨s, r, .empty⟩ := by
  simp [editWith, h, refused, refuse]

theorem editWith_accepted {c : Contents} {item : EditedItem} (accepted : own s.windows.working = .ok (c, item)) :
    editWith s own = ⟨{ s with windows := { s.windows with working := c } }, .ok, .edited s.windows.state item⟩ := by
  simp [editWith, h, accepted]

end

/-! ### CLEAR_WINDOW and SET_DEFAULT_CLASS (R40, R42) -/

/-- CLEAR_WINDOW's own check and effect (R40). -/
def clearVariable (m : Member) (index : Nat) (c : Contents) : Except ResultCode (Contents × EditedItem) :=
  if index < m.windowCount then .ok (c.setVariable index .reset, .variable .reset) else .error .badValue

theorem ownClearWindow_eq (index : Nat) (s : State) :
    ownClearWindow index s = editWith s (clearVariable s.member index) := rfl

/-- SET_DEFAULT_CLASS's own check and effect (R42). -/
def editDefault (cls : Option SiteClass) (c : Contents) : Except ResultCode (Contents × EditedItem) :=
  match cls with
  | none => .error .badValue
  | some k => .ok ({ c with defaultClass := k }, .defaultClass k)

theorem ownSetDefaultClass_eq (cls : Option SiteClass) (s : State) :
    ownSetDefaultClass cls s = editWith s (editDefault cls) := rfl

/-! ### The checks of DEFINE_WINDOW (R39) -/

section
variable {m : Member} {index base mask : Nat} {cap : Option Nat} {c : Contents}

theorem editVariable_no_class : editVariable m index base mask none cap c = .error .badValue := rfl

theorem editVariable_badValue (cls : Option SiteClass)
    (bad : m.windowCount ≤ index ∨ 4096 ≤ base ∨ 4096 ≤ mask ∨ capInRange cap = false) :
    editVariable m index base mask cls cap c = .error .badValue := by
  cases cls with
  | none => rfl
  | some k => rcases bad with bad | bad | bad | bad <;> simp [editVariable, addressInRange, bad]

variable (hi : index < m.windowCount) (hb : base < 4096) (hm : mask < 4096) (hc : capInRange cap = true) (k : SiteClass)
include hi hb hm hc

theorem editVariable_badMask (form : maskForm (BitVec.ofNat 12 mask) = false) :
    editVariable m index base mask (some k) cap c = .error .badMask := by
  simp [editVariable, addressInRange, hi, hb, hm, hc, form]

theorem editVariable_badBase (form : maskForm (BitVec.ofNat 12 mask) = true)
    (apart : baseFits (BitVec.ofNat 12 base) (BitVec.ofNat 12 mask) = false) :
    editVariable m index base mask (some k) cap c = .error .badBase := by
  simp [editVariable, addressInRange, hi, hb, hm, hc, form, apart]

theorem editVariable_ok (form : maskForm (BitVec.ofNat 12 mask) = true)
    (fits : baseFits (BitVec.ofNat 12 base) (BitVec.ofNat 12 mask) = true) :
    editVariable m index base mask (some k) cap c =
      .ok (c.setVariable index ⟨true, BitVec.ofNat 12 base, BitVec.ofNat 12 mask, k, cap⟩,
        .variable ⟨true, BitVec.ofNat 12 base, BitVec.ofNat 12 mask, k, cap⟩) := by
  simp [editVariable, addressInRange, hi, hb, hm, hc, form, fits]

end

/-! ### The checks of SET_BRANCH (R41) -/

section
variable {b : Nat} {cls : Option (Option SiteClass)} {cap e l : Option Nat} {c : Contents}

theorem editBranch_badValue (bad : 16 ≤ b ∨ cls = some none ∨ capInRange cap = false ∨ branchLimitInRange e = false ∨
    branchLimitInRange l = false) : editBranch b cls cap e l c = .error .badValue := by
  rcases bad with bad | bad | bad | bad | bad
  · simp [editBranch, Config.branchCount, Nat.not_lt.2 bad]
  all_goals simp [editBranch, bad]

theorem editBranch_ok (hb : b < 16) (named : cls ≠ some none) (hc : capInRange cap = true)
    (he : branchLimitInRange e = true) (hl : branchLimitInRange l = true) : editBranch b cls cap e l c =
      .ok ({ c with branches := c.branches.set b ⟨cls.join, cap, e, l⟩ }, .branch ⟨cls.join, cap, e, l⟩) := by
  simp [editBranch, Config.branchCount, hb, named, hc, he, hl]

end

/-! ### SUSPEND and RESUME (R43 to R45) -/

section
variable {s : State}

theorem ownSuspend_inForce (h : s.windows.state = .inForce) : ownSuspend s =
    ⟨{ s with windows := { s.windows with state := .editing } }, .ok, .tableState .editing⟩ := if_pos h

theorem ownSuspend_notNow (h : s.windows.state ≠ .inForce) : ownSuspend s = ⟨s, .notNow, .tableState s.windows.state⟩ :=
  if_neg h

theorem ownResume_notNow (h : s.windows.state = .inForce) : ownResume s = ⟨s, .notNow, .empty⟩ := if_pos h

theorem ownResume_ok (h : s.windows.state ≠ .inForce) : ownResume s =
    ⟨s.putInForce, .ok, .resumed .inForce s.roster.length (s.roster.countP (Site.changedBy s.windows.working))⟩ := if_neg h

/-- The OPEN episodes are flagged (R45). -/
theorem flagWindows_eq (j : Journal) : j.flagWindows = { j with records := j.records.map fun e =>
    if e.state = .isOpen then { e with flags := { e.flags with windowsChanged := true } } else e } := by
  simp [Journal.flagWindows, Journal.mapOpen, Episode.opened]

/-- Everything an accepted RESUME does (R44, R45). -/
theorem putInForce_eq (s : State) : s.putInForce = ({ s with
    windows := ⟨.inForce, s.windows.working, s.windows.working⟩
    roster := s.roster.map fun r => { r with
      effClass := (s.windows.working.resolve r.address).1, effCap := (s.windows.working.resolve r.address).2 }
    journal := { s.journal with records := s.journal.records.map fun e =>
      if e.state = .isOpen then { e with flags := { e.flags with windowsChanged := true } } else e }
    book := { s.book with evalRequests := s.book.evalRequests + 1 } } : State).raise .a .windowsChanged := by
  rw [← flagWindows_eq]
  rfl

/-- The records that a RESUME changes are counted (R44). -/
theorem countP_changedBy (c : Contents) (rs : List Site) :
    rs.countP (Site.changedBy c) = (rs.filter fun r => c.resolve r.address ≠ (r.effClass, r.effCap)).length := by
  rw [List.countP_eq_length_filter]
  congr 1
  exact List.filter_congr fun r _ => by simp [Site.changedBy, bne, beq_eq_decide]

end

end Sys2Proof.Machine
end

