-- ==== Sys2Proof/Proofs/WindowRequestObligations.lean ====
section
/-! PROOFS. The statements about the edits of the window table and about SUSPEND and RESUME. -/

namespace Sys2Proof.Proofs

open Sys2Proof.Machine Sys2Proof.Safety

/-- Settles O24: an edit is refused while IN_FORCE, or answers what its own checks leave of it. -/
theorem windowEdits : Obligations.WindowEdits := by
  intro p t s
  rw [← dequeue_windows s p, ← dequeue_member s p]
  intro d w edited badCap badLimit
  have cap_iff (cap : Option Nat) : badCap cap ↔ capInRange cap = false := (capInRange_eq_false_iff cap).symm
  have limit_iff (l : Option Nat) : badLimit l ↔ branchLimitInRange l = false := (branchLimitInRange_eq_false_iff l).symm
  refine ⟨?inForce, fun editing => ⟨?define, ?clear, ?branch, ?noDefault, ?default⟩⟩
  case inForce =>
    rintro i r row admitted inForce (⟨x, b, m, k, c, rfl⟩ | ⟨x, rfl⟩ | ⟨b, k, c, e, l, rfl⟩ | ⟨k, rfl⟩)
    · exact answers_of_admitted row admitted (editWith_inForce inForce)
    · exact answers_of_admitted row admitted ((ownClearWindow_eq x d).trans (editWith_inForce inForce))
    · exact answers_of_admitted row admitted (editWith_inForce inForce)
    · exact answers_of_admitted row admitted ((ownSetDefaultClass_eq k d).trans (editWith_inForce inForce))
  case define =>
    intro index base mask cls cap admitted i bad form
    have bad_iff : bad ↔ d.member.windowCount ≤ index ∨ 4096 ≤ base ∨ 4096 ≤ mask ∨ capInRange cap = false := by
      rw [← cap_iff]
    have refused {r : ResultCode} (h : editVariable d.member index base mask cls cap w = .error r) :
        Answers i s p t r .empty d := answers_of_admitted rfl admitted (editWith_refused editing h)
    refine ⟨fun h => refused ?_, ?_⟩
    · rcases h with rfl | h
      · exact editVariable_no_class
      · exact editVariable_badValue cls (bad_iff.1 h)
    · rintro k rfl good
      rw [bad_iff] at good
      push Not at good
      obtain ⟨hi, hb, hm, hc⟩ := good
      have hc : capInRange cap = true := by simpa using hc
      have form_iff : maskForm (BitVec.ofNat 12 mask) = true ↔ form := maskForm_iff hm
      refine ⟨fun h => refused (editVariable_badMask hi hb hm hc k ?_),
        fun h apart => refused (editVariable_badBase hi hb hm hc k (form_iff.2 h) ?_), fun h fits => ?_⟩
      · exact Bool.eq_false_iff.2 fun legal => h (form_iff.1 legal)
      · exact Bool.eq_false_iff.2 fun fits => apart ((baseFits_iff hb hm).1 fits)
      · exact answers_of_admitted rfl admitted (editWith_accepted editing
          (editVariable_ok hi hb hm hc k (form_iff.2 h) ((baseFits_iff hb hm).2 fits)))
  case clear =>
    intro index admitted
    exact ⟨fun h => answers_of_admitted rfl admitted
        ((ownClearWindow_eq index d).trans (editWith_refused editing (if_neg (Nat.not_lt.2 h)))),
      fun h => answers_of_admitted rfl admitted
        ((ownClearWindow_eq index d).trans (editWith_accepted editing (if_pos h)))⟩
  case branch =>
    intro b cls cap e l admitted i bad
    have bad_iff : bad ↔ 16 ≤ b ∨ cls = some none ∨ capInRange cap = false ∨ branchLimitInRange e = false ∨
        branchLimitInRange l = false := by rw [← cap_iff, ← limit_iff, ← limit_iff]
    refine ⟨fun h => answers_of_admitted rfl admitted (editWith_refused editing (editBranch_badValue (bad_iff.1 h))),
      fun k good given => ?_⟩
    rw [bad_iff] at good
    push Not at good
    obtain ⟨hb, named, hc, he, hl⟩ := good
    have joined : cls.join = k := by rcases given with ⟨rfl, rfl⟩ | rfl <;> rfl
    rw [← joined]
    exact answers_of_admitted rfl admitted (editWith_accepted editing
      (editBranch_ok hb named (by simpa using hc) (by simpa using he) (by simpa using hl)))
  case noDefault =>
    exact fun admitted => answers_of_admitted rfl admitted
      ((ownSetDefaultClass_eq none d).trans (editWith_refused editing rfl))
  case default =>
    exact fun k admitted => answers_of_admitted rfl admitted
      ((ownSetDefaultClass_eq (some k) d).trans (editWith_accepted editing rfl))

/-- Settles O25: each of the two by the state of the table. -/
theorem suspendResume : Obligations.SuspendResume := by
  intro p t s
  rw [← dequeue_windows s p, ← dequeue_roster s p, ← dequeue_journal s p, ← dequeue_book s p]
  intro d c
  refine ⟨fun admitted => ⟨fun h => answers_of_admitted rfl admitted (ownSuspend_inForce h),
    fun h => answers_of_admitted rfl admitted (ownSuspend_notNow h)⟩,
    fun admitted => ⟨fun h => answers_of_admitted rfl admitted (ownResume_notNow h), fun h => ?_⟩⟩
  rw [← countP_changedBy]
  exact answers_of_admitted rfl admitted ((ownResume_ok h).trans (by rw [putInForce_eq]))

end Sys2Proof.Proofs
end

