-- ==== Sys2Proof/Proofs/TableSteps.lean ====
section
/-! PROOFS. Everything a command can do to the window table and to the classes of the records (R3, R15, R36 to R44). -/

namespace Sys2Proof.Machine

open Sys2Proof.Safety

/-! ### What can happen to the table -/

/-- What the laws of the window table and of the resolution read of a step from `s` to `t`, command by command. -/
inductive TableStep (s t : State) : Prop
  /-- No record is added and none gets another class or cap. -/
  | kept (windows : t.windows = s.windows) (classes : t.resolutions ⊆ s.resolutions)
  /-- ENROLL (R15). -/
  | enrolled (a : Address) (windows : t.windows = s.windows)
      (classes : t.resolutions ⊆ (a, s.windows.inForce.resolve a) :: s.resolutions)
  /-- An edit of the working contents (R38). -/
  | edited (c : Contents) (editing : s.windows.state ≠ .inForce)
      (legal : ContentsLaw s.member s.windows.working → ContentsLaw s.member c)
      (windows : t.windows = { s.windows with working := c }) (roster : t.roster = s.roster)
  /-- SUSPEND (R43). -/
  | suspended (windows : t.windows = { s.windows with state := .editing }) (roster : t.roster = s.roster)
  /-- RESUME (R44). -/
  | resumed (windows : t.windows = ⟨.inForce, s.windows.working, s.windows.working⟩)
      (roster : t.roster = s.roster.map (Site.rewritten s.windows.working))
  /-- The reset (R3). -/
  | reset (windows : t.windows = .reset s.member) (roster : t.roster = [])

section
variable {s t u : State}

theorem TableKept.step (h : TableKept s t) : TableStep s t := .kept h.windows h.classes

/-- A step reads the member, the windows and the roster alone. -/
theorem TableStep.congr (h : TableStep u t) (member : u.member = s.member) (windows : u.windows = s.windows)
    (roster : u.roster = s.roster) : TableStep s t := by
  have resolutions : u.resolutions = s.resolutions := congrArg (List.map Site.resolution) roster
  cases h with
  | kept w classes => exact .kept (windows ▸ w) (resolutions ▸ classes)
  | enrolled a w classes => exact .enrolled a (windows ▸ w) (resolutions ▸ windows ▸ classes)
  | edited c editing legal w r => exact .edited c (windows ▸ editing) (windows ▸ member ▸ legal) (windows ▸ w) (r.trans roster)
  | suspended w r => exact .suspended (windows ▸ w) (r.trans roster)
  | resumed w r => exact .resumed (windows ▸ w) (roster ▸ windows ▸ r)
  | reset w r => exact .reset (member ▸ w) r

theorem TableStep.respond (h : TableStep s t) (p : Port) (x : Telegram) (r : ResultCode) (b : ResponseBody) :
    TableStep s (t.respond p x r b) := by
  have resolutions : (t.respond p x r b).resolutions = t.resolutions :=
    congrArg (List.map Site.resolution) (respond_roster ..)
  cases h with
  | kept w classes => exact .kept (by rwa [respond_windows]) (by rwa [resolutions])
  | enrolled a w classes => exact .enrolled a (by rwa [respond_windows]) (by rwa [resolutions])
  | edited c editing legal w r => exact .edited c editing legal (by rwa [respond_windows]) (by rwa [respond_roster])
  | suspended w r => exact .suspended (by rwa [respond_windows]) (by rwa [respond_roster])
  | resumed w r => exact .resumed (by rwa [respond_windows]) (by rwa [respond_roster])
  | reset w r => exact .reset (by rwa [respond_windows]) (by rwa [respond_roster])

end

/-! ### Edits keep the working contents legal (R31 to R33) -/

section
variable {m : Member} {c c' : Contents} {item : EditedItem}

theorem contentsLaw_setVariable (law : ContentsLaw m c) (i : Nat) {w : VariableWindow} (legal : VariableWindowLaw w) :
    ContentsLaw m (c.setVariable i w) := by
  obtain ⟨branches, varWindows, branch_laws, variable_laws⟩ := law
  refine ⟨branches, List.length_set.trans varWindows, branch_laws, fun v hv => ?_⟩
  rcases List.mem_or_eq_of_mem_set hv with old | rfl
  · exact variable_laws v old
  · exact legal

theorem contentsLaw_setBranch (law : ContentsLaw m c) (b : Nat) {w : BranchWindow} (legal : BranchWindowLaw w) :
    ContentsLaw m { c with branches := c.branches.set b w } := by
  obtain ⟨branches, varWindows, branch_laws, variable_laws⟩ := law
  refine ⟨List.length_set.trans branches, varWindows, fun v hv => ?_, variable_laws⟩
  rcases List.mem_or_eq_of_mem_set hv with old | rfl
  · exact branch_laws v old
  · exact legal

theorem editVariable_legal {index base mask : Nat} {cls : Option SiteClass} {cap : Option Nat}
    (h : editVariable m index base mask cls cap c = .ok (c', item)) (law : ContentsLaw m c) : ContentsLaw m c' := by
  simp only [editVariable] at h
  split at h
  · cases h
  · split at h
    · cases h
    · next range =>
      split at h
      · cases h
      · next form =>
        split at h
        · cases h
        · next fits =>
          cases h
          simp only [Bool.not_eq_true', Bool.not_eq_false, Bool.and_eq_true] at range form fits
          exact contentsLaw_setVariable law index ⟨range.2, form, fits⟩

theorem clearVariable_legal {index : Nat} (h : clearVariable m index c = .ok (c', item)) (law : ContentsLaw m c) :
    ContentsLaw m c' := by
  unfold clearVariable at h
  split at h <;> cases h
  exact contentsLaw_setVariable law index (by decide)

theorem editBranch_legal {b : Nat} {cls : Option (Option SiteClass)} {cap e l : Option Nat}
    (h : editBranch b cls cap e l c = .ok (c', item)) (law : ContentsLaw m c) : ContentsLaw m c' := by
  unfold editBranch at h
  split at h
  · next range =>
    cases h
    simp only [Bool.and_eq_true] at range
    obtain ⟨⟨⟨-, cap⟩, up_limit⟩, down_limit⟩ := range
    exact contentsLaw_setBranch law b ⟨cap, up_limit, down_limit⟩
  · cases h

theorem editDefault_legal {cls : Option SiteClass} (h : editDefault cls c = .ok (c', item)) (law : ContentsLaw m c) :
    ContentsLaw m c' := by
  cases cls <;> cases h
  exact law

end

/-! ### The requests of the table and of the roster -/

section
variable (s : State)

theorem editWith_step {own : Contents → Except ResultCode (Contents × EditedItem)}
    (legal : ∀ c c' item, own c = .ok (c', item) → ContentsLaw s.member c → ContentsLaw s.member c') :
    TableStep s (editWith s own).state := by
  have same : TableStep s s := (TableKept.refl s).step
  by_cases state : s.windows.state = .inForce
  · rw [editWith_inForce state]
    exact same
  · cases result : own s.windows.working with
    | error r => rw [editWith_refused state result]; exact same
    | ok x =>
      rw [editWith_accepted state (c := x.1) (item := x.2) result]
      exact .edited x.1 state (legal _ _ _ result) rfl rfl

theorem ownSuspend_step : TableStep s (ownSuspend s).state := by
  by_cases state : s.windows.state = .inForce
  · rw [ownSuspend_inForce state]
    exact .suspended rfl rfl
  · rw [ownSuspend_notNow state]
    exact (TableKept.refl s).step

theorem ownResume_step : TableStep s (ownResume s).state := by
  by_cases state : s.windows.state = .inForce
  · rw [ownResume_notNow state]
    exact (TableKept.refl s).step
  · rw [ownResume_ok state]
    exact .resumed rfl rfl

theorem ownEnroll_tableStep (a rated capacity floor ceiling : Nat) :
    TableStep s (ownEnroll a rated capacity floor ceiling s).state := by
  have same : TableStep s s := (TableKept.refl s).step
  simp only [ownEnroll]
  repeat' split
  case h_2.isFalse => exact .enrolled (BitVec.ofNat 12 a) rfl ((addSite_perm _ _).map Site.resolution).subset
  all_goals exact same

theorem ownAmend_tableKept (a floor ceiling : Nat) : TableKept s (ownAmend a floor ceiling s).state := by
  have amended : TableKept s { s with
      roster := changeSite (BitVec.ofNat 12 a) (fun r => { r with floor, ceiling }) s.roster } :=
    changeSite_kept s _ fun _ => rfl
  simp only [ownAmend]
  repeat' split
  case h_2.isFalse => exact amended.trans (requestEval_tableKept _)
  all_goals exact .refl s

theorem ownRemove_tableKept (a : Nat) : TableKept s (ownRemove a s).state := by
  have left : TableKept s { s with roster := changeSite (BitVec.ofNat 12 a) (Site.leave s.disp.passes) s.roster } :=
    changeSite_kept s _ fun _ => rfl
  have dropped : TableKept s { s with roster := s.roster.filter fun r => r.address != BitVec.ofNat 12 a } :=
    .of_filter rfl rfl rfl
  simp only [ownRemove]
  repeat' split
  case h_2.isFalse.isTrue => exact left.trans (requestEval_tableKept _)
  case h_2.isFalse.isFalse => exact dropped.trans (requestEval_tableKept _)
  all_goals exact .refl s

theorem ownBusDisable_tableKept : TableKept s (ownBusDisable s).state := by
  unfold ownBusDisable
  split
  · split
    · exact enterDisabled_tableKept s
    · exact enterDraining_tableKept s
  · exact enterDisabled_tableKept s
  · exact enterDisabled_tableKept s
  · exact .refl s
  · exact .refl s

/-- Every request, by what its owning block does to the table and to the roster. -/
theorem ownOf_tableStep (p : Port) (r : Request) : TableStep s (ownOf p r s).state := by
  cases r with
  | defineWindow index base mask cls cap => exact editWith_step s fun _ _ _ => editVariable_legal
  | clearWindow index => exact editWith_step s (own := clearVariable s.member index) fun _ _ _ => clearVariable_legal
  | setBranch b cls cap e l => exact editWith_step s fun _ _ _ => editBranch_legal
  | setDefaultClass cls => exact editWith_step s (own := editDefault cls) fun _ _ _ => editDefault_legal
  | suspend => exact ownSuspend_step s
  | resume => exact ownResume_step s
  | enroll a rated capacity floor ceiling => exact ownEnroll_tableStep s a rated capacity floor ceiling
  | amend a floor ceiling => exact (ownAmend_tableKept s a floor ceiling).step
  | remove a => exact (ownRemove_tableKept s a).step
  | busDisable => exact (ownBusDisable_tableKept s).step
  | _ =>
    refine (TableKept.of_roster (ownOf_outside s p _) ?_ ?_).step
    all_goals
      simp only [ownOf, refuse, ownSetTime, State.moveClock, ownReadSite, ownSetItems, ownQueryClass, ownReadWindows,
        ownSetOfferParams, ownOfferQuery, ownHold, State.holdAt, State.grant, ownAward, ownRelease, State.settleHold,
        ownReadBook, ownSetMeter, ownReadMeter, ownSetFlParams, ownArmFl, ownDisarmFl, armAnswer, ownSetPoint,
        ownSetSlParams, ownEnterTest, ownInject, ownLeaveTest, ownReadBranchLoad, ownReadResponse, ownReadJournal,
        ownReleaseJournal, ownBusEnable, ownBusConfig, ownBusRestore, busAnswer, ownSetLinkMode, ownStatus, ownIdentify]
      repeat' split
    all_goals simp

end

/-! ### Every command -/

section
variable {s t : State}

theorem request_tableStep {c : Instr} {p : Port} {r : Request} (row : requestRow c = some (p, r))
    (h : exec c s = .next t) : TableStep s t := by
  rw [exec_request s row] at h
  cases h
  have taken {u : State} (step : TableStep (s.dequeue p) u) : TableStep s u := step.congr (by simp) (by simp) (by simp)
  rcases serve_cases s p r (ownOf p r) with eq | ⟨u, code, -, -, eq⟩ | ⟨u, -, -, eq⟩ <;> rw [eq]
  · exact (TableKept.refl s).step
  · exact (taken (TableKept.refl _).step).respond p u code .empty
  · exact (taken (ownOf_tableStep _ p r)).respond p u _ _

theorem exec_tableStep {c : Instr} (h : exec c s = .next t) : TableStep s t := by
  cases row : requestRow c with
  | some pr => exact request_tableStep row h
  | none =>
    by_cases reset : ∃ f l, c = .deviceReset f l
    · obtain ⟨f, l, rfl⟩ := reset
      obtain ⟨-, -, windows, roster⟩ := deviceReset_table h
      exact .reset windows roster
    · push Not at reset
      obtain ⟨level, kept, -⟩ := event_tableKept_but_level row reset h
      exact kept.step.congr rfl rfl rfl

/-! ### The laws through every step -/

/-- The table law: an edit finds the table out of IN_FORCE, SUSPEND leaves IN_FORCE, RESUME makes the two sets equal, and the
reset gives both the reset contents. -/
theorem TableStep.windowLaw (h : TableStep s t) (member : t.member = s.member) (law : WindowLaw s) : WindowLaw t := by
  obtain ⟨working, inForce, equal, unset⟩ := law
  cases h with
  | kept windows classes | enrolled a windows classes =>
    rw [WindowLaw, member, windows]
    exact ⟨working, inForce, equal, unset⟩
  | edited c editing legal windows roster =>
    rw [WindowLaw, member, windows]
    exact ⟨legal working, inForce, fun state => absurd state editing, unset⟩
  | suspended windows roster =>
    rw [WindowLaw, member, windows]
    exact ⟨working, inForce, nofun, nofun⟩
  | resumed windows roster =>
    rw [WindowLaw, member, windows]
    exact ⟨working, working, fun _ => rfl, nofun⟩
  | reset windows roster =>
    rw [WindowLaw, member, windows]
    exact ⟨contentsLaw_reset _, contentsLaw_reset _, fun _ => rfl, fun _ => rfl⟩

/-- The resolution law: the in-force contents change only with a RESUME, which rewrites every record, and a reset, which
leaves none. -/
theorem TableStep.resolutionLaw (h : TableStep s t) (law : ResolutionLaw s) : ResolutionLaw t := by
  have resolved := (resolutionLaw_iff s).1 law
  have carried (inForce : t.windows.inForce = s.windows.inForce)
      (from_old : ∀ x ∈ t.resolutions, x ∈ s.resolutions ∨ x.2 = s.windows.inForce.resolve x.1) : ResolutionLaw t := by
    rw [resolutionLaw_iff, inForce]
    exact fun x hx => (from_old x hx).elim (resolved x) id
  cases h with
  | kept windows classes => exact carried (by rw [windows]) fun x hx => .inl (classes hx)
  | enrolled a windows classes =>
    refine carried (by rw [windows]) fun x hx => ?_
    rcases List.mem_cons.1 (classes hx) with rfl | old
    · exact .inr rfl
    · exact .inl old
  | edited c editing legal windows roster | suspended windows roster =>
    refine carried (by rw [windows]) fun x hx => .inl ?_
    rwa [State.resolutions, roster] at hx
  | resumed windows roster =>
    intro x hx
    rw [roster] at hx
    obtain ⟨r, -, rfl⟩ := List.mem_map.1 hx
    rw [windows]
    rfl
  | reset windows roster =>
    intro x hx
    rw [roster] at hx
    cases hx

end

/-! ### The reset contents (R36) -/

theorem taking_reset (m : Member) (a : Address) : (Contents.reset m).taking a = [] := by
  have branch : (Contents.reset m).branch (branchOf a) = .reset := List.getElem?_getD_replicate_default_eq ..
  have uncovered : ((Contents.reset m).varWindows.filter fun w => w.covers a) = [] := by
    refine List.filter_eq_nil_iff.2 fun w hw => ?_
    rw [List.eq_of_mem_replicate hw]
    simp [VariableWindow.covers, VariableWindow.reset]
  rw [Contents.taking, branch, uncovered]
  rfl

/-- Against the reset contents every address is FROZEN without a cap (R36). -/
theorem resolve_reset (m : Member) (a : Address) : (Contents.reset m).resolve a = (.frozen, none) := by
  rw [Contents.resolve, taking_reset]
  rfl

end Sys2Proof.Machine
end

