-- ==== Sys2Proof/Proofs/TableInvariantObligations.lean ====
section
/-! PROOFS. The invariants of the window table and of the resolution (O27, O28). -/

namespace Sys2Proof.Proofs

open Sys2Proof.Machine Sys2Proof.Safety

/-- Settles O27: by what every command can do to the table. -/
theorem windowInvariant : Obligations.WindowInvariant := by
  intro c s t law h
  obtain ⟨u, answered, -, member, -⟩ := everyCommandCompletes c s
  obtain rfl : u = t := by simpa using answered.symm.trans h
  exact (exec_tableStep h).windowLaw member law

/-- Settles O28: by what every command can do to the table and to the classes of the records; in UNSET the in-force
contents are the reset contents. -/
theorem resolutionInvariant : Obligations.ResolutionInvariant := by
  refine ⟨fun c s t law h => (exec_tableStep h).resolutionLaw law, fun s law windows unset r hr => ?_⟩
  obtain ⟨-, -, -, reset⟩ := windows
  have resolved := law r hr
  rw [reset unset, resolve_reset] at resolved
  exact Prod.mk.inj resolved

end Sys2Proof.Proofs
end

