-- ==== Sys2Proof/Proofs/Resolution.lean ====
section
/-! PROOFS. The resolution of an address (R30 to R35): the windows that take part, the directions their classes permit and
the smallest of their caps. -/

namespace Sys2Proof

open Sys2Proof.Machine

/-! ### Classes as sets of directions (R30) -/

theorem SiteClass.permits_ofPermits (up down : Bool) :
    (SiteClass.ofPermits up down).permits .up = up ∧ (SiteClass.ofPermits up down).permits .down = down := by
  cases up <;> cases down <;> exact ⟨rfl, rfl⟩

theorem SiteClass.permits_inter (x y : SiteClass) (d : Direction) :
    (x.inter y).permits d = (x.permits d && y.permits d) := by
  obtain ⟨up, down⟩ := permits_ofPermits (x.permits .up && y.permits .up) (x.permits .down && y.permits .down)
  cases d with
  | up => exact up
  | down => exact down

/-- The intersection of several classes permits what each of them does. -/
theorem SiteClass.permits_foldl_inter (ks : List SiteClass) (k : SiteClass) (d : Direction) :
    (ks.foldl SiteClass.inter k).permits d = true ↔ k.permits d = true ∧ ∀ x ∈ ks, x.permits d = true := by
  induction ks generalizing k with
  | nil => simp
  | cons x ks ih => simp [ih, permits_inter, and_assoc]

end Sys2Proof

namespace Sys2Proof.Machine

/-- The smallest of some values, as the library has it (R35). -/
theorem smallest_eq_min? (xs : List Nat) : smallest xs = xs.min? := by
  induction xs with
  | nil => rfl
  | cons x xs ih =>
    rw [smallest, ih, List.min?_cons]
    cases xs.min? <;> rfl

/-! ### The windows that take part for an address (R31, R32, R35) -/

section
variable (c : Contents) (a : Address)

/-- The valid variable windows that match an address (R32). -/
def Contents.matching : List VariableWindow := c.varWindows.filter fun w => w.valid = true ∧ a &&& w.mask = w.base

theorem taking_eq : c.taking a = (if (c.branch (branchOf a)).takesPart then
    [((c.branch (branchOf a)).cls, (c.branch (branchOf a)).cap)] else []) ++
      (c.matching a).map fun w => (some w.cls, w.cap) := by
  have covers (w : VariableWindow) : w.covers a = decide (w.valid = true ∧ a &&& w.mask = w.base) := by
    simp [VariableWindow.covers, beq_eq_decide]
  simp [Contents.taking, Contents.matching, covers]

theorem takesPart_iff (w : BranchWindow) : w.takesPart = true ↔ ¬(w.cls = none ∧ w.cap = none) := by
  simp [BranchWindow.takesPart, imp_iff_not_or, Option.isSome_iff_ne_none]

theorem taking_eq_nil_iff : c.taking a = [] ↔ (c.branch (branchOf a)).cls = none ∧ (c.branch (branchOf a)).cap = none ∧
    c.matching a = [] := by
  rw [taking_eq, List.append_eq_nil_iff, List.map_eq_nil_iff, ← and_assoc]
  refine and_congr_left' ?_
  by_cases part : (c.branch (branchOf a)).takesPart = true
  · simp only [part, if_true, List.cons_ne_nil, false_iff]
    exact (takesPart_iff _).1 part
  · simp only [part, Bool.false_eq_true, if_false, true_iff]
    exact not_not.1 (mt (takesPart_iff _).2 part)

/-- The classes present: the branch window's, where it has one, and those of the matching windows. -/
theorem classes_taking : (c.taking a).filterMap Prod.fst =
    (c.branch (branchOf a)).cls.toList ++ (c.matching a).map VariableWindow.cls := by
  rw [taking_eq, List.filterMap_append, List.filterMap_map]
  congr 1
  · cases cls : (c.branch (branchOf a)).cls <;> cases cap : (c.branch (branchOf a)).cap <;>
      simp [BranchWindow.takesPart, cls, cap]
  · exact congrFun (List.filterMap_eq_map (f := VariableWindow.cls)) _

/-- The caps present, in the same way. -/
theorem caps_taking : (c.taking a).filterMap Prod.snd =
    (c.branch (branchOf a)).cap.toList ++ (c.matching a).filterMap VariableWindow.cap := by
  rw [taking_eq, List.filterMap_append, List.filterMap_map]
  congr 1
  cases cls : (c.branch (branchOf a)).cls <;> cases cap : (c.branch (branchOf a)).cap <;>
    simp [BranchWindow.takesPart, cls, cap]

variable {c a}

theorem resolve_of_none (h : c.taking a = []) : c.resolve a = (c.defaultClass, none) := by
  rw [Contents.resolve, h]

theorem resolve_of_taking (h : c.taking a ≠ []) : c.resolve a =
    (((c.taking a).filterMap Prod.fst).foldl SiteClass.inter .openBoth, ((c.taking a).filterMap Prod.snd).min?) := by
  rw [← smallest_eq_min?, Contents.resolve]
  split
  · next none => exact absurd none h
  · rfl

end

end Sys2Proof.Machine
end

