-- ==== Sys2Proof/Proofs/ResolutionObligations.lean ====
section
/-! PROOFS. The statement about the resolution of an address. -/

namespace Sys2Proof.Proofs

open Sys2Proof.Machine Sys2Proof.Safety

/-- Settles O26: the classes as sets of directions; the resolution by whether a window takes part. -/
theorem resolutionMeaning : Obligations.ResolutionMeaning := by
  refine ⟨fun d => ⟨rfl, rfl, ?_, ?_, fun x y => ?_⟩, fun c a => ?_⟩
  · cases d <;> decide
  · cases d <;> decide
  · rw [SiteClass.permits_inter, Bool.and_eq_true]
  · intro b ws caps
    have nobody : c.taking a = [] ↔ b.cls = none ∧ b.cap = none ∧ ws = [] := taking_eq_nil_iff c a
    have present : (c.taking a).filterMap Prod.snd = caps := caps_taking c a
    refine ⟨fun cls cap none => resolve_of_none (nobody.2 ⟨cls, cap, none⟩), fun some_part => ?_⟩
    have resolved := resolve_of_taking (mt nobody.1 some_part)
    rw [resolved, present]
    refine ⟨fun d => ?_, List.min?_eq_none_iff, fun x => List.min?_eq_some_iff⟩
    rw [SiteClass.permits_foldl_inter, classes_taking]
    simp only [SiteClass.permits, true_and, List.mem_append, Option.mem_toList, List.mem_map, or_imp, forall_and,
      forall_exists_index, and_imp, forall_apply_eq_imp_iff₂]
    rfl

end Sys2Proof.Proofs
end

