-- ==== Sys2Proof/Proofs/RangeQueries.lean ====
section
/-! PROOFS. The three requests that ask for a range of addresses or slots: what each answers in each case (R48, R65, R66,
R83). -/

namespace Sys2Proof.Machine

/-! ### The lowest differing address (R48) -/

section
variable {c : Contents} {r : SiteClass × Option Nat} {first last : Nat}

theorem toNat_address_add {i : Nat} (h : first + i < 4096) : (BitVec.ofNat 12 (first + i)).toNat = first + i := by
  rw [BitVec.toNat_ofNat, Nat.mod_eq_of_lt h]

theorem firstDiffering_eq_none (range : last < 4096)
    (same : ∀ a : Address, first ≤ a.toNat → a.toNat ≤ last → c.resolve a = r) :
    firstDiffering c r first (last + 1 - first) = none := by
  rw [firstDiffering, List.find?_map, Option.map_eq_none_iff, List.find?_eq_none]
  intro i hi
  rw [List.mem_range] at hi
  have at_i := toNat_address_add (first := first) (i := i) (by omega)
  have resolved := same (BitVec.ofNat 12 (first + i)) (by omega) (by omega)
  simp [resolved]

theorem firstDiffering_eq_some {a : Address} (low : first ≤ a.toNat) (high : a.toNat ≤ last)
    (differs : c.resolve a ≠ r) (lowest : ∀ b : Address, first ≤ b.toNat → b.toNat < a.toNat → c.resolve b = r) :
    firstDiffering c r first (last + 1 - first) = some a := by
  have at_a : BitVec.ofNat 12 (first + (a.toNat - first)) = a := by
    rw [Nat.add_sub_cancel' low, BitVec.ofNat_toNat, BitVec.setWidth_eq]
  have found : (List.range (last + 1 - first)).find? ((fun b => c.resolve b != r) ∘ fun i => BitVec.ofNat 12 (first + i)) =
      some (a.toNat - first) := by
    rw [List.find?_range_eq_some]
    refine ⟨by simpa [at_a] using differs, List.mem_range.2 (by omega), fun j hj => ?_⟩
    have at_j := toNat_address_add (first := first) (i := j) (by omega)
    have resolved := lowest (BitVec.ofNat 12 (first + j)) (by omega) (by omega)
    simp [resolved]
  rw [firstDiffering, List.find?_map, found, Option.map_some, at_a]

end

section
variable {s : State} {x y c : Nat}

/-! ### QUERY_CLASS (R48) -/

theorem ownQueryClass_badValue (h : ¬(x < 4096 ∧ y < 4096 ∧ x ≤ y)) : ownQueryClass x y s = ⟨s, .badValue, .empty⟩ := by
  have bad : (addressInRange x && addressInRange y && decide (x ≤ y)) = false := by
    simpa [addressInRange, Bool.eq_false_iff, and_assoc] using h
  simp [ownQueryClass, bad, refuse]

section
variable (h : x < 4096 ∧ y < 4096 ∧ x ≤ y)
include h

theorem ownQueryClass_uniform (same : ∀ a : Address, x ≤ a.toNat → a.toNat ≤ y →
      s.windows.working.resolve a = s.windows.working.resolve (BitVec.ofNat 12 x)) :
    ownQueryClass x y s = ⟨s, .ok, .classes s.windows.state (.uniform
      (s.windows.working.resolve (BitVec.ofNat 12 x)).1 (s.windows.working.resolve (BitVec.ofNat 12 x)).2)⟩ := by
  simp [ownQueryClass, addressInRange, h, firstDiffering_eq_none h.2.1 same]

theorem ownQueryClass_mixed {a : Address} (low : x ≤ a.toNat) (high : a.toNat ≤ y)
    (differs : s.windows.working.resolve a ≠ s.windows.working.resolve (BitVec.ofNat 12 x))
    (lowest : ∀ b : Address, x ≤ b.toNat → b.toNat < a.toNat →
      s.windows.working.resolve b = s.windows.working.resolve (BitVec.ofNat 12 x)) :
    ownQueryClass x y s = ⟨s, .ok, .classes s.windows.state (.mixed
      (s.windows.working.resolve (BitVec.ofNat 12 x)).1 (s.windows.working.resolve (BitVec.ofNat 12 x)).2 a)⟩ := by
  simp [ownQueryClass, addressInRange, h, firstDiffering_eq_some low high differs lowest]

end

/-! ### What an offer reads of a state whose telegram is taken (R60 to R62) -/

@[simp] theorem headroom_dequeue (p : Port) (d : Direction) : (s.dequeue p).headroom c d = s.headroom c d := by
  simp [State.headroom]

@[simp] theorem powerHeadroom_dequeue (p : Port) (h : Headroom) (k : Nat) (d : Direction) :
    powerHeadroom (s.dequeue p) h k d = powerHeadroom s h k d := by
  simp [powerHeadroom]

@[simp] theorem published_dequeue (p : Port) (h : Headroom) (k n : Nat) (q : Product) :
    published (s.dequeue p) h k n q = published s h k n q := by
  simp [published, rawOffer]

/-! ### OFFER_QUERY and READ_BOOK (R65, R66, R83) -/

/-- The value check of both (R65, R83). -/
theorem slotsInRange_iff : (slotInRange x && countInRange y) = true ↔ x < Config.slotWrap ∧ 1 ≤ y ∧ y ≤ 16 := by
  simp [slotInRange, countInRange]

theorem ownOfferQuery_badValue (h : (slotInRange x && countInRange y) = false) :
    ownOfferQuery x y s = ⟨s, .badValue, .empty⟩ := by simp only [ownOfferQuery, h, refuse, Bool.not_false, if_true]

theorem ownReadBook_badValue (h : (slotInRange x && countInRange y) = false) :
    ownReadBook x y s = ⟨s, .badValue, .empty⟩ := by simp only [ownReadBook, h, refuse, Bool.not_false, if_true]

variable (h : (slotInRange x && countInRange y) = true)
include h

theorem ownOfferQuery_timeUnset (unset : s.current = none) : ownOfferQuery x y s = ⟨s, .timeUnset, .empty⟩ := by
  simp [ownOfferQuery, h, unset, refuse]

theorem ownReadBook_timeUnset (unset : s.current = none) : ownReadBook x y s = ⟨s, .timeUnset, .empty⟩ := by
  simp [ownReadBook, h, unset, refuse]

variable (current : s.current = some c)
include current

theorem ownOfferQuery_outOfHorizon (far : distance c x = 0 ∨ 95 < distance c x + y - 1) :
    ownOfferQuery x y s = ⟨s, .outOfHorizon, .empty⟩ := by
  have beyond : ¬(1 ≤ distance c x ∧ distance c x + y - 1 < Config.horizon) := by
    simp only [Config.horizon]
    omega
  simp [ownOfferQuery, h, current, beyond, refuse]

theorem ownOfferQuery_ok (ahead : 1 ≤ distance c x) (within : distance c x + y - 1 ≤ 95) : ownOfferQuery x y s =
    ⟨s, .ok, .offers c s.book.params (s.headroom c .up).heading (s.headroom c .down).heading
      ((slotsFrom c (distance c x) y).map fun q => slotOffer s (s.headroom c .up) (s.headroom c .down) q.1 q.2)⟩ := by
  have inside : 1 ≤ distance c x ∧ distance c x + y - 1 < Config.horizon := ⟨ahead, Nat.lt_succ_of_le within⟩
  simp [ownOfferQuery, h, current, inside]

theorem ownReadBook_outOfHorizon (far : 95 < distance c x + y - 1) : ownReadBook x y s = ⟨s, .outOfHorizon, .empty⟩ := by
  have beyond : ¬distance c x + y - 1 < Config.horizon := by
    simp only [Config.horizon]
    omega
  simp [ownReadBook, h, current, beyond, refuse]

/-- The records of the asked slots are returned; a count of at least 1 makes the last distance the one before the end. -/
theorem ownReadBook_ok (within : distance c x + y - 1 ≤ 95) : ownReadBook x y s = ⟨s, .ok, .book c
    (s.book.records.filter fun r => distance c x ≤ distance c r.slot ∧ distance c r.slot ≤ distance c x + y - 1)⟩ := by
  have inside : distance c x + y - 1 < Config.horizon := Nat.lt_succ_of_le within
  obtain ⟨-, some_slot, -⟩ := slotsInRange_iff.1 h
  have upper (r : BookRecord) : distance c r.slot < distance c x + y ↔ distance c r.slot ≤ distance c x + y - 1 := by omega
  simp [ownReadBook, h, current, inside, upper]

end

end Sys2Proof.Machine
end

