-- ==== Sys2Proof/Proofs/RangeQueryObligations.lean ====
section
/-! PROOFS. The statement about the requests for a range of addresses or slots. -/

namespace Sys2Proof.Proofs

open Sys2Proof.Machine Sys2Proof.Safety

/-- Settles O23: each request by its owning block's answer in the case the checks leave; the figures read nothing that the
taking of the telegram moves. -/
theorem rangeQueries : Obligations.RangeQueries := by
  intro p x y t s d
  have current : d.current = s.current := by simp [d, State.current]
  have now (unset : s.now = none) : d.current = none := by rw [current, State.current, unset]; rfl
  have slots : (slotInRange x && countInRange y) = true ↔ x < 6291456 ∧ 1 ≤ y ∧ y ≤ 16 := slotsInRange_iff
  refine ⟨fun admitted => ?queryClass, fun admitted => ?offerQuery, fun admitted => ?readBook⟩
  case queryClass =>
    rw [← dequeue_windows s p]
    exact ⟨fun bad => answers_of_admitted rfl admitted (ownQueryClass_badValue bad),
      fun ok same => answers_of_admitted rfl admitted (ownQueryClass_uniform ok same),
      fun a ok low high differs lowest => answers_of_admitted rfl admitted
        (ownQueryClass_mixed ok low high differs lowest)⟩
  case offerQuery =>
    refine ⟨fun bad => answers_of_admitted rfl admitted
        (ownOfferQuery_badValue (Bool.eq_false_iff.2 fun ok => bad (slots.1 ok))),
      fun ok unset => answers_of_admitted rfl admitted (ownOfferQuery_timeUnset (slots.2 ok) (now unset)),
      fun c ok at_c => ⟨fun far => answers_of_admitted rfl admitted
        (ownOfferQuery_outOfHorizon (slots.2 ok) (current.trans at_c) far), fun ahead within => ?_⟩⟩
    refine answers_of_admitted rfl admitted
      ((ownOfferQuery_ok (slots.2 ok) (current.trans at_c) ahead within).trans ?_)
    simp [d, slotsFrom, slotOffer, slotAhead, Headroom.heading, Config.slotWrap]
  case readBook =>
    rw [← dequeue_book s p]
    exact ⟨fun bad => answers_of_admitted rfl admitted
        (ownReadBook_badValue (Bool.eq_false_iff.2 fun ok => bad (slots.1 ok))),
      fun ok unset => answers_of_admitted rfl admitted (ownReadBook_timeUnset (slots.2 ok) (now unset)),
      fun c ok at_c => ⟨fun far => answers_of_admitted rfl admitted
          (ownReadBook_outOfHorizon (slots.2 ok) (current.trans at_c) far),
        fun within => answers_of_admitted rfl admitted (ownReadBook_ok (slots.2 ok) (current.trans at_c) within)⟩⟩

end Sys2Proof.Proofs
end

