-- ==== Sys2Proof/Proofs/DispatchBlocks.lean ====
section
/-! PROOFS. The blocks of a pass (R139) and their hand-over to the bus (R156). -/

namespace Sys2Proof.Machine

/-! ### Consecutive parts of a list (R139) -/

section
variable {α : Type} {n : Nat}

theorem partsOf_flatten (pos : 0 < n) (fuel : Nat) (xs : List α) (enough : xs.length ≤ fuel) :
    (partsOf n fuel xs).flatten = xs := by
  induction fuel generalizing xs with
  | zero => rw [List.length_eq_zero_iff.1 (Nat.le_zero.1 enough)]; rfl
  | succ fuel ih =>
    cases xs with
    | nil => rfl
    | cons x xs =>
      rw [partsOf, List.flatten_cons, ih, List.take_append_drop]
      rw [List.length_drop]
      omega

theorem mem_partsOf (pos : 0 < n) {fuel : Nat} {xs part : List α} (h : part ∈ partsOf n fuel xs) :
    part ≠ [] ∧ part.length ≤ n := by
  induction fuel generalizing xs with
  | zero => cases h
  | succ fuel ih =>
    cases xs with
    | nil => cases h
    | cons x xs =>
      rcases List.mem_cons.1 h with rfl | later
      · exact ⟨fun none => by simp [Nat.pos_iff_ne_zero.1 pos] at none, List.length_take_le _ _⟩
      · exact ih later

/-- Only the last part may be short. -/
theorem length_of_mem_partsOf_dropLast {fuel : Nat} {xs part : List α} (h : part ∈ (partsOf n fuel xs).dropLast) :
    part.length = n := by
  induction fuel generalizing xs with
  | zero => cases h
  | succ fuel ih =>
    cases xs with
    | nil => cases h
    | cons x xs =>
      rw [partsOf] at h
      cases rest : partsOf n fuel ((x :: xs).drop n) with
      | nil =>
        rw [rest] at h
        cases h
      | cons y ys =>
        rw [rest, List.dropLast_cons_cons, List.mem_cons, ← rest] at h
        rcases h with rfl | later
        · have more : (x :: xs).drop n ≠ [] := fun none => by cases fuel <;> simp [none, partsOf] at rest
          rw [List.length_take, Nat.min_eq_left]
          exact (Nat.lt_of_not_le (mt List.drop_eq_nil_iff.2 more)).le
        · exact ih later

end

/-! ### The blocks of a pass (R139) -/

section
variable (k : Serial) (taken : Nat) (f : Bool) (rs : List Site)

theorem blocksOf_entries : (blocksOf k taken f rs).flatMap Block.entries =
    rs.map fun r => ⟨r.address, r.lastSetpoint, r.isLeaving⟩ := by
  rw [List.flatMap_def, blocksOf, List.map_map]
  exact (congrArg List.flatten (List.map_id _)).trans (partsOf_flatten (by decide) _ _ (by simp))

variable {k taken f rs}

theorem mem_blocksOf {b : Block} (h : b ∈ blocksOf k taken f rs) :
    b.pass = k ∧ b.taken = taken ∧ b.freeze = f ∧ b.entries ≠ [] ∧ b.entries.length ≤ 32 := by
  obtain ⟨es, part, rfl⟩ := List.mem_map.1 h
  exact ⟨rfl, rfl, rfl, mem_partsOf (by decide) part⟩

theorem length_of_mem_blocksOf_dropLast {b : Block} (h : b ∈ (blocksOf k taken f rs).dropLast) : b.entries.length = 32 := by
  rw [blocksOf, ← List.map_dropLast] at h
  obtain ⟨es, part, rfl⟩ := List.mem_map.1 h
  exact length_of_mem_partsOf_dropLast part

theorem blocksOf_eq_nil_iff : blocksOf k taken f rs = [] ↔ rs = [] := by
  refine ⟨fun none => ?_, fun none => by rw [none]; rfl⟩
  have entries := blocksOf_entries k taken f rs
  rw [none] at entries
  exact List.map_eq_nil_iff.1 entries.symm

end

/-! ### The hand-over (R156) -/

section
variable {b : Bus} {blocks : List Block}

theorem handOver_carried (carries : b.state.carriesBlocks = true) (any : blocks ≠ []) :
    b.handOver blocks = { b with queue := blocks } := if_pos ⟨carries, any⟩

theorem handOver_silent (silent : b.state.carriesBlocks = false) : b.handOver blocks = b :=
  if_neg fun ⟨carries, _⟩ => Bool.false_ne_true (silent.symm.trans carries)

theorem handOver_nil : b.handOver [] = b := if_neg fun ⟨_, any⟩ => any rfl

end

end Sys2Proof.Machine
end

