-- ==== Sys2Proof/Proofs/FreezePasses.lean ====
section
/-! PROOFS. A pass that reads FREEZE asserted, whole (R136, R137, R140), the bus at an assertion (R159), and the assertion with
its pass (R50, R51, R141, R165, R167). -/

namespace Sys2Proof.Machine

open Sys2Proof.Safety

/-! ### A pass under FREEZE (R136) -/

/-- A record with the setpoint of a FREEZE pass. -/
def Site.zeroed (r : Site) : Site := { r with lastSetpoint := 0 }

/-- The sum of the measured power counts the sites that report, whatever their setpoints (R137). -/
theorem measuredSum_zeroed (rs : List Site) : measuredSum (rs.map Site.zeroed) = measuredSum rs := by
  rw [measuredSum, List.filter_map, List.map_map]
  rfl

theorem measuredSum_eq (rs : List Site) :
    measuredSum rs = ((rs.filter fun r => r.freshness ≠ .silent).map fun r => r.measured.getD 0).sum := by
  have reporting : Site.reporting = fun r => decide (r.freshness ≠ .silent) := by
    funext r
    simp [Site.reporting, bne, beq_eq_decide]
  rw [measuredSum, reporting]

/-- What a pass records that read FREEZE asserted: nothing dispatched, the whole target as shortfall (R136, R137). -/
def State.zeroRecord (s : State) (cause : PassCause) : Dispatcher :=
  ⟨nextSerial s.disp.passNumber, some cause, directionOf s.passTarget, s.passTarget, 0, 0, s.passTarget.natAbs,
    measuredSum s.roster, List.replicate 16 ⟨0, 0, false⟩, s.disp.passes + 1⟩

theorem branchLoadOf_zeroed (rs : List Site) : branchLoadOf (rs.map Site.zeroed) [] = fun _ => ⟨0, 0, false⟩ := by
  funext b
  have zeros : (sitesOf (rs.map Site.zeroed) b).map Site.lastSetpoint =
      List.replicate (sitesOf (rs.map Site.zeroed) b).length 0 := by
    refine List.map_eq_replicate_iff.2 fun x hx => ?_
    obtain ⟨r, -, rfl⟩ := List.mem_map.1 (List.mem_of_mem_filter hx)
    rfl
  simp [branchLoadOf, zeros]

section
variable {s : State} (freeze : s.freeze = true) (cause : PassCause)
include freeze

theorem setpointsWritten_of_freeze : s.setpointsWritten = s.roster.map Site.zeroed := by
  simp only [State.setpointsWritten, passAllocation_of_freeze freeze, wattsAt_zero, Int.natCast_zero, Int.mul_zero]
  rfl

theorem passRecord_of_freeze : s.passRecord cause (s.roster.map Site.zeroed) = s.zeroRecord cause := by
  have dispatched : ((s.roster.map Site.zeroed).map Site.lastSetpoint).sum = 0 := by
    simp [Site.zeroed, Function.comp_def]
  have branches : (List.range Config.branchCount).map (branchLoadOf (s.roster.map Site.zeroed) []) =
      List.replicate 16 ⟨0, 0, false⟩ := by
    rw [branchLoadOf_zeroed, List.map_const', List.length_range]
    rfl
  simp only [State.passRecord, passAllocation_of_freeze freeze, Allocation.zero, dispatched, branches]
  rfl

/-- A pass under FREEZE, whole: no branch is newly at its limit, so no cause is raised (R136 to R140). -/
theorem pass_of_freeze : s.pass cause = { s with
    roster := s.roster.map Site.zeroed
    disp := s.zeroRecord cause
    bus := s.bus.handOver (blocksOf (nextSerial s.disp.passNumber) (s.disp.passes + 1) true (s.roster.map Site.zeroed))
    journal := s.journal.accumulate ((s.zeroRecord cause).result cause true) } := by
  have quiet : newlySaturated s.disp.branches (s.zeroRecord cause).branches = false := by
    rw [newlySaturated, List.any_eq_false]
    intro x hx
    simp [List.eq_of_mem_replicate (List.of_mem_zip hx).2]
  simp only [State.pass, setpointsWritten_of_freeze freeze, passRecord_of_freeze freeze, quiet, State.raiseIf, freeze]
  rfl

end

/-! ### The bus at an assertion (R159) -/

/-- The bus after an assertion that ends no frame of a draining bus: the block in transmission and the older blocks go. -/
def Bus.frozen (b : Bus) : Bus :=
  { b with
    queue := b.queue.filter fun x => x.freeze = true
    frame := (match b.frame with
      | .block _ => .idle
      | x => x) }

/-- The bus drains and a block is in transmission, which an assertion aborts into DISABLED (R149, R159). -/
def Bus.cut (b : Bus) : Prop := b.state = .draining ∧ ∃ x, b.frame = .block x

section
variable {s : State}

theorem freezeBus_of_cut (h : s.bus.cut) :
    s.freezeBus = { s with bus := s.bus.disabled, roster := s.roster.filter fun r => r.lifecycle ≠ .leaving } := by
  obtain ⟨draining, x, block⟩ := h
  simp only [State.freezeBus, block]
  refine (endFrame_draining ?_).trans (enterDisabled_eq _)
  exact draining

theorem freezeBus_of_not_cut (h : ¬s.bus.cut) : s.freezeBus = { s with bus := s.bus.frozen } := by
  cases frame : s.bus.frame with
  | block x =>
    simp only [State.freezeBus, Bus.frozen, frame]
    refine (endFrame_not_draining ?_).trans (by simp)
    exact fun draining => h ⟨draining, x, frame⟩
  | idle | poll a i ph => simp [State.freezeBus, Bus.frozen, frame]

end

section
variable {b : Bus} {blocks : List Block}

theorem handOver_cut : (b.handOver blocks).cut ↔ b.cut := by
  unfold Bus.handOver
  split <;> exact Iff.rfl

/-- The blocks of a pass that read FREEZE asserted are none of those an assertion discards (R159). -/
theorem frozen_handOver (zero : ∀ x ∈ blocks, x.freeze = true) : b.frozen.handOver blocks = (b.handOver blocks).frozen := by
  have all_kept : (blocks.filter fun x => x.freeze = true) = blocks :=
    List.filter_eq_self.2 fun x hx => decide_eq_true (zero x hx)
  by_cases carried : b.state.carriesBlocks = true ∧ blocks ≠ []
  · obtain ⟨carries, any⟩ := carried
    rw [handOver_carried carries any, handOver_carried (b := b.frozen) carries any]
    simp only [Bus.frozen, all_kept]
  · exact (if_neg (by exact carried)).trans (congrArg Bus.frozen (if_neg carried)).symm

end

/-! ### The two orders of an assertion (R141) -/

/-- Where no site is LEAVING in a bus that carries no blocks, the bus and the dispatcher may take an assertion in either
order (R141, log 13). -/
theorem freezeBus_pass_comm {s : State} (law : LeavingLaw s) (freeze : s.freeze = true) :
    s.freezeBus.pass .freeze = (s.pass .freeze).freezeBus := by
  by_cases cut : s.bus.cut
  · have none_leaving (r : Site) (hr : r ∈ s.roster) : decide (r.lifecycle ≠ .leaving) = true := by
      refine decide_eq_true fun leaving => ?_
      have carries := law r hr ((isLeaving_iff r).2 leaving)
      rw [cut.1] at carries
      cases carries
    have all_stay : (s.roster.filter fun r => r.lifecycle ≠ .leaving) = s.roster := List.filter_eq_self.2 none_leaving
    have zeroed_stay : ((s.roster.map Site.zeroed).filter fun r => r.lifecycle ≠ .leaving) = s.roster.map Site.zeroed := by
      rw [List.filter_map]
      exact congrArg (List.map Site.zeroed) all_stay
    have silent : s.bus.state.carriesBlocks = false := by rw [cut.1]; rfl
    rw [freezeBus_of_cut cut, all_stay, pass_of_freeze freeze, pass_of_freeze (by exact freeze),
      handOver_silent silent, handOver_silent (b := s.bus.disabled) rfl, freezeBus_of_cut (by exact cut), zeroed_stay]
    rfl
  · have not_cut (blocks : List Block) : ¬(s.bus.handOver blocks).cut := fun after => cut (handOver_cut.1 after)
    rw [freezeBus_of_not_cut cut, pass_of_freeze freeze, pass_of_freeze (by exact freeze),
      freezeBus_of_not_cut (by exact not_cut _), frozen_handOver fun x hx => (mem_blocksOf hx).2.2.1]
    rfl

/-! ### An assertion, whole (R50, R51, R141, R165, R167) -/

/-- What an assertion and its pass make of an OPEN episode (R165, R167). -/
def Episode.frozen (goal delivered : Int) (e : Episode) : Episode :=
  { e with
    peakDelivered := max e.peakDelivered (max 0 (e.direction.signed delivered)).toNat
    maxShortfall := if goal = 0 then e.maxShortfall else some (max (e.maxShortfall.getD 0) goal.natAbs)
    flags := { e.flags with freeze := true } }

theorem accumulate_flagFreeze (j : Journal) (n : Serial) (goal delivered : Int) :
    j.flagFreeze.accumulate ⟨n, .freeze, true, goal, 0, goal.natAbs, delivered⟩ =
      { j with records := j.records.map fun e => if e.state = .isOpen then e.frozen goal delivered else e } := by
  have flagged (e : Episode) (figure : Int) :
      ({ e with flags := { e.flags with freeze := true } } : Episode).accumulate figure
        ⟨n, .freeze, true, goal, 0, goal.natAbs, delivered⟩ = e.frozen goal delivered := by
    have positive : (max 0 (e.direction.signed delivered)).toNat = (e.direction.signed delivered).toNat := by omega
    by_cases none : goal = 0 <;> simp [Episode.accumulate, Episode.frozen, positive, none]
  simp only [Journal.accumulate, Journal.flagFreeze, Journal.mapOpen, List.map_map]
  refine congrArg (fun rs => { j with records := rs }) (List.map_congr_left fun e _ => ?_)
  by_cases opened : e.state = .isOpen
  · have before : e.opened = true := beq_iff_eq.2 opened
    have after : Episode.opened { e with flags := { e.flags with freeze := true } } = true := before
    simp only [Function.comp_apply, before, Bool.and_true, if_true, after, flagged, if_pos opened]
  · simp [Episode.opened, opened]

/-- The state after an assertion whose bus part leaves the bus `b` and the records `rs`. -/
def State.frozenWith (s : State) (b : Bus) (rs : List Site) : State :=
  { s with
    freeze := true
    roster := rs.map Site.zeroed
    disp := ({ s with roster := rs } : State).zeroRecord .freeze
    bus := b.handOver (blocksOf (nextSerial s.disp.passNumber) (s.disp.passes + 1) true (rs.map Site.zeroed))
    journal := { s.journal with records := s.journal.records.map fun e =>
      if e.state = .isOpen then e.frozen s.passTarget (measuredSum rs) else e }
    linkS := s.linkS.raise .freeze
    linkN := s.linkN.raise .freeze }

section
variable {s : State}

theorem assertFreeze_of_cut (h : s.bus.cut) : s.assertFreeze =
    s.frozenWith s.bus.disabled (s.roster.filter fun r => r.lifecycle ≠ .leaving) := by
  rw [State.assertFreeze, freezeBus_of_cut (by exact h), pass_of_freeze (by rfl), State.frozenWith,
    ← accumulate_flagFreeze _ (nextSerial s.disp.passNumber)]
  rfl

theorem assertFreeze_of_not_cut (h : ¬s.bus.cut) : s.assertFreeze = s.frozenWith s.bus.frozen s.roster := by
  rw [State.assertFreeze, freezeBus_of_not_cut (by exact h), pass_of_freeze (by rfl), State.frozenWith,
    ← accumulate_flagFreeze _ (nextSerial s.disp.passNumber)]
  rfl

end

/-! ### What an assertion leaves, part by part -/

section
variable (s : State) (b : Bus) (rs : List Site)

/-- What the pass of an assertion records: the whole target as shortfall, and the sites that report counted over the
roster it leaves (R136, R137). -/
theorem disp_frozenWith : (s.frozenWith b rs).disp = ⟨nextSerial s.disp.passNumber, some .freeze,
    directionOf s.passTarget, s.passTarget, 0, 0, s.passTarget.natAbs, measuredSum (s.frozenWith b rs).roster,
    List.replicate 16 ⟨0, 0, false⟩, s.disp.passes + 1⟩ := by
  rw [State.frozenWith, measuredSum_zeroed]
  rfl

theorem journal_frozenWith : (s.frozenWith b rs).journal = { s.journal with
    records := s.journal.records.map fun e =>
      if e.state = .isOpen then e.frozen s.passTarget (measuredSum (s.frozenWith b rs).roster) else e } := by
  rw [State.frozenWith, measuredSum_zeroed]

theorem frozenWith_frame : s.frozenWith b rs = { s with
    freeze := true, roster := (s.frozenWith b rs).roster, disp := (s.frozenWith b rs).disp
    bus := (s.frozenWith b rs).bus, journal := (s.frozenWith b rs).journal
    linkS := s.linkS.raise .freeze, linkN := s.linkN.raise .freeze } := rfl

/-- Where the bus carries no blocks, or no site stands, the pass hands none over (R139, R156). -/
theorem bus_frozenWith_silent (h : rs = [] ∨ b.state.carriesBlocks = false) : (s.frozenWith b rs).bus = b := by
  rcases h with rfl | silent
  · exact handOver_nil
  · exact handOver_silent silent

/-- Where the bus carries blocks, the zero blocks of the pass stand in the queue (R139, R156). -/
theorem queue_frozenWith (carries : b.state.carriesBlocks = true) (any : rs ≠ []) : (s.frozenWith b rs).bus.queue =
    blocksOf (nextSerial s.disp.passNumber) (s.disp.passes + 1) true (rs.map Site.zeroed) := by
  refine congrArg Bus.queue (handOver_carried carries fun none => any ?_)
  exact List.map_eq_nil_iff.1 (blocksOf_eq_nil_iff.1 none)

theorem handOver_rest (blocks : List Block) : { b.handOver blocks with queue := [] } = { b with queue := [] } := by
  unfold Bus.handOver
  split <;> rfl

end

theorem assertFreeze_cases (s : State) : ∃ b rs, s.assertFreeze = s.frozenWith b rs := by
  by_cases cut : s.bus.cut
  · exact ⟨_, _, assertFreeze_of_cut cut⟩
  · exact ⟨_, _, assertFreeze_of_not_cut cut⟩

/-- The zero entries of the records, in roster order (R136, R139). -/
theorem blocksOf_zeroed_entries (k : Serial) (n : Nat) (rs : List Site) :
    (blocksOf k n true (rs.map Site.zeroed)).flatMap Block.entries =
      rs.map fun r => ⟨r.address, 0, decide (r.lifecycle = .leaving)⟩ := by
  have leaving (r : Site) : r.isLeaving = decide (r.lifecycle = .leaving) := by
    rw [Bool.eq_iff_iff, isLeaving_iff, decide_eq_true_iff]
  rw [blocksOf_entries, List.map_map]
  exact List.map_congr_left fun r _ => by rw [← leaving]; rfl

end Sys2Proof.Machine
end

