-- ==== Sys2Proof/Proofs/FreezeObligations.lean ====
section
/-! PROOFS. The statement about the FREEZE events. -/

namespace Sys2Proof.Proofs

open Sys2Proof.Machine Sys2Proof.Safety

/-- Settles O29: an event at the level that stands changes nothing; an assertion by whether it cuts the block of a draining
bus; the two orders by the pass that reads FREEZE. -/
theorem freezeEvents : Obligations.FreezeEvents := by
  refine ⟨fun s high => ?_, fun s low => ?_, fun s => freezeBus_pass_comm⟩
  · exact ⟨congrArg Host.Outcome.next (if_pos high), congrArg Host.Outcome.next (if_pos high)⟩
  have not_high : ¬s.freeze = true := by rw [low]; exact Bool.false_ne_true
  refine ⟨congrArg Host.Outcome.next (if_neg not_high), s.assertFreeze, congrArg Host.Outcome.next (if_neg not_high), ?_⟩
  intro b goal older delivered cut
  obtain ⟨left, rs, asserted⟩ := assertFreeze_cases s
  have sum : measuredSum s.assertFreeze.roster = delivered := measuredSum_eq _
  refine ⟨?disp, fun h => ?cutRoster, fun h => ?roster, fun h => ?cutBus, fun h => ?bus, fun h silent => ?older,
    fun sites carries => ?blocks, ?journal, ?frame⟩
  case disp =>
    rw [← sum, asserted]
    exact disp_frozenWith s left rs
  case cutRoster =>
    rw [assertFreeze_of_cut h]
    rfl
  case roster =>
    rw [assertFreeze_of_not_cut h]
    rfl
  case cutBus =>
    rw [assertFreeze_of_cut h]
    exact bus_frozenWith_silent _ _ _ (.inr rfl)
  case bus =>
    rw [assertFreeze_of_not_cut h]
    exact handOver_rest _ _
  case older =>
    have quiet : s.roster = [] ∨ s.bus.frozen.state.carriesBlocks = false := silent.imp id fun ⟨running, backoff⟩ =>
      Bool.eq_false_iff.2 fun carries => ((carriesBlocks_iff _).1 carries).elim running backoff
    rw [assertFreeze_of_not_cut h, bus_frozenWith_silent _ _ _ quiet]
    rfl
  case blocks =>
    have not_cut : ¬s.bus.cut := fun ⟨draining, _⟩ => by
      rcases carries with state | state <;> rw [draining] at state <;> cases state
    have queue : (s.frozenWith s.bus.frozen s.roster).bus.queue = _ :=
      queue_frozenWith s s.bus.frozen s.roster ((carriesBlocks_iff _).2 carries) sites
    rw [assertFreeze_of_not_cut not_cut, queue]
    exact ⟨blocksOf_zeroed_entries _ _ _, fun x hx => mem_blocksOf hx, fun x hx => length_of_mem_blocksOf_dropLast hx⟩
  case journal =>
    rw [← sum, asserted]
    exact journal_frozenWith s left rs
  case frame =>
    rw [asserted]
    exact frozenWith_frame s left rs

end Sys2Proof.Proofs
end

