-- ==== Sys2Proof/Proofs/KeyedLists.lean ====
section
/-! PROOFS. Lists in strict order of a key, all of whose elements meet a law: what the book keeps of its records and of its
expired-hold list (R71, R77). -/

namespace Sys2Proof.Machine

/-- A list whose elements meet a law and stand in strict order of a key. -/
structure Keyed {α : Type} (P : α → Prop) (key : α → Nat) (l : List α) : Prop where
  law : ∀ x ∈ l, P x
  order : l.Pairwise fun x y => key x < key y

section
variable {α : Type} {P Q : α → Prop} {key key' : α → Nat} {l : List α}

theorem Keyed.nil : Keyed P key [] := ⟨nofun, .nil⟩

/-- Elements that are dropped or changed keep the order where those that stay have their keys moved by one amount, down by
`a` and up by `b`. -/
theorem Keyed.filterMap (h : Keyed P key l) {f : α → Option α} (a b : Nat)
    (keep : ∀ x y, P x → f x = some y → Q y ∧ key' y + a = key x + b) : Keyed Q key' (l.filterMap f) := by
  refine ⟨fun y hy => ?_, List.pairwise_filterMap.2 (h.order.imp_of_mem fun hx hy lt x' fx y' fy => ?_)⟩
  · obtain ⟨x, hx, fx⟩ := List.mem_filterMap.1 hy
    exact (keep x y (h.law x hx) fx).1
  · have moved_x := (keep _ x' (h.law _ hx) fx).2
    have moved_y := (keep _ y' (h.law _ hy) fy).2
    omega

theorem Keyed.map (h : Keyed P key l) {f : α → α} (keep : ∀ x, P x → Q (f x) ∧ key' (f x) = key x) :
    Keyed Q key' (l.map f) := by
  rw [← List.filterMap_eq_map]
  refine h.filterMap 0 0 fun x y law eq => ?_
  obtain rfl : f x = y := Option.some.inj eq
  exact keep x law

theorem Keyed.filter (h : Keyed P key l) {p : α → Bool} (a b : Nat)
    (keep : ∀ x, P x → p x = true → Q x ∧ key' x + a = key x + b) : Keyed Q key' (l.filter p) := by
  rw [← List.filterMap_eq_filter]
  refine h.filterMap a b fun x y law eq => ?_
  obtain ⟨rfl, kept⟩ := Option.guard_eq_some_iff.1 eq
  exact keep x law kept

/-- An element whose key none of the others has goes in its place. -/
theorem Keyed.insert (h : Keyed P key l) {x : α} (law : P x) (apart : ∀ y ∈ l, key y ≠ key x) :
    Keyed P key (l.orderedInsert (fun x y => key x ≤ key y) x) := by
  have perm := List.perm_orderedInsert (fun x y => key x ≤ key y) x l
  refine ⟨fun y hy => ?_, ?_⟩
  · rcases List.mem_cons.1 (perm.mem_iff.1 hy) with rfl | old
    · exact law
    · exact h.law y old
  · have distinct : (x :: l).Pairwise fun y z => key y ≠ key z :=
      List.pairwise_cons.2 ⟨fun y hy => (apart y hy).symm, h.order.imp Nat.ne_of_lt⟩
    have ascending : (l.orderedInsert (fun y z => key y ≤ key z) x).Pairwise fun y z => key y ≤ key z := by
      have total : Std.Total fun y z : α => key y ≤ key z := ⟨fun y z => Nat.le_total (key y) (key z)⟩
      have trans : IsTrans α fun y z => key y ≤ key z := ⟨fun _ _ _ => Nat.le_trans⟩
      exact (h.order.imp Nat.le_of_lt).orderedInsert x l
    exact (ascending.and ((perm.pairwise_iff fun ne => ne.symm).2 distinct)).imp fun ⟨le, ne⟩ => Nat.lt_of_le_of_ne le ne

/-- As many keys as elements lie in any range that holds the keys. -/
theorem Keyed.length_le (h : Keyed P key l) {a n : Nat} (range : ∀ x, P x → a ≤ key x ∧ key x < a + n) : l.length ≤ n := by
  have distinct : (l.map key).Nodup := List.pairwise_map.2 (h.order.imp Nat.ne_of_lt)
  have inside : l.map key ⊆ List.range' a n := fun k hk => by
    obtain ⟨x, hx, rfl⟩ := List.mem_map.1 hk
    exact List.mem_range'_1.2 (range x (h.law x hx))
  simpa using (distinct.subperm inside).length_le

end

end Sys2Proof.Machine
end

