-- ==== Sys2Proof/Proofs/BookRecords.lean ====
section
/-! PROOFS. The records and list entries of the book: their places in its order (R71, R77), what each operation of the book
does to one of them, and that it keeps its law (R72). -/

namespace Sys2Proof.Machine

open Sys2Proof.Safety

/-! ### Places in the order (R5, R71) -/

/-- Two slots equally far ahead are one slot (R5). -/
theorem slot_eq_of_distance_eq {c j k : Nat} (hc : c < 6291456) (hj : j < 6291456) (hk : k < 6291456)
    (same : distance c j = distance c k) : j = k := by
  rw [distance_eq, distance_eq] at same
  omega

theorem distance_self {c k : Nat} (hc : c < 6291456) (hk : k < 6291456) : distance c k = 0 ↔ k = c := by
  rw [distance_eq]
  omega

/-- Seen from the next slot every other slot is one nearer (R5, R84). -/
theorem distance_from_next {c c' k : Nat} (hc : c < 6291456) (next : c' = (c + 1) % 6291456) (hk : k < 6291456)
    (ahead : k ≠ c) : distance c' k + 1 = distance c k := by
  rw [distance_eq, distance_eq]
  omega

theorem rank_lt (p : Product) : p.rank < 4 := by cases p <;> decide

theorem rank_injective {p q : Product} (same : p.rank = q.rank) : p = q := by
  cases p <;> cases q <;> simp_all [Product.rank]

theorem bookKey_eq (c k : Nat) (p : Product) : bookKey c k p = distance c k * 4 + p.rank := rfl

theorem bookKey_from_next {c c' k : Nat} (hc : c < 6291456) (next : c' = (c + 1) % 6291456) (hk : k < 6291456)
    (ahead : k ≠ c) (p : Product) : bookKey c' k p + 4 = bookKey c k p := by
  have nearer := distance_from_next hc next hk ahead
  rw [bookKey_eq, bookKey_eq]
  omega

/-- A slot of the horizon is not the one before the current slot (R5). -/
theorem ne_previous_of_within {c c' k : Nat} (hc' : c' < 6291456) (back : c = (c' + 1) % 6291456)
    (within : distance c k < 96) : k ≠ c' := by
  rintro rfl
  rw [distance_of_previous hc' back] at within
  omega

/-- A place in the order belongs to one slot and product (R71). -/
theorem eq_of_bookKey_eq {c j k : Nat} {p q : Product} (hc : c < 6291456) (hj : j < 6291456) (hk : k < 6291456)
    (same : bookKey c j p = bookKey c k q) : j = k ∧ p = q := by
  have low := rank_lt p
  have high := rank_lt q
  rw [bookKey_eq, bookKey_eq] at same
  exact ⟨slot_eq_of_distance_eq hc hj hk (by omega), rank_injective (by omega)⟩

/-- The place of a record when `c` is current (R71). -/
def BookRecord.key (c : Nat) (r : BookRecord) : Nat := bookKey c r.slot r.product

/-- The place of an entry when `c` is current (R77). -/
def ExpiredHold.key (c : Nat) (e : ExpiredHold) : Nat := bookKey c e.slot e.product

/-- The records of a book whose current slot is `c`, within their law and in order (R71, R72). -/
abbrev RecordsLaw (c : Nat) (rs : List BookRecord) : Prop := Keyed (RecordLaw c) (BookRecord.key c) rs

/-- The expired-hold list of a book whose current slot is `c`, within its law and in order (R77). -/
abbrev EntriesLaw (c : Nat) (es : List ExpiredHold) : Prop := Keyed (EntryLaw c) (ExpiredHold.key c) es

theorem bookLawAt_iff (c : Nat) (b : Book) : BookLawAt c b ↔ RecordsLaw c b.records ∧ EntriesLaw c b.expired :=
  ⟨fun ⟨records, order, entries, listed⟩ => ⟨⟨records, order⟩, ⟨entries, listed⟩⟩,
    fun ⟨⟨records, order⟩, ⟨entries, listed⟩⟩ => ⟨records, order, entries, listed⟩⟩

/-- 96 slots of four products make at most 384 records (R71). -/
theorem RecordsLaw.length_le {c : Nat} {rs : List BookRecord} (h : RecordsLaw c rs) : rs.length ≤ 384 := by
  refine Keyed.length_le h (a := 0) fun r ⟨_, within, _⟩ => ?_
  have low := rank_lt r.product
  simp only [Config.horizon] at within
  rw [BookRecord.key, bookKey_eq]
  omega

/-- The 95 slots ahead of the current one make at most 380 entries (R77). -/
theorem EntriesLaw.length_le {c : Nat} {es : List ExpiredHold} (h : EntriesLaw c es) : es.length ≤ 380 := by
  refine Keyed.length_le h (a := 4) fun e ⟨_, ahead, within⟩ => ?_
  have low := rank_lt e.product
  simp only [Config.horizon] at within
  rw [ExpiredHold.key, bookKey_eq]
  omega

/-! ### Finding a record -/

theorem BookRecord.isFor_iff (k : Nat) (p : Product) (r : BookRecord) : r.isFor k p = true ↔ r.slot = k ∧ r.product = p := by
  simp [BookRecord.isFor]

theorem ExpiredHold.isFor_iff (k : Nat) (p : Product) (e : ExpiredHold) : e.isFor k p = true ↔ e.slot = k ∧ e.product = p := by
  simp [ExpiredHold.isFor]

theorem recordOf_mem {rs : List BookRecord} {k : Nat} {p : Product} {r : BookRecord} (h : recordOf rs k p = some r) :
    r ∈ rs ∧ r.slot = k ∧ r.product = p :=
  ⟨List.mem_of_find?_eq_some h, by simpa using List.find?_some h⟩

/-- A hold that is due to expire stands on a record of the book (R78). -/
theorem dueHold_mem {rs : List BookRecord} {now : Time} {k : Nat} {p : Product} {z : HoldTerms}
    (h : dueHold rs now k p = some z) : ∃ r ∈ rs, r.slot = k ∧ r.product = p ∧ 0 < r.held := by
  obtain ⟨r, standing, -⟩ := Option.bind_eq_some_iff.1 h
  obtain ⟨found, holding⟩ := Option.filter_eq_some_iff.1 standing
  obtain ⟨mem, slot, product⟩ := recordOf_mem found
  exact ⟨r, mem, slot, product, (holding_iff r).1 holding⟩

/-! ### What the operations do to one record -/

/-- What a settled hold leaves of a record: of the one of slot `k` and product `p`, its award with `w` more and no hold, and
nothing if there is then no award (R72, R80, R82); R78 settles a lapsed hold with 0. -/
def BookRecord.settled (k : Nat) (p : Product) (w : Nat) (r : BookRecord) : Option BookRecord :=
  if r.isFor k p = true then
    if r.awarded + w = 0 then none else some { r with awarded := r.awarded + w, held := 0, terms := none }
  else some r

theorem endHolds_of_award (k : Nat) (p : Product) (w : Nat) (rs : List BookRecord) :
    endHolds (BookRecord.isFor k p) (rs.map fun r => if r.isFor k p then { r with awarded := r.awarded + w } else r) =
      rs.filterMap (BookRecord.settled k p w) := by
  rw [endHolds, List.filterMap_map]
  refine List.filterMap_congr fun r _ => ?_
  by_cases it : r.isFor k p = true
  · have still : BookRecord.isFor k p { r with awarded := r.awarded + w } = true := it
    simp [BookRecord.settled, it, still]
  · simp [BookRecord.settled, it]

theorem endHolds_of_lapse (k : Nat) (p : Product) (rs : List BookRecord) :
    endHolds (BookRecord.isFor k p) rs = rs.filterMap (BookRecord.settled k p 0) := rfl

section
variable {c c' k : Nat} {p : Product} {r x : BookRecord}

/-- A record's law when another slot is current, where the record lies in that slot's horizon. -/
theorem recordLaw_seen_from (law : RecordLaw c r) (within : distance c' r.slot < 96)
    (ahead : 0 < r.held → distance c' r.slot ≠ 0) : RecordLaw c' r := by
  obtain ⟨slot, -, -, rest⟩ := law
  exact ⟨slot, within, ahead, rest⟩

/-- A record whose hold ends keeps its law where an award stands on it (R72). -/
theorem recordLaw_without_hold (law : RecordLaw c r) {w : Nat} (stands : r.awarded + w ≠ 0) :
    RecordLaw c { r with awarded := r.awarded + w, held := 0, terms := none } := by
  obtain ⟨slot, within, -, -, -, risk⟩ := law
  exact ⟨slot, within, fun held => absurd held (Nat.lt_irrefl 0), by simp, Nat.pos_of_ne_zero stands, risk⟩

/-- Risk fields are shown only where one of them is not 0 (R89). -/
theorem shown_pos {d f : RiskFields} (h : d.shown = some f) : 0 < f.power + f.energy := by
  unfold RiskFields.shown at h
  split at h
  · cases h
  · next deficit =>
    cases h
    omega

theorem recordLaw_judged (law : RecordLaw c r) (rs : List BookRecord) (up down : Headroom) (j : Nat) :
    RecordLaw c (judged rs up down j r) := by
  have ⟨slot, within, ahead, terms, amount, _⟩ := law
  unfold judged
  split
  · exact ⟨slot, within, ahead, terms, amount, fun _ => shown_pos⟩
  · exact law

theorem key_judged (rs : List BookRecord) (up down : Headroom) (j : Nat) : (judged rs up down j r).key c = r.key c := by
  unfold judged
  split <;> rfl

theorem recordLaw_settled {w : Nat} (law : RecordLaw c r) (stays : r.settled k p w = some x) :
    RecordLaw c x ∧ x.key c = r.key c := by
  unfold BookRecord.settled at stays
  split at stays
  · split at stays
    · cases stays
    · next stands =>
      cases stays
      exact ⟨recordLaw_without_hold law stands, rfl⟩
  · cases stays
    exact ⟨law, rfl⟩

/-- A record that a boundary into the next slot leaves is one slot nearer, and has no hold if it is of that slot (R84,
R85). -/
theorem recordLaw_pastBoundary (hc : c < 6291456) (next : c' = (c + 1) % 6291456) (law : RecordLaw c r)
    (stays : r.pastBoundary c c' = some x) : RecordLaw c' x ∧ x.key c' + 4 = r.key c := by
  have ⟨slot, within, _⟩ := law
  simp only [Config.slotWrap, Config.horizon] at slot within
  unfold BookRecord.pastBoundary at stays
  split at stays
  · cases stays
  next left =>
  have nearer := distance_from_next hc next slot left
  have key : r.key c' + 4 = r.key c := bookKey_from_next hc next slot left r.product
  split at stays
  · split at stays
    · cases stays
    · next stands =>
      cases stays
      have ended := recordLaw_without_hold (w := 0) law stands
      exact ⟨recordLaw_seen_from ended (by change distance c' r.slot < 96; omega) (absurd · (Nat.lt_irrefl 0)), key⟩
  · next no_lapse =>
    cases stays
    have inside : c' < 6291456 := by omega
    exact ⟨recordLaw_seen_from law (by omega) fun held here => no_lapse ⟨(distance_self inside slot).1 here, held⟩, key⟩

/-- A record that a step-back into the slot before leaves is one slot farther (R86). -/
theorem recordLaw_stepBack (hc' : c' < 6291456) (back : c = (c' + 1) % 6291456) (law : RecordLaw c r)
    (near : distance c' r.slot ≠ 96) : RecordLaw c' r ∧ r.key c' = r.key c + 4 := by
  have ⟨slot, within, _⟩ := law
  simp only [Config.slotWrap, Config.horizon] at slot within
  have left : r.slot ≠ c' := ne_previous_of_within hc' back within
  have farther := distance_from_next hc' back slot left
  exact ⟨recordLaw_seen_from law (by omega) fun _ => by omega, (bookKey_from_next hc' back slot left r.product).symm⟩

end

/-! ### The list entries at a change of slot (R85, R86) -/

section
variable {c c' : Nat} {e : ExpiredHold}

theorem entryLaw_pastBoundary (hc : c < 6291456) (next : c' = (c + 1) % 6291456) (law : EntryLaw c e)
    (stays : e.slot ≠ c') : EntryLaw c' e ∧ e.key c' + 4 = e.key c := by
  obtain ⟨slot, ahead, within⟩ := law
  simp only [Config.slotWrap, Config.horizon] at slot within
  have left : e.slot ≠ c := fun eq => ahead ((distance_self hc slot).2 eq)
  have nearer := distance_from_next hc next slot left
  have inside : c' < 6291456 := by omega
  have near : distance c' e.slot < Config.horizon := by
    rw [← nearer] at within
    exact Nat.lt_of_succ_lt within
  exact ⟨⟨slot, fun here => stays ((distance_self inside slot).1 here), near⟩,
    bookKey_from_next hc next slot left e.product⟩

theorem entryLaw_stepBack (hc' : c' < 6291456) (back : c = (c' + 1) % 6291456) (law : EntryLaw c e)
    (near : distance c' e.slot ≠ 96) : EntryLaw c' e ∧ e.key c' = e.key c + 4 := by
  obtain ⟨slot, -, within⟩ := law
  simp only [Config.slotWrap, Config.horizon] at slot within
  have left : e.slot ≠ c' := ne_previous_of_within hc' back within
  have farther := distance_from_next hc' back slot left
  have inside : distance c' e.slot < 96 := by omega
  exact ⟨⟨slot, by omega, inside⟩, (bookKey_from_next hc' back slot left e.product).symm⟩

end

end Sys2Proof.Machine
end

