-- ==== Sys2Proof/Proofs/BookSteps.lean ====
section
/-! PROOFS. Everything a command can do to the clock, to the book and to the offer parameters (R4, R6, R9 to R11, R64, R72,
R75, R78, R80, R82, R84 to R87). -/

namespace Sys2Proof.Machine

open Sys2Proof.Safety

/-! ### What the laws of clock and book read -/

/-- The clock with the book and the offer parameters, without the evaluations that are requested. -/
structure Ledger where
  now : Option Time
  records : List BookRecord
  expired : List ExpiredHold
  params : OfferParams

def State.ledger (s : State) : Ledger := ⟨s.now, s.book.records, s.book.expired, s.book.params⟩

/-- What can happen to a ledger, command by command. -/
inductive BookStep (l : Ledger) : Ledger → Prop
  | kept : BookStep l l
  /-- SET_OFFER_PARAMS (R64). -/
  | priced {m y g q : Nat} (range : offerParamsInRange m y g q = true) : BookStep l { l with params := ⟨m, y, g, q⟩ }
  /-- SET_TIME while UNSET (R9). -/
  | started (u : Time) (unset : l.now = none) (valid : TimeLaw u) : BookStep l { l with now := some u }
  /-- The clock moves within its slot (R4, R9). -/
  | moved (v u : Time) (now : l.now = some v) (valid : TimeLaw v → TimeLaw u) (within : u.slot = v.slot) :
      BookStep l { l with now := some u }
  /-- A boundary into the next slot, with its evaluation (R6, R84, R85). -/
  | advanced (v u : Time) (rs : List BookRecord) (up down : Headroom) (now : l.now = some v)
      (valid : TimeLaw v → TimeLaw u) (next : TimeLaw v → u.slot = (v.slot + 1) % 6291456) :
      BookStep l { l with
        now := some u
        records := (l.records.filterMap (BookRecord.pastBoundary v.slot u.slot)).map (judged rs up down u.slot)
        expired := l.expired.filter fun e => e.slot ≠ u.slot }
  /-- A step-back into the slot before (R11, R86). -/
  | steppedBack (v u : Time) (now : l.now = some v) (valid : TimeLaw u)
      (back : TimeLaw v → v.slot = (u.slot + 1) % 6291456) :
      BookStep l { l with
        now := some u
        records := l.records.filter fun r => distance u.slot r.slot ≠ 96
        expired := l.expired.filter fun e => distance u.slot e.slot ≠ 96 }
  /-- A re-set into another slot, which only a book without records allows (R9, R10, R86). -/
  | emptied (u : Time) (free : l.records = []) (valid : TimeLaw u) : BookStep l ⟨some u, [], [], l.params⟩
  /-- A shortfall evaluation (R87 to R90). -/
  | evaluated (c : Nat) (rs : List BookRecord) (up down : Headroom) :
      BookStep l { l with records := l.records.map (judged rs up down c) }
  /-- HOLD (R75). -/
  | granted (v : Time) (k : Nat) (p : Product) (w : Nat) (z : HoldTerms) (now : l.now = some v) (slot : k < 6291456)
      (ahead : 1 ≤ distance v.slot k) (within : distance v.slot k < 96) (some_power : 0 < w) :
      BookStep l { l with
        records := putRecord v.slot
          { (recordOf l.records k p).getD ⟨k, p, 0, 0, none, none⟩ with held := w, terms := some z } l.records
        expired := l.expired.filter fun e => !e.isFor k p }
  /-- AWARD, and RELEASE with 0 (R80, R82). -/
  | settled (k : Nat) (p : Product) (w : Nat) :
      BookStep l { l with records := l.records.filterMap (BookRecord.settled k p w) }
  /-- HOLD_EXPIRY (R78). -/
  | lapsed (v : Time) (k : Nat) (p : Product) (z : HoldTerms) (now : l.now = some v)
      (due : dueHold l.records v k p = some z) :
      BookStep l { l with
        records := l.records.filterMap (BookRecord.settled k p 0)
        expired := putExpired v.slot ⟨k, p, z.tag, z.expiry⟩ l.expired }
  /-- DEVICE_RESET (R3). -/
  | reset : BookStep l State.reset.ledger

theorem BookStep.of_eq {l l' : Ledger} (same : l' = l) : BookStep l l' := same ▸ .kept

section
variable (s : State)

/-! ### Operations that leave the ledger -/

@[simp] theorem ledger_raise (p : Port) (c : Cause) : (s.raise p c).ledger = s.ledger := by simp [State.ledger]

@[simp] theorem ledger_raiseIf (b : Bool) (p : Port) (c : Cause) : (s.raiseIf b p c).ledger = s.ledger := by
  simp [State.ledger]

@[simp] theorem ledger_dequeue (p : Port) : (s.dequeue p).ledger = s.ledger := by simp [State.ledger]

@[simp] theorem ledger_respond (p : Port) (x : Telegram) (r : ResultCode) (b : ResponseBody) :
    (s.respond p x r b).ledger = s.ledger := by simp [State.ledger]

@[simp] theorem ledger_loadCapacities : s.loadCapacities.ledger = s.ledger := by simp [State.ledger]

@[simp] theorem ledger_genBoundary : s.genBoundary.ledger = s.ledger := by simp [State.ledger]

@[simp] theorem ledger_endFrame : s.endFrame.ledger = s.ledger := by simp [State.ledger]

@[simp] theorem ledger_collided : s.collided.ledger = s.ledger := by
  rcases collided_cases s with ⟨-, eq⟩ | ⟨-, -, eq⟩ | ⟨-, -, eq⟩ <;> rw [eq] <;> rfl

@[simp] theorem ledger_endPoll (a : Address) (o : PollOutcome) : (s.endPoll a o).ledger = s.ledger :=
  ledger_endFrame _

@[simp] theorem ledger_goodReport (a : Address) (q : Report) : (s.goodReport a q).ledger = s.ledger := by
  simp only [State.goodReport]
  split
  · rfl
  · split <;> rfl

@[simp] theorem ledger_takeReply (a : Address) (bytes : List Byte) : (s.takeReply a bytes).ledger = s.ledger := by
  rcases takeReply_cases s a bytes with ⟨-, eq⟩ | ⟨-, eq⟩ <;> simp [eq]

@[simp] theorem ledger_beginPoll (a : Address) : (s.beginPoll a).ledger = s.ledger := by
  simp only [State.beginPoll]
  split <;> rfl

@[simp] theorem ledger_assertFreeze : s.assertFreeze.ledger = s.ledger := by
  simp [State.ledger, State.assertFreeze, State.raiseFreeze]

/-! ### The operations of the book -/

/-- An evaluation writes the risk fields of the records and nothing else of the ledger (R88, R89). -/
theorem ledger_evaluate {c : Nat} (current : s.current = some c) : ∃ rs up down, s.evaluate.ledger =
    { s.ledger with records := s.ledger.records.map (judged rs up down c) } :=
  ⟨s.book.records, s.headroom c .up, s.headroom c .down, by simp [State.ledger, State.evaluate, current]⟩

/-- While the clock is UNSET an evaluation changes nothing (R87). -/
theorem evaluate_unset (current : s.current = none) : s.evaluate = s := by simp [State.evaluate, current]

/-- A boundary is an evaluation of the book that it carries over (R84 to R86). -/
theorem ledger_bookBoundary {c : Nat} (current : s.current = some c) (old : Nat) (reset : Bool) :
    ∃ rs up down, (s.bookBoundary old c reset).ledger = { (s.bookCarried old c reset).ledger with
      records := (s.bookCarried old c reset).ledger.records.map (judged rs up down c) } := by
  classical
  obtain ⟨u, evaluates, carried⟩ :
      ∃ u : State, s.bookBoundary old c reset = u.evaluate ∧ u.ledger = (s.bookCarried old c reset).ledger := by
    refine ⟨_, bookBoundary_eq s old c reset, ?_⟩
    split <;> simp
  have now : u.now = s.now := congrArg Ledger.now carried
  rw [evaluates, ← carried]
  exact ledger_evaluate u (by rw [State.current, now]; exact current)

@[simp] theorem ledger_bookStepBack (c : Nat) : (s.bookStepBack c).ledger = (s.bookWithoutFar c).ledger := by
  classical
  rw [bookStepBack_eq]
  split <;> split <;> simp

theorem ledger_settleHold (k : Nat) (p : Product) (w : Nat) : (s.settleHold k p w).ledger =
    { s.ledger with records := s.book.records.filterMap (BookRecord.settled k p w) } := by
  rw [← endHolds_of_award]
  rfl

end

/-! ### The clock (R4, R6, R9 to R11) -/

section
variable {s t : State}

theorem timeLaw_next {v : Time} (law : TimeLaw v) : TimeLaw v.next := by
  obtain ⟨day, tenths⟩ := law
  rw [next_eq]
  split
  · next within => exact ⟨day, within⟩
  · exact ⟨Nat.mod_lt _ (Nat.succ_pos 65535), Nat.succ_pos 863999⟩

/-- A tenth that leaves the slot enters the next one (R4, R5). -/
theorem next_slot {v : Time} (law : TimeLaw v) (leaves : v.next.slot ≠ v.slot) : v.next.slot = (v.slot + 1) % 6291456 := by
  by_cases boundary : (v.tenths + 1) % 9000 = 0
  · exact (next_boundary law boundary).2
  · exact absurd (next_within law boundary).2 leaves

/-- The boundary from the slot of `v` into that of `u`, where it is the next one. -/
theorem bookStep_boundary {v u : Time} (now : s.now = some v) (valid : TimeLaw v → TimeLaw u)
    (next : TimeLaw v → u.slot = (v.slot + 1) % 6291456) :
    BookStep s.ledger ({ s with now := some u }.boundary v.slot false).ledger := by
  obtain ⟨rs, up, down, eq⟩ := ledger_bookBoundary { s with now := some u } (c := u.slot) rfl v.slot false
  rw [boundary_of_now, ledger_genBoundary, eq]
  exact .advanced v u rs up down now valid next

theorem bookStep_stepBack {v u : Time} (now : s.now = some v) (valid : TimeLaw u)
    (back : TimeLaw v → v.slot = (u.slot + 1) % 6291456) :
    BookStep s.ledger ({ s with now := some u }.stepBack).ledger := by
  rw [stepBack_of_now, ledger_loadCapacities, ledger_bookStepBack]
  exact .steppedBack v u now valid back

/-- The boundary of a re-set, in a book without records (R86). -/
theorem bookStep_reset {u : Time} (old : Nat) (valid : TimeLaw u) (free : s.book.records = []) :
    BookStep s.ledger ({ s with now := some u }.boundary old true).ledger := by
  obtain ⟨rs, up, down, eq⟩ := ledger_bookBoundary { s with now := some u } (c := u.slot) rfl old true
  have empty : ({ s with now := some u }.bookCarried old u.slot true).ledger.records = [] := by
    simp [State.ledger, State.bookCarried, free]
  rw [boundary_of_now, ledger_genBoundary, eq, empty]
  exact .emptied u free valid

theorem tenthElapsed_bookStep (h : exec .tenthElapsed s = .next t) : BookStep s.ledger t.ledger := by
  simp only [exec, execTenthElapsed] at h
  cases h
  split
  · exact .kept
  · next v now =>
    split
    · next within => exact .moved v v.next now timeLaw_next within
    · next leaves => exact bookStep_boundary now timeLaw_next fun law => next_slot law leaves

/-- A correction of at most 300 tenths stays in the slot or moves to one beside it (R9 to R11). -/
theorem bookStep_correction {v u : Time} (now : s.now = some v) (valid : TimeLaw u) (small : (u.diff v).natAbs ≤ 300) :
    BookStep s.ledger (s.moveClock v u false).ledger := by
  simp only [State.moveClock]
  split
  · next within => exact .moved v u now (fun _ => valid) within
  next leaves =>
  split
  · next ahead =>
    have near : distance v.slot u.slot < Config.pastFrom := ahead.resolve_left (by decide)
    refine bookStep_boundary now (fun _ => valid) fun law => ?_
    rcases slot_of_small_diff valid law small with same | next | back
    · exact absurd same leaves
    · exact next
    · rw [distance_of_previous (slot_lt_wrap valid) back] at near
      exact absurd near (by decide)
  · next behind =>
    refine bookStep_stepBack now valid fun law => ?_
    rcases slot_of_small_diff valid law small with same | next | back
    · exact absurd same leaves
    · refine absurd (.inr ?_) behind
      rw [distance_of_next (slot_lt_wrap law) next]
      decide
    · exact back

theorem ownSetTime_bookStep (s : State) (day : BitVec 16) (tenths : Nat) :
    BookStep s.ledger (ownSetTime day tenths s).state.ledger := by
  by_cases range : tenths < 864000
  · have valid : TimeLaw ⟨day.toNat, tenths⟩ := ⟨day.isLt, range⟩
    cases now : s.now with
    | none =>
      rw [ownSetTime_unset range day now, ledger_loadCapacities]
      exact .started _ now valid
    | some v =>
      by_cases small : (Time.diff ⟨day.toNat, tenths⟩ v).natAbs ≤ 300
      · rw [ownSetTime_small range day now small]
        exact bookStep_correction now valid small
      · by_cases free : s.book.records = []
        · rw [ownSetTime_reset range day now (Nat.lt_of_not_le small) free]
          by_cases within : Time.slot ⟨day.toNat, tenths⟩ = v.slot
          · rw [moveClock_within s within]
            exact .moved v _ now (fun _ => valid) within
          · simp only [State.moveClock, if_neg within, true_or, if_true]
            exact bookStep_reset v.slot valid free
        · rw [ownSetTime_timeJump range day now (Nat.lt_of_not_le small) free]
          exact .kept
  · rw [ownSetTime_badValue s (Nat.le_of_not_lt range)]
    exact .kept

/-! ### The requests of the book (R64, R75, R80, R82) -/

theorem ownSetOfferParams_bookStep (s : State) (m y g q : Nat) :
    BookStep s.ledger (ownSetOfferParams m y g q s).state.ledger := by
  unfold ownSetOfferParams
  split
  · next range => exact .priced range
  · exact .kept

/-- A hold that passes the checks of the horizon, of the closed slots and of the amount is granted or refused (R74). -/
theorem holdAt_bookStep {s : State} {v : Time} {k w : Nat} (now : s.now = some v) (slot : k < 6291456)
    (ahead : 1 ≤ distance v.slot k) (within : distance v.slot k < 96) (some_power : 0 < w) (p : Product) (z : HoldTerms) :
    BookStep s.ledger (s.holdAt v.slot k p w z).state.ledger := by
  simp only [State.holdAt]
  split
  · exact .kept
  split
  · exact .kept
  · exact .granted v k p w z now slot ahead within some_power

theorem ownHold_bookStep (s : State) (k : Nat) (product : Option Product) (w : Nat) (day : BitVec 16) (tenths : Nat)
    (tag : Half) : BookStep s.ledger (ownHold k product w day tenths tag s).state.ledger := by
  cases product with
  | none => exact .kept
  | some p =>
    simp only [ownHold]
    split
    · exact .kept
    next range =>
    split
    · exact .kept
    next v now =>
    split
    · exact .kept
    next not_beyond =>
    split
    · exact .kept
    next not_closed =>
    split
    · exact .kept
    next granule =>
    split
    · exact .kept
    have slot : k < Config.slotWrap := by
      simp only [slotInRange, Bool.not_eq_true', Bool.not_eq_false, Bool.and_eq_true, decide_eq_true_eq] at range
      exact range.1.1
    simp only [Config.horizon] at not_beyond
    exact holdAt_bookStep now slot (by omega) (by omega) (by omega) p _

theorem settleHold_bookStep (s : State) (k : Nat) (p : Product) (w : Nat) :
    BookStep s.ledger (s.settleHold k p w).ledger := by
  rw [ledger_settleHold]
  exact .settled k p w

theorem ownAward_bookStep (s : State) (k : Nat) (product : Option Product) (w : Nat) (tag : Half) :
    BookStep s.ledger (ownAward k product w tag s).state.ledger := by
  unfold ownAward
  split
  · exact .kept
  next p ahead =>
  split
  · exact .kept
  next r standing =>
  split
  · exact .kept
  split
  · exact .kept
  split
  · exact .kept
  · exact settleHold_bookStep s k p w

theorem ownRelease_bookStep (s : State) (k : Nat) (product : Option Product) (tag : Half) :
    BookStep s.ledger (ownRelease k product tag s).state.ledger := by
  unfold ownRelease
  split
  · exact .kept
  next p ahead =>
  split
  · exact .kept
  next r standing =>
  split
  · exact .kept
  · exact settleHold_bookStep s k p 0

/-- Every request but SET_TIME, SET_OFFER_PARAMS and those of the book leaves the ledger. -/
theorem ownOf_bookStep (s : State) (p : Port) (r : Request) : BookStep s.ledger (ownOf p r s).state.ledger := by
  cases r with
  | setTime day tenths => exact ownSetTime_bookStep s day tenths
  | setOfferParams m y g q => exact ownSetOfferParams_bookStep s m y g q
  | hold k product w day tenths tag => exact ownHold_bookStep s k product w day tenths tag
  | award k product w tag => exact ownAward_bookStep s k product w tag
  | release k product tag => exact ownRelease_bookStep s k product tag
  | _ =>
    refine .of_eq ?_
    simp only [ownOf, refuse, ownEnroll, ownAmend, ownRemove, ownReadSite, ownSetItems, ownDefineWindow, ownClearWindow,
      ownSetBranch, ownSetDefaultClass, editWith, ownSuspend, ownResume, State.putInForce, ownQueryClass, ownReadWindows,
      ownOfferQuery, ownReadBook, ownSetMeter, ownReadMeter, ownSetFlParams, ownArmFl, ownDisarmFl, armAnswer, ownSetPoint,
      ownSetSlParams, ownEnterTest, ownInject, ownLeaveTest, ownReadBranchLoad, ownReadResponse, ownReadJournal,
      ownReleaseJournal, ownBusEnable, ownBusDisable, ownBusConfig, ownBusRestore, busAnswer, ownSetLinkMode, ownStatus,
      ownIdentify]
    repeat' split
    all_goals simp [State.ledger]

/-! ### Every command -/

theorem request_bookStep {c : Instr} {p : Port} {r : Request} (row : requestRow c = some (p, r))
    (h : exec c s = .next t) : BookStep s.ledger t.ledger := by
  rw [exec_request s row] at h
  cases h
  rcases serve_cases s p r (ownOf p r) with eq | ⟨u, code, -, -, eq⟩ | ⟨u, -, -, eq⟩ <;> rw [eq]
  · exact .kept
  · rw [ledger_respond, ledger_dequeue]
    exact .kept
  · rw [ledger_respond, ← ledger_dequeue s p]
    exact ownOf_bookStep (s.dequeue p) p r

theorem holdExpiry_bookStep {k : Nat} {p : Product} (h : exec (.holdExpiry k p) s = .next t) :
    BookStep s.ledger t.ledger := by
  simp only [exec, execHoldExpiry] at h
  cases h
  split
  · exact .kept
  next v now =>
  split
  · exact .kept
  next z due =>
  rw [ledger_raise, endHolds_of_lapse]
  exact .lapsed v k p z now due

theorem evaluate_bookStep (s : State) : BookStep s.ledger s.evaluate.ledger := by
  cases current : s.current with
  | none => exact .of_eq (by rw [evaluate_unset s current])
  | some c =>
    obtain ⟨rs, up, down, eq⟩ := ledger_evaluate s current
    exact eq ▸ .evaluated c rs up down

theorem shortfallEvaluation_bookStep (h : exec .shortfallEvaluation s = .next t) : BookStep s.ledger t.ledger := by
  simp only [exec, execShortfallEvaluation] at h
  cases h
  split
  · exact .kept
  exact evaluate_bookStep { s with book := { s.book with evalRequests := s.book.evalRequests - 1 } }

theorem deviceReset_bookStep {f : Bool} {levels : ResetLevels} (h : exec (.deviceReset f levels) s = .next t) :
    BookStep s.ledger t.ledger := by
  cases h
  split
  · rw [ledger_assertFreeze]
    exact .reset
  · exact .reset

/-- A poll begins, or ends the round, without the book (R152). -/
theorem poll_ledger (h : exec .poll s = .next t) : t.ledger = s.ledger := by
  cases h
  split
  · split
    · exact ledger_beginPoll s _
    · split
      · rfl
      · split
        · exact ledger_beginPoll s.endRound _
        · rfl
  · rfl

/-- Every event but those of the clock and of the book, and the reset, leaves the ledger. -/
theorem event_bookStep {c : Instr} (row : requestRow c = none) (h : exec c s = .next t) : BookStep s.ledger t.ledger := by
  cases c with
  | deviceReset f levels => exact deviceReset_bookStep h
  | tenthElapsed => exact tenthElapsed_bookStep h
  | holdExpiry k p => exact holdExpiry_bookStep h
  | shortfallEvaluation => exact shortfallEvaluation_bookStep h
  | freezeAssertion =>
    cases h
    split
    · exact .kept
    · exact .of_eq (ledger_assertFreeze s)
  | poll => exact .of_eq (poll_ledger h)
  | replyWindowExpiry | pollEndOnQuiet | replyGap =>
    cases h
    split
    · exact .of_eq (ledger_endPoll s _ _)
    · exact .kept
  | report characters =>
    cases h
    split
    · exact .of_eq (ledger_takeReply s _ _)
    · exact .kept
  | blockComplete =>
    cases h
    split
    · exact .of_eq (ledger_endFrame _)
    · exact .kept
  | collision =>
    cases h
    split
    · exact .of_eq (ledger_collided _)
    · exact .of_eq (ledger_collided _)
    · exact .kept
  | freshnessExpiry a | freezeDeassertion | backoffExpiry | dispatchBlock | pollSent | rateCheckFailed span
  | replyParityError | replyStart =>
    cases h
    refine .of_eq ?_
    repeat' split
    all_goals rfl
  | gsenseRisingEdge edge =>
    simp only [exec, execGsenseRisingEdge] at h
    cases h
    refine .of_eq ?_
    repeat' split
    all_goals simp [State.ledger]
  | passTimerExpiry | rampTimerExpiry | lossTimerExpiry | holdTimerExpiry | refreshTimerExpiry | injectionEnd
  | closingTimerExpiry kind | telegramComplete p front request check | overrunResponse p | responseTransmitted p
  | framingError character | lengthOutOfRange p length | gap p | linkBreak p | breakEnd p | telegramLead character =>
    cases h
    refine .of_eq ?_
    repeat' split
    all_goals simp [State.ledger]
  | _ => nomatch row

theorem exec_bookStep {c : Instr} (h : exec c s = .next t) : BookStep s.ledger t.ledger := by
  cases row : requestRow c with
  | some pr => exact request_bookStep row h
  | none => exact event_bookStep row h

end

end Sys2Proof.Machine
end

