-- ==== Sys2Proof/Proofs/BookLaws.lean ====
section
/-! PROOFS. The laws of the clock, of the book and of the offer parameters through everything a command can do to them (R63,
R71, R72, R77). -/

namespace Sys2Proof.Machine

open Sys2Proof.Safety

/-! ### A record or an entry in its place (R71, R77) -/

section
variable {c k : Nat} {p : Product}

/-- The records of the other slots and products have other places than a record (R71). -/
theorem RecordsLaw.put {rs : List BookRecord} (h : RecordsLaw c rs) (hc : c < 6291456) {r : BookRecord}
    (law : RecordLaw c r) : RecordsLaw c (putRecord c r rs) := by
  have others : RecordsLaw c (rs.filter fun q => !q.isFor r.slot r.product) :=
    h.filter 0 0 fun x law _ => ⟨law, rfl⟩
  refine others.insert law fun q hq same => ?_
  obtain ⟨mem, other⟩ := List.mem_filter.1 hq
  have ⟨slot, product⟩ := eq_of_bookKey_eq hc (h.law q mem).1 law.1 same
  rw [(BookRecord.isFor_iff _ _ q).2 ⟨slot, product⟩] at other
  cases other

theorem EntriesLaw.put {es : List ExpiredHold} (h : EntriesLaw c es) (hc : c < 6291456) {e : ExpiredHold}
    (law : EntryLaw c e) : EntriesLaw c (putExpired c e es) := by
  have others : EntriesLaw c (es.filter fun q => !q.isFor e.slot e.product) :=
    h.filter 0 0 fun x law _ => ⟨law, rfl⟩
  refine others.insert law fun q hq same => ?_
  obtain ⟨mem, other⟩ := List.mem_filter.1 hq
  have ⟨slot, product⟩ := eq_of_bookKey_eq hc (h.law q mem).1 law.1 same
  rw [(ExpiredHold.isFor_iff _ _ q).2 ⟨slot, product⟩] at other
  cases other

/-- The record of a granted hold: the one that stood there, or a new one, with the hold (R75). -/
theorem recordLaw_granted {rs : List BookRecord} (h : RecordsLaw c rs) (slot : k < 6291456) (ahead : 1 ≤ distance c k)
    (within : distance c k < 96) {w : Nat} (some_power : 0 < w) (z : HoldTerms) : RecordLaw c
      { (recordOf rs k p).getD ⟨k, p, 0, 0, none, none⟩ with held := w, terms := some z } := by
  have granted {r : BookRecord} (at_k : r.slot = k) (risk : ∀ f ∈ r.risk, 0 < f.power + f.energy) :
      RecordLaw c { r with held := w, terms := some z } := by
    subst at_k
    exact ⟨slot, within, fun _ => Nat.ne_of_gt ahead, ⟨fun _ => some_power, fun _ => rfl⟩, Nat.add_pos_right _ some_power,
      risk⟩
  cases found : recordOf rs k p with
  | none => exact granted rfl nofun
  | some r =>
    obtain ⟨mem, at_k, -⟩ := recordOf_mem found
    obtain ⟨-, -, -, -, -, risk⟩ := h.law r mem
    exact granted at_k risk

end

/-! ### The laws of a ledger -/

/-- The clock's and the book's laws, of a ledger. -/
structure Ledger.Lawful (l : Ledger) : Prop where
  unset : l.now = none → l.records = [] ∧ l.expired = []
  set : ∀ v, l.now = some v → TimeLaw v ∧ RecordsLaw v.slot l.records ∧ EntriesLaw v.slot l.expired

theorem lawful_iff (s : State) : s.ledger.Lawful ↔ ClockLaw s ∧ BookLaw s := by
  constructor
  · intro ⟨unset, set⟩
    refine ⟨fun v now => (set v now).1, unset, fun c current => ?_⟩
    obtain ⟨v, now, rfl⟩ := Option.map_eq_some_iff.1 current
    exact (bookLawAt_iff _ _).2 (set v now).2
  · intro ⟨clock, unset, set⟩
    refine ⟨unset, fun v now => ⟨clock v now, (bookLawAt_iff _ _).1 (set v.slot ?_)⟩⟩
    rw [State.current, show s.now = some v from now]
    rfl

section
variable {l l' : Ledger}

/-- A ledger whose clock is set meets the laws where its clock, records and entries do. -/
theorem Ledger.Lawful.of_set {v : Time} (now : l.now = some v) (time : TimeLaw v) (records : RecordsLaw v.slot l.records)
    (entries : EntriesLaw v.slot l.expired) : l.Lawful := by
  refine ⟨fun unset => ?_, fun u set => ?_⟩
  · rw [now] at unset
    cases unset
  · obtain rfl : v = u := Option.some.inj (now.symm.trans set)
    exact ⟨time, records, entries⟩

/-- Records that keep their law and their place while the clock stands. -/
theorem Ledger.Lawful.filterMap_records (h : l.Lawful) {f : BookRecord → Option BookRecord}
    (keep : ∀ c r x, RecordLaw c r → f r = some x → RecordLaw c x ∧ x.key c = r.key c) :
    ({ l with records := l.records.filterMap f } : Ledger).Lawful := by
  refine ⟨fun unset => ?_, fun v now => ?_⟩
  · obtain ⟨records, expired⟩ := h.unset unset
    exact ⟨by simp [records], expired⟩
  · obtain ⟨time, records, entries⟩ := h.set v now
    exact ⟨time, records.filterMap 0 0 (keep v.slot), entries⟩

/-- A boundary into the next slot (R84, R85). -/
theorem Ledger.Lawful.advanced {v u : Time} (h : l.Lawful) (now : l.now = some v) (valid : TimeLaw u)
    (next : u.slot = (v.slot + 1) % 6291456) (rs : List BookRecord) (up down : Headroom) : ({ l with
      now := some u
      records := (l.records.filterMap (BookRecord.pastBoundary v.slot u.slot)).map (judged rs up down u.slot)
      expired := l.expired.filter fun e => e.slot ≠ u.slot } : Ledger).Lawful := by
  obtain ⟨time, records, entries⟩ := h.set v now
  have slot := slot_lt_wrap time
  have carried : RecordsLaw u.slot (l.records.filterMap (BookRecord.pastBoundary v.slot u.slot)) :=
    records.filterMap 4 0 fun r x law stays => recordLaw_pastBoundary slot next law stays
  refine .of_set rfl valid (carried.map fun r law => ⟨recordLaw_judged law rs up down _, key_judged ..⟩) ?_
  exact entries.filter 4 0 fun e law stays => entryLaw_pastBoundary slot next law (of_decide_eq_true stays)

/-- A step-back into the slot before (R86). -/
theorem Ledger.Lawful.steppedBack {v u : Time} (h : l.Lawful) (now : l.now = some v) (valid : TimeLaw u)
    (back : v.slot = (u.slot + 1) % 6291456) : ({ l with
      now := some u
      records := l.records.filter fun r => distance u.slot r.slot ≠ 96
      expired := l.expired.filter fun e => distance u.slot e.slot ≠ 96 } : Ledger).Lawful := by
  obtain ⟨-, records, entries⟩ := h.set v now
  have slot := slot_lt_wrap valid
  refine .of_set rfl valid ?_ ?_
  · exact records.filter 0 4 fun r law near => recordLaw_stepBack slot back law (of_decide_eq_true near)
  · exact entries.filter 0 4 fun e law near => entryLaw_stepBack slot back law (of_decide_eq_true near)

/-- The clock's and the book's laws, through every step. -/
theorem BookStep.lawful (step : BookStep l l') (h : l.Lawful) : l'.Lawful := by
  cases step with
  | kept => exact h
  | priced range => exact ⟨h.unset, h.set⟩
  | started u unset valid =>
    obtain ⟨records, expired⟩ := h.unset unset
    exact .of_set rfl valid (records ▸ .nil) (expired ▸ .nil)
  | moved v u now valid within =>
    obtain ⟨time, records, entries⟩ := h.set v now
    exact .of_set rfl (valid time) (within ▸ records) (within ▸ entries)
  | advanced v u rs up down now valid next =>
    have time := (h.set v now).1
    exact h.advanced now (valid time) (next time) rs up down
  | steppedBack v u now valid back => exact h.steppedBack now valid (back (h.set v now).1)
  | emptied u free valid => exact .of_set rfl valid .nil .nil
  | evaluated c rs up down =>
    rw [← List.filterMap_eq_map]
    refine h.filterMap_records fun c r x law eq => ?_
    cases eq
    exact ⟨recordLaw_judged law rs up down _, key_judged ..⟩
  | granted v k p w z now slot ahead within some_power =>
    obtain ⟨time, records, entries⟩ := h.set v now
    exact .of_set now time
      (records.put (slot_lt_wrap time) (recordLaw_granted records slot ahead within some_power z))
      (entries.filter 0 0 fun e law _ => ⟨law, rfl⟩)
  | settled k p w => exact h.filterMap_records fun c r x law stays => recordLaw_settled law stays
  | lapsed v k p z now due =>
    obtain ⟨time, records, entries⟩ := h.set v now
    obtain ⟨r, mem, rfl, rfl, held⟩ := dueHold_mem due
    obtain ⟨slot, within, ahead, -⟩ := records.law r mem
    exact .of_set now time (records.filterMap 0 0 fun r x law stays => recordLaw_settled law stays)
      (entries.put (slot_lt_wrap time) ⟨slot, ahead held, within⟩)
  | reset => exact ⟨fun _ => ⟨rfl, rfl⟩, nofun⟩

/-- The offer parameters lie in their ranges (R63). -/
def OfferParams.inRange (x : OfferParams) : Prop := offerParamsInRange x.margin x.duty x.granularity x.recovery = true

theorem paramsLaw_iff (s : State) : ParamsLaw s ↔ s.ledger.params.inRange := (offerParamsInRange_iff _ _ _ _).symm

/-- Only SET_OFFER_PARAMS and a reset move the offer parameters (R64). -/
theorem BookStep.params_inRange (step : BookStep l l') (h : l.params.inRange) : l'.params.inRange := by
  cases step with
  | priced range => exact range
  | reset => rfl
  | _ => exact h

end

end Sys2Proof.Machine
end

