-- ==== Sys2Proof/Proofs/BookInvariantObligations.lean ====
section
/-! PROOFS. The invariant of the clock, the book and the offer parameters (O14). -/

namespace Sys2Proof.Proofs

open Sys2Proof.Machine Sys2Proof.Safety

/-- Settles O14: the laws through everything a command can do to the ledger; the places of the records and entries bound
how many there are. -/
theorem bookInvariant : Obligations.BookInvariant := by
  refine ⟨fun c s t clock book h => ?_, fun c s t law h => ?_, fun k b law => ?_⟩
  · exact (lawful_iff t).1 ((exec_bookStep h).lawful ((lawful_iff s).2 ⟨clock, book⟩))
  · exact (paramsLaw_iff t).2 ((exec_bookStep h).params_inRange ((paramsLaw_iff s).1 law))
  · obtain ⟨records, entries⟩ := (bookLawAt_iff k b).1 law
    exact ⟨records.length_le, entries.length_le⟩

end Sys2Proof.Proofs
end

