-- ==== Sys2Proof/Proofs/EnergySlack.lean ====
section
/-! PROOFS. Reservations, slack and energy slack over the horizon (R54 to R59). -/

namespace Sys2Proof.Machine

/-! ### The commitments of a slot and product (R54, R55) -/

section
variable {k : Nat} {p : Product} {pre : List BookRecord}

theorem recordOf_eq_none (h : ∀ q ∈ pre, ¬(q.slot = k ∧ q.product = p)) : recordOf pre k p = none := by
  simpa [recordOf] using h

/-- The first record of a slot and product is the one found. -/
theorem recordOf_first (h : ∀ q ∈ pre, ¬(q.slot = k ∧ q.product = p)) {r : BookRecord} (slot : r.slot = k)
    (product : r.product = p) (post : List BookRecord) : recordOf (pre ++ r :: post) k p = some r := by
  have before : recordOf pre k p = none := recordOf_eq_none h
  unfold recordOf at before ⊢
  simp [before, slot, product]

end

/-- A rounded-up quotient is the least number that covers the dividend (00, Arithmetic and rounding). -/
theorem ceilDiv_bounds (x : Nat) : 400 * ceilDiv x 400 < x + 400 ∧ x ≤ 400 * ceilDiv x 400 := by
  simp only [ceilDiv]
  omega

/-! ### Slack (R56 to R58) -/

theorem length_runningSums (acc : Nat) (qs : List Nat) : (runningSums acc qs).length = qs.length := by
  induction qs generalizing acc with
  | nil => rfl
  | cons q qs ih => simp [runningSums, ih]

/-- The running sum at a place adds up all figures up to it (R56). -/
theorem getElem?_runningSums (acc : Nat) (qs : List Nat) {n : Nat} (h : n < qs.length) :
    (runningSums acc qs)[n]? = some (acc + (qs.take (n + 1)).sum) := by
  induction qs generalizing acc n with
  | nil => cases h
  | cons q qs ih =>
    cases n with
    | zero => simp [runningSums]
    | succ n => simp [runningSums, ih (acc + q) (Nat.lt_of_succ_lt_succ h), Nat.add_assoc]

section
variable (s : State) (c : Nat) (d : Direction)

theorem length_slacks : (s.headroom c d).slacks.length = 96 := by
  simp [State.headroom, cumulative, length_runningSums, Config.horizon]

/-- The slack at a distance is the available energy less the reservations up to it (R57, R58). -/
theorem slack_eq {n : Nat} (h : n < 96) : (s.headroom c d).slack n =
    (available (fleetBand s.roster d) (fleetEnergy s.roster d) s.book.params.recovery n : Int) -
      (((List.range (n + 1)).map fun j => reservation s.book (slotAhead c j) d).sum : Nat) := by
  have within : n < ((List.range Config.horizon).map fun j => reservation s.book (slotAhead c j) d).length := by
    simpa [Config.horizon] using h
  have upto : min (n + 1) Config.horizon = n + 1 := by
    simp only [Config.horizon]
    omega
  have sums := getElem?_runningSums 0 _ within
  rw [← List.map_take, List.take_range, upto, Nat.zero_add] at sums
  simp [Headroom.slack, State.headroom, cumulative, List.getD_eq_getElem?_getD, sums]

end

/-! ### Energy slack (R59) -/

/-- The least of some slacks is one of them, and none is less. -/
theorem leastFrom_least (x : Int) (xs : List Int) :
    leastFrom x xs ∈ x :: xs ∧ ∀ y ∈ x :: xs, leastFrom x xs ≤ y := List.min?_eq_some_iff.1 rfl

section
variable {h : Headroom} {n : Nat}

theorem mem_drop_slacks {x : Int} : x ∈ h.slacks.drop n ↔ ∃ m < h.slacks.length, n ≤ m ∧ h.slack m = x := by
  rw [List.mem_drop_iff_getElem]
  constructor
  · rintro ⟨i, inside, rfl⟩
    exact ⟨n + i, by omega, Nat.le_add_right n i, List.getD_eq_getElem _ _ _⟩
  · rintro ⟨m, inside, later, rfl⟩
    have place : n + (m - n) = m := by omega
    exact ⟨m - n, by omega, by simp [Headroom.slack, place, inside]⟩

/-- The energy slack of a distance is the least slack from there to the end of the horizon, no less than 0 (R59). -/
theorem energySlack_least (within : n < h.slacks.length) :
    (∀ m < h.slacks.length, n ≤ m → (h.energySlack n : Int) ≤ max 0 (h.slack m)) ∧
      ∃ m < h.slacks.length, n ≤ m ∧ (h.energySlack n : Int) = max 0 (h.slack m) := by
  cases rest : h.slacks.drop n with
  | nil => exact absurd (List.drop_eq_nil_iff.1 rest) (Nat.not_le.2 within)
  | cons x xs =>
    obtain ⟨mem, least⟩ := leastFrom_least x xs
    have eq : (h.energySlack n : Int) = max 0 (leastFrom x xs) := by
      simp only [Headroom.energySlack, rest]
      omega
    rw [eq]
    refine ⟨fun m inside later => ?_, ?_⟩
    · exact max_le_max_left 0 (least _ (rest ▸ mem_drop_slacks.2 ⟨m, inside, later, rfl⟩))
    · obtain ⟨m, inside, later, at_m⟩ := mem_drop_slacks.1 (rest ▸ mem)
      exact ⟨m, inside, later, by rw [at_m]⟩

end

end Sys2Proof.Machine
end

