-- ==== Sys2Proof/Proofs/EnergySlackObligations.lean ====
section
/-! PROOFS. The statement about reservation, slack and energy slack (O30). -/

namespace Sys2Proof.Proofs

open Sys2Proof.Machine Sys2Proof.Safety

/-- Settles O30: a record is found at its first place, a running sum adds up what stands before it, and the least of the
slacks is one of them. -/
theorem offerEnergySlack : Obligations.OfferEnergySlack := by
  refine ⟨fun k p pre post others => ⟨?_, fun r slot product => ?_⟩, fun s c d => ⟨fun k => ?_, fun n within => ?_,
    fun n within => ?_⟩⟩
  · simp [committed, recordOf_eq_none others]
  · simp [committed, recordOf_first others slot product]
  · exact ceilDiv_bounds _
  · exact slack_eq s c d within
  · rw [← length_slacks s c d] at within ⊢
    exact energySlack_least within

end Sys2Proof.Proofs
end

