-- ==== Sys2Proof/Proofs/Awards.lean ====
section
/-! PROOFS. The awarded amount of each slot and product (R72, R73), through everything that happens to the records of a
book with one record for each. -/

namespace Sys2Proof.Machine

open Sys2Proof.Safety

/-! ### One record for each slot and product (R71) -/

/-- Records of one slot and product are one record (R71). -/
def OnePerPair (rs : List BookRecord) : Prop :=
  ∀ x ∈ rs, ∀ y ∈ rs, x.slot = y.slot → x.product = y.product → x = y

/-- Records in strict order of their places are of different slots and products (R71). -/
theorem RecordsLaw.onePerPair {c : Nat} {rs : List BookRecord} (h : RecordsLaw c rs) : OnePerPair rs := by
  have symm : Std.Symm fun x y : BookRecord => x.key c = y.key c → x = y := ⟨fun _ _ h same => (h same.symm).symm⟩
  have apart : rs.Pairwise fun x y => x.key c = y.key c → x = y := h.order.imp fun lt same => absurd same (Nat.ne_of_lt lt)
  intro x hx y hy slot product
  exact apart.forall_of_forall (fun _ _ _ => rfl) hx hy (by rw [BookRecord.key, BookRecord.key, slot, product])

theorem Ledger.Lawful.onePerPair {l : Ledger} (h : l.Lawful) : OnePerPair l.records := by
  cases now : l.now with
  | none => rw [(h.unset now).1]; exact nofun
  | some v => exact (h.set v now).2.1.onePerPair

section
variable {rs : List BookRecord} {k : Nat} {p : Product} {r : BookRecord} {f : BookRecord → Option BookRecord}

/-- In such a book the record of a slot and product is the one that stands there. -/
theorem OnePerPair.recordOf_eq_some_iff (one : OnePerPair rs) :
    recordOf rs k p = some r ↔ r ∈ rs ∧ r.slot = k ∧ r.product = p := by
  refine ⟨recordOf_mem, fun ⟨mem, slot, product⟩ => ?_⟩
  cases found : recordOf rs k p with
  | none =>
    have absent := List.find?_eq_none.1 found r mem
    simp [slot, product] at absent
  | some q =>
    obtain ⟨q_mem, q_slot, q_product⟩ := recordOf_mem found
    rw [one r mem q q_mem (slot.trans q_slot.symm) (product.trans q_product.symm)]

/-- A change of the records that leaves each its slot and product, or deletes it. -/
def KeepsPairs (f : BookRecord → Option BookRecord) : Prop :=
  ∀ r x, f r = some x → x.slot = r.slot ∧ x.product = r.product

theorem OnePerPair.filterMap (one : OnePerPair rs) (pairs : KeepsPairs f) : OnePerPair (rs.filterMap f) := by
  intro x hx y hy slot product
  obtain ⟨r, hr, fr⟩ := List.mem_filterMap.1 hx
  obtain ⟨q, hq, fq⟩ := List.mem_filterMap.1 hy
  obtain ⟨slot_x, product_x⟩ := pairs r x fr
  obtain ⟨slot_y, product_y⟩ := pairs q y fq
  rw [slot_x, slot_y] at slot
  rw [product_x, product_y] at product
  obtain rfl := one r hr q hq slot product
  exact Option.some.inj (fr.symm.trans fq)

/-- Such a change acts on the record of a slot and product alone. -/
theorem OnePerPair.recordOf_filterMap (one : OnePerPair rs) (pairs : KeepsPairs f) (k : Nat) (p : Product) :
    recordOf (rs.filterMap f) k p = (recordOf rs k p).bind f := by
  refine Option.ext fun x => ?_
  rw [(one.filterMap pairs).recordOf_eq_some_iff, List.mem_filterMap, Option.bind_eq_some_iff]
  constructor
  · rintro ⟨⟨r, mem, fr⟩, slot, product⟩
    obtain ⟨slot_x, product_x⟩ := pairs r x fr
    exact ⟨r, one.recordOf_eq_some_iff.2 ⟨mem, slot_x.symm.trans slot, product_x.symm.trans product⟩, fr⟩
  · rintro ⟨r, found, fr⟩
    obtain ⟨mem, slot, product⟩ := recordOf_mem found
    obtain ⟨slot_x, product_x⟩ := pairs r x fr
    exact ⟨⟨r, mem, fr⟩, slot_x.trans slot, product_x.trans product⟩

theorem awardedOf_eq_of_recordOf {rs' : List BookRecord} (same : recordOf rs' k p = recordOf rs k p) :
    awardedOf rs' k p = awardedOf rs k p := by rw [awardedOf, awardedOf, same]

/-- What is left of each record has the award it had, or none is left of a record without an award: so has the book. -/
theorem OnePerPair.awardedOf_filterMap (one : OnePerPair rs) (pairs : KeepsPairs f)
    (awards : ∀ r, ((f r).map BookRecord.awarded).getD 0 = r.awarded) (k : Nat) (p : Product) :
    awardedOf (rs.filterMap f) k p = awardedOf rs k p := by
  rw [awardedOf, awardedOf, one.recordOf_filterMap pairs]
  cases recordOf rs k p with
  | none => rfl
  | some r => exact awards r

/-- Every record of `rs'` has the award that its slot and product have in `rs`. -/
def AwardsKept (rs rs' : List BookRecord) : Prop := ∀ k p x, recordOf rs' k p = some x → x.awarded = awardedOf rs k p

/-- Records that stay with the awards they had. -/
theorem OnePerPair.awardsKept_filterMap (one : OnePerPair rs) (pairs : KeepsPairs f)
    (awards : ∀ r x, f r = some x → x.awarded = r.awarded) : AwardsKept rs (rs.filterMap f) := by
  intro k p x found
  rw [one.recordOf_filterMap pairs, Option.bind_eq_some_iff] at found
  obtain ⟨r, found, fr⟩ := found
  rw [awards r x fr, awardedOf, found]
  rfl

end

/-! ### The operations of the book -/

section
variable {rs : List BookRecord}

theorem judged_pair (up down : Headroom) (c : Nat) (r : BookRecord) : (judged rs up down c r).slot = r.slot ∧
    (judged rs up down c r).product = r.product ∧ (judged rs up down c r).awarded = r.awarded := by
  unfold judged
  split <;> exact ⟨rfl, rfl, rfl⟩

/-- An evaluation moves no award (R89). -/
theorem OnePerPair.awardedOf_judged (one : OnePerPair rs) (qs : List BookRecord) (up down : Headroom) (c k : Nat)
    (p : Product) : awardedOf (rs.map (judged qs up down c)) k p = awardedOf rs k p := by
  have keep (r : BookRecord) := judged_pair (rs := qs) up down c r
  rw [← List.filterMap_eq_map]
  refine one.awardedOf_filterMap (f := some ∘ judged qs up down c) (fun r x eq => ?_) (by simp [keep]) k p
  obtain rfl : judged qs up down c r = x := Option.some.inj eq
  exact ⟨(keep r).1, (keep r).2.1⟩

theorem settled_keepsPairs (k : Nat) (p : Product) (w : Nat) : KeepsPairs (BookRecord.settled k p w) := by
  intro r x eq
  unfold BookRecord.settled at eq
  split at eq
  · split at eq
    · cases eq
    · cases eq
      exact ⟨rfl, rfl⟩
  · cases eq
    exact ⟨rfl, rfl⟩

theorem awarded_settled (k : Nat) (p : Product) (w : Nat) (r : BookRecord) :
    ((r.settled k p w).map BookRecord.awarded).getD 0 = if r.isFor k p = true then r.awarded + w else r.awarded := by
  unfold BookRecord.settled
  split
  · split
    · next none => exact none.symm
    · rfl
  · rfl

/-- A hold that ends with nothing awarded moves no award (R78, R82). -/
theorem OnePerPair.awardedOf_settled_zero (one : OnePerPair rs) (k : Nat) (p : Product) (j : Nat) (q : Product) :
    awardedOf (rs.filterMap (BookRecord.settled k p 0)) j q = awardedOf rs j q :=
  one.awardedOf_filterMap (settled_keepsPairs k p 0) (fun r => by simp [awarded_settled]) j q

/-- A hold that ends with `w` awarded raises the award of its slot and product by that, and moves no other (R80). -/
theorem OnePerPair.awardedOf_settled (one : OnePerPair rs) (k : Nat) (p : Product) (w j : Nat) (q : Product) :
    awardedOf rs j q ≤ awardedOf (rs.filterMap (BookRecord.settled k p w)) j q ∧
      (j ≠ k → awardedOf (rs.filterMap (BookRecord.settled k p w)) j q = awardedOf rs j q) := by
  rw [awardedOf, awardedOf, one.recordOf_filterMap (settled_keepsPairs k p w)]
  cases found : recordOf rs j q with
  | none => exact ⟨Nat.le_refl 0, fun _ => rfl⟩
  | some r =>
    obtain ⟨-, rfl, -⟩ := recordOf_mem found
    simp only [Option.bind_some, awarded_settled, Option.map_some, Option.getD_some]
    refine ⟨?_, fun other => if_neg fun it => other ((BookRecord.isFor_iff k p r).1 it).1⟩
    split
    · exact Nat.le_add_right _ _
    · exact Nat.le_refl _

theorem mem_putRecord {c : Nat} {r x : BookRecord} :
    x ∈ putRecord c r rs ↔ x = r ∨ x ∈ rs ∧ ¬(x.slot = r.slot ∧ x.product = r.product) := by
  rw [putRecord, List.mem_orderedInsert, List.mem_filter, ← BookRecord.isFor_iff]
  simp

theorem OnePerPair.put (one : OnePerPair rs) (c : Nat) (r : BookRecord) : OnePerPair (putRecord c r rs) := by
  intro x hx y hy slot product
  rcases mem_putRecord.1 hx with rfl | ⟨hx, x_other⟩
  · rcases mem_putRecord.1 hy with rfl | ⟨-, y_other⟩
    · rfl
    · exact absurd ⟨slot.symm, product.symm⟩ y_other
  · rcases mem_putRecord.1 hy with rfl | ⟨hy, -⟩
    · exact absurd ⟨slot, product⟩ x_other
    · exact one x hx y hy slot product

/-- A record put in the book is the one of its slot and product from then on; the others stay (R71). -/
theorem OnePerPair.recordOf_putRecord (one : OnePerPair rs) (c : Nat) (r : BookRecord) (k : Nat) (p : Product) :
    recordOf (putRecord c r rs) k p = if r.slot = k ∧ r.product = p then some r else recordOf rs k p := by
  refine Option.ext fun x => ?_
  rw [(one.put c r).recordOf_eq_some_iff, mem_putRecord]
  split
  · next it =>
    obtain ⟨rfl, rfl⟩ := it
    rw [Option.some.injEq]
    constructor
    · rintro ⟨rfl | ⟨-, other⟩, pair⟩
      · rfl
      · exact absurd pair other
    · rintro rfl
      exact ⟨.inl rfl, rfl, rfl⟩
  · next other =>
    rw [one.recordOf_eq_some_iff]
    constructor
    · rintro ⟨rfl | ⟨mem, -⟩, pair⟩
      · exact absurd pair other
      · exact ⟨mem, pair⟩
    · rintro ⟨mem, rfl, rfl⟩
      exact ⟨.inr ⟨mem, fun ⟨slot, product⟩ => other ⟨slot.symm, product.symm⟩⟩, rfl, rfl⟩

/-- The record of a slot and product, a new one without amounts where there is none (R75). -/
theorem getD_recordOf_pair (rs : List BookRecord) (k : Nat) (p : Product) :
    ((recordOf rs k p).getD ⟨k, p, 0, 0, none, none⟩).slot = k ∧
      ((recordOf rs k p).getD ⟨k, p, 0, 0, none, none⟩).product = p ∧
      ((recordOf rs k p).getD ⟨k, p, 0, 0, none, none⟩).awarded = awardedOf rs k p := by
  rw [awardedOf]
  cases found : recordOf rs k p with
  | none => exact ⟨rfl, rfl, rfl⟩
  | some r =>
    obtain ⟨-, slot, product⟩ := recordOf_mem found
    exact ⟨slot, product, rfl⟩

/-- The grant of a hold moves no award (R75). -/
theorem OnePerPair.awardedOf_granted (one : OnePerPair rs) (c k : Nat) (p : Product) (w : Nat) (z : HoldTerms) (j : Nat)
    (q : Product) : awardedOf (putRecord c
      { (recordOf rs k p).getD ⟨k, p, 0, 0, none, none⟩ with held := w, terms := some z } rs) j q = awardedOf rs j q := by
  obtain ⟨slot, product, awarded⟩ := getD_recordOf_pair rs k p
  rw [awardedOf, one.recordOf_putRecord]
  simp only [slot, product]
  split
  · next it =>
    obtain ⟨rfl, rfl⟩ := it
    exact awarded
  · rfl

end

/-! ### The changes of the current slot (R84 to R86) -/

section
variable {rs : List BookRecord}

/-- The awards that are left at a boundary are those that stood (R84, R85). -/
theorem OnePerPair.awardsKept_boundary (one : OnePerPair rs) (old c : Nat) (qs : List BookRecord) (up down : Headroom) :
    AwardsKept rs ((rs.filterMap (BookRecord.pastBoundary old c)).map (judged qs up down c)) := by
  have carried (r x : BookRecord) (eq : r.pastBoundary old c = some x) :
      x.slot = r.slot ∧ x.product = r.product ∧ x.awarded = r.awarded := by
    unfold BookRecord.pastBoundary at eq
    split at eq
    · cases eq
    split at eq
    · split at eq <;> cases eq
      exact ⟨rfl, rfl, rfl⟩
    · cases eq
      exact ⟨rfl, rfl, rfl⟩
  have kept (r x : BookRecord) (eq : (r.pastBoundary old c).map (judged qs up down c) = some x) :
      x.slot = r.slot ∧ x.product = r.product ∧ x.awarded = r.awarded := by
    obtain ⟨y, left, rfl⟩ := Option.map_eq_some_iff.1 eq
    obtain ⟨slot, product, awarded⟩ := judged_pair (rs := qs) up down c y
    rw [slot, product, awarded]
    exact carried r y left
  rw [List.map_filterMap]
  exact one.awardsKept_filterMap (fun r x eq => ⟨(kept r x eq).1, (kept r x eq).2.1⟩) fun r x eq => (kept r x eq).2.2

/-- The awards that are left after some records are deleted are those that stood (R86). -/
theorem OnePerPair.awardsKept_filter (one : OnePerPair rs) (keep : BookRecord → Bool) :
    AwardsKept rs (rs.filter keep) := by
  rw [← List.filterMap_eq_filter]
  have same (r x : BookRecord) (eq : Option.guard keep r = some x) : x = r := (Option.guard_eq_some_iff.1 eq).1.symm
  refine one.awardsKept_filterMap (fun r x eq => ?_) fun r x eq => ?_ <;> rw [same r x eq]
  exact ⟨rfl, rfl⟩

end

end Sys2Proof.Machine
end

