-- ==== Sys2Proof/Proofs/CapacityViews.lean ====
section
/-! PROOFS. What the capacity law reads of the state (R73, R109), the operations that leave it, and the loads of the
capacities, which bring the law about whatever stood before. -/

namespace Sys2Proof.Machine

open Sys2Proof.Safety

/-! ### What the law reads -/

/-- The generator's items that the capacity law reads, every other at its value after reset (R109, R122). -/
def Generator.capacityPart (g : Generator) : Generator :=
  { Generator.reset with
    test := g.test, testUp := g.testUp, testDown := g.testDown
    flUp := g.flUp, flDown := g.flDown, slUp := g.slUp, slDown := g.slDown }

/-- The current slot, the records, the member and the generator's part: what the capacity law reads. -/
structure CapacityView where
  current : Option Nat
  records : List BookRecord
  member : Member
  gen : Generator

def State.capacityView (s : State) : CapacityView := ⟨s.current, s.book.records, s.member, s.gen.capacityPart⟩

/-- The awarded amounts of the current slot, 0 without one (R73). -/
def CapacityView.awards (v : CapacityView) : Awards :=
  match v.current with
  | none => ⟨0, 0, 0, 0⟩
  | some c => ⟨awardedOf v.records c .flu, awardedOf v.records c .fld, awardedOf v.records c .slu,
      awardedOf v.records c .sld⟩

theorem awards_capacityView (s : State) : s.capacityView.awards = s.currentAwards := rfl

/-- The capacities are those of the current slot's awards in LIVE and of the test capacities in TEST (R109). -/
def CapacityView.Loaded (v : CapacityView) : Prop := v.gen = v.gen.withCapacities v.member v.awards

theorem capacityLaw_iff (s : State) : CapacityLaw s ↔ s.capacityView.Loaded := by
  have law (g : Generator) (a : Awards) :
      g = g.withCapacities s.member a ↔ g.capacityPart = g.capacityPart.withCapacities s.member a := by
    cases g with
    | mk =>
      simp only [Generator.withCapacities, Generator.capacityPart]
      split <;> simp
  exact law s.gen s.currentAwards

/-- Equal awards of the current slot's products are equal awards of the slot (R73). -/
theorem CapacityView.Loaded.of_awards {v : CapacityView} (h : v.Loaded) {rs : List BookRecord}
    (same : ∀ c p, v.current = some c → awardedOf rs c p = awardedOf v.records c p) :
    ({ v with records := rs } : CapacityView).Loaded := by
  have awards : ({ v with records := rs } : CapacityView).awards = v.awards := by
    cases current : v.current with
    | none => simp [CapacityView.awards, current]
    | some c => simp [CapacityView.awards, current, same c _ current]
  rw [CapacityView.Loaded, awards]
  exact h

/-! ### Loads of the capacities (R109, R122, R124) -/

theorem withCapacities_withCapacities (g : Generator) (m : Member) (a : Awards) :
    (g.withCapacities m a).withCapacities m a = g.withCapacities m a := by
  unfold Generator.withCapacities
  cases g.test <;> simp

theorem capacityPart_withCapacities (g : Generator) (m : Member) (a : Awards) :
    (g.withCapacities m a).capacityPart = g.capacityPart.withCapacities m a := by
  unfold Generator.withCapacities
  cases mode : g.test <;> simp [Generator.capacityPart, mode]

theorem capacityPart_load (g : Generator) (m : Member) (a : Awards) :
    (g.load m a).capacityPart = g.capacityPart.withCapacities m a := capacityPart_withCapacities g m a

/-- A generator that has loaded the capacities of the current slot. -/
theorem loaded_of_load {t : State} {g : Generator} (gen : t.gen = g.load t.member t.currentAwards) :
    t.capacityView.Loaded := by
  change t.gen.capacityPart = t.gen.capacityPart.withCapacities t.member t.currentAwards
  rw [gen, capacityPart_load, withCapacities_withCapacities]

section
variable (s : State)

@[simp] theorem currentAwards_moveGen (g : Generator) : (s.moveGen g).currentAwards = s.currentAwards := by
  simp [State.currentAwards, State.current]

@[simp] theorem currentAwards_moveTest (g : Generator) (mark : Bool) :
    (s.moveTest g mark).currentAwards = s.currentAwards := by
  simp [State.currentAwards, State.current]

@[simp] theorem currentAwards_raise (p : Port) (c : Cause) : (s.raise p c).currentAwards = s.currentAwards := by
  simp [State.currentAwards, State.current]

theorem loaded_loadCapacities : s.loadCapacities.capacityView.Loaded :=
  loaded_of_load (g := s.gen) (by simp [State.loadCapacities])

theorem loaded_enterTest (up down : Nat) :
    (s.moveTest (s.gen.enterTest s.member s.currentAwards up down) true).capacityView.Loaded :=
  loaded_of_load (by rw [moveTest_gen, moveTest_member, currentAwards_moveTest]; rfl)

theorem gen_endTest : s.endTest.gen = s.gen.leaveTest s.endTest.member s.endTest.currentAwards := by
  simp [State.endTest]

theorem loaded_endTest : s.endTest.capacityView.Loaded := loaded_of_load (gen_endTest s)

theorem loaded_genBoundary : s.genBoundary.capacityView.Loaded := by
  unfold State.genBoundary
  split
  · refine loaded_of_load (g := { s.gen with
      injection := none, test := .live, lossHold := none, delta := s.gen.last.deviation }) ?_
    rw [raise_gen, raise_member, currentAwards_raise]
    exact gen_endTest s
  · exact loaded_loadCapacities s

end

/-! ### Operations of the generator that leave the capacities (R111 to R118, R123) -/

section
variable (g : Generator)

@[simp] theorem capacityPart_recompute : g.recompute.capacityPart = g.capacityPart := rfl

@[simp] theorem capacityPart_arm : g.arm.capacityPart = g.capacityPart := rfl

@[simp] theorem capacityPart_disarm : g.disarm.capacityPart = g.capacityPart := rfl

@[simp] theorem capacityPart_inject (delta : Int) (duration : Nat) :
    (g.inject delta duration).capacityPart = g.capacityPart := rfl

@[simp] theorem capacityPart_loseLock : g.loseLock.capacityPart = g.capacityPart := by
  unfold Generator.loseLock
  split
  · rfl
  · split <;> rfl

@[simp] theorem capacityPart_unlockedEvent : g.unlockedEvent.capacityPart = g.capacityPart := by
  unfold Generator.unlockedEvent
  split <;> rfl

@[simp] theorem capacityPart_lockedReading (n x : Nat) : (g.lockedReading n x).capacityPart = g.capacityPart := by
  unfold Generator.lockedReading
  split <;> rfl

@[simp] theorem capacityPart_stateChange (m : MeterState) (drop : Bool) :
    (g.stateChange m drop).capacityPart = g.capacityPart := by
  rw [Generator.stateChange, capacityPart_recompute, capacityPart_unlockedEvent]
  rfl

@[simp] theorem capacityPart_readingEvent (x : Nat) (m : MeterState) (n : Option Nat) :
    (g.readingEvent x m n).capacityPart = g.capacityPart := by
  simp only [Generator.readingEvent, capacityPart_recompute]
  split
  · rw [capacityPart_lockedReading]
    rfl
  · rw [capacityPart_unlockedEvent]
    rfl

end

/-! ### Operations of the state that leave what the law reads -/

section
variable (s : State)

@[simp] theorem current_dequeue (p : Port) : (s.dequeue p).current = s.current := by simp [State.current]

@[simp] theorem capacityView_raise (p : Port) (c : Cause) : (s.raise p c).capacityView = s.capacityView := by
  simp [State.capacityView, State.current]

@[simp] theorem capacityView_raiseIf (b : Bool) (p : Port) (c : Cause) :
    (s.raiseIf b p c).capacityView = s.capacityView := by
  simp [State.capacityView, State.current]

@[simp] theorem capacityView_setLink (p : Port) (l : Link) : (s.setLink p l).capacityView = s.capacityView := by
  simp [State.capacityView, State.current]

@[simp] theorem capacityView_dequeue (p : Port) : (s.dequeue p).capacityView = s.capacityView := by
  simp [State.capacityView, State.current]

@[simp] theorem capacityView_respond (p : Port) (x : Telegram) (r : ResultCode) (b : ResponseBody) :
    (s.respond p x r b).capacityView = s.capacityView := by
  simp [State.capacityView, State.current]

/-- A generator with the same capacities, handed over (R113, R117, R120). -/
theorem capacityView_moveGen {g : Generator} (same : g.capacityPart = s.gen.capacityPart) :
    (s.moveGen g).capacityView = s.capacityView := by
  simp [State.capacityView, State.current, same]

@[simp] theorem capacityView_loseLock : s.loseLock.capacityView = s.capacityView := by
  change ((s.raise .s .freqLost).moveGen s.gen.loseLock).capacityView = _
  rw [capacityView_moveGen _ (by simp), capacityView_raise]

@[simp] theorem capacityView_handStateChange (w : MeterState) (b : Bool) :
    (s.handStateChange w b).capacityView = s.capacityView := by
  unfold State.handStateChange
  rw [capacityView_moveGen _ (by simp)]
  split <;> simp

@[simp] theorem capacityView_handReading (w : MeterState) (x : Nat) :
    (s.handReading w x).capacityView = s.capacityView := by
  unfold State.handReading
  rw [capacityView_moveGen _ (by simp)]
  split <;> simp

@[simp] theorem capacityView_takeReading (x : Nat) : (s.takeReading x).capacityView = s.capacityView := by
  rw [State.takeReading, capacityView_handReading]
  rfl

@[simp] theorem capacityView_acceptEstimate (x : Nat) : (s.acceptEstimate x).capacityView = s.capacityView := by
  have taken : (if s.meter.state = .noSignal then
      State.handStateChange { s with meter := s.meter.takeEstimate x } s.meter.state false
      else { s with meter := s.meter.takeEstimate x }).capacityView = s.capacityView := by
    split
    · rw [capacityView_handStateChange]
      rfl
    · rfl
  simp only [State.acceptEstimate]
  split
  · rw [capacityView_takeReading]
    exact taken
  · exact taken

@[simp] theorem capacityView_assertFreeze : s.assertFreeze.capacityView = s.capacityView := by
  simp [State.capacityView, State.current, State.assertFreeze, State.raiseFreeze]

@[simp] theorem capacityView_endFrame : s.endFrame.capacityView = s.capacityView := by
  simp [State.capacityView, State.current]

@[simp] theorem capacityView_collided : s.collided.capacityView = s.capacityView := by
  rcases collided_cases s with ⟨-, eq⟩ | ⟨-, -, eq⟩ | ⟨-, -, eq⟩ <;> rw [eq] <;> rfl

@[simp] theorem capacityView_endPoll (a : Address) (o : PollOutcome) : (s.endPoll a o).capacityView = s.capacityView :=
  capacityView_endFrame _

@[simp] theorem capacityView_goodReport (a : Address) (q : Report) : (s.goodReport a q).capacityView = s.capacityView := by
  simp only [State.goodReport]
  split
  · rfl
  · split <;> rfl

@[simp] theorem capacityView_takeReply (a : Address) (bytes : List Byte) :
    (s.takeReply a bytes).capacityView = s.capacityView := by
  rcases takeReply_cases s a bytes with ⟨-, eq⟩ | ⟨-, eq⟩ <;> simp [eq]

@[simp] theorem capacityView_beginPoll (a : Address) : (s.beginPoll a).capacityView = s.capacityView := by
  simp only [State.beginPoll]
  split <;> rfl

end

end Sys2Proof.Machine
end

