-- ==== Sys2Proof/Proofs/CapacitySteps.lean ====
section
/-! PROOFS. Everything a command can do to the awards of the book and to the capacities of the generator (R72, R73, R80,
R84 to R86, R109, R122, R124). -/

namespace Sys2Proof.Machine

open Sys2Proof.Safety

/-- What command `c` can do to the awards and the capacities. -/
inductive CapacityStep (c : Instr) (v : CapacityView) : CapacityView → Prop
  /-- The slot, the mode and the capacities stay, and every award with them. -/
  | kept (rs : List BookRecord) (awards : ∀ k p, awardedOf rs k p = awardedOf v.records k p) :
      CapacityStep c v { v with records := rs }
  /-- AWARD in a slot that is not the current one (R79, R80). -/
  | awarded (rs : List BookRecord) (k : Nat) (row : ∃ port product w tag, c = .award port k product w tag)
      (ahead : v.current ≠ some k) (rises : ∀ j p, awardedOf v.records j p ≤ awardedOf rs j p)
      (others : ∀ j p, j ≠ k → awardedOf rs j p = awardedOf v.records j p) : CapacityStep c v { v with records := rs }
  /-- The capacities are loaded, and the records that are left have the awards they had (R84 to R86, R109, R122, R124). -/
  | loaded (v' : CapacityView) (stand : AwardsKept v.records v'.records) (law : v'.Loaded) : CapacityStep c v v'

section
variable {c : Instr} {v v' : CapacityView} {s t : State}

theorem CapacityStep.of_eq (same : v' = v) : CapacityStep c v v' := by
  subst same
  exact .kept v'.records fun _ _ => rfl

theorem AwardsKept.refl (rs : List BookRecord) : AwardsKept rs rs := by
  intro k p x found
  rw [awardedOf, found]
  rfl

/-- Nothing but the generator's items is moved, and they are loaded (R122, R124). -/
theorem CapacityStep.of_load (records : v'.records = v.records) (law : v'.Loaded) : CapacityStep c v v' :=
  .loaded v' (records ▸ .refl _) law

/-! ### The clock (R4, R6, R9 to R11) -/

/-- A clock that moves within its slot leaves the slot current (R5). -/
theorem capacityView_within {v u : Time} (now : s.now = some v) (within : u.slot = v.slot) :
    ({ s with now := some u } : State).capacityView = s.capacityView := by
  simp [State.capacityView, State.current, now, within]

theorem boundary_capacityStep (one : OnePerPair s.book.records) (u : Time) (old : Nat) (reset : Bool) :
    CapacityStep c s.capacityView ({ s with now := some u }.boundary old reset).capacityView := by
  obtain ⟨rs, up, down, eq⟩ := ledger_bookBoundary { s with now := some u } (c := u.slot) rfl old reset
  refine .loaded _ ?_ (loaded_genBoundary _)
  have records : ({ s with now := some u }.boundary old reset).capacityView.records =
      (s.book.records.filterMap (BookRecord.pastBoundary old u.slot)).map (judged rs up down u.slot) := by
    rw [boundary_of_now]
    change (State.genBoundary _).book.records = _
    rw [genBoundary_book]
    exact congrArg Ledger.records eq
  rw [records]
  exact one.awardsKept_boundary old u.slot rs up down

theorem stepBack_capacityStep (one : OnePerPair s.book.records) (u : Time) :
    CapacityStep c s.capacityView ({ s with now := some u }.stepBack).capacityView := by
  refine .loaded _ ?_ (loaded_loadCapacities _)
  have records : ({ s with now := some u }.stepBack).capacityView.records =
      s.book.records.filter fun r => distance u.slot r.slot ≠ 96 := by
    rw [stepBack_of_now]
    change (State.loadCapacities _).book.records = _
    rw [loadCapacities_book]
    exact congrArg Ledger.records (ledger_bookStepBack { s with now := some u } u.slot)
  rw [records]
  exact one.awardsKept_filter _

theorem moveClock_capacityStep (one : OnePerPair s.book.records) {v : Time} (now : s.now = some v) (u : Time)
    (reset : Bool) : CapacityStep c s.capacityView (s.moveClock v u reset).capacityView := by
  simp only [State.moveClock]
  split
  · next within => exact .of_eq (capacityView_within now within)
  split
  · exact boundary_capacityStep one u v.slot reset
  · exact stepBack_capacityStep one u

theorem ownSetTime_capacityStep (one : OnePerPair s.book.records) (day : BitVec 16) (tenths : Nat) :
    CapacityStep c s.capacityView (ownSetTime day tenths s).state.capacityView := by
  simp only [ownSetTime]
  split
  · exact .of_eq rfl
  split
  · exact .of_load (congrArg Book.records (loadCapacities_book _)) (loaded_loadCapacities _)
  next v now =>
  split
  · exact moveClock_capacityStep one now _ false
  split
  · exact moveClock_capacityStep one now _ true
  · exact .of_eq rfl

theorem tenthElapsed_capacityStep (one : OnePerPair s.book.records) (h : exec .tenthElapsed s = .next t) :
    CapacityStep c s.capacityView t.capacityView := by
  simp only [exec, execTenthElapsed] at h
  cases h
  split
  · exact .of_eq rfl
  next v now =>
  split
  · next within => exact .of_eq (capacityView_within now within)
  · exact boundary_capacityStep one v.next v.slot false

/-! ### The book (R75, R78, R80, R82, R89) -/

theorem ownHold_capacityStep (one : OnePerPair s.book.records) (k : Nat) (product : Option Product) (w : Nat)
    (day : BitVec 16) (tenths : Nat) (tag : Half) :
    CapacityStep c s.capacityView (ownHold k product w day tenths tag s).state.capacityView := by
  have holdAt (current : Nat) (p : Product) (z : HoldTerms) :
      CapacityStep c s.capacityView (s.holdAt current k p w z).state.capacityView := by
    simp only [State.holdAt]
    split
    · exact .of_eq rfl
    split
    · exact .of_eq rfl
    · exact .kept _ (one.awardedOf_granted current k p w z)
  unfold ownHold
  split
  · exact .of_eq rfl
  simp only
  split
  · exact .of_eq rfl
  split
  · exact .of_eq rfl
  split
  · exact .of_eq rfl
  split
  · exact .of_eq rfl
  split
  · exact .of_eq rfl
  split
  · exact .of_eq rfl
  · exact holdAt _ _ _

/-- The slot of an AWARD or a RELEASE that passes check 3 of R79 is not the current one. -/
theorem aheadCheck_ok {k : Nat} {product : Option Product} {w j : Nat} {p : Product}
    (h : aheadCheck s k product w = .ok (j, p)) : s.current = some j ∧ 1 ≤ distance j k := by
  unfold aheadCheck at h
  split at h
  · split at h
    · split at h
      · cases h
      · next current =>
        split at h
        · next ahead =>
          cases h
          exact ⟨current, ahead.1⟩
        · cases h
    · cases h
  · cases h

theorem capacityView_settleHold (s : State) (k : Nat) (p : Product) (w : Nat) : (s.settleHold k p w).capacityView =
    { s.capacityView with records := s.book.records.filterMap (BookRecord.settled k p w) } := by
  rw [← endHolds_of_award]
  rfl

theorem ownAward_capacityStep (one : OnePerPair s.book.records) (port : Port) (k : Nat) (product : Option Product) (w : Nat)
    (tag : Half) :
    CapacityStep (.award port k product w tag) s.capacityView (ownAward k product w tag s).state.capacityView := by
  unfold ownAward
  split
  · exact .of_eq rfl
  next j p ok =>
  split
  · exact .of_eq rfl
  split
  · exact .of_eq rfl
  split
  · exact .of_eq rfl
  split
  · exact .of_eq rfl
  obtain ⟨current, ahead⟩ := aheadCheck_ok ok
  have other : s.current ≠ some k := by
    rw [current]
    rintro ⟨rfl⟩
    rw [distance_eq] at ahead
    omega
  rw [capacityView_settleHold]
  exact .awarded _ k ⟨port, product, w, tag, rfl⟩ other (fun i q => (one.awardedOf_settled k p w i q).1)
    fun i q => (one.awardedOf_settled k p w i q).2

theorem ownRelease_capacityStep (one : OnePerPair s.book.records) (k : Nat) (product : Option Product) (tag : Half) :
    CapacityStep c s.capacityView (ownRelease k product tag s).state.capacityView := by
  unfold ownRelease
  split
  · exact .of_eq rfl
  split
  · exact .of_eq rfl
  split
  · exact .of_eq rfl
  rw [capacityView_settleHold]
  exact .kept _ (one.awardedOf_settled_zero k _)

theorem holdExpiry_capacityStep (one : OnePerPair s.book.records) {k : Nat} {p : Product}
    (h : exec (.holdExpiry k p) s = .next t) : CapacityStep c s.capacityView t.capacityView := by
  simp only [exec, execHoldExpiry] at h
  cases h
  split
  · exact .of_eq rfl
  split
  · exact .of_eq rfl
  rw [capacityView_raise, endHolds_of_lapse]
  exact .kept _ (one.awardedOf_settled_zero k p)

theorem shortfallEvaluation_capacityStep (one : OnePerPair s.book.records) (h : exec .shortfallEvaluation s = .next t) :
    CapacityStep c s.capacityView t.capacityView := by
  simp only [exec, execShortfallEvaluation] at h
  cases h
  split
  · exact .of_eq rfl
  unfold State.evaluate
  split
  · exact .of_eq rfl
  · rw [capacityView_raiseIf, capacityView_raiseIf]
    exact .kept _ (one.awardedOf_judged _ _ _ _)

/-! ### Requests -/

/-- The requests that move the clock, the awards or the mode of the generator. -/
def movesCapacities : Request → Bool
  | .setTime .. | .hold .. | .award .. | .release .. | .enterTest .. | .leaveTest => true
  | _ => false

/-- Every other request leaves what the capacity law reads. -/
theorem ownOf_capacityView {r : Request} (other : movesCapacities r = false) (s : State) (p : Port) :
    (ownOf p r s).state.capacityView = s.capacityView := by
  cases r with
  | setTime | hold | award | release | enterTest | leaveTest => nomatch other
  | setFlParams deadband fullDev mode limit =>
    simp only [ownOf, ownSetFlParams, refuse]
    repeat' split
    all_goals rfl
  | setSlParams ramp timeout =>
    simp only [ownOf, ownSetSlParams, refuse]
    split <;> rfl
  | setPoint w => rfl
  | setMeter candidates =>
    simp only [ownOf, ownSetMeter, refuse]
    repeat' split
    · rfl
    · rfl
    · rfl
    · exact capacityView_handStateChange _ _ _
  | _ =>
    simp only [ownOf, refuse, ownEnroll, ownAmend, ownRemove, ownReadSite, ownSetItems, ownDefineWindow, ownClearWindow,
      ownSetBranch, ownSetDefaultClass, editWith, ownSuspend, ownResume, State.putInForce, ownQueryClass, ownReadWindows,
      ownSetOfferParams, ownOfferQuery, ownReadBook, ownReadMeter, ownArmFl, ownDisarmFl, armAnswer, ownInject,
      ownReadBranchLoad, ownReadResponse, ownReadJournal, ownReleaseJournal, ownBusEnable, ownBusDisable, ownBusConfig,
      ownBusRestore, busAnswer, ownSetLinkMode, ownStatus, ownIdentify]
    repeat' split
    all_goals simp [State.capacityView, State.current]

theorem eq_award_of_row {p : Port} {k w : Nat} {product : Option Product} {tag : Half}
    (row : requestRow c = some (p, .award k product w tag)) : c = .award p k product w tag := by
  cases c <;> simp only [requestRow, Option.some.injEq, Prod.mk.injEq, reduceCtorEq, and_false] at row
  obtain ⟨rfl, award⟩ := row
  cases award
  rfl

theorem request_capacityStep (one : OnePerPair s.book.records) {p : Port} {r : Request}
    (row : requestRow c = some (p, r)) (h : exec c s = .next t) : CapacityStep c s.capacityView t.capacityView := by
  have own (one : OnePerPair (s.dequeue p).book.records) :
      CapacityStep c (s.dequeue p).capacityView (ownOf p r (s.dequeue p)).state.capacityView := by
    cases r with
    | setTime day tenths => exact ownSetTime_capacityStep one day tenths
    | hold k product w day tenths tag => exact ownHold_capacityStep one k product w day tenths tag
    | award k product w tag =>
      rw [eq_award_of_row row]
      exact ownAward_capacityStep one p k product w tag
    | release k product tag => exact ownRelease_capacityStep one k product tag
    | enterTest up down =>
      simp only [ownOf, ownEnterTest]
      split
      · exact .of_eq rfl
      split
      · exact .of_eq rfl
      split
      · exact .of_eq rfl
      · exact .of_load (congrArg Book.records (moveTest_book _ _ _)) (loaded_enterTest _ up down)
    | leaveTest =>
      simp only [ownOf, ownLeaveTest]
      split
      · exact .of_eq rfl
      · exact .of_load (congrArg Book.records (endTest_book _)) (loaded_endTest _)
    | _ => exact .of_eq (ownOf_capacityView rfl _ p)
  rw [exec_request s row] at h
  cases h
  rcases serve_cases s p r (ownOf p r) with eq | ⟨u, code, -, -, eq⟩ | ⟨u, -, -, eq⟩ <;> rw [eq]
  · exact .of_eq rfl
  · exact .of_eq (by simp)
  · rw [capacityView_respond, ← capacityView_dequeue s p]
    exact own (by rw [dequeue_book]; exact one)

/-! ### Events -/

/-- A poll begins, or ends the round, without the book or the generator (R152). -/
theorem poll_capacityView (h : exec .poll s = .next t) : t.capacityView = s.capacityView := by
  cases h
  split
  · split
    · exact capacityView_beginPoll s _
    · split
      · rfl
      · split
        · exact capacityView_beginPoll s.endRound _
        · rfl
  · rfl

theorem deviceReset_capacityStep {f : Bool} {l : ResetLevels} (h : exec (.deviceReset f l) s = .next t) :
    CapacityStep c s.capacityView t.capacityView := by
  have view : t.capacityView = (State.afterReset s.member false l.lrate l.gsense).capacityView := by
    cases h
    split
    · rw [capacityView_assertFreeze]
      rfl
    · rfl
  rw [view]
  exact .loaded _ nofun ((capacityLaw_iff _).1 (capacityLaw_afterReset _ _ _ _))

/-- Every other event leaves what the capacity law reads. -/
theorem event_capacityStep (one : OnePerPair s.book.records) (row : requestRow c = none) (h : exec c s = .next t) :
    CapacityStep c s.capacityView t.capacityView := by
  cases c with
  | deviceReset f l => exact deviceReset_capacityStep h
  | tenthElapsed => exact tenthElapsed_capacityStep one h
  | holdExpiry k p => exact holdExpiry_capacityStep one h
  | shortfallEvaluation => exact shortfallEvaluation_capacityStep one h
  | gsenseRisingEdge edge =>
    simp only [exec, execGsenseRisingEdge] at h
    cases h
    refine .of_eq ?_
    repeat' split
    · rfl
    · rfl
    · exact capacityView_acceptEstimate _ _
    · rfl
  | lossTimerExpiry =>
    cases h
    refine .of_eq ?_
    split
    · exact capacityView_handStateChange _ _ _
    · rfl
  | rampTimerExpiry =>
    cases h
    exact .of_eq (capacityView_moveGen s rfl)
  | holdTimerExpiry | injectionEnd =>
    cases h
    refine .of_eq ?_
    split
    · rfl
    · exact capacityView_moveGen s rfl
  | refreshTimerExpiry =>
    cases h
    refine .of_eq ?_
    split
    · rfl
    · exact capacityView_raise _ _ _
  | freezeAssertion =>
    cases h
    refine .of_eq ?_
    split
    · rfl
    · exact capacityView_assertFreeze s
  | poll => exact .of_eq (poll_capacityView h)
  | replyWindowExpiry | pollEndOnQuiet | replyGap =>
    cases h
    refine .of_eq ?_
    split
    · exact capacityView_endPoll s _ _
    · rfl
  | report characters =>
    cases h
    refine .of_eq ?_
    split
    · exact capacityView_takeReply s _ _
    · rfl
  | blockComplete =>
    cases h
    refine .of_eq ?_
    split
    · exact capacityView_endFrame _
    · rfl
  | collision =>
    cases h
    refine .of_eq ?_
    split
    · exact capacityView_collided _
    · exact capacityView_collided _
    · rfl
  | freshnessExpiry a | freezeDeassertion | backoffExpiry | dispatchBlock | pollSent | rateCheckFailed span
  | replyParityError | replyStart =>
    cases h
    refine .of_eq ?_
    repeat' split
    all_goals rfl
  | passTimerExpiry | closingTimerExpiry kind | telegramComplete p front request check | overrunResponse p
  | responseTransmitted p | framingError character | lengthOutOfRange p length | gap p | linkBreak p | breakEnd p
  | telegramLead character =>
    cases h
    refine .of_eq ?_
    repeat' split
    all_goals simp [State.capacityView, State.current]
  | _ => nomatch row

/-- Everything a command can do to the awards and the capacities. -/
theorem exec_capacityStep (one : OnePerPair s.book.records) (h : exec c s = .next t) :
    CapacityStep c s.capacityView t.capacityView := by
  cases row : requestRow c with
  | some pr => exact request_capacityStep one row h
  | none => exact event_capacityStep one row h

end

end Sys2Proof.Machine
end

