-- ==== Sys2Proof/Proofs/AwardAndCapacityObligations.lean ====
section
/-! PROOFS. The invariant of the capacities (O46) and the standing of awards (O15), from what every command can do to
them. -/

namespace Sys2Proof.Machine

open Sys2Proof.Safety

section
variable {c : Instr} {v v' : CapacityView}

/-- The capacities stay loaded: an award in another slot than the current one does not reach them (R79, R109). -/
theorem CapacityStep.keeps_loaded (step : CapacityStep c v v') (h : v.Loaded) : v'.Loaded := by
  cases step with
  | kept rs awards => exact h.of_awards fun c p _ => awards c p
  | awarded rs k row ahead rises others =>
    refine h.of_awards fun c p current => others c p ?_
    rintro rfl
    exact ahead current
  | loaded v' stand law => exact law

/-- A record that stands has at least the award its slot and product had, and exactly that unless the command is an AWARD
(R72). -/
theorem CapacityStep.award_stands (step : CapacityStep c v v') {k : Nat} {p : Product} {x : BookRecord}
    (found : recordOf v'.records k p = some x) : awardedOf v.records k p ≤ x.awarded ∧
      ((∀ p k x w g, c ≠ .award p k x w g) → x.awarded = awardedOf v.records k p) := by
  have award : awardedOf v'.records k p = x.awarded := by rw [awardedOf, found]; rfl
  cases step with
  | kept rs awards =>
    have same := award.symm.trans (awards k p)
    exact ⟨same.ge, fun _ => same⟩
  | awarded rs j row ahead rises others =>
    obtain ⟨port, product, w, tag, rfl⟩ := row
    exact ⟨award ▸ rises k p, fun other => absurd rfl (other port j product w tag)⟩
  | loaded v' stand law =>
    have same := stand k p x found
    exact ⟨same.ge, fun _ => same⟩

end

end Sys2Proof.Machine

namespace Sys2Proof.Proofs

open Sys2Proof.Machine Sys2Proof.Safety

/-- Settles O46: a command leaves the slot, the mode and the current slot's awards, or loads the capacities. -/
theorem capacityInvariant : Obligations.CapacityInvariant := by
  intro c s t clock book law h
  have one : OnePerPair s.book.records := ((lawful_iff s).2 ⟨clock, book⟩).onePerPair
  exact (capacityLaw_iff t).2 ((exec_capacityStep one h).keeps_loaded ((capacityLaw_iff s).1 law))

/-- Settles O15: the records of a slot and product before and after are the ones that stand there, since the laws of clock
and book hold on both sides. -/
theorem awardsStand : Obligations.AwardsStand := by
  intro c s t clock book h r mem r' mem' slot product
  have lawful := (lawful_iff s).2 ⟨clock, book⟩
  have before : recordOf s.book.records r.slot r.product = some r :=
    lawful.onePerPair.recordOf_eq_some_iff.2 ⟨mem, rfl, rfl⟩
  have after : recordOf t.book.records r.slot r.product = some r' :=
    ((exec_bookStep h).lawful lawful).onePerPair.recordOf_eq_some_iff.2 ⟨mem', slot, product⟩
  have award : awardedOf s.book.records r.slot r.product = r.awarded := by rw [awardedOf, before]; rfl
  exact award ▸ (exec_capacityStep lawful.onePerPair h).award_stands after

end Sys2Proof.Proofs
end

