-- ==== Sys2Proof/Proofs/HoldRequests.lean ====
section
/-! PROOFS. HOLD, AWARD and RELEASE: what the book answers in each case (R74, R75, R79, R80, R82), and the end of a hold
(R72, R78). -/

namespace Sys2Proof.Machine

open Sys2Proof.Safety

/-! ### A record or an entry in its place (R71, R77) -/

theorem filter_records_not_isFor (k : Nat) (p : Product) (rs : List BookRecord) :
    (rs.filter fun q => !q.isFor k p) = rs.filter fun q => ¬(q.slot = k ∧ q.product = p) := by
  refine List.filter_congr fun q _ => Bool.eq_iff_iff.2 ?_
  rw [Bool.not_eq_true', ← Bool.not_eq_true, BookRecord.isFor_iff, decide_eq_true_iff]

theorem filter_expired_not_isFor (k : Nat) (p : Product) (es : List ExpiredHold) :
    (es.filter fun q => !q.isFor k p) = es.filter fun q => ¬(q.slot = k ∧ q.product = p) := by
  refine List.filter_congr fun q _ => Bool.eq_iff_iff.2 ?_
  rw [Bool.not_eq_true', ← Bool.not_eq_true, ExpiredHold.isFor_iff, decide_eq_true_iff]

/-- A record put in the book takes the place of the one of its slot and product; the others stay (R71, R75). -/
theorem putRecord_perm (c : Nat) (r : BookRecord) (rs : List BookRecord) :
    (putRecord c r rs).Perm (r :: rs.filter fun q => ¬(q.slot = r.slot ∧ q.product = r.product)) := by
  rw [← filter_records_not_isFor]
  exact List.perm_orderedInsert _ r _

/-- An entry put in the list takes the place of the one of its slot and product; the others stay (R77, R78). -/
theorem putExpired_perm (c : Nat) (e : ExpiredHold) (es : List ExpiredHold) :
    (putExpired c e es).Perm (e :: es.filter fun q => ¬(q.slot = e.slot ∧ q.product = e.product)) := by
  rw [← filter_expired_not_isFor]
  exact List.perm_orderedInsert _ e _

/-! ### HOLD (R74, R75) -/

@[simp] theorem publishedOffer_dequeue (s : State) (port : Port) (c k : Nat) (p : Product) :
    (s.dequeue port).publishedOffer c k p = s.publishedOffer c k p := by
  simp [State.publishedOffer]

/-- Check 1 of R74. -/
theorem holdInRange_iff (k w tenths : Nat) :
    (slotInRange k && wattsInRange w && decide (tenths < Config.tenthsPerDay)) = true ↔
      k < 6291456 ∧ w ≤ 6400000 ∧ tenths < 864000 := by
  simp only [slotInRange, wattsInRange, Bool.and_eq_true, decide_eq_true_eq, and_assoc]
  rfl

/-- Check 5 of R74. -/
theorem expiryFits_iff (now expiry : Time) (k : Nat) : expiryFits now expiry k = true ↔
    1 ≤ expiry.diff now ∧ 0 ≤ (Time.mk (k / 96) (k % 96 * 9000)).diff expiry := by
  simp only [expiryFits, Bool.and_eq_true, decide_eq_true_eq]
  rfl

section
variable {s : State} {k w tenths : Nat} {day : BitVec 16} {tag : Half} {p : Product} {now : Time}

theorem ownHold_badValue {x : Option Product} (h : x = none ∨ ¬(k < 6291456 ∧ w ≤ 6400000 ∧ tenths < 864000)) :
    ownHold k x w day tenths tag s = ⟨s, .badValue, .empty⟩ := by
  cases x with
  | none => rfl
  | some p =>
    have bad := h.resolve_left nofun
    rw [← holdInRange_iff, Bool.not_eq_true] at bad
    simp [ownHold, bad, refuse]

section
variable (ok : k < 6291456 ∧ w ≤ 6400000 ∧ tenths < 864000)
include ok

theorem ownHold_timeUnset (unset : s.now = none) : ownHold k (some p) w day tenths tag s = ⟨s, .timeUnset, .empty⟩ := by
  have range := (holdInRange_iff k w tenths).2 ok
  simp [ownHold, range, unset, refuse]

variable (set : s.now = some now)
include set

theorem ownHold_outOfHorizon (beyond : 96 ≤ distance now.slot k) (ahead : distance now.slot k < 3145728) :
    ownHold k (some p) w day tenths tag s = ⟨s, .outOfHorizon, .empty⟩ := by
  have range := (holdInRange_iff k w tenths).2 ok
  simp [ownHold, range, set, Config.horizon, Config.pastFrom, beyond, ahead, refuse]

theorem ownHold_slotClosed (closed : distance now.slot k = 0 ∨ 3145728 ≤ distance now.slot k) :
    ownHold k (some p) w day tenths tag s = ⟨s, .slotClosed, .empty⟩ := by
  have range := (holdInRange_iff k w tenths).2 ok
  have not_beyond : ¬(96 ≤ distance now.slot k ∧ distance now.slot k < 3145728) := by omega
  simp [ownHold, range, set, Config.horizon, Config.pastFrom, not_beyond, closed, refuse]

variable (ahead : 1 ≤ distance now.slot k) (within : distance now.slot k ≤ 95)
include ahead within

/-- Within the horizon the amount and the expiry are checked, and the book is asked (R74). -/
theorem ownHold_within : ownHold k (some p) w day tenths tag s =
    if w = 0 ∨ w % s.book.params.granularity ≠ 0 then ⟨s, .badGranule, .empty⟩
    else if ¬expiryFits now ⟨day.toNat, tenths⟩ k = true then ⟨s, .badExpiry, .empty⟩
    else s.holdAt now.slot k p w ⟨⟨day.toNat, tenths⟩, tag⟩ := by
  have range := (holdInRange_iff k w tenths).2 ok
  have not_beyond : ¬(96 ≤ distance now.slot k ∧ distance now.slot k < 3145728) := by omega
  have not_closed : ¬(distance now.slot k = 0 ∨ 3145728 ≤ distance now.slot k) := by omega
  simp only [ownHold, range, set, Config.horizon, Config.pastFrom, not_beyond, not_closed, refuse, Bool.not_true,
    Bool.false_eq_true, if_false, Bool.not_eq_true', Bool.not_eq_true]

end

section
variable {c : Nat} {z : HoldTerms} {old : BookRecord}
  (record : (recordOf s.book.records k p).getD ⟨k, p, 0, 0, none, none⟩ = old)
include record

theorem holdAt_holdPending (held : 0 < old.held) :
    s.holdAt c k p w z = ⟨s, .holdPending, .standing old.held old.terms⟩ := by
  simp [State.holdAt, record, BookRecord.holding, held, refuse]

theorem holdAt_insufficient (free : old.held = 0) (short : s.publishedOffer c k p < w) :
    s.holdAt c k p w z = ⟨s, .insufficient, .insufficient (s.publishedOffer c k p)⟩ := by
  simp [State.holdAt, record, BookRecord.holding, free, short, refuse]

/-- The grant (R75). -/
theorem holdAt_granted (free : old.held = 0) (enough : w ≤ s.publishedOffer c k p) : s.holdAt c k p w z =
    ⟨{ s with book := { s.book with
        records := putRecord c { old with held := w, terms := some z } s.book.records
        expired := s.book.expired.filter fun e => ¬(e.slot = k ∧ e.product = p) } },
      .ok, .granted old.awarded w z.expiry z.tag (s.publishedOffer c k p)⟩ := by
  simp only [State.holdAt, State.grant, record, BookRecord.holding, free, filter_expired_not_isFor, Nat.lt_irrefl,
    decide_false, Bool.false_eq_true, if_false, Nat.not_lt.2 enough]

end

end

/-! ### AWARD and RELEASE (R79, R80, R82) -/

/-- What the end of a hold leaves of a record, spelled (R72, R80, R82). -/
theorem settled_eq (k : Nat) (p : Product) (w : Nat) : BookRecord.settled k p w = fun r =>
    if r.slot = k ∧ r.product = p then
      if r.awarded + w = 0 then none else some { r with awarded := r.awarded + w, held := 0, terms := none }
    else some r := by
  funext r
  simp only [BookRecord.settled, BookRecord.isFor_iff]

theorem settleHold_eq (s : State) (k : Nat) (p : Product) (w : Nat) : s.settleHold k p w =
    { s with book := { s.book with records := s.book.records.filterMap (BookRecord.settled k p w) } } := by
  rw [← endHolds_of_award]
  rfl

section
variable {s : State} {k w c : Nat} {tag : Half} {p : Product}

/-- Check 1 of R79. -/
theorem aheadInRange_iff (k w : Nat) : (slotInRange k && wattsInRange w) = true ↔ k < 6291456 ∧ w ≤ 6400000 := by
  simp only [slotInRange, wattsInRange, Bool.and_eq_true, decide_eq_true_eq]
  rfl

theorem aheadCheck_badValue {x : Option Product} (h : x = none ∨ ¬(k < 6291456 ∧ w ≤ 6400000)) :
    aheadCheck s k x w = .error .badValue := by
  cases x with
  | none => rfl
  | some p =>
    have bad := h.resolve_left nofun
    rw [← aheadInRange_iff, Bool.not_eq_true] at bad
    simp [aheadCheck, bad]

section
variable (ok : k < 6291456 ∧ w ≤ 6400000)
include ok

theorem aheadCheck_timeUnset (unset : s.current = none) : aheadCheck s k (some p) w = .error .timeUnset := by
  simp [aheadCheck, (aheadInRange_iff k w).2 ok, unset]

variable (current : s.current = some c)
include current

theorem aheadCheck_slotClosed (closed : distance c k = 0 ∨ 3145728 ≤ distance c k) :
    aheadCheck s k (some p) w = .error .slotClosed := by
  have not_ahead : ¬(1 ≤ distance c k ∧ distance c k < Config.pastFrom) := by
    simp only [Config.pastFrom]
    omega
  simp only [aheadCheck, (aheadInRange_iff k w).2 ok, current, not_ahead, if_true, if_false]

theorem aheadCheck_ahead (ahead : 1 ≤ distance c k) (near : distance c k < 3145728) :
    aheadCheck s k (some p) w = .ok (c, p) := by
  have is_ahead : 1 ≤ distance c k ∧ distance c k < Config.pastFrom := ⟨ahead, near⟩
  simp only [aheadCheck, (aheadInRange_iff k w).2 ok, current, is_ahead, if_true, and_self]

end

/-! ### Check 4 of R79 -/

section
variable {b : Book}

theorem holdStanding_of_hold {r : BookRecord} (record : recordOf b.records k p = some r) (held : 0 < r.held)
    (tag : Half) : holdStanding b k p tag = .ok r := by
  have holding : r.holding = true := (holding_iff r).2 held
  simp [holdStanding, record, Option.filter_some, holding]

variable (free : ∀ r, recordOf b.records k p = some r → r.held = 0)
include free

/-- Without a hold the expired list is asked for an entry of the slot, product and tag. -/
theorem holdStanding_of_entry {e? : Option ExpiredHold}
    (entry : (b.expired.find? fun e => e.slot = k ∧ e.product = p ∧ e.tag = tag) = e?) : holdStanding b k p tag =
      .error (e?.elim (.noHold, .empty) fun e => (.holdExpired, .expiredAt e.expiry)) := by
  have no_hold : (recordOf b.records k p).filter BookRecord.holding = none := by
    rw [Option.filter_eq_none_iff]
    intro r record
    simp [BookRecord.holding, free r record]
  have listed : (fun e : ExpiredHold => e.isFor k p && e.tag == tag) = fun e =>
      decide (e.slot = k ∧ e.product = p ∧ e.tag = tag) := by
    funext e
    rw [Bool.eq_iff_iff, Bool.and_eq_true, ExpiredHold.isFor_iff, beq_iff_eq, and_assoc, decide_eq_true_iff]
  simp only [holdStanding, no_hold, listed, entry]
  cases e? <;> rfl

end

/-- Check 5 of R79. -/
theorem tagged_iff (r : BookRecord) (tag : Half) : r.tagged tag = true ↔ ∃ z, r.terms = some z ∧ z.tag = tag := by
  simp [BookRecord.tagged, Option.any_eq_true]

/-! ### The owning block's answers (R79, R80, R82) -/

/-- Checks 1 to 5 of R79, and then what is done with the record whose hold stands (R79, R82). -/
def State.answerHold (s : State) (k : Nat) (x : Option Product) (w : Nat) (tag : Half)
    (standing : Product → BookRecord → Answer) : Answer :=
  match aheadCheck s k x w with
  | .error e => refuse s e
  | .ok (_, p) =>
    match holdStanding s.book k p tag with
    | .error (e, b) => refuse s e b
    | .ok r => if r.tagged tag = true then standing p r else refuse s .tagMismatch (.standing r.held r.terms)

/-- AWARD of a hold that stands: checks 6 and 7 of R79, and R80. -/
def State.awardStanding (s : State) (k w : Nat) (p : Product) (r : BookRecord) : Answer :=
  if r.held < w then refuse s .exceedsHold (.standing r.held r.terms)
  else if w % s.book.params.granularity ≠ 0 then refuse s .badGranule
  else ⟨s.settleHold k p w, .ok, .awarded (r.awarded + w) (decide (r.awarded + w = 0))⟩

/-- RELEASE of a hold that stands (R82). -/
def State.releaseStanding (s : State) (k : Nat) (p : Product) (r : BookRecord) : Answer :=
  ⟨s.settleHold k p 0, .ok, .released r.awarded⟩

section
variable (s k w tag) (x : Option Product)

theorem ownAward_eq : ownAward k x w tag s = s.answerHold k x w tag (s.awardStanding k w) := by
  unfold ownAward State.answerHold
  cases aheadCheck s k x w with
  | error e => rfl
  | ok ahead =>
    obtain ⟨c, p⟩ := ahead
    dsimp only
    cases holdStanding s.book k p tag with
    | error refused => rfl
    | ok r => cases tagged : r.tagged tag <;> simp only [tagged] <;> rfl

theorem ownRelease_eq : ownRelease k x tag s = s.answerHold k x 0 tag (s.releaseStanding k) := by
  unfold ownRelease State.answerHold
  cases aheadCheck s k x 0 with
  | error e => rfl
  | ok ahead =>
    obtain ⟨c, p⟩ := ahead
    dsimp only
    cases holdStanding s.book k p tag with
    | error refused => rfl
    | ok r => cases tagged : r.tagged tag <;> simp only [tagged] <;> rfl

end

section
variable {x : Option Product} {e : ResultCode} {standing : Product → BookRecord → Answer}

theorem answerHold_refused (check : aheadCheck s k x w = .error e) : s.answerHold k x w tag standing = ⟨s, e, .empty⟩ := by
  simp [State.answerHold, check, refuse]

variable (check : aheadCheck s k x w = .ok (c, p))
include check

theorem answerHold_without_hold {b : ResponseBody} (none : holdStanding s.book k p tag = .error (e, b)) :
    s.answerHold k x w tag standing = ⟨s, e, b⟩ := by
  simp [State.answerHold, check, none, refuse]

variable {r : BookRecord} (stands : holdStanding s.book k p tag = .ok r)
include stands

theorem answerHold_tagMismatch (other : ¬r.tagged tag = true) :
    s.answerHold k x w tag standing = ⟨s, .tagMismatch, .standing r.held r.terms⟩ := by
  simp [State.answerHold, check, stands, other, refuse]

theorem answerHold_standing (tagged : r.tagged tag = true) : s.answerHold k x w tag standing = standing p r := by
  simp [State.answerHold, check, stands, tagged]

end

end

/-! ### HOLD_EXPIRY (R78) -/

theorem expiryDue_iff (now expiry : Time) : expiryDue now expiry = true ↔
    0 ≤ now.diff expiry ∨ (expiry = now.next ∧ expiry.tenths % 9000 = 0) := by
  simp only [expiryDue, Bool.or_eq_true, Bool.and_eq_true, decide_eq_true_eq, beq_iff_eq]
  rfl

section
variable {s : State} {k : Nat} {p : Product} {now : Time} {r : BookRecord} {z : HoldTerms}

theorem dueHold_eq_none_of_free (free : ∀ r, recordOf s.book.records k p = some r → r.held = 0 ∨ r.terms = none)
    (now : Time) : dueHold s.book.records now k p = none := by
  cases found : recordOf s.book.records k p with
  | none => simp [dueHold, found]
  | some r =>
    rcases free r found with gone | gone <;>
      simp [dueHold, found, Option.filter_some, BookRecord.holding, gone]

/-- A hold that is gone or not due does not expire (R81). -/
theorem holdExpiry_of_not_due (gone : ∀ now, s.now = some now → dueHold s.book.records now k p = none) :
    exec (.holdExpiry k p) s = .next s := by
  simp only [exec, execHoldExpiry]
  split
  · rfl
  · next now set => rw [gone now set]

theorem dueHold_of_terms (record : recordOf s.book.records k p = some r) (held : 0 < r.held) (terms : r.terms = some z) :
    dueHold s.book.records now k p = if expiryDue now z.expiry = true then some z else none := by
  simp [dueHold, record, Option.filter_some, (holding_iff r).2 held, terms]

/-- A hold that is due ends, makes its entry and raises HOLD_LAPSED at A (R78). -/
theorem holdExpiry_of_due (set : s.now = some now) (due : dueHold s.book.records now k p = some z) :
    exec (.holdExpiry k p) s = .next (({ s with book := { s.book with
      records := s.book.records.filterMap (BookRecord.settled k p 0)
      expired := putExpired now.slot ⟨k, p, z.tag, z.expiry⟩ s.book.expired } } : State).raise .a .holdLapsed) := by
  simp only [exec, execHoldExpiry, set, due, endHolds_of_lapse]

end

end Sys2Proof.Machine
end

