-- ==== Sys2Proof/Proofs/HoldRequestObligations.lean ====
section
/-! PROOFS. The statements about HOLD, AWARD, RELEASE and HOLD_EXPIRY (O32, O33, O34). -/

namespace Sys2Proof.Proofs

open Sys2Proof.Machine Sys2Proof.Safety

/-- Settles O32: the book's answer in the case the checks leave; the offer reads nothing that the taking of the telegram
moves. -/
theorem hold : Obligations.Hold := by
  refine ⟨putRecord_perm, fun p k x w day tenths g t s admitted => ?_⟩
  intro i d e ok
  have answers {r : ResultCode} {b : ResponseBody} {s' : State} (own : ownHold k x w day tenths g d = ⟨s', r, b⟩) :
      Answers i s p t r b s' := answers_of_admitted rfl admitted own
  have book : d.book = s.book := dequeue_book s p
  refine ⟨fun bad => answers (ownHold_badValue bad), fun q product range => ?_⟩
  subst product
  refine ⟨fun unset => answers (ownHold_timeUnset range ((dequeue_now s p).trans unset)), fun now set => ?_⟩
  have set_d : d.now = some now := (dequeue_now s p).trans set
  refine ⟨fun beyond ahead => answers (ownHold_outOfHorizon range set_d beyond ahead),
    fun closed => answers (ownHold_slotClosed range set_d closed), fun ahead within => ?_⟩
  have checked := ownHold_within (p := q) (tag := g) (day := day) range set_d ahead within
  rw [book] at checked
  intro old offer
  refine ⟨fun bad => answers (checked.trans (if_pos bad)), fun some_power granule => ?_⟩
  have good : ¬(w = 0 ∨ w % s.book.params.granularity ≠ 0) := by omega
  rw [if_neg good] at checked
  intro fits
  have fits_iff : expiryFits now e k = true ↔ fits := expiryFits_iff now e k
  have asked (fit : fits) : ownHold k (some q) w day tenths g d = d.holdAt now.slot k q w ⟨e, g⟩ :=
    checked.trans (if_neg (not_not_intro (fits_iff.2 fit)))
  have record : (recordOf d.book.records k q).getD ⟨k, q, 0, 0, none, none⟩ = old := by rw [book]
  have published : d.publishedOffer now.slot k q = offer := publishedOffer_dequeue s p now.slot k q
  refine ⟨fun bad => answers (checked.trans (if_pos (mt fits_iff.1 bad))),
    fun fit held => answers ((asked fit).trans (holdAt_holdPending record held)),
    fun fit free short => answers ((asked fit).trans ?insufficient),
    fun fit free enough => answers ((asked fit).trans ?granted)⟩
  case insufficient => exact published ▸ holdAt_insufficient record free (published.symm ▸ short)
  case granted =>
    rw [holdAt_granted record free (published.symm ▸ enough), published, book]

/-- Settles O33: the checks that AWARD and RELEASE share once, then what each does with the hold that stands. -/
theorem awardAndRelease : Obligations.AwardAndRelease := by
  intro p k x w g t s d settled checked
  have book : d.book = s.book := dequeue_book s p
  have current_d : d.current = s.current := current_dequeue s p
  have settle (q : Product) (v : Nat) : d.settleHold k q v = settled q v := by rw [settleHold_eq, settled_eq, book]
  have shared (i : Instr) (v : Nat) (ok : Prop) (took : Product → Nat → BookRecord → Prop)
      (standing : Product → BookRecord → Answer) (range : ok ↔ k < 6291456 ∧ v ≤ 6400000)
      (answers : ∀ r b s', d.answerHold k x v g standing = ⟨s', r, b⟩ → Answers i s p t r b s')
      (taken : ∀ q r, d.answerHold k x v g standing = standing q r → took q v r) : checked i v ok took := by
    refine ⟨fun bad => answers _ _ _ (answerHold_refused (aheadCheck_badValue (bad.imp_right (mt range.2)))),
      fun q product valid unset => ?unset,
      fun q c product valid current => ⟨fun closed => ?closed, fun ahead near => ?ahead⟩⟩
    all_goals
      subst product
      have valid := range.1 valid
    case unset =>
      have unset_d : d.current = none := by rw [current_d, State.current, unset]; rfl
      exact answers _ _ _ (answerHold_refused (aheadCheck_timeUnset valid unset_d))
    case closed =>
      exact answers _ _ _ (answerHold_refused (aheadCheck_slotClosed valid (current_d.trans current) closed))
    case ahead =>
      have check : aheadCheck d k (some q) v = .ok (c, q) := aheadCheck_ahead valid (current_d.trans current) ahead near
      rw [← book]
      intro r? e?
      refine ⟨fun free e entry => ?_, fun free entry => ?_, fun r record held => ?_⟩
      · exact answers _ _ _ (answerHold_without_hold check (holdStanding_of_entry free entry))
      · exact answers _ _ _ (answerHold_without_hold check (holdStanding_of_entry free entry))
      · have stands := holdStanding_of_hold record held g
        refine ⟨fun other => answers _ _ _ (answerHold_tagMismatch check stands ?_), fun tagged => ?_⟩
        · rw [tagged_iff]
          exact fun ⟨z, terms, same⟩ => other z terms same
        · exact taken q r (answerHold_standing check stands ((tagged_iff r g).2 tagged))
  clear_value checked
  refine ⟨fun admitted => ?award, fun admitted => ?release⟩
  case award =>
    intro i
    have answers (r : ResultCode) (b : ResponseBody) (s' : State)
        (own : d.answerHold k x w g (d.awardStanding k w) = ⟨s', r, b⟩) : Answers i s p t r b s' :=
      answers_of_admitted rfl admitted ((ownAward_eq d k w g x).trans own)
    refine shared i w _ _ (d.awardStanding k w) Iff.rfl answers fun q r own => ?_
    rw [State.awardStanding, book] at own
    refine ⟨fun more => answers _ _ _ ?_, fun within granule => answers _ _ _ ?_, fun within granule => answers _ _ _ ?_⟩
    · exact own.trans (if_pos more)
    · exact (own.trans (if_neg (Nat.not_lt.2 within))).trans (if_pos granule)
    · rw [← settle]
      exact (own.trans (if_neg (Nat.not_lt.2 within))).trans (if_neg (not_not_intro granule))
  case release =>
    intro i
    have answers (r : ResultCode) (b : ResponseBody) (s' : State)
        (own : d.answerHold k x 0 g (d.releaseStanding k) = ⟨s', r, b⟩) : Answers i s p t r b s' :=
      answers_of_admitted rfl admitted ((ownRelease_eq d k g x).trans own)
    have range : k < 6291456 ↔ k < 6291456 ∧ 0 ≤ 6400000 := by simp
    refine shared i 0 _ _ (d.releaseStanding k) range answers fun q r own => answers _ _ _ ?_
    rw [own, State.releaseStanding, settle]

/-- Settles O34: a hold that is gone has no terms that are due; one that stands is due by its own expiry. -/
theorem holdExpiry : Obligations.HoldExpiry := by
  refine ⟨putExpired_perm, fun k q s => ?_⟩
  intro i
  have gone (free : ∀ r, recordOf s.book.records k q = some r → r.held = 0 ∨ r.terms = none) : exec i s = .next s :=
    holdExpiry_of_not_due fun now _ => dueHold_eq_none_of_free free now
  refine ⟨fun unset => holdExpiry_of_not_due fun now set => ?_, fun r record free => gone fun r' record' => ?_,
    fun r record none => gone fun r' record' => ?_, fun none => gone fun r record => ?_,
    fun now r z set record held terms => ?_⟩
  · rw [unset] at set
    cases set
  · exact .inl (Option.some.inj (record.symm.trans record') ▸ free)
  · exact .inr (Option.some.inj (record.symm.trans record') ▸ none)
  · rw [none] at record
    cases record
  intro early
  have due_iff : expiryDue now z.expiry = true ↔ 0 ≤ now.diff z.expiry ∨ early := expiryDue_iff now z.expiry
  have due := dueHold_of_terms (now := now) record held terms
  refine ⟨fun later not_early => holdExpiry_of_not_due fun now' set' => ?_, fun is_due => ?_⟩
  · obtain rfl : now = now' := Option.some.inj (set.symm.trans set')
    rw [due, if_neg]
    exact fun is_due => (due_iff.1 is_due).elim (Int.not_le.2 later) not_early
  · rw [if_pos (due_iff.2 is_due)] at due
    rw [holdExpiry_of_due set due, settled_eq]
    rfl

end Sys2Proof.Proofs
end

