-- ==== Sys2Proof/Proofs/Shortfalls.lean ====
section
/-! PROOFS. The shortfall evaluation, spelled: the risk fields it writes and the pairs that are newly at risk (R87 to
R90). -/

namespace Sys2Proof.Machine

section
variable (s : State) (c : Nat)

/-- The risk fields that an evaluation writes on a record of the horizon: the deficits of its pair, none when both are 0
(R88, R89). -/
def State.riskOf (r : BookRecord) : Option RiskFields :=
  (deficits s.book.records (s.headroom c r.product.direction) c r.slot r.product.direction).shown

/-- A record after an evaluation (R88, R89). -/
def State.judge (r : BookRecord) : BookRecord := if distance c r.slot < 96 then { r with risk := s.riskOf c r } else r

theorem judged_eq_judge : judged s.book.records (s.headroom c .up) (s.headroom c .down) c = s.judge c := by
  funext r
  simp only [judged, State.judge, State.riskOf, Config.horizon]
  cases r.product.direction <;> rfl

/-- No pair that the record belongs to was at risk (R89). -/
theorem pairAtRisk_eq_false_iff (rs : List BookRecord) (k : Nat) (d : Direction) : pairAtRisk rs k d = false ↔
    ∀ o ∈ rs, o.slot = k → o.product.direction = d → o.risk = none := by
  simp [pairAtRisk]

/-- Some record of a pair that was not at risk has risk fields (R90). -/
def NewlyAtRisk (before after : List BookRecord) : Prop :=
  ∃ r ∈ after, r.risk ≠ none ∧ ∀ o ∈ before, o.slot = r.slot → o.product.direction = r.product.direction → o.risk = none

theorem newlyAtRisk_iff (before after : List BookRecord) :
    (after.any fun r => r.risk.isSome && !pairAtRisk before r.slot r.product.direction) = true ↔
      NewlyAtRisk before after := by
  simp only [List.any_eq_true, Bool.and_eq_true, Bool.not_eq_true', pairAtRisk_eq_false_iff, NewlyAtRisk,
    Option.isSome_iff_ne_none]

/-- The state with the records judged, before SHORTFALL. -/
def State.withJudged : State := { s with book := { s.book with records := s.book.records.map (s.judge c) } }

/-- An evaluation writes the risk fields, and raises SHORTFALL at A and S where a pair is newly at risk (R88 to R90). -/
theorem evaluate_of_current (current : s.current = some c)
    [Decidable (NewlyAtRisk s.book.records (s.book.records.map (s.judge c)))] : s.evaluate =
    if NewlyAtRisk s.book.records (s.book.records.map (s.judge c)) then
      ((s.withJudged c).raise .a .shortfall).raise .s .shortfall else s.withJudged c := by
  have fresh := newlyAtRisk_iff s.book.records (s.book.records.map (s.judge c))
  simp only [State.evaluate, current, judged_eq_judge, raiseIf_eq_ite _ fresh, State.withJudged]
  split <;> rfl

end

end Sys2Proof.Machine
end

