-- ==== Sys2Proof/Proofs/ShortfallObligations.lean ====
section
/-! PROOFS. The statement about SHORTFALL_EVALUATION (O35). -/

namespace Sys2Proof.Proofs

open Sys2Proof.Machine Sys2Proof.Safety

/-- Settles O35: with a request the book is evaluated without it; the evaluation reads the records and figures of the state
as it stands. -/
theorem shortfallEvaluation : Obligations.ShortfallEvaluation := by
  intro s
  refine ⟨fun none => ?_, fun n requested => ?_⟩
  · simp only [exec, execShortfallEvaluation, none, if_true]
  intro s1
  have taken : exec .shortfallEvaluation s = .next s1.evaluate := by
    simp only [exec, execShortfallEvaluation, requested, Nat.add_one_ne_zero, if_false, Nat.add_sub_cancel, s1]
  refine ⟨fun unset => ?_, fun c current => ?_⟩
  · rw [taken, evaluate_unset]
    exact congrArg (Option.map Time.slot) unset
  intro risk records s2 newly
  have judge : s1.withJudged c = s2 := rfl
  have newly_iff : NewlyAtRisk s1.book.records (s1.book.records.map (s1.judge c)) ↔ newly := Iff.rfl
  classical
  rw [taken, evaluate_of_current s1 c current, judge]
  exact ⟨fun at_risk => congrArg _ (if_pos (newly_iff.2 at_risk)), fun safe => congrArg _ (if_neg (mt newly_iff.1 safe))⟩

end Sys2Proof.Proofs
end

