-- ==== Sys2Proof/Proofs/MeterCounts.lean ====
section
/-! PROOFS. Bands and run counts of the frequency meter: what a reading does to them in each state (R101, R102). -/

namespace Sys2Proof.Machine

/-! ### Bands -/

theorem withinBand_iff (f x : Nat) : withinBand f x = true ↔ x ≤ f + 2500 ∧ f ≤ x + 2500 := by
  have band : withinBand f x = true ↔ max f x - min f x ≤ 2500 := decide_eq_true_iff
  rw [band]
  omega

/-- Whether a candidate is a member of the set (R94). -/
def CandidateSet.has (c : CandidateSet) : Candidate → Bool
  | .fifty => c.fifty
  | .sixty => c.sixty

/-- The reading counts for candidate `k`: the set has it, and the reading lies within its band (R101). -/
def CandidateSet.CountsFor (c : CandidateSet) (x : Nat) (k : Candidate) : Prop := c.has k = true ∧ withinBand k.mHz x = true

section
variable {c : CandidateSet} {x : Nat}

/-- A reading in the band of 50 Hz is not in the band of 60 Hz (R101). -/
theorem withinBand_sixty_eq_false (fifty : withinBand Candidate.fifty.mHz x = true) :
    withinBand Candidate.sixty.mHz x = false := by
  rw [withinBand_iff] at fifty
  rw [Bool.eq_false_iff, ne_eq, withinBand_iff]
  simp only [Candidate.mHz] at *
  omega

theorem bandOf_eq_some {k : Candidate} (h : c.CountsFor x k) : c.bandOf x = some k := by
  obtain ⟨has, band⟩ := h
  cases k with
  | fifty =>
    have fifty : c.fifty = true := has
    simp [CandidateSet.bandOf, fifty, band]
  | sixty =>
    have sixty : c.sixty = true := has
    have other : withinBand Candidate.fifty.mHz x = false :=
      Bool.eq_false_iff.2 fun fifty => Bool.false_ne_true ((withinBand_sixty_eq_false fifty).symm.trans band)
    simp [CandidateSet.bandOf, sixty, band, other]

theorem bandOf_eq_none (fifty : ¬c.CountsFor x .fifty) (sixty : ¬c.CountsFor x .sixty) : c.bandOf x = none := by
  simp only [CandidateSet.CountsFor, CandidateSet.has, ← Bool.and_eq_true] at fifty sixty
  simp only [CandidateSet.bandOf, fifty, sixty, Bool.false_eq_true, if_false]

end

/-! ### The search and the watch -/

section
variable {m : Meter} {x : Nat} {k : Candidate}

theorem search_outside (out : m.candidates.bandOf x = none) :
    m.search x = { m with lockRun := 0, lockCandidate := none } := by
  simp only [Meter.search, out]

theorem search_runs (band : m.candidates.bandOf x = some k)
    (run : (if m.lockCandidate = some k then m.lockRun + 1 else 1) < 8) : m.search x =
      { m with lockRun := if m.lockCandidate = some k then m.lockRun + 1 else 1, lockCandidate := some k } := by
  simp only [Meter.search, band]
  exact if_pos run

theorem search_locks (band : m.candidates.bandOf x = some k)
    (run : 8 ≤ if m.lockCandidate = some k then m.lockRun + 1 else 1) : m.search x =
      { m with state := .locked, nominal := some k.mHz, lockRun := 0, lockCandidate := none, unlockRun := 0 } := by
  simp only [Meter.search, band]
  exact if_neg run.not_gt

/-- The search of a meter that counts for no candidate begins a run with the first reading in a band (R101). -/
theorem search_begins (band : m.candidates.bandOf x = some k) (idle : m.lockCandidate = none) :
    m.search x = { m with lockRun := 1, lockCandidate := some k } := by
  have one : (if m.lockCandidate = some k then m.lockRun + 1 else 1) = 1 := by simp [idle]
  rw [search_runs band (by omega), one]

/-- A LOCKED meter that has lost its lock, before the eighth reading outside counts for the search (R102). -/
def Meter.unlocked (m : Meter) : Meter :=
  { m with state := .searching, nominal := none, unlockRun := 0, lockRun := 0, lockCandidate := none }

theorem watch_inside {f : Nat} (nominal : m.nominal = some f) (near : withinBand f x = true) :
    m.watch x = { m with unlockRun := 0 } := by simp [Meter.watch, nominal, near]

theorem watch_outside {f : Nat} (nominal : m.nominal = some f) (far : ¬withinBand f x = true) (run : m.unlockRun + 1 < 8) :
    m.watch x = { m with unlockRun := m.unlockRun + 1 } := by
  simp [Meter.watch, nominal, far, Config.runLength, run]

theorem watch_unlocks {f : Nat} (nominal : m.nominal = some f) (far : ¬withinBand f x = true) (run : 8 ≤ m.unlockRun + 1) :
    m.watch x = m.unlocked.search x := by
  simp [Meter.watch, nominal, far, Config.runLength, run.not_gt, Meter.unlocked]

/-! ### The count of a reading -/

theorem count_noSignal (state : m.state = .noSignal) : m.count x = m := by simp only [Meter.count, state]

theorem count_searching (state : m.state = .searching) : m.count x = m.search x := by simp only [Meter.count, state]

theorem count_locked (state : m.state = .locked) : m.count x = m.watch x := by simp only [Meter.count, state]

end

end Sys2Proof.Machine
end

