-- ==== Sys2Proof/Proofs/MeterEvents.lean ====
section
/-! PROOFS. The events of the frequency meter: the estimate of a period and the median (R96, R98, R99), the edges that are taken
(R95), and what the meter hands to the generator and the journal (R103, R112 to R115). -/

namespace Sys2Proof.Machine

open Sys2Proof.Safety

/-! ### Estimates and the reading (R96, R98, R99) -/

/-- The periods whose estimate is accepted (R96). -/
theorem plausible_estimateOf (n : Nat) : plausible (estimateOf n) = true ↔ 153845 ≤ n ∧ n ≤ 222224 := by
  have range : plausible (estimateOf n) = true ↔
      45000 ≤ (2 * 10000000000 + n) / (2 * n) ∧ (2 * 10000000000 + n) / (2 * n) ≤ 65000 := by
    rw [plausible, Bool.and_eq_true, decide_eq_true_iff, decide_eq_true_iff]
    rfl
  rw [range]
  rcases Nat.eq_zero_or_pos n with rfl | pos
  · decide
  · have upper := Nat.div_lt_iff_lt_mul (x := 2 * 10000000000 + n) (y := 65001) (show 0 < 2 * n by omega)
    rw [Nat.le_div_iff_mul_le (by omega), ← Nat.lt_succ_iff (n := 65000), upper]
    omega

theorem median_of_perm {a b c lo mid hi : Nat} (perm : [a, b, c].Perm [lo, mid, hi]) (low : lo ≤ mid) (high : mid ≤ hi) :
    median a b c = mid := by
  have sum := perm.sum_eq
  have least : ∀ y ∈ [a, b, c], lo ≤ y ∧ y ≤ hi := by
    intro y mem
    have mem := perm.mem_iff.1 mem
    simp only [List.mem_cons, List.not_mem_nil, or_false] at mem
    omega
  have lo_mem := perm.mem_iff.2 (show lo ∈ [lo, mid, hi] by simp)
  have hi_mem := perm.mem_iff.2 (show hi ∈ [lo, mid, hi] by simp)
  have mid_mem := perm.mem_iff.2 (show mid ∈ [lo, mid, hi] by simp)
  simp only [List.mem_cons, List.not_mem_nil, or_false, List.sum_cons, List.sum_nil] at *
  simp only [median]
  omega

section
variable (s : State)

/-- An accepted estimate up to the end of NO_SIGNAL, before the reading it may form (R98, steps 1 to 3). -/
def State.joinEstimate (s : State) (e : Nat) : State :=
  let s1 := { s with meter := s.meter.takeEstimate e }
  if s.meter.state = .noSignal then s1.handStateChange s.meter.state false else s1

@[simp] theorem joinEstimate_meter (e : Nat) : (s.joinEstimate e).meter = s.meter.takeEstimate e := by
  simp only [State.joinEstimate]
  split <;> simp

theorem joinEstimate_noSignal (e : Nat) (state : s.meter.state = .noSignal) : s.joinEstimate e =
    State.moveGen { s with meter := { s.meter with
      estimates := pushEstimate s.meter.estimates e, lossTimer := true, state := .searching, lockRun := 0
      lockCandidate := none } } (s.gen.stateChange .searching false) := by
  simp only [State.joinEstimate, Meter.takeEstimate, State.handStateChange, if_pos state]
  rw [if_neg (by simp [state])]

theorem joinEstimate_signal (e : Nat) (state : s.meter.state ≠ .noSignal) : s.joinEstimate e =
    { s with meter := { s.meter with estimates := pushEstimate s.meter.estimates e, lossTimer := true } } := by
  simp only [State.joinEstimate, Meter.takeEstimate, if_neg state]

@[simp] theorem estimates_takeEstimate (m : Meter) (e : Nat) : (m.takeEstimate e).estimates = pushEstimate m.estimates e := by
  simp only [Meter.takeEstimate]
  split <;> rfl

theorem acceptEstimate_eq (e : Nat) : s.acceptEstimate e = match pushEstimate s.meter.estimates e with
    | [a, b, c] => (s.joinEstimate e).takeReading (median a b c)
    | _ => s.joinEstimate e := by
  rw [← estimates_takeEstimate, ← joinEstimate_meter]
  rfl

/-- Three estimates form a reading, their median (R99). -/
theorem acceptEstimate_of_three {e a b c : Nat} (three : pushEstimate s.meter.estimates e = [a, b, c]) :
    s.acceptEstimate e = (s.joinEstimate e).takeReading (median a b c) := by rw [acceptEstimate_eq, three]

theorem acceptEstimate_of_few {e : Nat} (few : (pushEstimate s.meter.estimates e).length ≠ 3) :
    s.acceptEstimate e = s.joinEstimate e := by
  rw [acceptEstimate_eq]
  split
  · next three => exact absurd (congrArg List.length three) few
  · rfl

/-! ### Edges (R95, R97) -/

theorem takesEdge_iff (m : Meter) (fall : Option Nat) (x : Nat) : m.takesEdge ⟨fall, x⟩ = true ↔
    (fall = none ∧ m.gsense = false ∧ m.periodStart = none) ∨
      ∃ f, fall = some f ∧ m.gsense = true ∧ f + 100 ≤ x ∧ ∀ y, m.periodStart = some y → y + 100 ≤ f := by
  cases fall with
  | none => simp [Meter.takesEdge]
  | some f =>
    have far (y : Nat) : y + Config.gsenseHold ≤ f ↔ y + 100 ≤ f := Iff.rfl
    have long : f + Config.gsenseHold ≤ x ↔ f + 100 ≤ x := Iff.rfl
    cases start : m.periodStart <;> simp [Meter.takesEdge, start, far, long, and_assoc]

/-- The state once an edge is taken: a period starts with it, and the level is high (R95, R97). -/
def State.atEdge (s : State) (x : Nat) : State := { s with meter := { s.meter with periodStart := some x, gsense := true } }

variable {s : State} {edge : GsenseEdge}

theorem gsenseRisingEdge_none (h : s.member = .ojl064 ∨ s.meter.takesEdge edge = false) :
    exec (.gsenseRisingEdge edge) s = .next s := by
  simp only [exec, execGsenseRisingEdge, if_pos h]

section
variable (member : s.member = .ojl256) (taken : s.meter.takesEdge edge = true)
include member taken

theorem gsenseRisingEdge_first (first : s.meter.periodStart = none) :
    exec (.gsenseRisingEdge edge) s = .next (s.atEdge edge.instant) := by
  simp [exec, execGsenseRisingEdge, member, taken, first, State.atEdge]

theorem gsenseRisingEdge_rejected {y : Nat} (start : s.meter.periodStart = some y)
    (out : ¬plausible (estimateOf (edge.instant - y)) = true) :
    exec (.gsenseRisingEdge edge) s = .next (s.atEdge edge.instant) := by
  simp [exec, execGsenseRisingEdge, member, taken, start, out, State.atEdge]

theorem gsenseRisingEdge_accepted {y : Nat} (start : s.meter.periodStart = some y)
    (accepted : plausible (estimateOf (edge.instant - y)) = true) :
    exec (.gsenseRisingEdge edge) s = .next ((s.atEdge edge.instant).acceptEstimate (estimateOf (edge.instant - y))) := by
  simp [exec, execGsenseRisingEdge, member, taken, start, accepted, State.atEdge]

end

/-- Everything a rising edge can do: nothing, the start of a period, or an accepted estimate with it (R95 to R97). -/
theorem gsenseRisingEdge_cases (s : State) (edge : GsenseEdge) : exec (.gsenseRisingEdge edge) s = .next s ∨
    exec (.gsenseRisingEdge edge) s = .next (s.atEdge edge.instant) ∨
    ∃ e, plausible e = true ∧ exec (.gsenseRisingEdge edge) s = .next ((s.atEdge edge.instant).acceptEstimate e) := by
  by_cases none : s.member = .ojl064 ∨ s.meter.takesEdge edge = false
  · exact .inl (gsenseRisingEdge_none none)
  · obtain ⟨member, taken⟩ := not_or.1 none
    have member : s.member = .ojl256 := by
      cases m : s.member with
      | ojl256 => rfl
      | ojl064 => exact absurd m member
    have taken : s.meter.takesEdge edge = true := (Bool.not_eq_false _).mp taken
    cases start : s.meter.periodStart with
    | none => exact .inr (.inl (gsenseRisingEdge_first member taken start))
    | some y =>
      by_cases accepted : plausible (estimateOf (edge.instant - y)) = true
      · exact .inr (.inr ⟨_, accepted, gsenseRisingEdge_accepted member taken start accepted⟩)
      · exact .inr (.inl (gsenseRisingEdge_rejected member taken start accepted))

end

/-! ### Readings and losses of lock in the state (R99, R102, R103) -/

section
variable {s : State} {x : Nat}

theorem takeReading_of_loss (was : s.meter.state = .locked)
    (lost : ({ s.meter with reading := some x }.count x).state ≠ .locked) :
    let m := { s.meter with reading := some x }.count x
    let s2 := State.loseLock { s with meter := m }
    s.takeReading x = s2.moveGen (s2.gen.readingEvent x m.state m.nominal) := by
  intro m s2
  have loss : s.takeReading x = s2.moveGen (s2.gen.readingEvent x s2.meter.state s2.meter.nominal) := by
    rw [State.takeReading, State.handReading, if_pos ⟨was, lost⟩]
  rw [loss, show s2.meter = m from loseLock_meter _]

theorem takeReading_of_no_loss
    (kept : s.meter.state ≠ .locked ∨ ({ s.meter with reading := some x }.count x).state = .locked) :
    let m := { s.meter with reading := some x }.count x
    s.takeReading x = State.moveGen { s with meter := m } (s.gen.readingEvent x m.state m.nominal) := by
  have stays : ¬(s.meter.state = .locked ∧ ({ s.meter with reading := some x }.count x).state ≠ .locked) := by
    rintro ⟨was, lost⟩
    exact kept.elim (absurd was) lost
  simp only [State.takeReading, State.handReading, stays, if_false]

@[simp] theorem takeReading_meter (s : State) (x : Nat) :
    (s.takeReading x).meter = { s.meter with reading := some x }.count x := handReading_meter _ _ _

end

/-- The state change is handed on behind the loss of lock, where there is one (R103, R112). -/
theorem handStateChange_eq (s : State) (was : MeterState) (drop : Bool) : s.handStateChange was drop =
    let s1 := if was = .locked then s.loseLock else s
    s1.moveGen (s1.gen.stateChange s.meter.state drop) := by
  by_cases locked : was = .locked
  · simp only [State.handStateChange, if_pos locked, loseLock_meter]
  · simp only [State.handStateChange, if_neg locked]

/-- A loss of lock flags the OPEN FL record (R165). -/
theorem flagFreqLoss_eq (j : Journal) : j.flagFreqLoss = { j with records := j.records.map fun e =>
    if e.state = .isOpen ∧ e.kind = .fl then { e with flags := { e.flags with freqLoss := true } } else e } := by
  simp [Journal.flagFreqLoss, Journal.mapOpen, Episode.opened]

/-! ### The generator (R112 to R115) -/

section
variable {g : Generator}

/-- Without a deviation there is no target (R113). -/
theorem targetOf_zero (zero : g.delta = 0) : g.targetOf = 0 := if_pos (.inr (by simp [zero]))

theorem recompute_zero : { g with delta := 0 }.recompute = { g with delta := 0, flTarget := 0 } := by
  rw [Generator.recompute, targetOf_zero rfl]

theorem loseLock_test (test : g.test = .test) : g.loseLock = g := by simp only [Generator.loseLock, test]

theorem loseLock_release (live : g.test = .live) (h : g.armed = false ∨ g.flTarget = 0 ∨ g.lossMode = .release) :
    g.loseLock = { g with delta := 0, flTarget := 0 } := by
  have released : ¬(g.armed = true ∧ g.flTarget ≠ 0 ∧ g.lossMode = .holdLast) := by
    rintro ⟨armed, target, mode⟩
    simp [armed, target, mode] at h
  rw [← recompute_zero, Generator.loseLock, live]
  exact if_neg released

theorem loseLock_holdLast (live : g.test = .live) (armed : g.armed = true) (target : g.flTarget ≠ 0)
    (mode : g.lossMode = .holdLast) : g.loseLock = { g with lossHold := some ⟨g.delta, g.holdLimit⟩ } := by
  simp [Generator.loseLock, live, armed, target, mode]

theorem unlockedEvent_zero (live : g.test = .live) (hold : g.lossHold = none) : g.unlockedEvent = { g with delta := 0 } :=
  if_pos ⟨live, hold⟩

theorem unlockedEvent_stands (h : g.test = .test ∨ g.lossHold ≠ none) : g.unlockedEvent = g := by
  refine if_neg ?_
  rintro ⟨live, hold⟩
  simp [live, hold] at h

theorem stateChange_zero (live : g.test = .live) (hold : g.lossHold = none) (st : MeterState) (drop : Bool) :
    g.stateChange st drop =
      { g with last := ⟨if drop then none else g.last.reading, some st, none⟩, delta := 0, flTarget := 0 } := by
  rw [Generator.stateChange, unlockedEvent_zero (by exact live) (by exact hold), recompute_zero]

theorem stateChange_stands (h : g.test = .test ∨ g.lossHold ≠ none) (st : MeterState) (drop : Bool) :
    g.stateChange st drop = { g with last := ⟨if drop then none else g.last.reading, some st, none⟩ }.recompute := by
  rw [Generator.stateChange, unlockedEvent_stands (by exact h)]

theorem readingEvent_locked (x f : Nat) : g.readingEvent x .locked (some f) =
    ({ g with last := ⟨some x, some .locked, some f⟩ }.lockedReading f x).recompute := rfl

/-- A LOCKED reading sets the deviation in LIVE and ends a loss hold (R112, R115). -/
theorem readingEvent_locked_live (live : g.test = .live) (x f : Nat) : g.readingEvent x .locked (some f) =
    { g with last := ⟨some x, some .locked, some f⟩, delta := deviation f x, lossHold := none }.recompute :=
  congrArg Generator.recompute (if_pos live)

/-- A reading event without a lock, or without a nominal, is that of an unlocked meter (R112). -/
theorem readingEvent_unlocked (x : Nat) {st : MeterState} {f? : Option Nat} (h : st ≠ .locked ∨ f? = none) :
    g.readingEvent x st f? = ({ g with last := ⟨some x, some st, f?⟩ }.unlockedEvent).recompute := by
  unfold Generator.readingEvent
  split
  · simp at h
  · rfl

/-- In TEST a reading event moves the last reading alone (R112). -/
theorem readingEvent_test (test : g.test = .test) (x : Nat) (st : MeterState) (f? : Option Nat) :
    g.readingEvent x st f? = { g with last := ⟨some x, some st, f?⟩ }.recompute := by
  by_cases locked : st = .locked ∧ ∃ f, f? = some f
  · obtain ⟨rfl, f, rfl⟩ := locked
    simp [readingEvent_locked, Generator.lockedReading, test]
  · have unlocked : st ≠ .locked ∨ f? = none := by
      rcases f? with _ | f
      · exact .inr rfl
      · exact .inl fun h => locked ⟨h, f, rfl⟩
    rw [readingEvent_unlocked x unlocked]
    exact congrArg Generator.recompute (unlockedEvent_stands (.inl test))

end

end Sys2Proof.Machine
end

