-- ==== Sys2Proof/Proofs/MeterSteps.lean ====
section
/-! PROOFS. Everything a command can do to the frequency meter (R95 to R102, R105): only the edges, the loss timer, SET_METER
and a reset move it. -/

namespace Sys2Proof.Machine

open Sys2Proof.Safety

/-- What a command can do to the meter. -/
inductive MeterStep (m : Meter) : Meter → Prop
  | kept : MeterStep m m
  /-- An edge starts a period (R95, R97). -/
  | edge (x : Nat) : MeterStep m { m with periodStart := some x, gsense := true }
  /-- The estimate of the period joins the last ones, without a reading (R98, steps 1 to 3). -/
  | estimate (x e : Nat) (accepted : plausible e = true) (few : (pushEstimate m.estimates e).length ≠ 3) :
      MeterStep m ({ m with periodStart := some x, gsense := true }.takeEstimate e)
  /-- The estimate is the third, and a reading is formed and counted (R98, step 4, R99, R101, R102). -/
  | reading (x e r : Nat) (accepted : plausible e = true) (three : (pushEstimate m.estimates e).length = 3) :
      MeterStep m ({ { m with periodStart := some x, gsense := true }.takeEstimate e with reading := some r }.count r)
  /-- The loss timer expires (R100). -/
  | lost : MeterStep m m.toNoSignal
  /-- SET_METER with a candidate set that is not empty (R104, R105). -/
  | restart (c : CandidateSet) (members : c.fifty = true ∨ c.sixty = true) : MeterStep m (m.restart c)
  /-- A device reset (R3, R94, R95). -/
  | reset (level : Bool) : MeterStep m { Meter.reset with gsense := level }

section
variable (s : State)

/-! ### Operations that leave the meter -/

@[simp] theorem endPoll_meter (a : Address) (o : PollOutcome) : (s.endPoll a o).meter = s.meter := endFrame_meter _

@[simp] theorem goodReport_meter (a : Address) (q : Report) : (s.goodReport a q).meter = s.meter := by
  simp only [State.goodReport]
  split
  · rfl
  · split <;> rfl

@[simp] theorem takeReply_meter (a : Address) (bytes : List Byte) : (s.takeReply a bytes).meter = s.meter := by
  rcases takeReply_cases s a bytes with ⟨-, eq⟩ | ⟨-, eq⟩ <;> simp [eq]

@[simp] theorem beginPoll_meter (a : Address) : (s.beginPoll a).meter = s.meter := by
  simp only [State.beginPoll]
  split <;> rfl

@[simp] theorem assertFreeze_meter : s.assertFreeze.meter = s.meter := by
  simp [State.assertFreeze, State.raiseFreeze]

/-! ### Requests -/

/-- Every request but SET_METER leaves the meter (R104). -/
theorem ownOf_meter (p : Port) {r : Request} (other : ∀ c, r ≠ .setMeter c) : (ownOf p r s).state.meter = s.meter := by
  cases r with
  | setMeter c => exact absurd rfl (other c)
  | setTime day tenths =>
    simp only [ownOf, ownSetTime, refuse, State.moveClock]
    repeat' split
    all_goals simp
  | hold | award | release =>
    simp only [ownOf, ownHold, State.holdAt, State.grant, ownAward, ownRelease, State.settleHold, refuse]
    repeat' split
    all_goals rfl
  | setLinkMode | status =>
    simp only [ownOf, ownSetLinkMode, ownStatus, refuse]
    repeat' split
    all_goals simp
  | armFl | disarmFl | inject | enterTest | leaveTest | setPoint | setFlParams | setSlParams =>
    simp only [ownOf, ownArmFl, ownDisarmFl, armAnswer, ownInject, ownEnterTest, ownLeaveTest, ownSetPoint, ownSetFlParams,
      ownSetSlParams, refuse]
    repeat' split
    all_goals simp
  | _ =>
    simp only [ownOf, refuse, ownEnroll, ownAmend, ownRemove, ownReadSite, ownSetItems, ownDefineWindow, ownClearWindow,
      ownSetBranch, ownSetDefaultClass, editWith, ownSuspend, ownResume, State.putInForce, ownQueryClass, ownReadWindows,
      ownSetOfferParams, ownOfferQuery, ownReadBook, ownReadMeter, ownReadBranchLoad, ownReadResponse, ownReadJournal,
      ownReleaseJournal, ownBusEnable, ownBusDisable, ownBusConfig, ownBusRestore, busAnswer, ownIdentify]
    repeat' split
    all_goals simp

/-! ### SET_METER (R104, R105) -/

section
variable {s : State} {x : CandidatesArg}

theorem ownSetMeter_badValue (other : x.other = true) :
    ownSetMeter x s = ⟨s, .badValue, .meterSet s.meter.state s.meter.candidates⟩ := by simp [ownSetMeter, other, refuse]

theorem ownSetMeter_prohibited (other : x.other = false) (fifty : x.fifty = false) (sixty : x.sixty = false) :
    ownSetMeter x s = ⟨s, .prohibited, .meterSet s.meter.state s.meter.candidates⟩ := by
  simp [ownSetMeter, other, fifty, sixty, refuse]

variable (other : x.other = false) (members : x.fifty = true ∨ x.sixty = true)
include other members

theorem ownSetMeter_notNow (armed : s.gen.armed = true) :
    ownSetMeter x s = ⟨s, .notNow, .meterSet s.meter.state s.meter.candidates⟩ := by
  simp [ownSetMeter, other, Bool.or_eq_true .. ▸ members, armed, refuse]

theorem ownSetMeter_ok (disarmed : s.gen.armed = false) : ownSetMeter x s =
    ⟨{ s with meter := s.meter.restart ⟨x.fifty, x.sixty⟩ }.handStateChange s.meter.state true, .ok,
      .meterSet .searching ⟨x.fifty, x.sixty⟩⟩ := by
  simp [ownSetMeter, other, Bool.or_eq_true .. ▸ members, disarmed]

end

theorem ownSetMeter_meterStep (x : CandidatesArg) : MeterStep s.meter (ownSetMeter x s).state.meter := by
  by_cases other : x.other = true
  · rw [ownSetMeter_badValue other]
    exact .kept
  have other := Bool.eq_false_iff.2 other
  by_cases members : x.fifty = true ∨ x.sixty = true
  · by_cases armed : s.gen.armed = true
    · rw [ownSetMeter_notNow other members armed]
      exact .kept
    · rw [ownSetMeter_ok other members (Bool.eq_false_iff.2 armed), handStateChange_meter]
      exact .restart _ members
  · obtain ⟨fifty, sixty⟩ := not_or.1 members
    rw [ownSetMeter_prohibited other (Bool.eq_false_iff.2 fifty) (Bool.eq_false_iff.2 sixty)]
    exact .kept

end

section
variable {c : Instr} {s t : State}

theorem request_meterStep {p : Port} {r : Request} (row : requestRow c = some (p, r)) (h : exec c s = .next t) :
    MeterStep s.meter t.meter := by
  rw [exec_request s row] at h
  cases h
  rcases serve_cases s p r (ownOf p r) with eq | ⟨u, code, -, -, eq⟩ | ⟨u, -, -, eq⟩ <;> rw [eq]
  · exact .kept
  · simpa using .kept
  · rw [respond_meter, ← dequeue_meter s p]
    by_cases meter : ∃ x, r = .setMeter x
    · obtain ⟨x, rfl⟩ := meter
      exact ownSetMeter_meterStep _ x
    · rw [ownOf_meter _ p (not_exists.1 meter)]
      exact .kept

/-! ### Events -/

theorem gsenseRisingEdge_meterStep {edge : GsenseEdge} (h : exec (.gsenseRisingEdge edge) s = .next t) :
    MeterStep s.meter t.meter := by
  rcases gsenseRisingEdge_cases s edge with eq | eq | ⟨e, accepted, eq⟩ <;> rw [eq] at h <;> cases h
  · exact .kept
  · exact .edge _
  · by_cases three : (pushEstimate s.meter.estimates e).length = 3
    · obtain ⟨a, b, c, form⟩ := List.length_eq_three.1 three
      rw [acceptEstimate_of_three (s.atEdge edge.instant) form, takeReading_meter, joinEstimate_meter]
      exact .reading _ e _ accepted three
    · rw [acceptEstimate_of_few (s.atEdge edge.instant) three, joinEstimate_meter]
      exact .estimate _ e accepted three

theorem deviceReset_meterStep {f : Bool} {l : ResetLevels} (h : exec (.deviceReset f l) s = .next t) :
    MeterStep s.meter t.meter := by
  have after : t.meter = (State.afterReset s.member false l.lrate l.gsense).meter := by
    cases h
    split
    · exact assertFreeze_meter _
    · rfl
  rw [after]
  exact .reset _

theorem lossTimerExpiry_of_stopped (stopped : s.meter.lossTimer = false) : exec .lossTimerExpiry s = .next s := by
  simp [exec, execLossTimerExpiry, stopped]

theorem lossTimerExpiry_of_running (running : s.meter.lossTimer = true) : exec .lossTimerExpiry s =
    .next ({ s with meter := s.meter.toNoSignal }.handStateChange s.meter.state true) := by
  simp [exec, execLossTimerExpiry, running]

theorem lossTimerExpiry_meterStep (h : exec .lossTimerExpiry s = .next t) : MeterStep s.meter t.meter := by
  by_cases running : s.meter.lossTimer = true
  · rw [lossTimerExpiry_of_running running] at h
    cases h
    rw [handStateChange_meter]
    exact .lost
  · rw [lossTimerExpiry_of_stopped (Bool.eq_false_iff.2 running)] at h
    cases h
    exact .kept

theorem event_meterStep (row : requestRow c = none) (h : exec c s = .next t) : MeterStep s.meter t.meter := by
  have kept (same : t.meter = s.meter) : MeterStep s.meter t.meter := same ▸ .kept
  cases c with
  | deviceReset f l => exact deviceReset_meterStep h
  | gsenseRisingEdge edge => exact gsenseRisingEdge_meterStep h
  | lossTimerExpiry => exact lossTimerExpiry_meterStep h
  | tenthElapsed | passTimerExpiry | rampTimerExpiry | freshnessExpiry a | freezeAssertion | freezeDeassertion
  | holdExpiry slot product | shortfallEvaluation | holdTimerExpiry | refreshTimerExpiry | injectionEnd
  | closingTimerExpiry kind | dispatchBlock | poll | pollSent | replyWindowExpiry | rateCheckFailed span | replyParityError
  | pollEndOnQuiet | replyGap | report characters | blockComplete | collision | backoffExpiry
  | telegramComplete p front request check | overrunResponse p | responseTransmitted p | framingError character
  | lengthOutOfRange p length | gap p | linkBreak p | breakEnd p | telegramLead character | replyStart =>
    cases h
    refine kept ?_
    repeat' split
    all_goals simp [State.raiseFreeze, State.failedPoll, State.endRound, State.setPhase]
  | _ => nomatch row

/-- Everything a command can do to the meter. -/
theorem exec_meterStep (h : exec c s = .next t) : MeterStep s.meter t.meter := by
  cases row : requestRow c with
  | some pr => exact request_meterStep row h
  | none => exact event_meterStep row h

end

end Sys2Proof.Machine
end

