-- ==== Sys2Proof/Proofs/MeterLaws.lean ====
section
/-! PROOFS. The laws of the meter's items (R94) through everything a command can do to the meter. -/

namespace Sys2Proof.Machine

open Sys2Proof.Safety

/-! ### The laws -/

/-- The run counts and the nominal belong to the state of the meter (R94, R101, R102). -/
structure Meter.CountsAgree (m : Meter) : Prop where
  nominal : m.nominal.isSome = true ↔ m.state = .locked
  lockRun : m.lockRun < 8
  unlockRun : m.unlockRun < 8
  candidate : m.lockRun ≠ 0 ↔ m.lockCandidate.isSome = true
  searches : m.lockRun ≠ 0 → m.state = .searching
  watches : m.unlockRun ≠ 0 → m.state = .locked

/-- The loss timer, the estimates and the reading belong to each other, and the candidate set has a member (R94, R98 to R100,
R104). -/
structure Meter.EstimatesAgree (m : Meter) : Prop where
  lossTimer : m.lossTimer = true ↔ m.state ≠ .noSignal
  atMostThree : m.estimates.length ≤ 3
  accepted : ∀ e ∈ m.estimates, plausible e = true
  reading : m.reading.isSome = true ↔ m.estimates.length = 3
  noSignal : m.state = .noSignal → m.estimates = []
  members : m.candidates.fifty = true ∨ m.candidates.sixty = true

/-- The items of the meter agree with each other (R94). -/
structure Meter.Agrees (m : Meter) : Prop where
  counts : m.CountsAgree
  estimates : m.EstimatesAgree

theorem meterLaw_iff (s : State) : MeterLaw s ↔ s.meter.Agrees := by
  constructor
  · rintro ⟨nominal, timer, lockRun, unlockRun, candidate, searches, watches, few, accepted, reading, noSignal, members⟩
    exact ⟨⟨nominal, lockRun, unlockRun, candidate, searches, watches⟩,
      ⟨timer, few, accepted, reading, noSignal, members⟩⟩
  · rintro ⟨counts, estimates⟩
    exact ⟨counts.nominal, estimates.lossTimer, counts.lockRun, counts.unlockRun, counts.candidate, counts.searches,
      counts.watches, estimates.atMostThree, estimates.accepted, estimates.reading, estimates.noSignal, estimates.members⟩

section
variable {m : Meter}

/-! ### The count of a reading (R101, R102) -/

theorem search_countsAgree (h : m.CountsAgree) (state : m.state = .searching) (x : Nat) : (m.search x).CountsAgree := by
  cases band : m.candidates.bandOf x with
  | none =>
    rw [search_outside band]
    exact ⟨h.nominal, Nat.zero_lt_succ 7, h.unlockRun, by simp, by simp, h.watches⟩
  | some k =>
    by_cases run : (if m.lockCandidate = some k then m.lockRun + 1 else 1) < 8
    · rw [search_runs band run]
      exact ⟨h.nominal, run, h.unlockRun, by simp; split <;> omega, fun _ => state, h.watches⟩
    · rw [search_locks band (Nat.le_of_not_lt run)]
      exact ⟨by simp, Nat.zero_lt_succ 7, Nat.zero_lt_succ 7, by simp, by simp, by simp⟩

theorem unlocked_countsAgree (m : Meter) : m.unlocked.CountsAgree := by constructor <;> simp [Meter.unlocked]

theorem watch_countsAgree (h : m.CountsAgree) (state : m.state = .locked) (x : Nat) : (m.watch x).CountsAgree := by
  obtain ⟨f, nominal⟩ := Option.isSome_iff_exists.1 (h.nominal.2 state)
  by_cases near : withinBand f x = true
  · rw [watch_inside nominal near]
    exact ⟨h.nominal, h.lockRun, Nat.zero_lt_succ 7, h.candidate, h.searches, by simp⟩
  · by_cases run : m.unlockRun + 1 < 8
    · rw [watch_outside nominal near run]
      exact ⟨h.nominal, h.lockRun, run, h.candidate, h.searches, fun _ => state⟩
    · rw [watch_unlocks nominal near (Nat.le_of_not_lt run)]
      exact search_countsAgree (unlocked_countsAgree m) rfl x

theorem count_countsAgree (h : m.CountsAgree) (x : Nat) : (m.count x).CountsAgree := by
  cases state : m.state with
  | noSignal => rwa [count_noSignal state]
  | searching => rw [count_searching state]; exact search_countsAgree h state x
  | locked => rw [count_locked state]; exact watch_countsAgree h state x

/-- The meter with other counts, nominal and state, and without a step into NO_SIGNAL or out of it. -/
def Meter.CountsMoved (m m' : Meter) : Prop :=
  (∃ st f run k unlockRun, m' =
    { m with state := st, nominal := f, lockRun := run, lockCandidate := k, unlockRun := unlockRun }) ∧
  (m'.state = .noSignal ↔ m.state = .noSignal)

theorem search_countsMoved (signal : m.state ≠ .noSignal) (x : Nat) : m.CountsMoved (m.search x) := by
  cases band : m.candidates.bandOf x with
  | none =>
    rw [search_outside band]
    exact ⟨⟨_, _, _, _, _, rfl⟩, Iff.rfl⟩
  | some k =>
    by_cases run : (if m.lockCandidate = some k then m.lockRun + 1 else 1) < 8
    · rw [search_runs band run]
      exact ⟨⟨_, _, _, _, _, rfl⟩, Iff.rfl⟩
    · rw [search_locks band (Nat.le_of_not_lt run)]
      exact ⟨⟨_, _, _, _, _, rfl⟩, by simp [signal]⟩

theorem watch_countsMoved (signal : m.state ≠ .noSignal) (x : Nat) : m.CountsMoved (m.watch x) := by
  unfold Meter.watch
  split
  · exact ⟨⟨_, _, _, _, _, rfl⟩, Iff.rfl⟩
  split
  · exact ⟨⟨_, _, _, _, _, rfl⟩, Iff.rfl⟩
  · obtain ⟨⟨st, f, run, k, u, eq⟩, same⟩ := search_countsMoved (m := m.unlocked) nofun x
    exact ⟨⟨st, f, run, k, u, eq⟩, same.trans (by simp [Meter.unlocked, signal])⟩

theorem count_countsMoved (m : Meter) (x : Nat) : m.CountsMoved (m.count x) := by
  cases state : m.state with
  | noSignal => rw [count_noSignal state]; exact ⟨⟨_, _, _, _, _, rfl⟩, Iff.rfl⟩
  | searching => rw [count_searching state]; exact search_countsMoved (by simp [state]) x
  | locked => rw [count_locked state]; exact watch_countsMoved (by simp [state]) x

theorem Meter.EstimatesAgree.of_countsMoved {m' : Meter} (h : m.EstimatesAgree) (moved : m.CountsMoved m') :
    m'.EstimatesAgree := by
  obtain ⟨⟨st, f, run, k, u, rfl⟩, same⟩ := moved
  exact ⟨h.lossTimer.trans (not_congr same.symm), h.atMostThree, h.accepted, h.reading, fun none => h.noSignal (same.1 none),
    h.members⟩

theorem count_agrees (h : m.Agrees) (x : Nat) : (m.count x).Agrees :=
  ⟨count_countsAgree h.counts x, h.estimates.of_countsMoved (count_countsMoved m x)⟩

/-! ### An accepted estimate (R98) -/

theorem length_pushEstimate {es : List Nat} (few : es.length ≤ 3) (e : Nat) :
    (pushEstimate es e).length = min (es.length + 1) 3 := by
  unfold pushEstimate
  split <;> simp <;> omega

theorem mem_pushEstimate {es : List Nat} {e y : Nat} (mem : y ∈ pushEstimate es e) : y ∈ es ∨ y = e := by
  rcases List.mem_append.1 mem with old | new
  · split at old
    · exact .inl old
    · exact .inl (List.mem_of_mem_drop old)
  · exact .inr (List.mem_singleton.1 new)

/-- An accepted estimate moves the estimates and the loss timer, and ends NO_SIGNAL (R98). -/
theorem takeEstimate_cases (m : Meter) (e : Nat) :
    (m.state = .noSignal ∧ m.takeEstimate e = { m with
      estimates := pushEstimate m.estimates e, lossTimer := true, state := .searching, lockRun := 0
      lockCandidate := none }) ∨
    (m.state ≠ .noSignal ∧
      m.takeEstimate e = { m with estimates := pushEstimate m.estimates e, lossTimer := true }) := by
  by_cases state : m.state = .noSignal
  · exact .inl ⟨state, if_pos state⟩
  · exact .inr ⟨state, if_neg state⟩

theorem takeEstimate_countsAgree (h : m.CountsAgree) (e : Nat) : (m.takeEstimate e).CountsAgree := by
  rcases takeEstimate_cases m e with ⟨state, eq⟩ | ⟨-, eq⟩ <;> rw [eq]
  · have unlocked : ¬m.nominal.isSome = true := by simp [h.nominal, state]
    have watched : ¬m.unlockRun ≠ 0 := fun run => by simp [h.watches run] at state
    exact ⟨by simp [unlocked], Nat.zero_lt_succ 7, h.unlockRun, by simp, by simp, fun run => absurd run watched⟩
  · exact { h with }

theorem takeEstimate_estimatesAgree (h : m.EstimatesAgree) {e : Nat} (accepted : plausible e = true) {r? : Option Nat}
    (reading : r?.isSome = true ↔ (pushEstimate m.estimates e).length = 3) :
    ({ m.takeEstimate e with reading := r? } : Meter).EstimatesAgree := by
  have few : (pushEstimate m.estimates e).length ≤ 3 := by
    rw [length_pushEstimate h.atMostThree]
    exact Nat.min_le_right _ _
  have all : ∀ y ∈ pushEstimate m.estimates e, plausible y = true := fun y mem =>
    (mem_pushEstimate mem).elim (h.accepted y) fun new => new ▸ accepted
  rcases takeEstimate_cases m e with ⟨-, eq⟩ | ⟨state, eq⟩ <;> rw [eq]
  · exact ⟨by simp, few, all, reading, nofun, h.members⟩
  · exact ⟨by simp [state], few, all, reading, fun none => absurd none state, h.members⟩

/-- With fewer than three estimates a meter goes on without a reading (R98). -/
theorem takeEstimate_agrees (h : m.Agrees) {e : Nat} (accepted : plausible e = true)
    (few : (pushEstimate m.estimates e).length ≠ 3) : (m.takeEstimate e).Agrees := by
  have none : ¬m.reading.isSome = true := by
    rw [h.estimates.reading]
    intro three
    simp [length_pushEstimate, three] at few
  have agrees := takeEstimate_estimatesAgree h.estimates accepted (iff_of_false none few)
  refine ⟨takeEstimate_countsAgree h.counts e, ?_⟩
  rcases takeEstimate_cases m e with ⟨-, eq⟩ | ⟨-, eq⟩ <;> rw [eq] at agrees ⊢ <;> exact agrees

/-- The third estimate comes with a reading (R98, R99). -/
theorem takeEstimate_reading_agrees (h : m.Agrees) {e : Nat} (accepted : plausible e = true)
    (three : (pushEstimate m.estimates e).length = 3) (r : Nat) :
    ({ m.takeEstimate e with reading := some r } : Meter).Agrees := by
  exact ⟨{ takeEstimate_countsAgree h.counts e with },
    takeEstimate_estimatesAgree h.estimates accepted (iff_of_true rfl three)⟩

/-! ### Every step -/

theorem edge_agrees (h : m.Agrees) (x : Nat) : ({ m with periodStart := some x, gsense := true } : Meter).Agrees := by
  exact ⟨{ h.counts with }, { h.estimates with }⟩

theorem toNoSignal_agrees (h : m.Agrees) : m.toNoSignal.Agrees :=
  ⟨by constructor <;> simp [Meter.toNoSignal],
    ⟨by simp [Meter.toNoSignal], by simp [Meter.toNoSignal], nofun, by simp [Meter.toNoSignal], fun _ => rfl,
      h.estimates.members⟩⟩

theorem restart_agrees (m : Meter) {c : CandidateSet} (members : c.fifty = true ∨ c.sixty = true) : (m.restart c).Agrees :=
  ⟨by constructor <;> simp [Meter.restart],
    ⟨by simp [Meter.restart], by simp [Meter.restart], nofun, by simp [Meter.restart], fun _ => rfl, members⟩⟩

theorem reset_agrees (level : Bool) : ({ Meter.reset with gsense := level } : Meter).Agrees :=
  (meterLaw_iff _).1 (meterLaw_afterReset .ojl256 false 0 level)

theorem MeterStep.agrees {m' : Meter} (step : MeterStep m m') (h : m.Agrees) : m'.Agrees := by
  cases step with
  | kept => exact h
  | edge x => exact edge_agrees h x
  | estimate x e accepted few => exact takeEstimate_agrees (edge_agrees h x) accepted few
  | reading x e r accepted three => exact count_agrees (takeEstimate_reading_agrees (edge_agrees h x) accepted three r) r
  | lost => exact toNoSignal_agrees h
  | restart c members => exact restart_agrees m members
  | reset level => exact reset_agrees level

end

end Sys2Proof.Machine
end

