-- ==== Sys2Proof/Proofs/MeterObligations.lean ====
section
/-! PROOFS. The statements about the frequency meter (O36 to O39). -/

namespace Sys2Proof.Proofs

open Sys2Proof.Machine Sys2Proof.Safety

/-- Settles O39: the laws of the meter through everything a command can do to it. -/
theorem meterInvariant : Obligations.MeterInvariant :=
  fun _ s t law h => (meterLaw_iff t).2 ((exec_meterStep h).agrees ((meterLaw_iff s).1 law))

/-- Settles O37: the band of the statement is the one the candidate set counts for; a row each for the search, the watch, and
the watch whose eighth reading outside begins the search. -/
theorem readingCounts : Obligations.ReadingCounts := by
  intro m x near band
  have near_iff (f : Nat) : near f ↔ withinBand f x = true := (withinBand_iff f x).symm
  have band_iff (k : Candidate) : band k ↔ m.candidates.CountsFor x k := by
    cases k <;> exact and_congr Iff.rfl (near_iff _)
  have outside (fifty : ¬band .fifty) (sixty : ¬band .sixty) : m.candidates.bandOf x = none :=
    bandOf_eq_none (mt (band_iff _).2 fifty) (mt (band_iff _).2 sixty)
  have inside {k : Candidate} (h : band k) : m.candidates.bandOf x = some k := bandOf_eq_some ((band_iff k).1 h)
  refine ⟨count_noSignal, fun state => ?search, fun f state nominal => ?watch⟩
  case search =>
    rw [count_searching state]
    exact ⟨fun fifty sixty => search_outside (outside fifty sixty), fun k h =>
      ⟨search_runs (inside h), search_locks (inside h)⟩⟩
  case watch =>
    rw [count_locked state, near_iff]
    refine ⟨watch_inside nominal, watch_outside nominal, fun far run => ?_⟩
    rw [watch_unlocks nominal far run]
    exact ⟨fun fifty sixty => search_outside (outside fifty sixty), fun k h => search_begins (inside h) rfl⟩

/-- Settles O36: the edges by what R95 takes, an accepted estimate by the length of the list it joins, the reading event by the
state it carries and the mode of the generator. -/
theorem gsenseRisingEdge : Obligations.GsenseRisingEdge := by
  refine ⟨fun fall x s => ?edge, fun s x => ⟨takeReading_of_loss, takeReading_of_no_loss⟩, fun g x st f? => ?event⟩
  case edge =>
    intro i taken s1
    have takes : s.meter.takesEdge ⟨fall, x⟩ = true ↔ taken := takesEdge_iff s.meter fall x
    refine ⟨fun small => gsenseRisingEdge_none (.inl small),
      fun no => gsenseRisingEdge_none (.inr (Bool.eq_false_iff.2 (mt takes.1 no))),
      fun member edge first => gsenseRisingEdge_first member (takes.2 edge) first, fun y member edge start => ?_⟩
    intro n
    have accepts : plausible (estimateOf n) = true ↔ 153845 ≤ n ∧ n ≤ 222224 := plausible_estimateOf n
    refine ⟨fun out => gsenseRisingEdge_rejected member (takes.2 edge) start (mt accepts.1 (by omega)), fun low high => ?_⟩
    intro e es m s2
    have joined : s1.joinEstimate e = s2 := by
      by_cases state : s.meter.state = .noSignal
      · simp only [s2, m, if_pos state]
        exact joinEstimate_noSignal s1 e state
      · simp only [s2, m, if_neg state]
        exact joinEstimate_signal s1 e state
    have accepted : exec i s = .next (s1.acceptEstimate e) :=
      gsenseRisingEdge_accepted member (takes.2 edge) start (accepts.2 ⟨low, high⟩)
    rw [accepted, ← joined]
    refine ⟨fun lo mid hi perm below above => ?_, fun few => congrArg _ (acceptEstimate_of_few s1 few)⟩
    obtain ⟨a, b, c, three⟩ := List.length_eq_three.1 perm.length_eq
    rw [acceptEstimate_of_three s1 three, median_of_perm (three ▸ perm) below above]
  case event =>
    refine ⟨?_, fun live unlocked hold => ?_, fun live unlocked hold => ?_, fun test => readingEvent_test test x st f?⟩
    · rintro f live rfl rfl
      exact readingEvent_locked_live live x f
    · rw [readingEvent_unlocked x (.inl unlocked), unlockedEvent_zero (by exact live) (by exact hold), recompute_zero]
    · rw [readingEvent_unlocked x (.inl unlocked), unlockedEvent_stands (.inr (by exact hold))]
      rfl

/-- Settles O38: both commands hand the state change on behind the loss of lock; then the loss of lock and the state change at
the generator, case by case. -/
theorem lossTimerAndSetMeter : Obligations.LossTimerAndSetMeter := by
  refine ⟨fun s => ?commands, fun s => ?_, fun g => ⟨loseLock_test, loseLock_release, loseLock_holdLast⟩,
    fun g st drop _ => ⟨fun live hold => stateChange_zero live hold st drop, fun h => stateChange_stands h st drop⟩⟩
  case commands =>
    intro lost cleared
    have handed (m : Meter) (s0 : State) : State.handStateChange { s0 with meter := m } s.meter.state true = lost m s0 :=
      handStateChange_eq _ _ _
    refine ⟨lossTimerExpiry_of_stopped, fun running => ?_, fun p x t admitted => ?_⟩
    · rw [lossTimerExpiry_of_running running, handed]
      rfl
    · intro i d b
      have meter : d.meter = s.meter := dequeue_meter s p
      have body : ResponseBody.meterSet d.meter.state d.meter.candidates = b := by rw [meter]
      have refused {r : ResultCode} (h : ownSetMeter x d = ⟨d, r, .meterSet d.meter.state d.meter.candidates⟩) :
          Answers i s p t r b d := answers_of_admitted rfl admitted (body ▸ h)
      refine ⟨fun other => refused (ownSetMeter_badValue other),
        fun other fifty sixty => refused (ownSetMeter_prohibited other fifty sixty),
        fun other members armed => refused (ownSetMeter_notNow other members ((dequeue_gen s p).symm ▸ armed)),
        fun other members disarmed => answers_of_admitted rfl admitted ?_⟩
      refine (ownSetMeter_ok other members ((dequeue_gen s p).symm ▸ disarmed)).trans ?_
      rw [meter, handed]
      rfl
  · exact congrArg (fun j => { (s.raise .s .freqLost).moveGen s.gen.loseLock with journal := j }) (flagFreqLoss_eq _)

end Sys2Proof.Proofs
end

