-- ==== Sys2Proof/Proofs/GeneratorMoves.lean ====
section
/-! PROOFS. What can happen to the items of the response generator (R109 to R124): the moves of the generator, and each of its
operations as moves. -/

namespace Sys2Proof.Machine

/-! ### The moves -/

/-- A deviation a move may set: the one that stands, or one within the range of R112. -/
def Generator.MayDeviate (g : Generator) (delta : Int) : Prop := delta = g.delta ∨ delta.natAbs ≤ 2000

/-- One thing that can happen to the generator. -/
inductive GenMove (g : Generator) : Generator → Prop
  /-- A load of the capacities (R109, R120). -/
  | loaded (m : Member) (a : Awards) : GenMove g (g.load m a)
  /-- SET_FL_PARAMS while DISARMED (R110). -/
  | flParams (deadband fullDev : Nat) (mode : LossMode) (limit : Nat) (ranges : flParamsInRange deadband fullDev limit = true)
      (disarmed : g.armed = false) :
      GenMove g { g with deadband := deadband, fullDev := fullDev, lossMode := mode, holdLimit := limit }
  /-- SET_SL_PARAMS (R119). -/
  | slParams (ramp timeout : Nat) (ranges : slParamsInRange ramp timeout = true) :
      GenMove g { g with ramp := ramp, refreshTimeout := timeout }
  /-- ARM_FL (R111). -/
  | armed (delta : Int) (range : g.MayDeviate delta) : GenMove g { g with armed := true, delta := delta }.recompute
  /-- DISARM_FL (R111, R115). -/
  | disarmed : GenMove g { g with armed := false, lossHold := none }.recompute
  /-- The meter, or the end of a loss hold, sets the deviation or leaves it, and ends a loss hold or leaves it (R112, R115). -/
  | deviated (last : LastReading) (delta : Int) (hold : Option LossHold) (range : g.MayDeviate delta)
      (ends : hold = g.lossHold ∨ hold = none) :
      GenMove g { g with last := last, delta := delta, lossHold := hold }.recompute
  /-- A loss of lock begins a loss hold (R114). -/
  | held (hold : LossHold) (live : g.test = .live) (armed : g.armed = true) : GenMove g { g with lossHold := some hold }
  /-- SET_POINT (R116). -/
  | setPoint (w : Int) : GenMove g
      { g with slRequested := w, slApplied := g.appliedOf w, refreshTimer := some g.refreshTimeout }
  /-- The refresh timer expires (R118). -/
  | signalLost : GenMove g { g with slRequested := 0, slApplied := 0, refreshTimer := none }
  /-- The ramp timer expires (R117). -/
  | ramped : GenMove g { g with slEffective := g.rampStep }
  /-- ENTER_TEST (R122). -/
  | testEntered (m : Member) (a : Awards) (up down : Nat) (upRange : testCapacityInRange up = true)
      (downRange : testCapacityInRange down = true) : GenMove g (g.enterTest m a up down)
  /-- A test ends (R124). -/
  | testLeft (m : Member) (a : Awards) : GenMove g (g.leaveTest m a)
  /-- INJECT in TEST, or the end of an injection (R123). -/
  | injected (injection : Option Injection) (delta : Int) (range : delta.natAbs ≤ 2000)
      (test : injection.isSome = true → g.test = .test) :
      GenMove g { g with injection := injection, delta := delta }.recompute
  /-- A device reset (R3, R108). -/
  | reset : GenMove g Generator.reset

/-- What a command can do to the generator: some moves, one after the other. -/
abbrev GenMoves : Generator → Generator → Prop := Relation.ReflTransGen GenMove

theorem GenMoves.of_eq {g g' : Generator} (same : g' = g) : GenMoves g g' := same ▸ .refl

/-! ### The range of a deviation (R112) -/

theorem natAbs_deviation_le (f x : Nat) : (deviation f x).natAbs ≤ 2000 := by
  simp only [deviation, limit, Config.maxDelta]
  omega

theorem LastReading.natAbs_deviation_le (l : LastReading) : l.deviation.natAbs ≤ 2000 := by
  unfold LastReading.deviation
  split
  · exact Machine.natAbs_deviation_le _ _
  · exact Nat.zero_le _

/-! ### The operations of the generator -/

section
variable (g : Generator)

theorem arm_genMove : GenMove g g.arm := by
  refine .armed _ ?_
  split
  · exact .inr g.last.natAbs_deviation_le
  · exact .inl rfl

theorem disarm_genMove : GenMove g g.disarm := .disarmed

theorem holdEnded_genMove : GenMove g { g with delta := 0, lossHold := none }.recompute :=
  .deviated g.last 0 none (.inr (Nat.zero_le _)) (.inr rfl)

theorem injectionEnded_genMove : GenMove g { g with injection := none, delta := 0 }.recompute :=
  .injected none 0 (Nat.zero_le _) nofun

theorem injectInRange_iff (delta : Int) (duration : Nat) :
    injectInRange delta duration = true ↔ -2000 ≤ delta ∧ delta ≤ 2000 ∧ 1 ≤ duration ∧ duration ≤ 600 := by
  simp only [injectInRange, Bool.and_eq_true, decide_eq_true_eq, and_assoc]
  rfl

theorem inject_genMove {delta : Int} {duration : Nat} (range : injectInRange delta duration = true)
    (test : g.test = .test) : GenMove g (g.inject delta duration) := by
  refine .injected (some ⟨delta, duration⟩) delta ?_ fun _ => test
  have within := (injectInRange_iff delta duration).1 range
  omega

/-- With no deviation and the last reading stored, the meter leaves no target (R112, R113). -/
theorem zeroed_genMove (last : LastReading) : GenMove g { g with last := last, delta := 0 }.recompute :=
  .deviated last 0 g.lossHold (.inr (Nat.zero_le _)) (.inl rfl)

/-- The last reading alone is stored (R112). -/
theorem stored_genMove (last : LastReading) : GenMove g { g with last := last }.recompute :=
  .deviated last g.delta g.lossHold (.inl rfl) (.inl rfl)

theorem loseLock_genMoves : GenMoves g g.loseLock := by
  unfold Generator.loseLock
  split
  · exact .refl
  next live =>
  split
  · next h => exact .single (.held _ live h.1)
  · exact .single (zeroed_genMove g g.last)

/-- The meter's state without a lock, stored behind the last reading (R112). -/
theorem unlockedEvent_genMove (last : LastReading) : GenMove g ({ g with last := last }.unlockedEvent).recompute := by
  unfold Generator.unlockedEvent
  split
  · exact zeroed_genMove g last
  · exact stored_genMove g last

theorem stateChange_genMove (st : MeterState) (drop : Bool) : GenMove g (g.stateChange st drop) :=
  unlockedEvent_genMove g _

theorem readingEvent_genMove (x : Nat) (st : MeterState) (f? : Option Nat) : GenMove g (g.readingEvent x st f?) := by
  unfold Generator.readingEvent
  split
  · next f =>
    dsimp only [Generator.lockedReading]
    split
    · exact .deviated _ _ none (.inr (natAbs_deviation_le f x)) (.inr rfl)
    · exact stored_genMove g _
  · exact unlockedEvent_genMove g _

end

end Sys2Proof.Machine
end

