-- ==== Sys2Proof/Proofs/GeneratorSteps.lean ====
section
/-! PROOFS. Every command, as moves of the generator: the clock, the meter, the generator's own requests and timers, and a
reset move it, and no other (R3, R108 to R124). -/

namespace Sys2Proof.Machine

open Sys2Proof.Safety

/-! ### Operations of the state -/

section
variable (s : State)

theorem loadCapacities_genMoves : GenMoves s.gen s.loadCapacities.gen := by
  rw [State.loadCapacities, moveGen_gen]
  exact .single (.loaded _ _)

theorem endTest_genMoves : GenMoves s.gen s.endTest.gen := by
  rw [State.endTest, moveTest_gen]
  exact .single (.testLeft _ _)

theorem genBoundary_genMoves : GenMoves s.gen s.genBoundary.gen := by
  unfold State.genBoundary
  split
  · rw [raise_gen]
    exact endTest_genMoves s
  · exact loadCapacities_genMoves s

theorem boundary_genMoves (old : Nat) (reset : Bool) : GenMoves s.gen (s.boundary old reset).gen := by
  unfold State.boundary
  split
  · exact .refl
  next c current =>
  exact bookBoundary_gen s old c reset ▸ genBoundary_genMoves (s.bookBoundary old c reset)

theorem stepBack_genMoves : GenMoves s.gen s.stepBack.gen := by
  unfold State.stepBack
  split
  · exact .refl
  next c current =>
  exact bookStepBack_gen s c ▸ loadCapacities_genMoves (s.bookStepBack c)

theorem moveClock_genMoves (v u : Time) (reset : Bool) : GenMoves s.gen (s.moveClock v u reset).gen := by
  simp only [State.moveClock]
  split
  · exact .refl
  split
  · exact boundary_genMoves { s with now := some u } v.slot reset
  · exact stepBack_genMoves { s with now := some u }

@[simp] theorem loseLock_gen : s.loseLock.gen = s.gen.loseLock := moveGen_gen _ _

theorem handStateChange_genMoves (was : MeterState) (drop : Bool) : GenMoves s.gen (s.handStateChange was drop).gen := by
  simp only [State.handStateChange, moveGen_gen]
  split
  · exact loseLock_gen s ▸ (loseLock_genMoves s.gen).tail (stateChange_genMove _ _ _)
  · exact .single (stateChange_genMove _ _ _)

theorem takeReading_genMoves (x : Nat) : GenMoves s.gen (s.takeReading x).gen := by
  simp only [State.takeReading, State.handReading, moveGen_gen]
  split
  · rw [loseLock_gen]
    exact (loseLock_genMoves s.gen).tail (readingEvent_genMove _ _ _ _)
  · exact .single (readingEvent_genMove _ _ _ _)

theorem joinEstimate_genMoves (e : Nat) : GenMoves s.gen (s.joinEstimate e).gen := by
  by_cases state : s.meter.state = .noSignal
  · rw [joinEstimate_noSignal s e state, moveGen_gen]
    exact .single (stateChange_genMove _ _ _)
  · rw [joinEstimate_signal s e state]

theorem acceptEstimate_genMoves (e : Nat) : GenMoves s.gen (s.acceptEstimate e).gen := by
  rw [acceptEstimate_eq]
  split
  · exact (joinEstimate_genMoves s e).trans (takeReading_genMoves _ _)
  · exact joinEstimate_genMoves s e

/-! ### Operations that leave the generator -/

@[simp] theorem endPoll_gen (a : Address) (o : PollOutcome) : (s.endPoll a o).gen = s.gen := endFrame_gen _

@[simp] theorem goodReport_gen (a : Address) (q : Report) : (s.goodReport a q).gen = s.gen := by
  simp only [State.goodReport]
  split
  · rfl
  · split <;> rfl

@[simp] theorem takeReply_gen (a : Address) (bytes : List Byte) : (s.takeReply a bytes).gen = s.gen := by
  rcases takeReply_cases s a bytes with ⟨-, eq⟩ | ⟨-, eq⟩ <;> simp [eq]

@[simp] theorem beginPoll_gen (a : Address) : (s.beginPoll a).gen = s.gen := by
  simp only [State.beginPoll]
  split <;> rfl

@[simp] theorem assertFreeze_gen : s.assertFreeze.gen = s.gen := by simp [State.assertFreeze, State.raiseFreeze]

/-! ### Requests -/

/-- The requests that move the generator: the clock's, the meter's and the generator's own (R9, R104, R110 to R124). -/
def movesGenerator : Request → Bool
  | .setTime .. | .setMeter .. | .setFlParams .. | .armFl | .disarmFl | .setPoint .. | .setSlParams .. | .enterTest ..
  | .inject .. | .leaveTest => true
  | _ => false

/-- Every other request leaves the generator. -/
theorem ownOf_gen (p : Port) {r : Request} (other : movesGenerator r = false) : (ownOf p r s).state.gen = s.gen := by
  cases r with
  | setTime | setMeter | setFlParams | armFl | disarmFl | setPoint | setSlParams | enterTest | inject | leaveTest =>
    nomatch other
  | hold | award | release =>
    simp only [ownOf, ownHold, State.holdAt, State.grant, ownAward, ownRelease, State.settleHold, refuse]
    repeat' split
    all_goals rfl
  | setLinkMode | status =>
    simp only [ownOf, ownSetLinkMode, ownStatus, refuse]
    repeat' split
    all_goals simp
  | _ =>
    simp only [ownOf, refuse, ownEnroll, ownAmend, ownRemove, ownReadSite, ownSetItems, ownDefineWindow, ownClearWindow,
      ownSetBranch, ownSetDefaultClass, editWith, ownSuspend, ownResume, State.putInForce, ownQueryClass, ownReadWindows,
      ownSetOfferParams, ownOfferQuery, ownReadBook, ownReadMeter, ownReadBranchLoad, ownReadResponse, ownReadJournal,
      ownReleaseJournal, ownBusEnable, ownBusDisable, ownBusConfig, ownBusRestore, busAnswer, ownIdentify]
    repeat' split
    all_goals simp

theorem ownSetTime_genMoves (day : BitVec 16) (tenths : Nat) : GenMoves s.gen (ownSetTime day tenths s).state.gen := by
  simp only [ownSetTime, refuse]
  split
  · exact .refl
  split
  · exact loadCapacities_genMoves { s with now := some ⟨day.toNat, tenths⟩ }
  split
  · exact moveClock_genMoves s _ _ false
  split
  · exact moveClock_genMoves s _ _ true
  · exact .refl

theorem ownSetMeter_genMoves (x : CandidatesArg) : GenMoves s.gen (ownSetMeter x s).state.gen := by
  simp only [ownSetMeter, refuse]
  repeat' split
  · exact .refl
  · exact .refl
  · exact .refl
  · exact handStateChange_genMoves { s with meter := s.meter.restart ⟨x.fifty, x.sixty⟩ } s.meter.state true

theorem ownSetFlParams_genMoves (deadband fullDev : Nat) (mode : Option LossMode) (limit : Nat) :
    GenMoves s.gen (ownSetFlParams deadband fullDev mode limit s).state.gen := by
  unfold ownSetFlParams
  split
  · exact .refl
  next mode =>
  split
  · exact .refl
  next ranges =>
  split
  · exact .refl
  next disarmed =>
  exact .single (.flParams _ _ mode _ (by simpa using ranges) (Bool.eq_false_iff.2 disarmed))

theorem ownSetSlParams_genMoves (ramp timeout : Nat) : GenMoves s.gen (ownSetSlParams ramp timeout s).state.gen := by
  unfold ownSetSlParams
  split
  · next ranges => exact .single (.slParams _ _ ranges)
  · exact .refl

theorem ownArmFl_genMoves : GenMoves s.gen (ownArmFl s).state.gen := by
  simp only [ownArmFl, armAnswer]
  split
  · exact .refl
  · exact moveGen_gen s _ ▸ .single (arm_genMove s.gen)

theorem ownDisarmFl_genMoves : GenMoves s.gen (ownDisarmFl s).state.gen := by
  simp only [ownDisarmFl, armAnswer]
  split
  · exact moveGen_gen s _ ▸ .single (disarm_genMove s.gen)
  · exact .refl

theorem ownEnterTest_genMoves (up down : Nat) : GenMoves s.gen (ownEnterTest up down s).state.gen := by
  unfold ownEnterTest
  split
  · exact .refl
  next ranges =>
  split
  · exact .refl
  split
  · exact .refl
  rw [moveTest_gen]
  have ranges : testCapacityInRange up = true ∧ testCapacityInRange down = true := by simpa using ranges
  exact .single (.testEntered _ _ _ _ ranges.1 ranges.2)

theorem ownInject_genMoves (delta : Int) (duration : Nat) : GenMoves s.gen (ownInject delta duration s).state.gen := by
  unfold ownInject
  split
  · exact .refl
  next range =>
  split
  · exact .refl
  next mode =>
  have test : s.gen.test = .test := by
    cases state : s.gen.test with
    | live => exact absurd state mode
    | test => rfl
  exact moveGen_gen s _ ▸ .single (inject_genMove s.gen (by simpa using range) test)

theorem ownLeaveTest_genMoves : GenMoves s.gen (ownLeaveTest s).state.gen := by
  unfold ownLeaveTest
  split
  · exact .refl
  · exact endTest_genMoves s

theorem ownOf_genMoves (p : Port) (r : Request) : GenMoves s.gen (ownOf p r s).state.gen := by
  cases r with
  | setTime day tenths => exact ownSetTime_genMoves s day tenths
  | setMeter x => exact ownSetMeter_genMoves s x
  | setFlParams deadband fullDev mode limit => exact ownSetFlParams_genMoves s deadband fullDev mode limit
  | armFl => exact ownArmFl_genMoves s
  | disarmFl => exact ownDisarmFl_genMoves s
  | setPoint w => exact .single (.setPoint w)
  | setSlParams ramp timeout => exact ownSetSlParams_genMoves s ramp timeout
  | enterTest up down => exact ownEnterTest_genMoves s up down
  | inject delta duration => exact ownInject_genMoves s delta duration
  | leaveTest => exact ownLeaveTest_genMoves s
  | _ => exact .of_eq (ownOf_gen s p rfl)

end

section
variable {c : Instr} {s t : State}

theorem request_genMoves {p : Port} {r : Request} (row : requestRow c = some (p, r)) (h : exec c s = .next t) :
    GenMoves s.gen t.gen := by
  rw [exec_request s row] at h
  cases h
  rcases serve_cases s p r (ownOf p r) with eq | ⟨u, code, -, -, eq⟩ | ⟨u, -, -, eq⟩ <;> rw [eq]
  · exact .of_eq (by simp)
  · rw [respond_gen, ← dequeue_gen s p]
    exact ownOf_genMoves _ p r

/-! ### Events -/

theorem tenthElapsed_genMoves (h : exec .tenthElapsed s = .next t) : GenMoves s.gen t.gen := by
  cases h
  split
  · exact .refl
  next v now =>
  dsimp only
  split
  · exact .refl
  · exact boundary_genMoves { s with now := some v.next } _ _

theorem gsenseRisingEdge_genMoves {edge : GsenseEdge} (h : exec (.gsenseRisingEdge edge) s = .next t) :
    GenMoves s.gen t.gen := by
  rcases gsenseRisingEdge_cases s edge with eq | eq | ⟨e, -, eq⟩ <;> rw [eq] at h <;> cases h
  · exact .refl
  · exact .refl
  · exact acceptEstimate_genMoves (s.atEdge edge.instant) e

theorem lossTimerExpiry_genMoves (h : exec .lossTimerExpiry s = .next t) : GenMoves s.gen t.gen := by
  cases h
  split
  · exact handStateChange_genMoves { s with meter := s.meter.toNoSignal } _ _
  · exact .refl

theorem deviceReset_genMoves {f : Bool} {l : ResetLevels} (h : exec (.deviceReset f l) s = .next t) :
    GenMoves s.gen t.gen := by
  have after : t.gen = Generator.reset := by
    cases h
    split
    · exact assertFreeze_gen _
    · rfl
  exact after ▸ .single .reset

/-- The timers of the generator (R115, R117, R118, R123). -/
theorem generatorTimer_genMoves (timer : c = .holdTimerExpiry ∨ c = .injectionEnd ∨ c = .refreshTimerExpiry ∨
    c = .rampTimerExpiry) (h : exec c s = .next t) : GenMoves s.gen t.gen := by
  rcases timer with rfl | rfl | rfl | rfl <;> cases h
  · split
    · exact .refl
    · exact moveGen_gen s _ ▸ .single (holdEnded_genMove s.gen)
  · split
    · exact .refl
    · exact moveGen_gen s _ ▸ .single (injectionEnded_genMove s.gen)
  · split
    · exact .refl
    · rw [raise_gen]
      exact .single .signalLost
  · exact moveGen_gen s _ ▸ .single .ramped

theorem event_genMoves (row : requestRow c = none) (h : exec c s = .next t) : GenMoves s.gen t.gen := by
  cases c with
  | deviceReset f l => exact deviceReset_genMoves h
  | tenthElapsed => exact tenthElapsed_genMoves h
  | gsenseRisingEdge edge => exact gsenseRisingEdge_genMoves h
  | lossTimerExpiry => exact lossTimerExpiry_genMoves h
  | holdTimerExpiry | injectionEnd | refreshTimerExpiry | rampTimerExpiry => exact generatorTimer_genMoves (by simp) h
  | passTimerExpiry | freshnessExpiry a | freezeAssertion | freezeDeassertion | holdExpiry slot product
  | shortfallEvaluation | closingTimerExpiry kind | dispatchBlock | poll | pollSent | replyWindowExpiry
  | rateCheckFailed span | replyParityError | pollEndOnQuiet | replyGap | report characters | blockComplete | collision
  | backoffExpiry | telegramComplete p front request check | overrunResponse p | responseTransmitted p
  | framingError character | lengthOutOfRange p length | gap p | linkBreak p | breakEnd p | telegramLead character
  | replyStart =>
    cases h
    refine .of_eq ?_
    repeat' split
    all_goals simp [State.raiseFreeze, State.failedPoll, State.endRound, State.setPhase]
  | _ => nomatch row

/-- Everything a command can do to the generator. -/
theorem exec_genMoves (h : exec c s = .next t) : GenMoves s.gen t.gen := by
  cases row : requestRow c with
  | some pr => exact request_genMoves row h
  | none => exact event_genMoves row h

end

end Sys2Proof.Machine
end

