-- ==== Sys2Proof/Proofs/TargetForm.lean ====
section
/-! PROOFS. The FL target (R113): its form, and that it stays the one its rule forms through every move of the generator. -/

namespace Sys2Proof.Machine

/-! ### Its form -/

section
variable {g : Generator}

theorem targetOf_disarmed (disarmed : g.armed = false) : g.targetOf = 0 := if_pos (.inl disarmed)

theorem targetOf_within (within : g.delta.natAbs ≤ g.deadband) : g.targetOf = 0 := if_pos (.inr within)

/-- The capacity a deviation draws on: `flUp` for a positive one, else `flDown` (R113). -/
def Generator.flCapacity (g : Generator) : Nat := if 0 < g.delta then g.flUp else g.flDown

/-- Beyond the deadband the target is the magnitude for the deviation's capacity, with the deviation's sign (R113). -/
theorem targetOf_beyond (armed : g.armed = true) (beyond : g.deadband < g.delta.natAbs) :
    g.targetOf = if 0 < g.delta then (g.flMagnitude g.flCapacity : Int) else -(g.flMagnitude g.flCapacity : Int) := by
  have formed : ¬(g.armed = false ∨ g.delta.natAbs ≤ g.deadband) := by simp [armed, beyond]
  rw [Generator.targetOf, if_neg formed, Generator.flCapacity]
  split <;> rfl

theorem targetOf_sign (armed : g.armed = true) (beyond : g.deadband < g.delta.natAbs) :
    (0 < g.delta → 0 ≤ g.targetOf) ∧ (g.delta < 0 → g.targetOf ≤ 0) := by
  rw [targetOf_beyond armed beyond]
  refine ⟨fun up => ?_, fun down => ?_⟩
  · rw [if_pos up]
    omega
  · rw [if_neg (by omega)]
    omega

theorem natAbs_targetOf (armed : g.armed = true) (beyond : g.deadband < g.delta.natAbs) :
    g.targetOf.natAbs = g.flMagnitude g.flCapacity := by
  rw [targetOf_beyond armed beyond]
  split <;> omega

end

/-- A proportional share `c * n / k`, at most `c` and rounded down to 10 W: below the capacity and the exact share, full from
`k` on, and less than 10 W below the exact share up to there. -/
theorem share_form (c n : Nat) {k : Nat} (pos : 0 < k) :
    let m := down10 (min c (c * n / k))
    m ≤ c ∧ m % 10 = 0 ∧ m * k ≤ c * n ∧ (k ≤ n → m = 10 * (c / 10)) ∧ (n ≤ k → c * n < (m + 10) * k) := by
  intro m
  have round (x : Nat) : down10 x ≤ x ∧ x < down10 x + 10 ∧ down10 x % 10 = 0 := by
    simp only [down10]
    omega
  obtain ⟨below, above, multiple⟩ := round (min c (c * n / k))
  refine ⟨below.trans (Nat.min_le_left _ _), multiple, ?_, fun full => ?_, fun part => ?_⟩
  · calc m * k ≤ c * n / k * k := Nat.mul_le_mul_right k (below.trans (Nat.min_le_right _ _))
      _ ≤ c * n := Nat.div_mul_le_self _ _
  · have most : c ≤ c * n / k := (Nat.le_div_iff_mul_le pos).2 (Nat.mul_le_mul_left c full)
    simp only [m, Nat.min_eq_left most, down10]
    omega
  · have least : c * n / k ≤ c := (Nat.div_le_iff_le_mul_add_pred pos).2 (by
      have := Nat.mul_le_mul_left c part
      rw [Nat.mul_comm k c]
      omega)
    have share : min c (c * n / k) = c * n / k := Nat.min_eq_right least
    exact (Nat.div_lt_iff_lt_mul pos).1 (share.symm.trans_lt above)

/-! ### It is the one its rule forms -/

/-- The FL target is the one its rule forms (R113). -/
def Generator.Formed (g : Generator) : Prop := g.flTarget = g.targetOf

theorem recompute_formed (g : Generator) : g.recompute.Formed := rfl

theorem GenMove.formed {g g' : Generator} (move : GenMove g g') (h : g.Formed) : g'.Formed := by
  cases move with
  | loaded | testEntered | testLeft | armed | disarmed | deviated | injected => exact recompute_formed _
  | held | slParams | setPoint | signalLost | ramped => exact h
  | flParams deadband fullDev mode limit ranges disarmed =>
    have zero : g.flTarget = 0 := h.trans (targetOf_disarmed disarmed)
    exact zero.trans (targetOf_disarmed (by exact disarmed)).symm
  | reset => rfl

theorem GenMoves.formed {g g' : Generator} (moves : GenMoves g g') (h : g.Formed) : g'.Formed := by
  induction moves with
  | refl => exact h
  | tail _ move ih => exact move.formed ih

end Sys2Proof.Machine
end

