-- ==== Sys2Proof/Proofs/GeneratorLaws.lean ====
section
/-! PROOFS. The laws of the generator's items (R108, R114 to R117, R120, R123) through every move of the generator. -/

namespace Sys2Proof.Machine

open Sys2Proof.Safety

/-! ### The laws -/

/-- The parameters, the deviation and the test capacities lie within their ranges (R108). -/
structure Generator.Ranged (g : Generator) : Prop where
  flParams : flParamsInRange g.deadband g.fullDev g.holdLimit = true
  slParams : slParamsInRange g.ramp g.refreshTimeout = true
  delta : g.delta.natAbs ≤ 2000
  testUp : testCapacityInRange g.testUp = true
  testDown : testCapacityInRange g.testDown = true

/-- A loss hold runs only ARMED in LIVE, an injection only in TEST (R114, R115, R123, R124). -/
structure Generator.HoldsPlaced (g : Generator) : Prop where
  hold : g.lossHold.isSome = true → g.armed = true ∧ g.test = .live
  injection : g.injection.isSome = true → g.test = .test

/-- A multiple of 10 W within the SL bounds (R116, R117). -/
def Generator.Bounds (g : Generator) (x : Int) : Prop := -(g.slDown : Int) ≤ x ∧ x ≤ g.slUp ∧ x % 10 = 0

/-- What the SL values are cut to and move by: the bounds, the ramp and the test capacities, multiples of 10 W (R109,
R119, R122). -/
structure Generator.Tens (g : Generator) : Prop where
  slUp : g.slUp % 10 = 0
  slDown : g.slDown % 10 = 0
  ramp : g.ramp % 10 = 0
  testUp : g.testUp % 10 = 0
  testDown : g.testDown % 10 = 0

/-- The SL values lie within the SL bounds, and every SL figure is a multiple of 10 W. -/
structure Generator.SlLawful (g : Generator) : Prop where
  applied : g.Bounds g.slApplied
  effective : g.Bounds g.slEffective
  tens : g.Tens

theorem generatorRanges_iff (s : State) : GeneratorRanges s ↔ s.gen.Ranged :=
  ⟨fun ⟨fl, sl, delta, up, down⟩ => ⟨fl, sl, delta, up, down⟩, fun h => ⟨h.flParams, h.slParams, h.delta, h.testUp, h.testDown⟩⟩

theorem holdLaw_iff (s : State) : HoldLaw s ↔ s.gen.HoldsPlaced :=
  ⟨fun ⟨hold, injection⟩ => ⟨hold, injection⟩, fun h => ⟨h.hold, h.injection⟩⟩

theorem slLaw_iff (s : State) : SlLaw s ↔ s.gen.SlLawful := by
  constructor
  · rintro ⟨aLow, aHigh, aTen, eLow, eHigh, eTen, up, down, ramp, testUp, testDown⟩
    exact ⟨⟨aLow, aHigh, aTen⟩, ⟨eLow, eHigh, eTen⟩, ⟨up, down, ramp, testUp, testDown⟩⟩
  · rintro ⟨⟨aLow, aHigh, aTen⟩, ⟨eLow, eHigh, eTen⟩, ⟨up, down, ramp, testUp, testDown⟩⟩
    exact ⟨aLow, aHigh, aTen, eLow, eHigh, eTen, up, down, ramp, testUp, testDown⟩

/-! ### Ranges (R108) -/

/-- A load of the capacities leaves every item but the capacities, the SL values and the target (R109, R120). -/
theorem load_eq (g : Generator) (m : Member) (a : Awards) : g.load m a =
    { g with
      flUp := (g.load m a).flUp, flDown := (g.load m a).flDown, slUp := (g.load m a).slUp, slDown := (g.load m a).slDown
      slApplied := (g.load m a).slApplied, slEffective := (g.load m a).slEffective
      flTarget := (g.load m a).flTarget } := by
  cases mode : g.test with
  | live => simp [Generator.load, Generator.reclamp, Generator.recompute, withCapacities_live mode, mode]
  | test => simp [Generator.load, Generator.reclamp, Generator.recompute, withCapacities_test mode, mode]

theorem Generator.Ranged.load {g : Generator} (h : g.Ranged) (m : Member) (a : Awards) : (g.load m a).Ranged := by
  rw [load_eq]
  exact { h with }

theorem Generator.Ranged.of_mayDeviate {g : Generator} (h : g.Ranged) {delta : Int} (range : g.MayDeviate delta) :
    delta.natAbs ≤ 2000 := range.elim (fun same => same ▸ h.delta) id

theorem reset_ranged : Generator.reset.Ranged := (generatorRanges_iff _).1 (generatorRanges_afterReset .ojl256 false 0 false)

theorem GenMove.ranged {g g' : Generator} (move : GenMove g g') (h : g.Ranged) : g'.Ranged := by
  cases move with
  | loaded m a => exact h.load m a
  | flParams deadband fullDev mode limit ranges disarmed => exact { h with flParams := ranges }
  | slParams ramp timeout ranges => exact { h with slParams := ranges }
  | armed delta range => exact { h with delta := h.of_mayDeviate range }
  | deviated last delta hold range ends => exact { h with delta := h.of_mayDeviate range }
  | disarmed | held | setPoint | signalLost | ramped => exact { h with }
  | testEntered m a up down upRange downRange =>
    refine .load ?_ m a
    exact { h with delta := Nat.zero_le _, testUp := upRange, testDown := downRange }
  | testLeft m a =>
    refine .load ?_ m a
    exact { h with delta := g.last.natAbs_deviation_le }
  | injected injection delta range test => exact { h with delta := range }
  | reset => exact reset_ranged

/-! ### Loss holds and injections (R114, R115, R123, R124) -/

theorem Generator.HoldsPlaced.load {g : Generator} (h : g.HoldsPlaced) (m : Member) (a : Awards) :
    (g.load m a).HoldsPlaced := by
  rw [load_eq]
  exact { h with }

theorem GenMove.holdsPlaced {g g' : Generator} (move : GenMove g g') (h : g.HoldsPlaced) : g'.HoldsPlaced := by
  cases move with
  | loaded m a => exact h.load m a
  | flParams | slParams | setPoint | signalLost | ramped => exact { h with }
  | armed delta range => exact { h with hold := fun hold => ⟨rfl, (h.hold hold).2⟩ }
  | disarmed => exact { h with hold := nofun }
  | deviated last delta hold range ends =>
    rcases ends with rfl | rfl
    · exact { h with }
    · exact { h with hold := nofun }
  | held hold live armed => exact { h with hold := fun _ => ⟨armed, live⟩ }
  | testEntered m a up down upRange downRange =>
    refine .load ?_ m a
    exact { hold := nofun, injection := fun _ => rfl }
  | testLeft m a =>
    refine .load ?_ m a
    exact { hold := nofun, injection := nofun }
  | injected injection delta range test => exact { h with injection := test }
  | reset => exact { hold := nofun, injection := nofun }

/-! ### SL values (R116, R117, R120) -/

theorem down10_mod_ten (x : Nat) : down10 x % 10 = 0 := Nat.mul_mod_left _ _

/-- Rounded toward zero: a multiple of 10 of the same sign, at most 9 smaller in magnitude. -/
theorem zero10_spec (x : Int) : (zero10 x).natAbs ≤ x.natAbs ∧ x.natAbs < (zero10 x).natAbs + 10 ∧ zero10 x % 10 = 0 ∧
    (0 ≤ x → 0 ≤ zero10 x) ∧ (x ≤ 0 → zero10 x ≤ 0) := by
  unfold zero10
  obtain ⟨n, rfl | rfl⟩ := x.eq_nat_or_neg
  · rw [Int.tdiv_eq_ediv_of_nonneg (Int.natCast_nonneg n)]
    omega
  · rw [Int.neg_tdiv, Int.tdiv_eq_ediv_of_nonneg (Int.natCast_nonneg n)]
    omega

section
variable {g : Generator}

theorem bounds_zero (g : Generator) : g.Bounds 0 := ⟨by omega, by omega, rfl⟩

/-- A value within the bounds rounds to one within the bounds (R116). -/
theorem bounds_zero10 {x : Int} (low : -(g.slDown : Int) ≤ x) (high : x ≤ g.slUp) : g.Bounds (zero10 x) := by
  obtain ⟨magnitude, -, ten, up, down⟩ := zero10_spec x
  rw [Generator.Bounds]
  omega

theorem bounded_range (g : Generator) (x : Int) : -(g.slDown : Int) ≤ g.bounded x ∧ g.bounded x ≤ g.slUp := by
  simp only [Generator.bounded, limit]
  omega

theorem bounds_appliedOf (g : Generator) (w : Int) : g.Bounds (g.appliedOf w) :=
  bounds_zero10 (bounded_range g w).1 (bounded_range g w).2

/-- A multiple of 10 W cut to bounds that are multiples of 10 W is one (R120). -/
theorem bounds_bounded (h : g.Tens) {x : Int} (ten : x % 10 = 0) : g.Bounds (g.bounded x) := by
  obtain ⟨low, high⟩ := bounded_range g x
  refine ⟨low, high, ?_⟩
  have up := h.slUp
  have down := h.slDown
  simp only [Generator.bounded, limit]
  omega

/-- A ramp step ends at the applied value, or on the way to it (R117). -/
theorem bounds_rampStep (h : g.SlLawful) : g.Bounds g.rampStep := by
  obtain ⟨⟨aLow, aHigh, aTen⟩, ⟨eLow, eHigh, eTen⟩, tens⟩ := h
  have ramp := tens.ramp
  unfold Generator.rampStep
  split
  · exact ⟨aLow, aHigh, aTen⟩
  split
  all_goals
    rw [Generator.Bounds]
    omega

theorem tens_withCapacities (h : g.Tens) (m : Member) (a : Awards) : (g.withCapacities m a).Tens := by
  cases mode : g.test with
  | live =>
    rw [withCapacities_live mode]
    exact { h with slUp := down10_mod_ten _, slDown := down10_mod_ten _ }
  | test =>
    rw [withCapacities_test mode]
    exact { h with slUp := h.testUp, slDown := h.testDown }

theorem slEffective_withCapacities (g : Generator) (m : Member) (a : Awards) :
    (g.withCapacities m a).slEffective = g.slEffective := by
  unfold Generator.withCapacities
  split <;> rfl

/-- A load forms the applied value afresh and cuts the effective one to the new bounds (R120). -/
theorem Generator.SlLawful.load (tens : g.Tens) (effective : g.slEffective % 10 = 0) (m : Member) (a : Awards) :
    (g.load m a).SlLawful := by
  have loaded := tens_withCapacities tens m a
  have cut := bounds_bounded loaded (slEffective_withCapacities g m a ▸ effective)
  exact ⟨bounds_appliedOf (g.withCapacities m a) _, cut, { loaded with }⟩

theorem slParamsInRange_ramp {ramp timeout : Nat} (h : slParamsInRange ramp timeout = true) : ramp % 10 = 0 := by
  simp only [slParamsInRange, Bool.and_eq_true, beq_iff_eq] at h
  exact h.1.1.2

theorem testCapacityInRange_ten {w : Nat} (h : testCapacityInRange w = true) : w % 10 = 0 := by
  simp only [testCapacityInRange, Bool.and_eq_true, beq_iff_eq] at h
  exact h.2

theorem reset_slLawful : Generator.reset.SlLawful := (slLaw_iff _).1 (slLaw_afterReset .ojl256 false 0 false)

theorem GenMove.slLawful {g' : Generator} (move : GenMove g g') (h : g.SlLawful) : g'.SlLawful := by
  have ten : g.slEffective % 10 = 0 := h.effective.2.2
  cases move with
  | loaded m a => exact .load h.tens ten m a
  | testEntered m a up down upRange downRange =>
    refine .load ?_ (by exact ten) m a
    exact { h.tens with
      testUp := testCapacityInRange_ten upRange, testDown := testCapacityInRange_ten downRange }
  | testLeft m a =>
    refine .load ?_ (by exact ten) m a
    exact { h.tens with }
  | slParams ramp timeout ranges => exact ⟨h.applied, h.effective, { h.tens with ramp := slParamsInRange_ramp ranges }⟩
  | setPoint w => exact ⟨bounds_appliedOf g w, h.effective, { h.tens with }⟩
  | signalLost => exact ⟨bounds_zero g, h.effective, { h.tens with }⟩
  | ramped => exact ⟨h.applied, bounds_rampStep h, { h.tens with }⟩
  | flParams | armed | disarmed | deviated | held | injected => exact ⟨h.applied, h.effective, { h.tens with }⟩
  | reset => exact reset_slLawful

end

/-! ### Every step -/

/-- The three laws of the generator's items. -/
structure Generator.Lawful (g : Generator) : Prop where
  ranged : g.Ranged
  placed : g.HoldsPlaced
  sl : g.SlLawful

theorem GenMove.lawful {g g' : Generator} (move : GenMove g g') (h : g.Lawful) : g'.Lawful :=
  ⟨move.ranged h.ranged, move.holdsPlaced h.placed, move.slLawful h.sl⟩

theorem GenMoves.lawful {g g' : Generator} (moves : GenMoves g g') (h : g.Lawful) : g'.Lawful := by
  induction moves with
  | refl => exact h
  | tail _ move ih => exact move.lawful ih

end Sys2Proof.Machine
end

