-- ==== Sys2Proof/Proofs/GeneratorInvariantObligations.lean ====
section
/-! PROOFS. The invariants of the response generator (O44, O45), from what every command can do to it. -/

namespace Sys2Proof.Proofs

open Sys2Proof.Machine Sys2Proof.Safety

/-- Settles O44: every move that touches what the target is formed from forms it afresh, or is made while DISARMED; its form is
that of a proportional share of the deviation's capacity. -/
theorem flTargetInvariant : Obligations.FlTargetInvariant := by
  refine ⟨fun c s t law h => (exec_genMoves h).formed law, fun g => ⟨targetOf_disarmed, targetOf_within, ?_⟩⟩
  intro armed beyond full c m
  obtain ⟨up, down⟩ := targetOf_sign armed beyond
  have magnitude : m = down10 (min c (c * (g.delta.natAbs - g.deadband) / (g.fullDev - g.deadband))) :=
    natAbs_targetOf armed beyond
  obtain ⟨capacity, ten, share, most, least⟩ := share_form c (g.delta.natAbs - g.deadband) (Nat.sub_pos_of_lt full)
  rw [← magnitude] at capacity ten share most least
  exact ⟨up, down, capacity, ten, share, fun far => most (Nat.sub_le_sub_right far _),
    fun near => least (Nat.sub_le_sub_right near _)⟩

/-- Settles O45: the laws of the generator's items through every move of the generator. -/
theorem generatorInvariant : Obligations.GeneratorInvariant := by
  intro c s t ranges holds sl h
  have before : s.gen.Lawful := ⟨(generatorRanges_iff s).1 ranges, (holdLaw_iff s).1 holds, (slLaw_iff s).1 sl⟩
  have after := (exec_genMoves h).lawful before
  exact ⟨(generatorRanges_iff t).2 after.ranged, (holdLaw_iff t).2 after.placed, (slLaw_iff t).2 after.sl⟩

end Sys2Proof.Proofs
end

