-- ==== Sys2Proof/Proofs/GeneratorRequests.lean ====
section
/-! PROOFS. The requests and the timers of the response generator: what it answers in each case (R111 to R118, R122 to R124),
and the test events at the journal (R166). -/

namespace Sys2Proof.Machine

open Sys2Proof.Safety

/-! ### Arming (R111, R112, R115) -/

section
variable {l : LastReading}

theorem LastReading.deviation_locked {f x : Nat} (state : l.state = some .locked) (nominal : l.nominal = some f)
    (reading : l.reading = some x) : l.deviation = max (-2000) (min 2000 ((f : Int) - x)) := by
  rw [LastReading.deviation, state, nominal, reading]
  rfl

/-- Without a lock, a nominal or a reading there is no deviation (R112). -/
theorem LastReading.deviation_zero (h : l.state ≠ some .locked ∨ l.nominal = none ∨ l.reading = none) :
    l.deviation = 0 := by
  unfold LastReading.deviation
  split
  · next state nominal reading => simp [state, nominal, reading] at h
  · rfl

end

section
variable {s : State}

theorem ownArmFl_armed (armed : s.gen.armed = true) : ownArmFl s = ⟨s, .ok, .arming true s.gen.flTarget⟩ := by
  simp [ownArmFl, armAnswer, armed]

theorem ownArmFl_disarmed (disarmed : s.gen.armed = false) :
    ownArmFl s = ⟨s.moveGen s.gen.arm, .ok, .arming true s.gen.arm.targetOf⟩ := by
  simp only [ownArmFl, armAnswer, disarmed, Bool.false_eq_true, if_false, moveGen_gen]
  rfl

theorem disarm_eq (g : Generator) : g.disarm = { g with armed := false, lossHold := none, flTarget := 0 } := by
  rw [Generator.disarm, Generator.recompute, targetOf_disarmed rfl]

theorem ownDisarmFl_disarmed (disarmed : s.gen.armed = false) :
    ownDisarmFl s = ⟨s, .ok, .arming false s.gen.flTarget⟩ := by
  simp [ownDisarmFl, armAnswer, disarmed]

theorem ownDisarmFl_armed (armed : s.gen.armed = true) :
    ownDisarmFl s = ⟨s.moveGen s.gen.disarm, .ok, .arming false 0⟩ := by
  simp [ownDisarmFl, armAnswer, armed, disarm_eq]

end

/-! ### Timers (R115, R117, R118, R123) -/

section
variable {s : State}

theorem holdTimerExpiry_stopped (stopped : s.gen.lossHold = none) : exec .holdTimerExpiry s = .next s := by
  simp only [exec, execHoldTimerExpiry, stopped]

theorem holdTimerExpiry_running (running : s.gen.lossHold ≠ none) : exec .holdTimerExpiry s =
    .next (s.moveGen { s.gen with delta := 0, lossHold := none, flTarget := 0 }) := by
  obtain ⟨hold, eq⟩ := Option.ne_none_iff_exists'.1 running
  simp only [exec, execHoldTimerExpiry, eq, Generator.recompute, targetOf_zero]

theorem injectionEnd_stopped (stopped : s.gen.injection = none) : exec .injectionEnd s = .next s := by
  simp only [exec, execInjectionEnd, stopped]

theorem injectionEnd_running (running : s.gen.injection ≠ none) : exec .injectionEnd s =
    .next (s.moveGen { s.gen with delta := 0, injection := none, flTarget := 0 }) := by
  obtain ⟨injection, eq⟩ := Option.ne_none_iff_exists'.1 running
  simp only [exec, execInjectionEnd, eq, Generator.recompute, targetOf_zero]

theorem refreshTimerExpiry_stopped (stopped : s.gen.refreshTimer = none) : exec .refreshTimerExpiry s = .next s := by
  simp only [exec, execRefreshTimerExpiry, stopped]

theorem refreshTimerExpiry_running (running : s.gen.refreshTimer ≠ none) : exec .refreshTimerExpiry s =
    .next ({ s with gen := { s.gen with slRequested := 0, slApplied := 0, refreshTimer := none } }.raise .s
      .signalLost) := by
  obtain ⟨timeout, eq⟩ := Option.ne_none_iff_exists'.1 running
  simp only [exec, execRefreshTimerExpiry, eq]

end

section
variable {g : Generator}

theorem rampStep_near (near : (g.slApplied - g.slEffective).natAbs ≤ g.ramp) : g.rampStep = g.slApplied := if_pos near

theorem rampStep_up (far : g.ramp < (g.slApplied - g.slEffective).natAbs) (up : g.slEffective < g.slApplied) :
    g.rampStep = g.slEffective + g.ramp := by
  rw [Generator.rampStep, if_neg (Nat.not_le.2 far), if_pos up]

theorem rampStep_down (far : g.ramp < (g.slApplied - g.slEffective).natAbs) (down : g.slApplied < g.slEffective) :
    g.rampStep = g.slEffective - g.ramp := by
  rw [Generator.rampStep, if_neg (Nat.not_le.2 far), if_neg (Int.not_lt.2 down.le)]

end

/-! ### SET_POINT (R116) -/

/-- Rounding toward zero gives the one multiple of 10 of the value's sign that lies less than 10 below it in magnitude. -/
theorem zero10_unique {x a : Int} (below : a.natAbs ≤ x.natAbs) (above : x.natAbs < a.natAbs + 10) (ten : a % 10 = 0)
    (sign : 0 ≤ a * x) : zero10 x = a := by
  obtain ⟨below', above', ten', up', down'⟩ := zero10_spec x
  rcases lt_trichotomy x 0 with neg | zero | pos
  · have down : a ≤ 0 := nonpos_of_mul_nonneg_left sign neg
    omega
  · omega
  · have up : 0 ≤ a := nonneg_of_mul_nonneg_left sign pos
    omega

/-! ### Test mode (R122 to R124) -/

theorem testCapacityInRange_iff (w : Nat) : testCapacityInRange w = true ↔ w ≤ 6400000 ∧ w % 10 = 0 := by
  simp only [testCapacityInRange, Bool.and_eq_true, decide_eq_true_eq, beq_iff_eq]
  rfl

section
variable {s : State}

@[simp] theorem currentAwards_dequeue (s : State) (p : Port) : (s.dequeue p).currentAwards = s.currentAwards := by
  simp [State.currentAwards, State.current]

section
variable {up down : Nat}

theorem ownEnterTest_badValue (out : ¬(testCapacityInRange up = true ∧ testCapacityInRange down = true)) :
    ownEnterTest up down s = ⟨s, .badValue, .empty⟩ :=
  if_pos (by rwa [Bool.not_eq_true', Bool.eq_false_iff, ne_eq, Bool.and_eq_true])

variable (ranges : testCapacityInRange up = true ∧ testCapacityInRange down = true)
include ranges

theorem ownEnterTest_notNow (h : s.gen.test = .test ∨ s.currentAwards.any = true) :
    ownEnterTest up down s = ⟨s, .notNow, .empty⟩ := by
  by_cases test : s.gen.test = .test
  · simp [ownEnterTest, ranges, test, refuse]
  · simp [ownEnterTest, ranges, test, h.resolve_left test, refuse]

theorem ownEnterTest_ok (live : s.gen.test = .live) (none : ¬s.currentAwards.any = true) : ownEnterTest up down s =
    ⟨s.moveTest (s.gen.enterTest s.member s.currentAwards up down) true, .ok, .testCapacities up down⟩ := by
  simp [ownEnterTest, ranges, live, none]

end

section
variable {delta : Int} {duration : Nat}

theorem ownInject_badValue (out : ¬injectInRange delta duration = true) :
    ownInject delta duration s = ⟨s, .badValue, .empty⟩ := if_pos (by simpa using out)

variable (range : injectInRange delta duration = true)
include range

theorem ownInject_notNow (live : s.gen.test = .live) : ownInject delta duration s = ⟨s, .notNow, .empty⟩ := by
  simp [ownInject, range, live, refuse]

theorem ownInject_ok (test : s.gen.test = .test) : ownInject delta duration s =
    ⟨s.moveGen (s.gen.inject delta duration), .ok, .injected delta (s.gen.inject delta duration).flTarget⟩ := by
  simp only [ownInject, range, test, Bool.not_true, Bool.false_eq_true, reduceCtorEq, if_false, moveGen_gen]
  rfl

end

theorem ownLeaveTest_notNow (live : s.gen.test = .live) : ownLeaveTest s = ⟨s, .notNow, .empty⟩ := if_pos live

theorem ownLeaveTest_ok (test : s.gen.test = .test) : ownLeaveTest s = ⟨s.endTest, .ok, .testState .live⟩ :=
  if_neg (by simp [test])

end

end Sys2Proof.Machine
end

