-- ==== Sys2Proof/Proofs/TestEvents.lean ====
section
/-! PROOFS. The test events at the journal (R166): every OPEN record closes, and the kinds whose figures are not 0 reopen. -/

namespace Sys2Proof.Machine

/-- A figure of 0 opens no record (R164). -/
theorem openRecord_zero (j : Journal) (k : Kind) (now : Option Time) : j.openRecord k 0 now = j := rfl

theorem openRecord_eq_ite (j : Journal) (k : Kind) (x : Int) (now : Option Time) :
    j.openRecord k x now = if x = 0 then j else j.openRecord k x now := by
  split
  · next zero => rw [zero, openRecord_zero]
  · rfl

/-- The journal of a test event before its kinds reopen: the figures stored, every OPEN record closed, the mark (R166). -/
def Journal.shut (j : Journal) (fl sl : Int) (now : Option Time) (mark : Bool) : Journal :=
  ⟨j.records.map fun e => if e.state = .isOpen then { e with state := .closed, finish := now, closingTimer := false } else e,
    j.counter, fl, sl, mark⟩

theorem closeAll_eq (j : Journal) (now : Option Time) (mark : Bool) :
    { j.closeAll now with testMark := mark } = j.shut j.fl j.sl now mark := by
  simp [Journal.closeAll, Journal.mapOpen, Episode.opened, Episode.close, Journal.shut]

theorem reopen_cases (j : Journal) (now : Option Time) (first : Bool) :
    j.reopen now first = (j.openRecord .fl j.fl now).openRecord .sl j.sl now ∨
      j.reopen now first = (j.openRecord .sl j.sl now).openRecord .fl j.fl now := by
  cases first
  · exact .inr rfl
  · exact .inl rfl

theorem anyOpen_iff (j : Journal) : (j.anyOpen fun _ => true) = true ↔ ∃ e ∈ j.records, e.state = .isOpen := by
  simp [Journal.anyOpen, Episode.opened]

/-- The state behind a test event, before EPISODE_CLOSED: the generator moved, the journal's kinds reopened (R166). -/
def State.tested (s : State) (g : Generator) (mark : Bool) : State :=
  { s with
    gen := g
    journal := (s.journal.shut g.flTarget g.slEffective s.now mark).reopen s.now (Config.reopenFlFirst s.freeIndex)
    freeIndex := s.freeIndex + 1 }

theorem moveTest_eq (s : State) (g : Generator) (mark : Bool) : s.moveTest g mark =
    (s.tested g mark).raiseIf (s.journal.anyOpen fun _ => true) .s .episodeClosed := by
  simp only [State.moveTest, State.testEvent, closeAll_eq]
  rfl

/-- EPISODE_CLOSED at S where a record was OPEN (R166). -/
theorem moveTest_open {s : State} (some : ∃ e ∈ s.journal.records, e.state = .isOpen) (g : Generator) (mark : Bool) :
    s.moveTest g mark = (s.tested g mark).raise .s .episodeClosed := by
  rw [moveTest_eq, (anyOpen_iff _).2 some]
  rfl

theorem moveTest_not_open {s : State} (none : ∀ e ∈ s.journal.records, e.state ≠ .isOpen) (g : Generator) (mark : Bool) :
    s.moveTest g mark = s.tested g mark := by
  have closed : ¬(s.journal.anyOpen fun _ => true) = true := by
    rw [anyOpen_iff]
    rintro ⟨e, mem, isOpen⟩
    exact none e mem isOpen
  rw [moveTest_eq, State.raiseIf, if_neg closed]

end Sys2Proof.Machine
end

