-- ==== Sys2Proof/Proofs/GeneratorRequestObligations.lean ====
section
/-! PROOFS. The statements about the requests and the timers of the response generator (O40 to O43). -/

namespace Sys2Proof.Proofs

open Sys2Proof.Machine Sys2Proof.Safety

/-- Settles O41: a timer that is stopped, and one that runs; a ramp step by the distance left and its direction. -/
theorem generatorTimers : Obligations.GeneratorTimers := by
  intro s g zero
  have ramp : exec .rampTimerExpiry s = .next (s.moveGen { g with slEffective := g.rampStep }) := rfl
  refine ⟨holdTimerExpiry_stopped, holdTimerExpiry_running, injectionEnd_stopped, injectionEnd_running,
    refreshTimerExpiry_stopped, refreshTimerExpiry_running, fun near => ?_, fun far up => ?_, fun far down => ?_⟩
  · rw [ramp, rampStep_near near]
  · rw [ramp, rampStep_up far up]
  · rw [ramp, rampStep_down far down]

/-- Settles O40: both requests in both states; the deviation an arming takes is that of the last reading. -/
theorem arming : Obligations.Arming := by
  intro p t s d g last armed
  have gen : d.gen = g := dequeue_gen s p
  have last_eq : g.last.deviation = last := by
    by_cases state : g.last.state = some .locked
    · simp only [last, if_pos state]
      split
      · next nominal reading => exact LastReading.deviation_locked state nominal reading
      · next absent =>
        refine LastReading.deviation_zero (.inr ?_)
        by_contra present
        obtain ⟨nominal, reading⟩ := not_or.1 present
        obtain ⟨f, nominal⟩ := Option.ne_none_iff_exists'.1 nominal
        obtain ⟨x, reading⟩ := Option.ne_none_iff_exists'.1 reading
        exact absent f x nominal reading
    · simp only [last, if_neg state]
      exact LastReading.deviation_zero (.inl state)
  have arm : g.arm = { armed with flTarget := armed.targetOf } := by
    rw [Generator.arm, last_eq]
    rfl
  refine ⟨fun admitted => ⟨fun on => ?_, fun off => ?_⟩, fun admitted => ⟨fun off => ?_, fun on => ?_⟩⟩ <;>
    refine answers_of_admitted rfl admitted ?_
  · exact gen ▸ ownArmFl_armed (gen.symm ▸ on)
  · refine (ownArmFl_disarmed (s := d) (gen.symm ▸ off)).trans ?_
    rw [gen, arm]
    rfl
  · exact gen ▸ ownDisarmFl_disarmed (gen.symm ▸ off)
  · refine (ownDisarmFl_armed (s := d) (gen.symm ▸ on)).trans ?_
    rw [gen, disarm_eq]

/-- Settles O42: the applied value is the one multiple of 10 W that rounding toward zero gives. -/
theorem setPoint : Obligations.SetPoint := by
  intro p w a t s admitted g limited below above ten sign
  have applied : g.appliedOf w = a := zero10_unique below above ten sign
  refine answers_of_admitted rfl admitted ?_
  simp only [ownOf, ownSetPoint, dequeue_gen, applied, g]

/-- Settles O43: each request by its checks in order; the test events by the order in which the kinds reopen, and by whether a
record was OPEN. -/
theorem testMode : Obligations.TestMode := by
  refine ⟨fun p t s => ?requests, fun s g mark => ?events⟩
  case requests =>
    intro d g a awarded
    have gen : d.gen = g := dequeue_gen s p
    have member : d.member = s.member := dequeue_member s p
    have awards : d.currentAwards = a := currentAwards_dequeue s p
    have awarded_iff : d.currentAwards.any = true ↔ awarded := awards ▸ awards_any_iff a
    refine ⟨fun up down admitted => ?enter, fun x n admitted => ?inject, fun admitted => ?leave⟩
    case enter =>
      intro i ok g'
      have ranges : testCapacityInRange up = true ∧ testCapacityInRange down = true ↔ ok := by
        rw [testCapacityInRange_iff, testCapacityInRange_iff, and_assoc]
      refine ⟨fun out => ?_, fun within busy => ?_, fun within live free => ?_⟩ <;>
        refine answers_of_admitted rfl admitted ?_
      · exact ownEnterTest_badValue (mt ranges.1 out)
      · exact ownEnterTest_notNow (ranges.2 within) (gen ▸ busy.imp_right awarded_iff.2)
      · have entered := ownEnterTest_ok (ranges.2 within) (gen ▸ live) (mt awarded_iff.1 free)
        rw [gen, member, awards] at entered
        exact entered
    case inject =>
      intro i ok g'
      have range : injectInRange x n = true ↔ ok := injectInRange_iff x n
      refine ⟨fun out => ?_, fun within live => ?_, fun within test => ?_⟩ <;>
        refine answers_of_admitted rfl admitted ?_
      · exact ownInject_badValue (mt range.1 out)
      · exact ownInject_notNow (range.2 within) (gen ▸ live)
      · have injected := ownInject_ok (range.2 within) (gen ▸ test)
        rw [gen] at injected
        exact injected
    case leave =>
      refine ⟨fun live => ?_, fun test => ?_⟩ <;> refine answers_of_admitted rfl admitted ?_
      · exact ownLeaveTest_notNow (gen ▸ live)
      · have left := ownLeaveTest_ok (gen ▸ test)
        rw [State.endTest, gen, member, awards] at left
        exact left
  case events =>
    intro shut reopened moved
    have reopened_eq (k : Kind) (x : Int) (j : Journal) : reopened k x j = j.openRecord k x s.now :=
      (openRecord_eq_ite j k x s.now).symm
    refine ⟨shut.reopen s.now (Config.reopenFlFirst s.freeIndex), ?_, fun some => moveTest_open some g mark,
      fun none => moveTest_not_open none g mark⟩
    simp only [reopened_eq]
    exact reopen_cases shut s.now _

end Sys2Proof.Proofs
end

