-- ==== Sys2Proof/Proofs/FigureChanges.lean ====
section
/-! PROOFS. A change of figure at the journal, row by row of the table of R164, and the opening of a record: its contents (R163,
R165) and what a full journal drops for it (R168). -/

namespace Sys2Proof.Machine

open Sys2Proof.Safety

/-! ### The OPEN record of a kind (R163) -/

theorem openOf_iff (k : Kind) (e : Episode) : e.openOf k = true ↔ e.state = .isOpen ∧ e.kind = k := by
  simp [Episode.openOf, Episode.opened]

/-- The one element that meets a test is the one a search finds. -/
theorem find?_eq_of_countP_le_one {α : Type} {p : α → Bool} {l : List α} {a : α} (one : l.countP p ≤ 1) (mem : a ∈ l)
    (meets : p a = true) : l.find? p = some a := by
  have found : a ∈ l.filter p := List.mem_filter.2 ⟨mem, meets⟩
  have single : (l.filter p).length = 1 :=
    Nat.le_antisymm (List.countP_eq_length_filter ▸ one) (List.length_pos_of_mem found)
  obtain ⟨b, only⟩ := List.length_eq_one_iff.1 single
  rw [only, List.mem_singleton] at found
  rw [← List.head?_filter, only, found]
  rfl

/-- At most one record of each kind is OPEN (R163). -/
theorem countP_openOf_le_one {s : State} (law : JournalLaw s) (k : Kind) :
    s.journal.records.countP (Episode.openOf k) ≤ 1 := by
  obtain ⟨-, fl, sl⟩ := law
  cases k
  · exact fl
  · exact sl

/-- A change of the OPEN record of a kind, with the kind's new figure stored (R164). -/
def Journal.changeOpen (j : Journal) (k : Kind) (x : Int) (f : Episode → Episode) : Journal :=
  { j.store k x with records := j.records.map fun e => if e.state = .isOpen ∧ e.kind = k then f e else e }

theorem mapOpen_store (j : Journal) (k : Kind) (x : Int) (f : Episode → Episode) :
    (j.store k x).mapOpen (fun e => e.kind == k) f = j.changeOpen k x f := by
  cases k <;> simp [Journal.mapOpen, Journal.changeOpen, Journal.store, Episode.opened]

/-- A figure other than 0 has a record's direction where both are up or neither is (R1). -/
theorem directionOf_eq_some_iff {x : Int} (figure : x ≠ 0) (d : Direction) :
    directionOf x = some d ↔ (d = .up ↔ 0 < x) := by
  rcases lt_or_gt_of_ne figure with neg | pos
  · cases d <;> simp [directionOf, neg, neg.le]
  · cases d <;> simp [directionOf, pos]

/-! ### The rows of the table (R164) -/

section
variable {s : State} {k : Kind} {x : Int}

theorem figureChange_not_open (none : ∀ e ∈ s.journal.records, ¬(e.state = .isOpen ∧ e.kind = k)) :
    s.figureChange k x = { s with journal := (s.journal.store k x).openRecord k x s.now } := by
  have absent : s.journal.records.find? (Episode.openOf k) = Option.none :=
    List.find?_eq_none.2 fun e mem => mt (openOf_iff k e).1 (none e mem)
  simp only [State.figureChange, Journal.change, absent]
  rfl

section
variable {e : Episode} (found : s.journal.records.find? (Episode.openOf k) = some e)
include found

/-- Figure 0 starts the closing timer. -/
theorem figureChange_zero : s.figureChange k 0 =
    { s with journal := s.journal.changeOpen k 0 fun e => { e with closingTimer := true } } := by
  simp only [State.figureChange, Journal.change, found, if_true, mapOpen_store]
  rfl

/-- The same sign stops the closing timer and raises the peak. -/
theorem figureChange_same (figure : x ≠ 0) (same : directionOf x = some e.direction) : s.figureChange k x =
    { s with journal := s.journal.changeOpen k x fun e =>
      { e with closingTimer := false, peakTarget := max e.peakTarget x.natAbs } } := by
  simp only [State.figureChange, Journal.change, found, if_neg figure, if_pos same, mapOpen_store]
  rfl

/-- The other sign closes the record with EPISODE_CLOSED and opens a new one. -/
theorem figureChange_reversed (figure : x ≠ 0) (reversed : directionOf x ≠ some e.direction) : s.figureChange k x =
    State.raise { s with journal := (s.journal.changeOpen k x (Episode.close s.now)).openRecord k x s.now } .s
      .episodeClosed := by
  simp only [State.figureChange, Journal.change, found, if_neg figure, if_neg reversed, mapOpen_store]
  rfl

end

end

/-! ### Room for a record (R168) -/

theorem makeRoom_of_room {rs : List Episode} (room : rs.length < 32) : makeRoom rs = (rs, false) := if_pos room

theorem makeRoom_of_full {rs : List Episode} (full : 32 ≤ rs.length) : makeRoom rs =
    if rs.any fun e => e.state == .read then (rs.eraseP fun e => e.state == .read, false)
    else (rs.eraseP fun e => e.state == .closed, rs.any fun e => e.state == .closed) := if_neg (Nat.not_lt.2 full)

section
variable {pre post : List Episode} {e : Episode}

/-- The first record in a state leaves the list without it. -/
theorem eraseP_state {state : EpisodeState} (first : ∀ y ∈ pre, y.state ≠ state) (this : e.state = state) :
    (pre ++ e :: post).eraseP (fun y => y.state == state) = pre ++ post := by
  rw [List.eraseP_append_right _ fun y mem => by simpa using first y mem, List.eraseP_cons_of_pos (by simpa using this)]

variable (full : 32 ≤ (pre ++ e :: post).length)
include full

/-- A full journal drops its oldest READ record. -/
theorem makeRoom_read (read : e.state = .read) (first : ∀ y ∈ pre, y.state ≠ .read) :
    makeRoom (pre ++ e :: post) = (pre ++ post, false) := by
  have any : ((pre ++ e :: post).any fun y => y.state == .read) = true :=
    List.any_eq_true.2 ⟨e, List.mem_append_right _ List.mem_cons_self, by simpa using read⟩
  rw [makeRoom_of_full full, if_pos any, eraseP_state first read]

/-- Without a READ record a full journal drops its oldest CLOSED one. -/
theorem makeRoom_closed (closed : e.state = .closed) (first : ∀ y ∈ pre, y.state ≠ .closed)
    (unread : ∀ y ∈ pre ++ e :: post, y.state ≠ .read) : makeRoom (pre ++ e :: post) = (pre ++ post, true) := by
  have none : ¬((pre ++ e :: post).any fun y => y.state == .read) = true := by
    rw [List.any_eq_true]
    rintro ⟨y, mem, read⟩
    exact unread y mem (by simpa using read)
  have any : ((pre ++ e :: post).any fun y => y.state == .closed) = true :=
    List.any_eq_true.2 ⟨e, List.mem_append_right _ List.mem_cons_self, by simpa using closed⟩
  rw [makeRoom_of_full full, if_neg none, eraseP_state first closed, any]

end

/-! ### A new record (R163, R165) -/

theorem kind_eq_other_iff (k k' : Kind) : k' = k.other ↔ k' ≠ k := by cases k <;> cases k' <;> decide

/-- An OPEN record of the other kind stands in the journal (R165). -/
theorem concurrent_iff (j : Journal) (k : Kind) : (j.anyOpen fun e => e.kind == k.other) = true ↔
    ∃ e ∈ j.records, e.state = .isOpen ∧ e.kind ≠ k := by
  simp [Journal.anyOpen, Episode.opened, kind_eq_other_iff]

/-- The records with CONCURRENT on the OPEN record of the other kind (R165). -/
def Journal.concurrently (j : Journal) (k : Kind) : List Episode := j.records.map fun e =>
  if e.state = .isOpen ∧ e.kind ≠ k then { e with flags := { e.flags with concurrent := true } } else e

/-- The record that opens for a figure (R163, R165, R168). -/
def Journal.opening (j : Journal) (k : Kind) (x : Int) (now : Option Time) (loss : Bool) : Episode :=
  ⟨nextSerial j.counter, k, if 0 < x then .up else .down, .isOpen, now, none, x.natAbs, 0, 0, 0, none,
    ⟨j.testMark, false, false, false, j.anyOpen fun e => e.kind == k.other, loss⟩, false⟩

/-- A figure other than 0 opens a record behind those that are kept. -/
theorem openRecord_of_ne {x : Int} (figure : x ≠ 0) (j : Journal) (k : Kind) (now : Option Time) :
    j.openRecord k x now = { j with
      counter := nextSerial j.counter
      records := (makeRoom (j.concurrently k)).1 ++ [j.opening k x now (makeRoom (j.concurrently k)).2] } := by
  have direction : directionOf x = some (if 0 < x then .up else .down) := by
    rw [directionOf_eq_some_iff figure]
    split <;> simp [*]
  have marked : (j.records.map fun e =>
      if e.openOf k.other then { e with flags := { e.flags with concurrent := true } } else e) = j.concurrently k := by
    simp only [Journal.concurrently, openOf_iff, kind_eq_other_iff]
  simp only [Journal.openRecord, direction, marked]
  rfl

end Sys2Proof.Machine
end

