-- ==== Sys2Proof/Proofs/FigureChangeObligations.lean ====
section
/-! PROOFS. The statement about changes of figure at the journal (O57). -/

namespace Sys2Proof.Proofs

open Sys2Proof.Machine Sys2Proof.Safety

/-- Settles O57: the rows of R164's table by the kind's OPEN record, the figure and its sign; then what opening a record does, by
the room in the journal. -/
theorem figureChanges : Obligations.FigureChanges := by
  refine ⟨fun s k x law => ?table, fun s g => rfl, fun j k x now figure => ?opening⟩
  case table =>
    intro j mine changed
    have stored : j = s.journal.store k x := by cases k <;> rfl
    have changed_eq (f : Episode → Episode) : changed f = s.journal.changeOpen k x f := by
      simp only [changed, stored, Journal.changeOpen]
    simp only [changed_eq]
    refine ⟨fun none => ?_, fun e mem isOpen => ?_⟩
    · rw [figureChange_not_open none, openRecord_eq_ite, stored]
    have found : s.journal.records.find? (Episode.openOf k) = some e :=
      find?_eq_of_countP_le_one (countP_openOf_le_one law k) mem ((openOf_iff k e).2 isOpen)
    refine ⟨?_, fun figure same => ?_, fun figure reversed => ?_⟩
    · rintro rfl
      exact figureChange_zero found
    · exact figureChange_same found figure ((directionOf_eq_some_iff figure _).2 same)
    · exact figureChange_reversed found figure (mt (directionOf_eq_some_iff figure _).1 reversed)
  case opening =>
    intro other marked n opens
    have opened {kept : List Episode} {loss : Bool} (room : makeRoom marked = (kept, loss)) : opens kept loss := by
      refine ⟨j.anyOpen fun e => e.kind == k.other, concurrent_iff j k, ?_⟩
      have concurrently : j.concurrently k = marked := rfl
      rw [openRecord_of_ne figure, concurrently, room]
      rfl
    refine ⟨fun room => opened (makeRoom_of_room room), fun pre e post full split => ?_⟩
    rw [split] at full
    refine ⟨fun read first => ?_, fun closed first unread => ?_⟩
    · exact opened (split ▸ makeRoom_read full read first)
    · exact opened (split ▸ makeRoom_closed full closed first (split ▸ unread))

end Sys2Proof.Proofs
end

