-- ==== Sys2Proof/Proofs/BlockSteps.lean ====
section
/-! PROOFS. Everything a command can do to the blocks the fleet bus holds, queued or in transmission, and to the FREEZE level
that judges them (R50, R136, R139, R156 to R161). -/

namespace Sys2Proof.Machine

open Sys2Proof.Safety

/-! ### The blocks of the bus (R145) -/

/-- The bus holds a block: in its queue or in transmission. -/
def Bus.holdsBlock (u : Bus) (b : Block) : Prop := b ∈ u.queue ∨ u.frame = .block b

/-- The FREEZE level and the bus, which is all that the law of blocks under FREEZE reads. -/
def State.line (s : State) : Bool × Bus := (s.freeze, s.bus)

theorem mem_blockInFrame (f : Frame) (b : Block) : b ∈ blockInFrame f ↔ f = .block b := by
  cases f <;> simp [blockInFrame]

/-- The law of blocks under FREEZE judges every block of the bus alike (R159). -/
theorem freezeLaw_iff (s : State) :
    FreezeLaw s ↔ ∀ b, s.bus.holdsBlock b → ZeroBlock b ∧ (s.freeze = true → b.freeze = true) := by
  simp only [FreezeLaw, Bus.holdsBlock, mem_blockInFrame]
  exact ⟨fun ⟨queued, sent⟩ b held => held.elim (queued b) (sent b),
    fun all => ⟨fun b queued => all b (.inl queued), fun b sent => all b (.inr sent)⟩⟩

/-- What the law reads of a step from `s` to `t`. -/
structure BlockStep (s t : State) : Prop where
  /-- A block of the bus is one it held before, and stays past an assertion only if its pass read FREEZE asserted (R159); or it
  is of a pass that the step takes, which reads the level after it and then gives zeros (R136). -/
  blocks : ∀ b, t.bus.holdsBlock b →
    (s.bus.holdsBlock b ∧ (t.freeze = true → s.freeze = true ∨ b.freeze = true)) ∨
      (ZeroBlock b ∧ (t.freeze = true → b.freeze = true))
  /-- A block whose transmission begins was queued (R157). -/
  begun : ∀ b, t.bus.frame = .block b → s.bus.frame = .block b ∨ b ∈ s.bus.queue

/-- The step takes in no block, begins none, and leaves the FREEZE level. -/
structure BlocksKept (s t : State) : Prop where
  level : t.freeze = s.freeze
  queue : t.bus.queue ⊆ s.bus.queue
  frame : ∀ b, t.bus.frame = .block b → s.bus.frame = .block b

section
variable {s t u : State}

theorem BlockStep.freezeLaw (h : BlockStep s t) (law : FreezeLaw s) : FreezeLaw t := by
  rw [freezeLaw_iff] at law ⊢
  intro b held
  rcases h.blocks b held with ⟨old, asserted⟩ | fresh
  · obtain ⟨zeros, high⟩ := law b old
    exact ⟨zeros, fun now => (asserted now).elim high id⟩
  · exact fresh

/-- A block that begins under FREEZE was queued, so it is of a pass that read FREEZE asserted and carries zeros (R159). -/
theorem BlockStep.zero_of_begun (h : BlockStep s t) (law : FreezeLaw s) {b : Block} (before : s.bus.frame ≠ .block b)
    (after : t.bus.frame = .block b) (high : s.freeze = true) : ∀ e ∈ b.entries, e.setpoint = 0 := by
  obtain ⟨queued, -⟩ := law
  obtain ⟨zeros, asserted⟩ := queued b ((h.begun b after).resolve_left before)
  exact zeros (asserted high)

theorem BlockStep.of_no_block (queue : t.bus.queue = []) (frame : t.bus.frame = .idle) : BlockStep s t where
  blocks := fun b held => by
    rcases held with queued | sent
    · rw [queue] at queued
      cases queued
    · rw [frame] at sent
      cases sent
  begun := fun b sent => by
    rw [frame] at sent
    cases sent

theorem BlocksKept.refl (s : State) : BlocksKept s s := ⟨rfl, List.Subset.refl _, fun _ => id⟩

theorem BlocksKept.trans (h : BlocksKept s t) (h' : BlocksKept t u) : BlocksKept s u :=
  ⟨h'.level.trans h.level, List.Subset.trans h'.queue h.queue, fun b sent => h.frame b (h'.frame b sent)⟩

/-- The queue is emptied or left, and so is the frame, or another frame than a block's takes its place. -/
theorem BlocksKept.of_bus (level : t.freeze = s.freeze) (queue : t.bus.queue = [] ∨ t.bus.queue = s.bus.queue)
    (frame : (∀ b, t.bus.frame ≠ .block b) ∨ t.bus.frame = s.bus.frame) : BlocksKept s t where
  level := level
  queue := by
    rcases queue with none | same
    · exact none ▸ List.nil_subset _
    · exact same ▸ List.Subset.refl _
  frame := fun b sent => by
    rcases frame with none | same
    · exact absurd sent (none b)
    · exact same ▸ sent

theorem BlocksKept.of_line (same : t.line = s.line) : BlocksKept s t := by
  obtain ⟨level, bus⟩ := Prod.mk.inj same
  exact .of_bus level (.inr (congrArg Bus.queue bus)) (.inr (congrArg Bus.frame bus))

theorem BlocksKept.step (h : BlocksKept s t) : BlockStep s t where
  blocks := fun b held => .inl ⟨held.imp (@h.queue b) (h.frame b), fun high => .inl (h.level ▸ high)⟩
  begun := fun b sent => .inl (h.frame b sent)

/-- A step reads the FREEZE level and the bus alone. -/
theorem BlockStep.congr {s' t' : State} (h : BlockStep s t) (before : s'.line = s.line) (after : t'.line = t.line) :
    BlockStep s' t' := by
  obtain ⟨level, bus⟩ := Prod.mk.inj before
  obtain ⟨level', bus'⟩ := Prod.mk.inj after
  exact ⟨by rw [bus, bus', level, level']; exact h.blocks, by rw [bus, bus']; exact h.begun⟩

end

/-! ### The ends of frames and of bus states (R148, R149, R160, R161) -/

section
variable (s : State)

theorem enterDisabled_blocksKept : BlocksKept s s.enterDisabled := .of_bus rfl (.inl rfl) (.inl nofun)

theorem enterDraining_blocksKept : BlocksKept s s.enterDraining := .of_bus rfl (.inl rfl) (.inr rfl)

theorem enterFault_blocksKept : BlocksKept s s.enterFault := .of_bus rfl (.inl rfl) (.inl nofun)

theorem endFrame_blocksKept : BlocksKept s s.endFrame := by
  rcases endFrame_cases s with ⟨-, eq⟩ | ⟨-, eq⟩ <;> rw [eq]
  · exact enterDisabled_blocksKept s
  · exact .of_bus rfl (.inr rfl) (.inl nofun)

theorem collided_blocksKept : BlocksKept s s.collided := by
  rcases collided_cases s with ⟨-, eq⟩ | ⟨-, -, eq⟩ | ⟨-, -, eq⟩ <;> rw [eq]
  · exact enterDisabled_blocksKept s
  · exact .of_bus rfl (.inr rfl) (.inl nofun)
  · exact enterFault_blocksKept s

/-! ### Polls (R152 to R155) -/

@[simp] theorem failedPoll_line (a : Address) (o : PollOutcome) : (s.failedPoll a o).line = s.line := rfl

@[simp] theorem goodReport_line (a : Address) (q : Report) : (s.goodReport a q).line = s.line := by
  unfold State.goodReport
  repeat' split
  all_goals rfl

theorem endPoll_blocksKept (a : Address) (o : PollOutcome) : BlocksKept s (s.endPoll a o) :=
  (BlocksKept.of_line (failedPoll_line s a o)).trans (endFrame_blocksKept _)

theorem takeReply_blocksKept (a : Address) (bytes : List Byte) : BlocksKept s (s.takeReply a bytes) := by
  rcases takeReply_cases s a bytes with ⟨-, eq⟩ | ⟨-, eq⟩ <;> rw [eq]
  · exact (BlocksKept.of_line (goodReport_line s a _)).trans (endFrame_blocksKept _)
  · exact endPoll_blocksKept s a _

theorem setPhase_blocksKept (a : Address) (i : ItemSet) (ph : PollPhase) : BlocksKept s (s.setPhase a i ph) :=
  .of_bus rfl (.inr rfl) (.inl nofun)

theorem endRound_blocksKept : BlocksKept s s.endRound := .of_bus rfl (.inr rfl) (.inr rfl)

theorem beginPoll_blocksKept (a : Address) : BlocksKept s (s.beginPoll a) := by
  unfold State.beginPoll
  split
  · exact .of_bus rfl (.inr rfl) (.inl nofun)
  · exact .of_bus rfl (.inr rfl) (.inl nofun)

/-! ### Passes and assertions (R136, R139, R156, R159) -/

/-- The bus holds after a hand-over what it held and the blocks handed over. -/
theorem holdsBlock_handOver {u : Bus} {blocks : List Block} {b : Block} (held : (u.handOver blocks).holdsBlock b) :
    u.holdsBlock b ∨ b ∈ blocks := by
  unfold Bus.handOver at held
  split at held
  · exact held.elim .inr fun sent => .inl (.inr sent)
  · exact .inl held

theorem frame_handOver (u : Bus) (blocks : List Block) : (u.handOver blocks).frame = u.frame := by
  unfold Bus.handOver
  split <;> rfl

/-- A block of a pass that reads FREEZE asserted carries zeros (R136). -/
theorem zeroBlock_of_pass {c : PassCause} {k : Serial} {n : Nat} {b : Block}
    (h : b ∈ blocksOf k n s.freeze (s.pass c).roster) : ZeroBlock b := by
  intro high e he
  obtain ⟨-, -, level, -, -⟩ := mem_blocksOf h
  have entries : e ∈ (blocksOf k n s.freeze (s.pass c).roster).flatMap Block.entries := List.mem_flatMap.2 ⟨b, h, he⟩
  rw [blocksOf_entries] at entries
  obtain ⟨r, mem, rfl⟩ := List.mem_map.1 entries
  exact pass_setpoint_of_freeze c (level.symm.trans high) mem

/-- A pass hands the blocks of the roster it wrote to the bus (R139). -/
theorem pass_bus (c : PassCause) : (s.pass c).bus = s.bus.handOver
    (blocksOf (s.pass c).disp.passNumber (s.pass c).disp.passes s.freeze (s.pass c).roster) := by
  simp [State.pass]

theorem pass_blockStep (c : PassCause) : BlockStep s (s.pass c) := by
  refine ⟨fun b held => ?_, fun b sent => .inl ?_⟩
  · rw [pass_bus] at held
    rw [pass_freeze]
    rcases holdsBlock_handOver held with old | handed
    · exact .inl ⟨old, .inl⟩
    · obtain ⟨-, -, level, -, -⟩ := mem_blocksOf handed
      exact .inr ⟨zeroBlock_of_pass s handed, fun high => level.trans high⟩
  · rwa [pass_bus, frame_handOver] at sent

/-- An assertion keeps of the queue the blocks of passes that read FREEZE asserted, and no block in transmission (R159). -/
theorem freezeBus_blocks {s : State} {b : Block} (held : s.freezeBus.bus.holdsBlock b) :
    b ∈ s.bus.queue ∧ b.freeze = true ∧ s.freezeBus.bus.frame ≠ .block b := by
  by_cases cut : s.bus.cut
  · rw [freezeBus_of_cut cut] at held
    rcases held with queued | sent <;> contradiction
  · have quiet : s.bus.frozen.frame ≠ .block b := by
      cases frame : s.bus.frame <;> simp [Bus.frozen, frame]
    rw [freezeBus_of_not_cut cut] at held ⊢
    obtain ⟨queued, high⟩ := List.mem_filter.1 (held.resolve_right quiet)
    exact ⟨queued, of_decide_eq_true high, quiet⟩

theorem assertFreeze_blockStep : BlockStep s s.assertFreeze := by
  let high : State := ({ s with freeze := true, journal := s.journal.flagFreeze } : State).raiseFreeze
  have bus : high.bus = s.bus := by simp [high, State.raiseFreeze]
  have pass : BlockStep high.freezeBus s.assertFreeze := pass_blockStep high.freezeBus .freeze
  refine ⟨fun b held => ?_, fun b sent => ?_⟩
  · rcases pass.blocks b held with ⟨left, -⟩ | fresh
    · obtain ⟨queued, zero, -⟩ := freezeBus_blocks left
      exact .inl ⟨.inl (bus ▸ queued), fun _ => .inr zero⟩
    · exact .inr fresh
  · have left : high.freezeBus.bus.holdsBlock b := (pass.begun b sent).symm
    exact .inr (bus ▸ (freezeBus_blocks left).1)

end

/-! ### Requests (R20, R148 to R151) -/

section
variable (s : State)

theorem ownBusDisable_blocksKept : BlocksKept s (ownBusDisable s).state := by
  unfold ownBusDisable
  split
  · split
    · exact enterDisabled_blocksKept s
    · exact enterDraining_blocksKept s
  · exact enterDisabled_blocksKept s
  · exact enterDisabled_blocksKept s
  · exact .refl s
  · exact .refl s

/-- The requests that reach the items of the bus (R20, R148 to R151). -/
def movesBus : Request → Bool
  | .setItems .. | .busEnable | .busDisable | .busConfig .. | .busRestore => true
  | _ => false

/-- Every other request leaves the bus, and none moves the FREEZE level. -/
theorem ownOf_line (p : Port) {r : Request} (other : movesBus r = false) : (ownOf p r s).state.line = s.line := by
  have level : (ownOf p r s).state.freeze = s.freeze := by
    obtain ⟨-, -, level, -⟩ := outside_eq_iff.1 (ownOf_outside s p r)
    exact level
  refine Prod.ext level ?_
  cases r with
  | setItems | busEnable | busDisable | busConfig | busRestore => nomatch other
  | _ =>
    simp only [State.line, ownOf, refuse, ownSetTime, State.moveClock, ownEnroll, ownAmend, ownRemove, ownReadSite,
      ownDefineWindow, ownClearWindow, ownSetBranch, ownSetDefaultClass, editWith, ownSuspend, ownResume, State.putInForce,
      ownQueryClass, ownReadWindows, ownSetOfferParams, ownOfferQuery, ownHold, State.holdAt, State.grant, ownAward,
      ownRelease, State.settleHold, ownReadBook, ownSetMeter, ownReadMeter, ownSetFlParams, ownArmFl, ownDisarmFl,
      armAnswer, ownSetPoint, ownSetSlParams, ownEnterTest, ownInject, ownLeaveTest, ownReadBranchLoad, ownReadResponse,
      ownReadJournal, ownReleaseJournal, ownSetLinkMode, ownStatus, ownIdentify]
    repeat' split
    all_goals simp

/-- No request takes in a block or begins one. -/
theorem ownOf_blocksKept (p : Port) (r : Request) : BlocksKept s (ownOf p r s).state := by
  cases r with
  | busDisable => exact ownBusDisable_blocksKept s
  | setItems | busEnable | busConfig | busRestore =>
    simp only [ownOf, ownSetItems, ownBusEnable, ownBusConfig, ownBusRestore, busAnswer, refuse]
    repeat' split
    all_goals exact .of_bus rfl (.inr rfl) (.inr rfl)
  | _ => exact .of_line (ownOf_line s p rfl)

end

/-! ### Every command -/

section
variable {c : Instr} {s t : State}

theorem request_blockStep {p : Port} {r : Request} (row : requestRow c = some (p, r)) (h : exec c s = .next t) :
    BlockStep s t := by
  rw [exec_request s row] at h
  cases h
  rcases serve_cases s p r (ownOf p r) with eq | ⟨u, code, -, -, eq⟩ | ⟨u, -, -, eq⟩ <;> rw [eq]
  · exact (BlocksKept.refl s).step
  · exact (BlocksKept.of_line (by simp [State.line])).step
  · exact (ownOf_blocksKept (s.dequeue p) p r).step.congr (by simp [State.line]) (by simp [State.line])

/-- The arbiter begins the first queued block, or discards it where FREEZE is asserted and its pass read it low (R157, R159). -/
theorem dispatchBlock_blockStep (h : exec .dispatchBlock s = .next t) : BlockStep s t := by
  have same : BlockStep s s := (BlocksKept.refl s).step
  cases h
  split
  · exact same
  · next b rest queue =>
    split
    · refine ⟨fun x held => .inl ⟨?_, .inl⟩, fun x sent => .inr ?_⟩
      · rcases held with queued | sent
        · exact .inl (queue ▸ List.mem_cons_of_mem b queued)
        · dsimp only at sent
          split at sent <;> cases sent
          exact .inl (queue ▸ List.mem_cons_self)
      · dsimp only at sent
        split at sent <;> cases sent
        exact queue ▸ List.mem_cons_self
    · exact same

theorem poll_blocksKept (h : exec .poll s = .next t) : BlocksKept s t := by
  cases h
  split
  · split
    · exact beginPoll_blocksKept s _
    · split
      · exact .refl s
      · split
        · exact (endRound_blocksKept s).trans (beginPoll_blocksKept _ _)
        · exact endRound_blocksKept s
  · exact .refl s

theorem blockComplete_blocksKept (h : exec .blockComplete s = .next t) : BlocksKept s t := by
  cases h
  split
  · next b _ =>
    have counted : BlocksKept s { s with
        roster := s.roster.filter fun r => !r.endedBy b, bus := { s.bus with collisions := 0 } } :=
      .of_bus rfl (.inr rfl) (.inr rfl)
    exact counted.trans (endFrame_blocksKept _)
  · exact .refl s

theorem collision_blocksKept (h : exec .collision s = .next t) : BlocksKept s t := by
  have emptied : BlocksKept s { s with bus := { s.bus with queue := [] } } := .of_bus rfl (.inl rfl) (.inr rfl)
  cases h
  split
  · exact (BlocksKept.of_line (failedPoll_line s _ _)).trans (collided_blocksKept _)
  · exact emptied.trans (collided_blocksKept _)
  · exact .refl s

theorem freezeAssertion_blockStep (h : exec .freezeAssertion s = .next t) : BlockStep s t := by
  cases h
  split
  · exact (BlocksKept.refl s).step
  · exact assertFreeze_blockStep s

/-- A deassertion leaves the blocks, and judges none (R142, R159). -/
theorem freezeDeassertion_blockStep (h : exec .freezeDeassertion s = .next t) : BlockStep s t := by
  cases h
  split
  · exact ⟨fun b held => .inl ⟨held, nofun⟩, fun b sent => .inl sent⟩
  · exact (BlocksKept.refl s).step

/-- After a reset the bus holds no block, whatever the FREEZE level (R3, R50). -/
theorem deviceReset_blockStep {f : Bool} {l : ResetLevels} (h : exec (.deviceReset f l) s = .next t) : BlockStep s t := by
  cases h
  cases f
  · exact .of_no_block rfl rfl
  · rw [if_pos rfl, assertFreeze_afterReset]
    exact .of_no_block rfl rfl

theorem pollSent_blocksKept (h : exec .pollSent s = .next t) : BlocksKept s t := by
  cases h
  split
  · exact .of_bus rfl (.inr rfl) (.inl nofun)
  · exact .refl s

/-- The events that move a poll on to its reply or give it up (R153, R155). -/
theorem pollPhase_blocksKept (moving : c ∈ [Instr.replyStart, .replyParityError]) (h : exec c s = .next t) :
    BlocksKept s t := by
  simp only [List.mem_cons, List.not_mem_nil, or_false] at moving
  rcases moving with rfl | rfl
  all_goals
    cases h
    split
    · exact setPhase_blocksKept s _ _ _
    · exact .refl s

/-- The events that end a poll with an outcome other than a report (R153 to R155). -/
theorem pollEnd_blocksKept (ending : c ∈ [Instr.replyWindowExpiry, .pollEndOnQuiet, .replyGap])
    (h : exec c s = .next t) : BlocksKept s t := by
  simp only [List.mem_cons, List.not_mem_nil, or_false] at ending
  rcases ending with rfl | rfl | rfl
  all_goals
    cases h
    split
    · exact endPoll_blocksKept s _ _
    · exact .refl s

theorem rateCheckFailed_blocksKept {span : Nat} (h : exec (.rateCheckFailed span) s = .next t) : BlocksKept s t := by
  cases h
  split
  · split
    · exact .refl s
    · exact setPhase_blocksKept s _ _ _
  · exact .refl s

theorem report_blocksKept {characters : List (BitVec 11)} (h : exec (.report characters) s = .next t) :
    BlocksKept s t := by
  cases h
  split
  · exact takeReply_blocksKept s _ _
  · exact .refl s

theorem backoffExpiry_blocksKept (h : exec .backoffExpiry s = .next t) : BlocksKept s t := by
  cases h
  split
  · exact .of_bus rfl (.inr rfl) (.inr rfl)
  · exact .refl s

theorem event_blockStep (row : requestRow c = none) (h : exec c s = .next t) : BlockStep s t := by
  cases c with
  | deviceReset f l => exact deviceReset_blockStep h
  | passTimerExpiry => cases h; exact pass_blockStep s .timer
  | freezeAssertion => exact freezeAssertion_blockStep h
  | freezeDeassertion => exact freezeDeassertion_blockStep h
  | dispatchBlock => exact dispatchBlock_blockStep h
  | poll => exact (poll_blocksKept h).step
  | pollSent => exact (pollSent_blocksKept h).step
  | replyStart | replyParityError => exact (pollPhase_blocksKept (by simp) h).step
  | replyWindowExpiry | pollEndOnQuiet | replyGap => exact (pollEnd_blocksKept (by simp) h).step
  | rateCheckFailed span => exact (rateCheckFailed_blocksKept h).step
  | report characters => exact (report_blocksKept h).step
  | blockComplete => exact (blockComplete_blocksKept h).step
  | collision => exact (collision_blocksKept h).step
  | backoffExpiry => exact (backoffExpiry_blocksKept h).step
  | gsenseRisingEdge edge =>
    simp only [exec, execGsenseRisingEdge] at h
    cases h
    refine (BlocksKept.of_line ?_).step
    repeat' split
    all_goals simp [State.line]
  | tenthElapsed | rampTimerExpiry | freshnessExpiry a | holdExpiry slot product | shortfallEvaluation | lossTimerExpiry
  | holdTimerExpiry | refreshTimerExpiry | injectionEnd | closingTimerExpiry kind
  | telegramComplete p front request check | overrunResponse p | responseTransmitted p | framingError character
  | lengthOutOfRange p length | gap p | linkBreak p | breakEnd p | telegramLead character =>
    cases h
    refine (BlocksKept.of_line ?_).step
    repeat' split
    all_goals simp [State.line]
  | _ => nomatch row

/-- Everything a command can do to the blocks of the bus. -/
theorem exec_blockStep (h : exec c s = .next t) : BlockStep s t := by
  cases row : requestRow c with
  | some pr => exact request_blockStep row h
  | none => exact event_blockStep row h

end

end Sys2Proof.Machine
end

