-- ==== Sys2Proof/Proofs/BlockObligations.lean ====
section
/-! PROOFS. The invariant of the dispatch blocks under FREEZE (O56). -/

namespace Sys2Proof.Proofs

open Sys2Proof.Machine Sys2Proof.Safety

/-- Settles O56: by what every command can do to the blocks of the bus. -/
theorem freezeBlocksInvariant : Obligations.FreezeBlocksInvariant := fun _ _ _ law h =>
  ⟨(exec_blockStep h).freezeLaw law, fun _ before after high => (exec_blockStep h).zero_of_begun law before after high⟩

end Sys2Proof.Proofs
end

