-- ==== Sys2Proof/Proofs/PassSums.lean ====
section
/-! PROOFS. What an allocation gives in sum: a branch no more than its limit, a saturated one exactly that (R133), and all of
them the target's magnitude or the dispatch capacity (R135). -/

namespace Sys2Proof.Machine

open Sys2Proof.Safety

/-! ### A branch of a group stays within its limit (R134) -/

section
variable {lim : Nat → Option Nat}

/-- Steps are handed out only while they carry no branch above its limit. -/
theorem handOut_within (bases : Nat → Nat) {b l : Nat} (limit : lim b = some l) (es : List Share) (n : Nat)
    (given : List Share) (within : bases b + 10 * (sharesIn given b).length ≤ l) :
    bases b + 10 * (sharesIn (handOut lim bases es n given) b).length ≤ l := by
  induction es generalizing n given with
  | nil => exact within
  | cons e es ih =>
    cases n with
    | zero => exact within
    | succ n =>
      by_cases blocked : Blocked lim bases given e
      · rw [handOut_cons_blocked lim bases blocked]
        exact ih (n + 1) given within
      · rw [handOut_cons_free lim bases blocked]
        refine ih n (e :: given) ?_
        by_cases at_b : e.branch = b
        · subst at_b
          have step : sharesIn (e :: given) e.branch = e :: sharesIn given e.branch :=
            List.filter_cons_of_pos (beq_self_eq_true _)
          rw [step, List.length_cons]
          exact Nat.le_of_not_lt fun above => blocked ⟨l, limit, above⟩
        · rwa [sharesIn, List.filter_cons_of_neg (by simpa using at_b)]

variable {g : List Share} {gt : Nat}

/-- The bases of a branch stay within its limit, as its exact share does. -/
theorem branchBase_le (h : Divisible lim g gt) {b l : Nat} (limit : lim b = some l) : branchBase g gt b ≤ l := by
  obtain ⟨-, exact_le⟩ := h.limits b l limit
  refine Nat.le_of_mul_le_mul_left ?_ h.weighted
  calc weightSum g * branchBase g gt b ≤ gt * weightSum (sharesIn g b) :=
        (sum_exact gt (weightSum g) (sharesIn g b)).symm ▸ Nat.le_add_right _ _
    _ ≤ l * weightSum g := exact_le
    _ = weightSum g * l := Nat.mul_comm _ _

/-- In a group's division each limited branch stays within its limit. -/
theorem sum_divideWatts_branch_le (h : Divisible lim g gt) {b l : Nat} (limit : lim b = some l) :
    ((sharesIn g b).map (divideWatts lim g gt)).sum ≤ l := by
  rw [sum_divideWatts_branch h.distinct]
  exact handOut_within (branchBase g gt) limit _ _ [] (branchBase_le h limit)

end

/-! ### What a branch gets in sum (R131 to R133) -/

/-- The sum of what an allocation gives the shares of a branch. -/
def branchWatts (es : List Share) (lim : Nat → Option Nat) (target b : Nat) : Nat :=
  ((sharesIn es b).map (allocatedWatts es lim target)).sum

theorem branch_of_mem_sharesIn {es : List Share} {b : Nat} {e : Share} (h : e ∈ sharesIn es b) : e.branch = b :=
  beq_iff_eq.1 (List.mem_filter.1 h).2

/-- The group that stays has all shares of an active branch, and no other. -/
theorem sharesIn_restShares (es : List Share) (r : Rounds) (b : Nat) :
    sharesIn (restShares es r) b = if b ∈ r.active then sharesIn es b else [] := by
  simp only [sharesIn, restShares, List.filter_filter]
  split
  · next active =>
    refine List.filter_congr fun e _ => ?_
    by_cases at_b : e.branch = b <;> simp [at_b, active]
  · next inactive =>
    refine List.filter_eq_nil_iff.2 fun e _ => ?_
    by_cases at_b : e.branch = b <;> simp [at_b, inactive]

section
variable {es : List Share} {lim : Nat → Option Nat} {target b : Nat}

/-- A saturated branch gets exactly its limit, which cuts its weight (R131 to R133). -/
theorem branchWatts_of_saturated (law : PassLaw es lim) (range : b < 16)
    (sat : b ∈ (allocate es lim target).saturated) :
    ∃ l, lim b = some l ∧ l < branchWeight es b ∧ branchWatts es lim target b = l := by
  obtain ⟨l, limit, cut, eq⟩ := allocatedWatts_of_saturated range sat
  refine ⟨l, limit, cut, ?_⟩
  rw [branchWatts, List.map_congr_left fun _ he => eq _ (branch_of_mem_sharesIn he)]
  exact sum_divideWatts (law.divisible_branch limit (Nat.zero_lt_of_lt cut))

/-- At or above capacity a branch that is not saturated gets its weight (R131). -/
theorem branchWatts_of_full (full : dispatchCapacity es lim ≤ target) (unsat : b ∉ (allocate es lim target).saturated) :
    branchWatts es lim target b = branchWeight es b :=
  congrArg List.sum (List.map_congr_left fun _ he =>
    allocatedWatts_of_full full ((branch_of_mem_sharesIn he).symm ▸ unsat))

/-- Below capacity a branch that is not saturated gets its part of the remaining group (R132). -/
theorem branchWatts_of_rest (weighted : ∀ e ∈ es, 0 < e.weight) (below : target < dispatchCapacity es lim)
    (unsat : b ∉ (allocate es lim target).saturated) : branchWatts es lim target b =
      ((sharesIn (restShares es (finalRounds es lim target)) b).map
        (divideWatts lim (restShares es (finalRounds es lim target)) (finalRounds es lim target).remainder)).sum := by
  have rounds := finalRounds_law below
  have group : sharesIn es b = sharesIn (restShares es (finalRounds es lim target)) b := by
    rw [sharesIn_restShares]
    split
    · rfl
    · next inactive =>
      refine List.eq_nil_iff_forall_not_mem.2 fun e he => ?_
      obtain rfl := branch_of_mem_sharesIn he
      have mem := List.mem_of_mem_filter he
      rw [saturated_of_shared below] at unsat
      exact ((rounds.active_or_saturated _).1
        ⟨e.branch_lt, branchWeight_pos_of_mem es mem (weighted e mem)⟩).elim inactive unsat
  rw [branchWatts, ← group]
  exact congrArg List.sum (List.map_congr_left fun _ he =>
    allocatedWatts_of_rest below ((branch_of_mem_sharesIn he).symm ▸ unsat))

/-- No branch gets more than its limit (R133). -/
theorem branchWatts_le (law : PassLaw es lim) (tens : target % 10 = 0) (range : b < 16) {l : Nat}
    (limit : lim b = some l) : branchWatts es lim target b ≤ l := by
  by_cases sat : b ∈ (allocate es lim target).saturated
  · obtain ⟨l', limit', -, eq⟩ := branchWatts_of_saturated law range sat
    cases limit.symm.trans limit'
    exact eq.le
  · rcases Nat.lt_or_ge target (dispatchCapacity es lim) with below | full
    · rw [branchWatts_of_rest law.weighted below sat]
      exact sum_divideWatts_branch_le (divisible_rest law tens below) limit
    · rw [branchWatts_of_full full sat]
      rw [saturated_of_full full range] at sat
      exact Nat.le_of_not_lt fun cut => sat ⟨l, limit, cut⟩

/-! ### What all shares get in sum (R135) -/

/-- At or above capacity each branch gets its weight under its limit (R130, R131). -/
theorem branchWatts_eq_underLimit (law : PassLaw es lim) (full : dispatchCapacity es lim ≤ target) (range : b < 16) :
    branchWatts es lim target b = underLimit (lim b) (branchWeight es b) := by
  by_cases sat : b ∈ (allocate es lim target).saturated
  · obtain ⟨l, limit, cut, eq⟩ := branchWatts_of_saturated law range sat
    simp [eq, limit, underLimit, cut.le]
  · rw [branchWatts_of_full full sat]
    rw [saturated_of_full full range] at sat
    cases limit : lim b with
    | none => rfl
    | some l => exact (Nat.min_eq_right (Nat.le_of_not_lt fun cut => sat ⟨l, limit, cut⟩)).symm

/-- Below capacity each branch gets its limit if it is saturated, and its part of the remaining group (R132). -/
theorem branchWatts_eq_add (law : PassLaw es lim) (below : target < dispatchCapacity es lim) (range : b < 16) :
    branchWatts es lim target b = (if (finalRounds es lim target).saturated.contains b then (lim b).getD 0 else 0) +
      ((sharesIn (restShares es (finalRounds es lim target)) b).map
        (divideWatts lim (restShares es (finalRounds es lim target)) (finalRounds es lim target).remainder)).sum := by
  have shared := saturated_of_shared below
  by_cases sat : b ∈ (finalRounds es lim target).saturated
  · obtain ⟨l, limit, -, eq⟩ := branchWatts_of_saturated law range (shared ▸ sat)
    have inactive := (finalRounds_law below).not_active_of_saturated sat
    simp [eq, limit, sat, sharesIn_restShares, inactive]
  · rw [branchWatts_of_rest law.weighted below (shared ▸ sat)]
    simp [sat]

/-- The shares get in sum the smaller of the target and the dispatch capacity (R135). -/
theorem sum_allocatedWatts (law : PassLaw es lim) (tens : target % 10 = 0) :
    (es.map (allocatedWatts es lim target)).sum = min target (dispatchCapacity es lim) := by
  have branches : (es.map (allocatedWatts es lim target)).sum =
      ((List.range 16).map (branchWatts es lim target)).sum := (sum_over_branches _ es).symm
  rw [branches]
  rcases Nat.lt_or_ge target (dispatchCapacity es lim) with below | full
  · have rounds := finalRounds_law below
    have range : ∀ b ∈ (finalRounds es lim target).saturated, b < 16 := fun b hb =>
      ((rounds.active_or_saturated b).2 (.inr hb)).1
    have limits : limitOf lim ((List.range 16).filter (finalRounds es lim target).saturated.contains) =
        limitOf lim (finalRounds es lim target).saturated :=
      ((filter_range_perm rounds.saturated_nodup range).map _).sum_eq
    rw [List.map_congr_left fun b hb => branchWatts_eq_add law below (List.mem_range.1 hb), List.sum_map_add,
      ← sum_filter_eq, sum_over_branches, sum_divideWatts (divisible_rest law tens below), Nat.min_eq_left below.le]
    have spent := rounds.spent
    unfold limitOf at limits spent
    omega
  · rw [List.map_congr_left fun b hb => branchWatts_eq_underLimit law full (List.mem_range.1 hb), Nat.min_eq_right full]
    rfl

theorem allocate_capacity (es : List Share) (lim : Nat → Option Nat) (target : Nat) :
    (allocate es lim target).capacity = dispatchCapacity es lim := by
  unfold allocate
  split <;> rfl

end

end Sys2Proof.Machine
end

