-- ==== Sys2Proof/Proofs/PassTotals.lean ====
section
/-! PROOFS. What a pass records in sum: nothing where its allocation is zero, otherwise its branches and its dispatched sum by
the allocation of its target (R133, R135 to R137). -/

namespace Sys2Proof.Machine

open Sys2Proof.Safety

/-! ### What a pass records (R126, R127, R137) -/

section
variable (s : State) (c : PassCause)

theorem pass_disp : (s.pass c).disp = s.passRecord c (s.pass c).roster := by simp [State.pass]

theorem pass_number : (s.pass c).disp.passNumber = nextSerial s.disp.passNumber := pass_disp s c ▸ rfl

theorem pass_passes : (s.pass c).disp.passes = s.disp.passes + 1 := pass_disp s c ▸ rfl

theorem pass_cause : (s.pass c).disp.cause = some c := pass_disp s c ▸ rfl

theorem pass_direction : (s.pass c).disp.direction = directionOf s.passTarget := pass_disp s c ▸ rfl

theorem pass_capacity : (s.pass c).disp.capacity = s.passAllocation.capacity := pass_disp s c ▸ rfl

theorem pass_dispatched : (s.pass c).disp.dispatched = ((s.pass c).roster.map Site.lastSetpoint).sum := pass_disp s c ▸ rfl

theorem pass_shortfall : (s.pass c).disp.shortfall = s.passTarget.natAbs - (s.pass c).disp.dispatched.natAbs :=
  pass_disp s c ▸ rfl

theorem pass_delivered : (s.pass c).disp.delivered = measuredSum s.roster := pass_disp s c ▸ rfl

theorem pass_branches : (s.pass c).disp.branches =
    (List.range 16).map (branchLoadOf (s.pass c).roster s.passAllocation.saturated) := pass_disp s c ▸ rfl

end

/-! ### A pass that gives nothing (R129, R136) -/

theorem directionOf_eq_none (x : Int) : directionOf x = none ↔ x = 0 := by
  rcases lt_trichotomy x 0 with neg | rfl | pos
  · simp [directionOf, neg, neg.not_gt, neg.ne]
  · simp [directionOf]
  · simp [directionOf, pos, pos.ne']

/-- With T′ = 0, or under FREEZE, the allocation is zero (R129, R136). -/
theorem passAllocation_eq_zero {s : State} (h : s.passTarget = 0 ∨ s.freeze = true) : s.passAllocation = .zero :=
  h.elim (fun zero => passAllocation_of_no_direction ((directionOf_eq_none _).2 zero)) passAllocation_of_freeze

section
variable {s : State} (nothing : s.passAllocation = .zero) (c : PassCause)
include nothing

theorem pass_roster_of_zero : (s.pass c).roster = s.roster.map Site.zeroed := by
  rw [pass_roster, nothing]
  simp only [wattsAt_zero, Int.natCast_zero, Int.mul_zero]
  rfl

theorem pass_setpoint_of_zero {r : Site} (mem : r ∈ (s.pass c).roster) : r.lastSetpoint = 0 := by
  rw [pass_roster_of_zero nothing] at mem
  obtain ⟨x, -, rfl⟩ := List.mem_map.1 mem
  rfl

theorem pass_dispatched_of_zero : (s.pass c).disp.dispatched = 0 := by
  rw [pass_dispatched]
  refine List.sum_eq_zero fun x hx => ?_
  obtain ⟨r, mem, rfl⟩ := List.mem_map.1 hx
  exact pass_setpoint_of_zero nothing c mem

theorem pass_branches_of_zero : (s.pass c).disp.branches = List.replicate 16 ⟨0, 0, false⟩ := by
  rw [pass_branches, pass_roster_of_zero nothing, nothing, Allocation.zero, branchLoadOf_zeroed, List.map_const',
    List.length_range]

end

/-! ### The setpoints in sum (R135) -/

/-- A figure that follows the shares of a roster, and is 0 without weight, sums as over the shares. -/
theorem sum_over_shares {rs : List Site} {d : Direction} {figure : Site → Int} {share : Share → Int}
    (weighted : ∀ r ∈ rs, 0 < r.dw d → figure r = share (r.share d)) (weightless : ∀ r ∈ rs, r.dw d = 0 → figure r = 0)
    (p : Share → Bool) : ((rs.filter fun r => p (r.share d)).map figure).sum =
      (((sharesOf rs d).filter p).map share).sum := by
  induction rs with
  | nil => rfl
  | cons r rs ih =>
    have tail := ih (fun x hx => weighted x (List.mem_cons_of_mem r hx)) fun x hx => weightless x (List.mem_cons_of_mem r hx)
    rcases Nat.eq_zero_or_pos (r.dw d) with zero | pos
    · have same : sharesOf (r :: rs) d = sharesOf rs d := by simp [sharesOf, zero]
      have none := weightless r List.mem_cons_self zero
      rw [same, ← tail, List.filter_cons]
      split <;> simp [none]
    · have first : sharesOf (r :: rs) d = r.share d :: sharesOf rs d := by simp [sharesOf, Site.share, pos]
      rw [first, List.filter_cons, List.filter_cons]
      split <;> simp [tail, weighted r List.mem_cons_self pos]

section
variable {s : State} (roster : RosterLaw s) (windows : WindowLaw s) {d : Direction} (freeze : s.freeze = false)
  (direction : directionOf s.passTarget = some d) (c : PassCause)
include roster windows freeze direction

/-- A site without weight gets 0 (R135). -/
theorem pass_setpoint_of_no_weight {r : Site} (mem : r ∈ (s.pass c).roster) (zero : r.dw d = 0) :
    r.lastSetpoint = 0 := by
  obtain ⟨x, stands, share, setpoint⟩ := mem_pass_roster c mem
  have weight : r.dw d = x.dw d := congrArg Share.weight (share d)
  rw [setpoint, wattsAt_of_no_weight roster windows freeze direction stands (weight ▸ zero)]
  exact Int.mul_zero _

/-- A weighted site gets the magnitude allocated to its share with the sign of the target (R135). -/
theorem pass_setpoint_of_weight {r : Site} (mem : r ∈ (s.pass c).roster) (pos : 0 < r.dw d) : r.lastSetpoint =
    s.passTarget.sign *
      (allocatedWatts (sharesOf s.roster d) (s.windows.inForce.limit d) s.passTarget.natAbs (r.share d) : Int) := by
  obtain ⟨x, stands, share, setpoint⟩ := mem_pass_roster c mem
  have weight : r.dw d = x.dw d := congrArg Share.weight (share d)
  rw [setpoint, share, wattsAt_of_weight roster windows freeze direction stands (weight ▸ pos)]

/-- The setpoints of some sites sum to what is allocated to their shares, with the sign of the target. -/
theorem sum_pass_setpoints (p : Share → Bool) :
    (((s.pass c).roster.filter fun r => p (r.share d)).map Site.lastSetpoint).sum = s.passTarget.sign *
      ((((sharesOf s.roster d).filter p).map
        (allocatedWatts (sharesOf s.roster d) (s.windows.inForce.limit d) s.passTarget.natAbs)).sum : Nat) := by
  have shares := sum_over_shares
    (share := fun e => s.passTarget.sign *
      (allocatedWatts (sharesOf s.roster d) (s.windows.inForce.limit d) s.passTarget.natAbs e : Int))
    (fun _ mem pos => pass_setpoint_of_weight roster windows freeze direction c mem pos)
    (fun _ mem zero => pass_setpoint_of_no_weight roster windows freeze direction c mem zero) p
  rw [shares, sharesOf_pass, List.sum_map_mul_left, Nat.cast_list_sum, List.map_map]
  rfl

/-- All setpoints sum to the smaller of the target's magnitude and the dispatch capacity, with the sign of the target
(R135). -/
theorem sum_all_pass_setpoints : ((s.pass c).roster.map Site.lastSetpoint).sum =
    s.passTarget.sign * (min s.passTarget.natAbs (dispatchBound s d) : Nat) := by
  have sum := sum_pass_setpoints roster windows freeze direction c fun _ => true
  rw [List.filter_true, List.filter_true, sum_allocatedWatts (passLaw roster windows d) (passTarget_mod_ten s)] at sum
  rw [sum, dispatchBound_eq]

end

/-! ### The branches a pass records (R133, R137) -/

/-- A sum over the values that meet a test is the whole sum where the others are 0. -/
theorem sum_filter_of_zero {p : Int → Bool} {xs : List Int} (zero : ∀ x ∈ xs, p x = false → x = 0) :
    (xs.filter p).sum = xs.sum := by
  induction xs with
  | nil => rfl
  | cons x xs ih =>
    rw [List.filter_cons, List.sum_cons, ← ih fun y hy => zero y (List.mem_cons_of_mem x hy)]
    split
    · exact List.sum_cons
    · next fails =>
      rw [zero x List.mem_cons_self (Bool.eq_false_iff.2 fails), Int.zero_add]

/-- What a branch's record holds when the branch gets `watts` in a direction. -/
def Direction.load (d : Direction) (watts : Nat) (flag : Bool) : BranchLoad :=
  match d with
  | .up => ⟨watts, 0, flag⟩
  | .down => ⟨0, -watts, flag⟩

/-- The record of a branch whose setpoints all have the sign of a direction holds their sum on that side alone. -/
theorem branchLoadOf_eq_load {rs : List Site} {d : Direction} {b watts : Nat} (sat : List Nat)
    (sign : ∀ r ∈ rs, 0 ≤ d.signed r.lastSetpoint)
    (sum : ((sitesOf rs b).map Site.lastSetpoint).sum = d.signed watts) :
    branchLoadOf rs sat b = d.load watts (sat.contains b) := by
  have signs : ∀ x ∈ (sitesOf rs b).map Site.lastSetpoint, 0 ≤ d.signed x := fun x hx => by
    obtain ⟨r, mem, rfl⟩ := List.mem_map.1 hx
    exact sign r (List.mem_of_mem_filter mem)
  unfold branchLoadOf
  generalize (sitesOf rs b).map Site.lastSetpoint = xs at sum signs
  cases d with
  | up =>
    have nonneg : ∀ x ∈ xs, 0 ≤ x := signs
    have none : xs.filter (fun x => decide (x < 0)) = [] := List.filter_eq_nil_iff.2 fun x hx => by
      simpa using nonneg x hx
    have all : (xs.filter fun x => decide (0 < x)).sum = xs.sum := sum_filter_of_zero fun x hx fails => by
      have := nonneg x hx
      have : ¬0 < x := of_decide_eq_false fails
      omega
    simp only [none, all, sum]
    rfl
  | down =>
    have nonpos : ∀ x ∈ xs, x ≤ 0 := fun x hx => Int.neg_nonneg.1 (signs x hx)
    have none : xs.filter (fun x => decide (0 < x)) = [] := List.filter_eq_nil_iff.2 fun x hx => by
      simpa using nonpos x hx
    have all : (xs.filter fun x => decide (x < 0)).sum = xs.sum := sum_filter_of_zero fun x hx fails => by
      have := nonpos x hx
      have : ¬x < 0 := of_decide_eq_false fails
      omega
    simp only [none, all, sum]
    rfl

/-- The sign of a figure, times a magnitude, is the magnitude with the sign of the figure's direction (R1). -/
theorem sign_mul_of_direction {x : Int} {d : Direction} (h : directionOf x = some d) (watts : Int) :
    x.sign * watts = d.signed watts := by
  rcases (directionOf_eq_some ..).1 h with ⟨rfl, pos⟩ | ⟨rfl, neg⟩
  · rw [Int.sign_eq_one_of_pos pos, Int.one_mul]
    rfl
  · rw [Int.sign_eq_neg_one_of_neg neg, Int.neg_one_mul]
    rfl

section
variable {s : State} {c : PassCause} {b : Nat} {x : BranchLoad} (found : (s.pass c).disp.branches[b]? = some x)
include found

theorem pass_branch : b < 16 ∧ x = branchLoadOf (s.pass c).roster s.passAllocation.saturated b := by
  rw [pass_branches, List.getElem?_map, Option.map_eq_some_iff] at found
  obtain ⟨i, at_b, rfl⟩ := found
  obtain ⟨range, rfl⟩ := List.getElem?_eq_some_iff.1 at_b
  rw [List.getElem_range]
  exact ⟨by simpa using range, rfl⟩

theorem pass_branch_of_zero (nothing : s.passAllocation = .zero) : x = ⟨0, 0, false⟩ := by
  rw [pass_branches_of_zero nothing] at found
  exact List.eq_of_mem_replicate (List.mem_of_getElem? found)

/-- A pass with a direction records of a branch what its shares are allocated (R133, R137). -/
theorem pass_branch_of_direction (roster : RosterLaw s) (windows : WindowLaw s) {d : Direction} (freeze : s.freeze = false)
    (direction : directionOf s.passTarget = some d) : x =
      d.load (branchWatts (sharesOf s.roster d) (s.windows.inForce.limit d) s.passTarget.natAbs b)
        ((allocate (sharesOf s.roster d) (s.windows.inForce.limit d) s.passTarget.natAbs).saturated.contains b) := by
  obtain ⟨-, rfl⟩ := pass_branch found
  rw [passAllocation_of_direction freeze direction]
  refine branchLoadOf_eq_load _ (fun r mem => ?_) ?_
  · obtain ⟨-, up, down⟩ := pass_setpoint c roster windows mem
    rw [pass_target] at up down
    rcases (directionOf_eq_some ..).1 direction with ⟨rfl, pos⟩ | ⟨rfl, neg⟩
    · exact (up pos).1
    · exact Int.neg_nonneg.2 (down neg).1
  · rw [← sign_mul_of_direction direction]
    exact sum_pass_setpoints roster windows freeze direction c fun e => e.branch == b

/-- What it records of a branch is within the branch's limit, and is the limit where it flags the branch (R133). -/
theorem pass_branch_within (roster : RosterLaw s) (windows : WindowLaw s) {d : Direction} (freeze : s.freeze = false)
    (direction : directionOf s.passTarget = some d) : ∃ watts flag, x = d.load watts flag ∧
      (∀ l, s.windows.inForce.limit d b = some l → watts ≤ l) ∧
      (flag = true → ∃ l, s.windows.inForce.limit d b = some l ∧ watts = l) := by
  have law := passLaw roster windows d
  have range := (pass_branch found).1
  refine ⟨_, _, pass_branch_of_direction found roster windows freeze direction,
    fun l limit => branchWatts_le law (passTarget_mod_ten s) range limit, fun flagged => ?_⟩
  obtain ⟨l, limit, -, sum⟩ := branchWatts_of_saturated law range (List.contains_iff_mem.1 flagged)
  exact ⟨l, limit, sum⟩

end

end Sys2Proof.Machine
end

