-- ==== Sys2Proof/Proofs/PassTotalObligations.lean ====
section
/-! PROOFS. The statements about the sum of all setpoints of a pass and about its sum in a branch (O48, O50). -/

namespace Sys2Proof.Proofs

open Sys2Proof.Machine Sys2Proof.Safety

/-- A command that takes a pass ends in a pass, and in the pass of the timer's state if that reads FREEZE low. -/
theorem pass_of_takesPass {c : Instr} {s t : State} (takes : TakesPass c s) (next : exec c s = .next t) :
    ∃ (u : State) (cause : PassCause), u.pass cause = t ∧ (u = s ∨ u.freeze = true) := by
  rcases takesPass_cases takes next with rfl | ⟨u, high, rfl⟩
  · exact ⟨s, .timer, rfl, .inl rfl⟩
  · exact ⟨u, .freeze, rfl, .inr high⟩

/-- Settles O48: without a target or under FREEZE by the zero allocation, otherwise by the sum of what the shares of the
roster are allocated. -/
theorem passTotal : Obligations.PassTotal := by
  intro c s t roster windows takes next
  obtain ⟨u, cause, rfl, source⟩ := pass_of_takesPass takes next
  intro goal zero
  have target : goal = u.passTarget := by simp only [goal, pass_gen]; rfl
  refine ⟨fun idle => ?idle, fun d low sign => ?_⟩
  case idle =>
    rw [target, pass_freeze] at idle
    have nothing := passAllocation_eq_zero idle
    have dispatched := pass_dispatched_of_zero nothing cause
    have setpoints (r : Site) (mem : r ∈ (u.pass cause).roster) := pass_setpoint_of_zero nothing cause mem
    refine ⟨⟨setpoints, ?_, dispatched, pass_branches_of_zero nothing cause⟩, ?_⟩
    · rw [pass_capacity, nothing]
      rfl
    · rw [pass_shortfall, dispatched, target]
      rfl
  rw [pass_freeze] at low
  obtain rfl : u = s := source.resolve_right (Bool.eq_false_iff.1 low)
  rw [target] at sign ⊢
  have direction : directionOf u.passTarget = some d := (directionOf_eq_some ..).2 sign
  intro total
  have sum : ((u.pass cause).roster.map Site.lastSetpoint).sum = u.passTarget.sign * (total : Int) :=
    sum_all_pass_setpoints roster windows low direction cause
  have dispatched := (pass_dispatched u cause).trans sum
  refine ⟨sum, dispatched, ?_, ?_, fun r mem => ⟨?_, pass_setpoint_of_no_weight roster windows low direction cause mem⟩⟩
  · rw [pass_capacity, passAllocation_of_direction low direction, allocate_capacity, dispatchBound_eq]
  · have nonzero : u.passTarget ≠ 0 := by omega
    rw [pass_shortfall, dispatched, Int.natAbs_mul, Int.natAbs_sign_of_ne_zero nonzero, Nat.one_mul, Int.natAbs_natCast]
  · obtain ⟨-, up, down⟩ := pass_setpoint cause roster windows mem
    rw [pass_target] at up down
    rcases sign with ⟨-, pos⟩ | ⟨-, neg⟩
    · exact Int.mul_nonneg (up pos).1 pos.le
    · exact Int.mul_nonneg_of_nonpos_of_nonpos (down neg).1 neg.le

/-- Settles O50: a pass that gives nothing records zeros; otherwise a branch's record holds what its shares are allocated, on
the side of the target's direction. -/
theorem passBranchLimits : Obligations.PassBranchLimits := by
  intro c s t roster windows takes next b x found w
  obtain ⟨u, cause, rfl, source⟩ := pass_of_takesPass takes next
  rw [pass_target, pass_freeze]
  by_cases idle : u.passTarget = 0 ∨ u.freeze = true
  · obtain rfl := pass_branch_of_zero found (passAllocation_eq_zero idle)
    exact ⟨fun _ => rfl, fun l _ => Int.natCast_nonneg l, fun l _ => Int.neg_nonpos_of_nonneg (Int.natCast_nonneg l), nofun,
      nofun⟩
  push Not at idle
  obtain ⟨nonzero, low⟩ := idle
  obtain rfl : u = s := source.resolve_right low
  obtain ⟨d, direction⟩ := Option.ne_none_iff_exists'.1 (mt (directionOf_eq_none _).1 nonzero)
  obtain ⟨watts, flag, rfl, within, cut⟩ :=
    pass_branch_within found roster windows (Bool.eq_false_iff.2 low) direction
  have windows_eq : w = u.windows.inForce.branch b := by simp only [w, pass_windows]
  rw [windows_eq]
  refine ⟨fun idle => absurd idle (by simp [low, nonzero]), ?_⟩
  rcases (directionOf_eq_some ..).1 direction with ⟨rfl, pos⟩ | ⟨rfl, neg⟩
  · refine ⟨fun l limit => Int.ofNat_le.2 (within l limit), fun l _ => Int.neg_nonpos_of_nonneg (Int.natCast_nonneg l),
      fun flagged _ => ?_, fun _ neg => by omega⟩
    obtain ⟨l, limit, rfl⟩ := cut flagged
    exact ⟨watts, limit, rfl⟩
  · refine ⟨fun l _ => Int.natCast_nonneg l, fun l limit => Int.neg_le_neg (Int.ofNat_le.2 (within l limit)),
      fun _ pos => by omega, fun flagged _ => ?_⟩
    obtain ⟨l, limit, rfl⟩ := cut flagged
    exact ⟨watts, limit, rfl⟩

end Sys2Proof.Proofs
end

