-- ==== Sys2Proof/Proofs/PassRecords.lean ====
section
/-! PROOFS. What a pass records beside its sums, hands to the bus and the journal, raises, and leaves as it was (R127, R137 to
R140, R156, R167). -/

namespace Sys2Proof.Machine

open Sys2Proof.Safety

/-! ### The cause of a new flag (R138) -/

theorem newlySaturated_iff (was now : List BranchLoad) : newlySaturated was now = true ↔
    ∃ (b : Nat) (x y : BranchLoad), was[b]? = some x ∧ now[b]? = some y ∧ x.saturated = false ∧ y.saturated = true := by
  simp only [newlySaturated, List.any_eq_true, List.mem_iff_getElem?, List.getElem?_zip_eq_some, Bool.and_eq_true,
    Bool.not_eq_true']
  exact ⟨fun ⟨p, ⟨b, was, now⟩, flags⟩ => ⟨b, p.1, p.2, was, now, flags⟩,
    fun ⟨b, x, y, was, now, flags⟩ => ⟨(x, y), ⟨b, was, now⟩, flags⟩⟩

section
variable (s : State) (c : PassCause)

/-- A pass raises BRANCH_AT_LIMIT at N where it newly sets a flag (R138). -/
theorem pass_linkN : (s.pass c).linkN = if newlySaturated s.disp.branches (s.pass c).disp.branches then
    s.linkN.raise .branchAtLimit else s.linkN := by
  simp only [State.pass, State.raiseIf]
  split <;> next newly => simp [State.raise, State.setLink, newly]

/-- A pass writes the roster, its record, the bus, the journal and port N, and nothing else (R127). -/
theorem pass_frame : s.pass c = { s with
    roster := (s.pass c).roster, disp := (s.pass c).disp, bus := (s.pass c).bus, journal := (s.pass c).journal
    linkN := (s.pass c).linkN } := by
  simp only [State.pass, State.raiseIf]
  split <;> rfl

/-! ### The roster of a pass (R137) -/

/-- A pass leaves of the records all but their setpoints (R137). -/
theorem pass_roster_zeroed : (s.pass c).roster.map Site.zeroed = s.roster.map Site.zeroed := by
  rw [pass_roster, List.map_map]
  rfl

theorem sitesOf_eq (rs : List Site) (b : Nat) : sitesOf rs b = rs.filter fun r => r.address.toNat / 256 = b :=
  List.filter_congr fun _ _ => beq_eq_decide _ _

/-! ### The blocks of a pass (R139, R156) -/

/-- A pass that hands blocks over leaves the bus; one with none to hand over, or a bus that carries none, leaves it whole. -/
theorem pass_bus_silent (h : s.roster = [] ∨ s.bus.state.carriesBlocks = false) : (s.pass c).bus = s.bus := by
  rw [pass_bus]
  rcases h with none | silent
  · rw [pass_roster, none]
    exact handOver_nil
  · exact handOver_silent silent

theorem pass_queue (carries : s.bus.state.carriesBlocks = true) (any : s.roster ≠ []) : (s.pass c).bus.queue =
    blocksOf (s.pass c).disp.passNumber (s.pass c).disp.passes s.freeze (s.pass c).roster := by
  rw [pass_bus, handOver_carried carries]
  rw [ne_eq, blocksOf_eq_nil_iff, pass_roster, List.map_eq_nil_iff]
  exact any

/-! ### The result at the journal (R140, R167) -/

theorem pass_journal : (s.pass c).journal = s.journal.accumulate ((s.pass c).disp.result c s.freeze) := by
  simp [State.pass]

end

/-- What the result of a timer's pass does to an OPEN record, `mine` being the part delivered in its direction (R167). -/
def Episode.timed (figure mine : Int) (shortfall : Nat) (freeze : Bool) (e : Episode) : Episode :=
  { e with
    targetIntegral := e.targetIntegral + figure.natAbs
    deliveredIntegral := e.deliveredIntegral + (max 0 mine).toNat
    peakDelivered := max e.peakDelivered (max 0 mine).toNat
    maxShortfall := if shortfall = 0 then e.maxShortfall else some (max (e.maxShortfall.getD 0) shortfall)
    flags := { e.flags with freeze := e.flags.freeze || freeze } }

theorem accumulate_of_timer {r : PassResult} (timer : r.cause = .timer) (figure : Int) (e : Episode) :
    e.accumulate figure r = e.timed figure (e.direction.signed r.delivered) r.shortfall r.freeze := by
  have positive : (max 0 (e.direction.signed r.delivered)).toNat = (e.direction.signed r.delivered).toNat := by omega
  have shortfall : (if 0 < r.shortfall then some (max (e.maxShortfall.getD 0) r.shortfall) else e.maxShortfall) =
      if r.shortfall = 0 then e.maxShortfall else some (max (e.maxShortfall.getD 0) r.shortfall) := by
    rcases Nat.eq_zero_or_pos r.shortfall with zero | pos
    · simp [zero]
    · rw [if_pos pos, if_neg (Nat.pos_iff_ne_zero.1 pos)]
  simp only [Episode.accumulate, Episode.timed, timer, if_true, positive, shortfall]

/-- The result of a timer's pass at the journal: every OPEN record takes it with its own kind's figure (R167). -/
theorem journal_accumulate_of_timer (j : Journal) {r : PassResult} (timer : r.cause = .timer) : j.accumulate r =
    { j with records := j.records.map fun e => if e.state = .isOpen then
      e.timed (j.figure e.kind) (e.direction.signed r.delivered) r.shortfall r.freeze else e } := by
  simp only [Journal.accumulate, accumulate_of_timer timer, Episode.opened, beq_iff_eq]

end Sys2Proof.Machine
end

