-- ==== Sys2Proof/Proofs/PassRecordObligations.lean ====
section
/-! PROOFS. The statement about what a pass of the timer records, writes, hands on and raises (O47). -/

namespace Sys2Proof.Proofs

open Sys2Proof.Machine Sys2Proof.Safety

/-- Settles O47: item by item of the record, then the roster, the bus, the journal and port N. -/
theorem passRecords : Obligations.PassRecords := by
  intro s
  refine ⟨s.pass .timer, rfl, ?_⟩
  intro goal setpoints
  have branches := pass_branches s .timer
  refine ⟨pass_number s .timer, pass_passes s .timer, pass_cause s .timer, pass_target .timer, pass_direction s .timer,
    pass_dispatched s .timer, pass_shortfall s .timer, (pass_delivered s .timer).trans (measuredSum_eq _), ?_,
    fun b range => ?branch, pass_roster_zeroed s .timer, ?rest, fun silent => ?silent, fun sites carries => ?blocks,
    ?journal, fun ⟨b, _, x, y, was, now, flags⟩ => ?newly, fun same => ?same, pass_frame s .timer⟩
  · rw [branches, List.length_map, List.length_range]
  case branch =>
    refine ⟨branchLoadOf (s.pass .timer).roster s.passAllocation.saturated b, ?_, ?_, ?_⟩
    · rw [branches, List.getElem?_map, List.getElem?_range range]
      rfl
    · simp only [branchLoadOf, sitesOf_eq, setpoints]
    · simp only [branchLoadOf, sitesOf_eq, setpoints]
  case rest =>
    rw [pass_bus]
    exact handOver_rest _ _
  case silent =>
    refine congrArg Bus.queue (pass_bus_silent s .timer (silent.imp_right fun ⟨running, backoff⟩ => ?_))
    exact Bool.eq_false_iff.2 fun carries => ((carriesBlocks_iff _).1 carries).elim running backoff
  case blocks =>
    rw [pass_queue s .timer ((carriesBlocks_iff _).2 carries) sites, blocksOf_entries]
    refine ⟨List.map_congr_left fun r _ => ?_, fun b mem => mem_blocksOf mem,
      fun b mem => length_of_mem_blocksOf_dropLast mem⟩
    rw [Bool.eq_iff_iff.2 ((isLeaving_iff r).trans decide_eq_true_iff.symm)]
  case journal =>
    rw [pass_journal, journal_accumulate_of_timer _ rfl]
    refine congrArg (fun records => { s.journal with records }) (List.map_congr_left fun e _ => ?_)
    obtain ⟨_, kind, direction⟩ := e
    cases kind <;> cases direction <;> rfl
  case newly =>
    rw [pass_linkN, if_pos ((newlySaturated_iff _ _).2 ⟨b, x, y, was, now, flags⟩)]
  case same =>
    rw [pass_linkN, if_neg]
    rintro newly
    obtain ⟨b, x, y, was, now, clear, set⟩ := (newlySaturated_iff _ _).1 newly
    exact Bool.false_ne_true ((same b x y was now clear).symm.trans set)

end Sys2Proof.Proofs
end

