-- ==== Sys2Proof/Proofs/BusMoves.lean ====
section
/-! PROOFS. What can happen to the items of the fleet bus (R145, R148 to R153, R156 to R161): the moves of the bus,
and each of its operations as moves. -/

namespace Sys2Proof.Machine

open Sys2Proof.Safety

/-! ### The moves -/

/-- Blocks of one pass (R156). -/
def OnePass (q : List Block) : Prop := ∀ b ∈ q, ∀ b' ∈ q, b.pass = b'.pass

/-- One thing that can happen to the items of the bus. -/
inductive BusMove (u : Bus) : Bus → Prop
  /-- SET_ITEMS (R20). -/
  | items (i : ItemSet) : BusMove u { u with items := i }
  /-- The polling pointer moves (R152). -/
  | pointed (a : Address) : BusMove u { u with pointer := a }
  /-- A frame ends, begins in RUNNING, or goes on (R147, R153, R157). -/
  | framed (f : Frame) (live : f = .idle ∨ u.state = .running ∨ u.frame ≠ .idle) : BusMove u { u with frame := f }
  /-- A frame of the part ends cleanly (R161). -/
  | cleared (live : u.frame ≠ .idle) : BusMove u { u with collisions := 0 }
  /-- Blocks leave the queue (R157, R159, R160). -/
  | dropped (q : List Block) (kept : q ⊆ u.queue) : BusMove u { u with queue := q }
  /-- The blocks of a pass replace the queue (R156). -/
  | handed (q : List Block) (carries : u.state.carriesBlocks = true) (one : OnePass q) : BusMove u { u with queue := q }
  /-- BUS_ENABLE (R148). -/
  | enabled (state : u.state = .disabled) : BusMove u { u with state := .running, pointer := 0, collisions := 0 }
  /-- BUS_CONFIG in DISABLED (R150). -/
  | configured (c : BusConfig) (range : ReplyWindowLaw c) : BusMove u { u with config := c }
  /-- BUS_CONFIG in DRAINING (R150). -/
  | held (c : BusConfig) (range : ReplyWindowLaw c) (state : u.state = .draining) :
      BusMove u { u with heldConfig := some c }
  /-- DISABLED is entered (R149). -/
  | disabled : BusMove u u.disabled
  /-- DRAINING is entered (R149). -/
  | draining (state : u.state = .running) : BusMove u { u with state := .draining, queue := [] }
  /-- BUS_RESTORE (R151). -/
  | restored (state : u.state = .fault) : BusMove u { u with state := .running, collisions := 0 }
  /-- A collision up to the third in a row (R161). -/
  | backedOff (state : u.state ≠ .draining) (few : u.collisions < 3) : BusMove u { u with
      state := .backoff, frame := .idle, collisions := u.collisions + 1, backoff := some ((u.collisions + 1) * 10000) }
  /-- The fourth collision in a row (R161). -/
  | faulted (state : u.state ≠ .draining) :
      BusMove u { u with state := .fault, frame := .idle, queue := [], collisions := 4, backoff := none }
  /-- BACKOFF_EXPIRY (R161). -/
  | resumed (state : u.state = .backoff) : BusMove u { u with state := .running, backoff := none }
  /-- A device reset (R3, R145). -/
  | reset : BusMove u Bus.reset

/-- What a command can do to the bus: some moves, one after the other. -/
abbrev BusMoves : Bus → Bus → Prop := Relation.ReflTransGen BusMove

theorem BusMoves.of_eq {u v : Bus} (same : v = u) : BusMoves u v := same ▸ .refl

/-! ### Frames and bus states (R147, R149, R160, R161) -/

section
variable (s : State)

theorem endFrame_busMove : BusMove s.bus s.endFrame.bus := by
  rcases endFrame_cases s with ⟨-, eq⟩ | ⟨-, eq⟩ <;> rw [eq]
  · exact .disabled
  · exact .framed .idle (.inl rfl)

theorem collided_busMove : BusMove s.bus s.collided.bus := by
  rcases collided_cases s with ⟨-, eq⟩ | ⟨state, few, eq⟩ | ⟨state, -, eq⟩ <;> rw [eq]
  · exact .disabled
  · exact .backedOff state few
  · exact .faulted state

theorem free_iff (u : Bus) : u.free = true ↔ u.state = .running ∧ u.frame = .idle := by
  simp [Bus.free]

/-! ### Polls (R152 to R155) -/

theorem setPhase_busMove (a : Address) (i : ItemSet) (ph : PollPhase) (live : s.bus.frame ≠ .idle) :
    BusMove s.bus (s.setPhase a i ph).bus := .framed _ (.inr (.inr live))

theorem endPoll_busMove (a : Address) (o : PollOutcome) : BusMove s.bus (s.endPoll a o).bus :=
  endFrame_busMove (s.failedPoll a o)

theorem goodReport_bus (a : Address) (q : Report) : (s.goodReport a q).bus = s.bus :=
  congrArg Prod.snd (goodReport_line s a q)

theorem takeReply_busMove (a : Address) (bytes : List Byte) : BusMove s.bus (s.takeReply a bytes).bus := by
  rcases takeReply_cases s a bytes with ⟨-, eq⟩ | ⟨-, eq⟩ <;> rw [eq]
  · exact goodReport_bus s a _ ▸ endFrame_busMove (s.goodReport a (reportOf bytes))
  · exact endPoll_busMove s a _

theorem endRound_busMove : BusMove s.bus s.endRound.bus := .pointed 0

theorem beginPoll_busMoves (a : Address) (running : s.bus.state = .running) : BusMoves s.bus (s.beginPoll a).bus := by
  let u : Bus := { s.bus with frame := .poll a s.bus.items .transmitting }
  have framed : BusMove s.bus u := .framed _ (.inr (.inl running))
  have begun : BusMoves s.bus { u with pointer := a + 1 } := .tail (.single framed) (.pointed (a + 1))
  unfold State.beginPoll
  split
  · exact begun.tail (.pointed 0)
  · exact begun

/-! ### Passes and assertions (R156, R159) -/

theorem pass_busMoves (c : PassCause) : BusMoves s.bus (s.pass c).bus := by
  rw [pass_bus, Bus.handOver]
  split
  · next h =>
    refine .single (.handed _ h.1 fun b hb b' hb' => ?_)
    exact (mem_blocksOf hb).1.trans (mem_blocksOf hb').1.symm
  · exact .refl

theorem freezeBus_busMoves : BusMoves s.bus s.freezeBus.bus := by
  by_cases cut : s.bus.cut
  · rw [freezeBus_of_cut cut]
    exact .single .disabled
  · rw [freezeBus_of_not_cut cut]
    let u : Bus := { s.bus with queue := s.bus.queue.filter fun x => x.freeze = true }
    have dropped : BusMove s.bus u := .dropped _ (List.filter_subset_self _)
    have aborted : BusMove u s.bus.frozen := .framed _ (by cases s.bus.frame <;> simp [u])
    exact .tail (.single dropped) aborted

theorem assertFreeze_busMoves : BusMoves s.bus s.assertFreeze.bus :=
  .trans (freezeBus_busMoves ({ s with freeze := true, journal := s.journal.flagFreeze } : State).raiseFreeze)
    (pass_busMoves _ .freeze)

/-! ### Requests (R20, R148 to R151) -/

theorem ofBits_eq_some_iff (rate : Nat) (r : BusRate) : BusRate.ofBits rate = some r ↔ 10000000 = rate * r.bitTime := by
  refine ⟨fun h => ?_, fun h => ?_⟩
  · unfold BusRate.ofBits at h
    split at h <;> cases h <;> rfl
  · have rate_eq : rate = 10000000 / r.bitTime := by cases r <;> simp only [BusRate.bitTime] at h ⊢ <;> omega
    subst rate_eq
    cases r <;> rfl

theorem busConfigOf_eq_some_iff (rate window : Nat) (c : BusConfig) : busConfigOf rate window = some c ↔
    (20 ≤ window ∧ window ≤ 200) ∧ 10000000 = rate * c.rate.bitTime ∧ c.window = window := by
  obtain ⟨r, w⟩ := c
  simp [busConfigOf, ofBits_eq_some_iff, eq_comm (a := w)]

theorem ownBusEnable_busMoves : BusMoves s.bus (ownBusEnable s).state.bus := by
  unfold ownBusEnable
  split
  · next state => exact .single (.enabled state)
  · exact .refl

theorem ownBusDisable_busMoves : BusMoves s.bus (ownBusDisable s).state.bus := by
  unfold ownBusDisable
  split
  · next state =>
    split
    · exact .single .disabled
    · exact .single (.draining state)
  · exact .single .disabled
  · exact .single .disabled
  · exact .refl
  · exact .refl

theorem ownBusConfig_busMoves (rate window : Nat) : BusMoves s.bus (ownBusConfig rate window s).state.bus := by
  unfold ownBusConfig
  split
  · exact .refl
  next c named =>
  have range : ReplyWindowLaw c := by
    obtain ⟨within, -, same⟩ := (busConfigOf_eq_some_iff rate window c).1 named
    rwa [← same] at within
  split
  · exact .single (.configured c range)
  · next state => exact .single (.held c range state)
  · exact .refl

theorem ownBusRestore_busMoves : BusMoves s.bus (ownBusRestore s).state.bus := by
  unfold ownBusRestore
  split
  · next state => exact .single (.restored state)
  · exact .refl

theorem ownSetItems_busMoves (i : ItemsArg) : BusMoves s.bus (ownSetItems i s).state.bus := by
  unfold ownSetItems
  split
  · exact .refl
  · exact .single (.items _)

theorem ownOf_busMoves (p : Port) (r : Request) : BusMoves s.bus (ownOf p r s).state.bus := by
  cases reaches : movesBus r with
  | false => exact .of_eq (congrArg Prod.snd (ownOf_line s p reaches))
  | true =>
  cases r with
  | setItems i => exact ownSetItems_busMoves s i
  | busEnable => exact ownBusEnable_busMoves s
  | busDisable => exact ownBusDisable_busMoves s
  | busConfig rate window => exact ownBusConfig_busMoves s rate window
  | busRestore => exact ownBusRestore_busMoves s
  | _ => nomatch reaches

end

/-! ### Every command -/

section
variable {c : Instr} {s t : State}

theorem request_busMoves {p : Port} {r : Request} (row : requestRow c = some (p, r)) (h : exec c s = .next t) :
    BusMoves s.bus t.bus := by
  rw [exec_request s row] at h
  cases h
  rcases serve_cases s p r (ownOf p r) with eq | ⟨u, code, -, -, eq⟩ | ⟨u, -, -, eq⟩ <;> rw [eq]
  · exact .of_eq (by simp)
  · rw [respond_bus, ← dequeue_bus s p]
    exact ownOf_busMoves _ p r

theorem dispatchBlock_busMoves (h : exec .dispatchBlock s = .next t) : BusMoves s.bus t.bus := by
  cases h
  split
  · exact .refl
  next b rest queue =>
  split
  · next free =>
    have first : BusMove s.bus { s.bus with queue := rest } := .dropped rest (queue ▸ List.subset_cons_self b rest)
    exact .tail (.single first) (.framed _ (.inr (.inl ((free_iff _).1 free).1)))
  · exact .refl

theorem poll_busMoves (h : exec .poll s = .next t) : BusMoves s.bus t.bus := by
  cases h
  split
  · next free =>
    have running : s.bus.state = .running := ((free_iff _).1 (Bool.and_eq_true_iff.1 free).1).1
    split
    · exact beginPoll_busMoves s _ running
    split
    · exact .refl
    split
    · exact .head (endRound_busMove s) (beginPoll_busMoves s.endRound _ running)
    · exact .single (endRound_busMove s)
  · exact .refl

theorem pollSent_busMoves (h : exec .pollSent s = .next t) : BusMoves s.bus t.bus := by
  cases h
  split
  · next frame =>
    have live : s.bus.frame ≠ .idle := by rw [frame]; nofun
    exact .tail (.single (.cleared live)) (setPhase_busMove { s with bus := { s.bus with collisions := 0 } } _ _ _ live)
  · exact .refl

theorem blockComplete_busMoves (h : exec .blockComplete s = .next t) : BusMoves s.bus t.bus := by
  cases h
  split
  · next b frame =>
    have live : s.bus.frame ≠ .idle := by rw [frame]; nofun
    exact .tail (.single (.cleared live)) (endFrame_busMove { s with
      roster := s.roster.filter fun r => !r.endedBy b, bus := { s.bus with collisions := 0 } })
  · exact .refl

theorem collision_busMoves (h : exec .collision s = .next t) : BusMoves s.bus t.bus := by
  cases h
  split
  · exact .single (collided_busMove (s.failedPoll _ .collision))
  · exact .tail (.single (.dropped [] (List.nil_subset _))) (collided_busMove { s with bus := { s.bus with queue := [] } })
  · exact .refl

/-- The events that move a poll on to its reply or give it up (R153, R155). -/
theorem pollPhase_busMoves (moving : c ∈ [Instr.replyStart, .replyParityError]) (h : exec c s = .next t) :
    BusMoves s.bus t.bus := by
  simp only [List.mem_cons, List.not_mem_nil, or_false] at moving
  rcases moving with rfl | rfl
  all_goals
    cases h
    split
    · next frame => exact .single (setPhase_busMove s _ _ _ (by rw [frame]; nofun))
    · exact .refl

theorem rateCheckFailed_busMoves {span : Nat} (h : exec (.rateCheckFailed span) s = .next t) : BusMoves s.bus t.bus := by
  cases h
  split
  · next frame =>
    split
    · exact .refl
    · exact .single (setPhase_busMove s _ _ _ (by rw [frame]; nofun))
  · exact .refl

/-- The events that end a poll with an outcome other than a report (R153 to R155). -/
theorem pollEnd_busMoves (ending : c ∈ [Instr.replyWindowExpiry, .pollEndOnQuiet, .replyGap])
    (h : exec c s = .next t) : BusMoves s.bus t.bus := by
  simp only [List.mem_cons, List.not_mem_nil, or_false] at ending
  rcases ending with rfl | rfl | rfl
  all_goals
    cases h
    split
    · exact .single (endPoll_busMove s _ _)
    · exact .refl

theorem report_busMoves {characters : List (BitVec 11)} (h : exec (.report characters) s = .next t) :
    BusMoves s.bus t.bus := by
  cases h
  split
  · exact .single (takeReply_busMove s _ _)
  · exact .refl

theorem backoffExpiry_busMoves (h : exec .backoffExpiry s = .next t) : BusMoves s.bus t.bus := by
  cases h
  split
  · next state => exact .single (.resumed state)
  · exact .refl

theorem freezeAssertion_busMoves (h : exec .freezeAssertion s = .next t) : BusMoves s.bus t.bus := by
  cases h
  split
  · exact .refl
  · exact assertFreeze_busMoves s

theorem deviceReset_busMoves {f : Bool} {l : ResetLevels} (h : exec (.deviceReset f l) s = .next t) :
    BusMoves s.bus t.bus := by
  have after : t.bus = Bus.reset := by
    cases h
    cases f
    · rfl
    · rw [if_pos rfl, assertFreeze_afterReset]
      rfl
  exact after ▸ .single .reset

theorem event_busMoves (row : requestRow c = none) (h : exec c s = .next t) : BusMoves s.bus t.bus := by
  cases c with
  | deviceReset f l => exact deviceReset_busMoves h
  | passTimerExpiry => cases h; exact pass_busMoves s .timer
  | freezeAssertion => exact freezeAssertion_busMoves h
  | dispatchBlock => exact dispatchBlock_busMoves h
  | poll => exact poll_busMoves h
  | pollSent => exact pollSent_busMoves h
  | replyStart | replyParityError => exact pollPhase_busMoves (by simp) h
  | rateCheckFailed span => exact rateCheckFailed_busMoves h
  | replyWindowExpiry | pollEndOnQuiet | replyGap => exact pollEnd_busMoves (by simp) h
  | report characters => exact report_busMoves h
  | blockComplete => exact blockComplete_busMoves h
  | collision => exact collision_busMoves h
  | backoffExpiry => exact backoffExpiry_busMoves h
  | gsenseRisingEdge edge =>
    rcases gsenseRisingEdge_cases s edge with eq | eq | ⟨e, -, eq⟩ <;> rw [eq] at h <;> cases h
    all_goals exact .of_eq (by simp [State.atEdge])
  | tenthElapsed | rampTimerExpiry | freshnessExpiry a | holdExpiry slot product | shortfallEvaluation | lossTimerExpiry
  | holdTimerExpiry | refreshTimerExpiry | injectionEnd | closingTimerExpiry kind | freezeDeassertion
  | telegramComplete p front request check | overrunResponse p | responseTransmitted p | framingError character
  | lengthOutOfRange p length | gap p | linkBreak p | breakEnd p | telegramLead character =>
    cases h
    refine .of_eq ?_
    repeat' split
    all_goals simp [State.raiseFreeze]
  | _ => nomatch row

/-- Everything a command can do to the bus. -/
theorem exec_busMoves (h : exec c s = .next t) : BusMoves s.bus t.bus := by
  cases row : requestRow c with
  | some pr => exact request_busMoves row h
  | none => exact event_busMoves row h

end

end Sys2Proof.Machine
end

