-- ==== Sys2Proof/Proofs/BusLaws.lean ====
section
/-! PROOFS. The laws of the bus items and of the transmit queue (R145, R148, R149, R156, R161, R162) through every
move of the bus. -/

namespace Sys2Proof.Machine

open Sys2Proof.Safety

/-! ### The law of the bus items -/

/-- The law of the bus items, its parts by name. -/
structure Bus.Lawful (u : Bus) : Prop where
  config : ReplyWindowLaw u.config
  held : ∀ c ∈ u.heldConfig, ReplyWindowLaw c
  interval : ∀ n ∈ u.backoff, n = u.collisions * 10000
  queued : u.queue ≠ [] → u.state.carriesBlocks = true
  sending : u.frame ≠ .idle → u.state = .running ∨ u.state = .draining
  timed : u.backoff.isSome = true ↔ u.state = .backoff
  holding : u.heldConfig.isSome = true → u.state = .draining
  cleared : u.state = .disabled → u.collisions = 0
  fault : u.state = .fault ↔ u.collisions = 4
  few : u.collisions ≤ 4
  counted : u.state = .backoff → 0 < u.collisions

theorem busLaw_iff (s : State) : BusLaw s ↔ s.bus.Lawful :=
  ⟨fun ⟨config, held, interval, queued, sending, timed, holding, cleared, fault, few, counted⟩ =>
      ⟨config, held, interval, queued, sending, timed, holding, cleared, fault, few, counted⟩,
    fun ⟨config, held, interval, queued, sending, timed, holding, cleared, fault, few, counted⟩ =>
      ⟨config, held, interval, queued, sending, timed, holding, cleared, fault, few, counted⟩⟩

section
variable {u v : Bus}

/-- No backoff timer runs out of BACKOFF. -/
theorem Bus.Lawful.backoff_none (law : u.Lawful) (state : u.state ≠ .backoff) : u.backoff = none :=
  Option.not_isSome_iff_eq_none.1 fun runs => state (law.timed.1 runs)

/-- No configuration is held out of DRAINING. -/
theorem Bus.Lawful.held_none (law : u.Lawful) (state : u.state ≠ .draining) : u.heldConfig = none :=
  Option.not_isSome_iff_eq_none.1 fun holds => state (law.holding holds)

/-- A bus that comes to RUNNING out of another state than DRAINING is lawful with its backoff timer stopped and a collision
count below four. -/
theorem Bus.Lawful.of_running (law : u.Lawful) (state : u.state ≠ .draining) (config : v.config = u.config)
    (held : v.heldConfig = u.heldConfig) (running : v.state = .running) (timer : v.backoff = none)
    (few : v.collisions < 4) : v.Lawful where
  config := config ▸ law.config
  held := held ▸ law.held
  interval := by simp [timer]
  queued := fun _ => running ▸ rfl
  sending := fun _ => .inl running
  timed := by simp [timer, running]
  holding := by simp [held, law.held_none state]
  cleared := by simp [running]
  fault := by simp [running, few.ne]
  few := few.le
  counted := by simp [running]

theorem Bus.Lawful.disabled (law : u.Lawful) : u.disabled.Lawful where
  config := by
    cases held : u.heldConfig with
    | none => simpa [Bus.disabled, held] using law.config
    | some c => simpa [Bus.disabled, held] using law.held c held
  held := nofun
  interval := nofun
  queued := absurd rfl
  sending := absurd rfl
  timed := by simp [Bus.disabled]
  holding := nofun
  cleared := fun _ => rfl
  fault := by simp [Bus.disabled]
  few := Nat.zero_le 4
  counted := nofun

theorem lawful_reset : Bus.reset.Lawful := (busLaw_iff _).1 (busLaw_afterReset .ojl256 false 0 false)

/-- Every move of the bus keeps the law of its items. -/
theorem BusMove.lawful (h : BusMove u v) (law : u.Lawful) : v.Lawful := by
  cases h with
  | items i => exact { law with }
  | pointed a => exact { law with }
  | framed f live => exact { law with sending := fun began => live.elim (absurd · began) (·.elim .inl law.sending) }
  | cleared live =>
    have state := law.sending live
    have calm : u.state ≠ .backoff ∧ u.state ≠ .fault := by rcases state with eq | eq <;> simp [eq]
    obtain ⟨backoff, fault⟩ := calm
    exact { law with
      interval := by simp [law.backoff_none backoff]
      cleared := fun _ => rfl
      fault := by simp [fault]
      few := Nat.zero_le 4
      counted := fun eq => absurd eq backoff }
  | dropped q kept => exact { law with queued := fun any => law.queued fun none => any (List.subset_nil.1 (none ▸ kept)) }
  | handed q carries one => exact { law with queued := fun _ => carries }
  | enabled state => exact law.of_running (by simp [state]) rfl rfl rfl (law.backoff_none (by simp [state])) (Nat.succ_pos 3)
  | configured c range => exact { law with config := range }
  | held c range state =>
    exact { law with
      held := fun x hx => Option.some.inj hx ▸ range
      holding := fun _ => state }
  | disabled => exact law.disabled
  | draining state =>
    exact { law with
      queued := absurd rfl
      sending := fun _ => .inr rfl
      timed := by simp [law.backoff_none (by simp [state])]
      holding := fun _ => rfl
      cleared := nofun
      fault := by simpa [state] using law.fault
      counted := nofun }
  | restored state =>
    exact law.of_running (by simp [state]) rfl rfl rfl (law.backoff_none (by simp [state])) (Nat.succ_pos 3)
  | backedOff state few =>
    exact { law with
      interval := fun n hn => (Option.some.inj hn).symm
      queued := fun _ => rfl
      sending := absurd rfl
      timed := by simp
      holding := by simp [law.held_none state]
      cleared := nofun
      fault := by simp [few.ne]
      few := Nat.succ_le_of_lt (few.trans (Nat.lt_succ_self 3))
      counted := fun _ => Nat.succ_pos _ }
  | faulted state =>
    exact { law with
      interval := nofun
      queued := absurd rfl
      sending := absurd rfl
      timed := by simp
      holding := by simp [law.held_none state]
      cleared := nofun
      fault := by simp
      few := Nat.le_refl 4
      counted := nofun }
  | resumed state =>
    have few : u.collisions ≠ 4 := fun four => by simp [law.fault.2 four] at state
    exact law.of_running (by simp [state]) rfl rfl rfl rfl (lt_of_le_of_ne law.few few)
  | reset => exact lawful_reset

/-! ### The transmit queue -/

/-- A move leaves in the queue some of the blocks it held, or puts the blocks of one pass in their place (R156). -/
theorem BusMove.queue (h : BusMove u v) : v.queue ⊆ u.queue ∨ OnePass v.queue := by
  cases h with
  | dropped q kept => exact .inl kept
  | handed q carries one => exact .inr one
  | disabled | draining | faulted | reset => exact .inl (List.nil_subset _)
  | _ => exact .inl (List.Subset.refl _)

theorem BusMove.onePass (h : BusMove u v) (law : OnePass u.queue) : OnePass v.queue :=
  h.queue.elim (fun kept b hb b' hb' => law b (kept hb) b' (kept hb')) id

/-! ### Every step -/

theorem BusMoves.lawful (h : BusMoves u v) (law : u.Lawful) : v.Lawful := by
  induction h with
  | refl => exact law
  | tail _ move ih => exact move.lawful ih

theorem BusMoves.onePass (h : BusMoves u v) (law : OnePass u.queue) : OnePass v.queue := by
  induction h with
  | refl => exact law
  | tail _ move ih => exact move.onePass ih

end

end Sys2Proof.Machine
end

