-- ==== Sys2Proof/Proofs/BusInvariantObligations.lean ====
section
/-! PROOFS. The invariant of the fleet bus (O55), from what every command can do to it. -/

namespace Sys2Proof.Proofs

open Sys2Proof.Machine Sys2Proof.Safety

/-- Settles O55: every command is some moves of the bus, and each move keeps both laws. -/
theorem busInvariant : Obligations.BusInvariant := by
  intro c s t h
  rw [busLaw_iff, busLaw_iff]
  exact ⟨(exec_busMoves h).lawful, (exec_busMoves h).onePass⟩

end Sys2Proof.Proofs
end

