-- ==== Sys2Proof/Proofs/BusRequests.lean ====
section
/-! PROOFS. The requests of the fleet bus: what the bus answers in each of its states (R148 to R151). -/

namespace Sys2Proof.Machine

section
variable {s : State}

/-! ### BUS_ENABLE and BUS_RESTORE (R148, R151) -/

theorem ownBusEnable_ok (state : s.bus.state = .disabled) : ownBusEnable s =
    busAnswer { s with bus := { s.bus with state := .running, pointer := 0, collisions := 0 } } .ok := if_pos state

theorem ownBusEnable_notNow (state : s.bus.state ≠ .disabled) : ownBusEnable s = busAnswer s .notNow := if_neg state

theorem ownBusRestore_ok (state : s.bus.state = .fault) : ownBusRestore s =
    busAnswer { s with bus := { s.bus with state := .running, collisions := 0 } } .ok := if_pos state

theorem ownBusRestore_notNow (state : s.bus.state ≠ .fault) : ownBusRestore s = busAnswer s .notNow := if_neg state

/-! ### BUS_DISABLE (R149) -/

theorem enterDraining_eq : s.enterDraining = { s with
    bus := { s.bus with state := .draining, queue := [] }
    roster := s.roster.filter fun r => r.lifecycle ≠ .leaving } := by
  rw [← deleteLeaving_eq]
  rfl

theorem ownBusDisable_idle (state : s.bus.state = .running) (frame : s.bus.frame = .idle) : ownBusDisable s =
    busAnswer { s with bus := s.bus.disabled, roster := s.roster.filter fun r => r.lifecycle ≠ .leaving } .ok := by
  rw [← enterDisabled_eq]
  simp only [ownBusDisable, state, if_pos frame]

theorem ownBusDisable_drains (state : s.bus.state = .running) (frame : s.bus.frame ≠ .idle) : ownBusDisable s =
    busAnswer { s with bus := { s.bus with state := .draining, queue := [] }
                       roster := s.roster.filter fun r => r.lifecycle ≠ .leaving } .ok := by
  rw [← enterDraining_eq]
  simp only [ownBusDisable, state, if_neg frame]

theorem ownBusDisable_stopped (state : s.bus.state = .backoff ∨ s.bus.state = .fault) : ownBusDisable s =
    busAnswer { s with bus := s.bus.disabled, roster := s.roster.filter fun r => r.lifecycle ≠ .leaving } .ok := by
  rw [← enterDisabled_eq]
  rcases state with state | state <;> simp only [ownBusDisable, state]

theorem ownBusDisable_already (state : s.bus.state = .disabled ∨ s.bus.state = .draining) :
    ownBusDisable s = busAnswer s .ok := by
  rcases state with state | state <;> simp only [ownBusDisable, state]

/-! ### BUS_CONFIG (R150) -/

theorem busConfigOf_eq_none {rate window : Nat}
    (h : (rate ≠ 250000 ∧ rate ≠ 500000 ∧ rate ≠ 1000000) ∨ window < 20 ∨ 200 < window) :
    busConfigOf rate window = none := by
  refine Option.eq_none_iff_forall_not_mem.2 fun c named => ?_
  obtain ⟨range, bits, -⟩ := (busConfigOf_eq_some_iff rate window c).1 named
  cases rate_eq : c.rate <;> simp only [rate_eq, BusRate.bitTime] at bits <;> omega

variable {rate window : Nat} {c : BusConfig}

theorem ownBusConfig_badValue (named : busConfigOf rate window = none) :
    ownBusConfig rate window s = busAnswer s .badValue := by
  simp only [ownBusConfig, named]

section
variable (named : busConfigOf rate window = some c)
include named

theorem ownBusConfig_ok (state : s.bus.state = .disabled) :
    ownBusConfig rate window s = busAnswer { s with bus := { s.bus with config := c } } .ok := by
  simp only [ownBusConfig, named, state]

theorem ownBusConfig_held (state : s.bus.state = .draining) :
    ownBusConfig rate window s = busAnswer { s with bus := { s.bus with heldConfig := some c } } .held := by
  simp only [ownBusConfig, named, state]

theorem ownBusConfig_notNow (disabled : s.bus.state ≠ .disabled) (draining : s.bus.state ≠ .draining) :
    ownBusConfig rate window s = busAnswer s .notNow := by
  cases state : s.bus.state with
  | disabled => exact absurd state disabled
  | draining => exact absurd state draining
  | running | backoff | fault => simp only [ownBusConfig, named, state]

end

end

end Sys2Proof.Machine
end

