-- ==== Sys2Proof/Proofs/BusRequestObligations.lean ====
section
/-! PROOFS. The statement about the requests of the fleet bus. -/

namespace Sys2Proof.Proofs

open Sys2Proof.Machine Sys2Proof.Safety

/-- Settles O51: each request by the bus's answer in its state. -/
theorem busRequests : Obligations.BusRequests := by
  intro p t s
  rw [← dequeue_bus s p, ← dequeue_roster s p]
  intro d answerOf disabled stays moves
  refine ⟨fun admitted => ⟨fun state => ?_, fun state => ?_⟩,
    fun admitted => ⟨fun state frame => ?_, fun state frame => ?_, fun state => ?_, fun state => ?_⟩,
    fun rate window admitted => ⟨fun outside => ?_, fun r low high bits => ?config⟩,
    fun admitted => ⟨fun state => ?_, fun state => ?_⟩⟩
  · exact answers_of_admitted rfl admitted (ownBusEnable_ok state)
  · exact answers_of_admitted rfl admitted (ownBusEnable_notNow state)
  · exact answers_of_admitted rfl admitted (ownBusDisable_idle state frame)
  · exact answers_of_admitted rfl admitted (ownBusDisable_drains state frame)
  · exact answers_of_admitted rfl admitted (ownBusDisable_stopped state)
  · exact answers_of_admitted rfl admitted (ownBusDisable_already state)
  · exact answers_of_admitted rfl admitted (ownBusConfig_badValue (busConfigOf_eq_none outside))
  case config =>
    have named := (busConfigOf_eq_some_iff rate window ⟨r, window⟩).2 ⟨⟨low, high⟩, bits, rfl⟩
    exact ⟨fun state => answers_of_admitted rfl admitted (ownBusConfig_ok named state),
      fun state => answers_of_admitted rfl admitted (ownBusConfig_held named state),
      fun disabled draining => answers_of_admitted rfl admitted (ownBusConfig_notNow named disabled draining)⟩
  · exact answers_of_admitted rfl admitted (ownBusRestore_ok state)
  · exact answers_of_admitted rfl admitted (ownBusRestore_notNow state)

end Sys2Proof.Proofs
end

