-- ==== Sys2Proof/Proofs/FrameFormat.lean ====
section
/-! PROOFS. What a frame in transmission puts on the line: its bytes, its levels and FBDE (R145 to R147, R183). -/

namespace Sys2Proof.Machine

/-! ### Frames in transmission (R145, R147) -/

/-- The frame is in transmission: a poll that is not sent yet, or a block. -/
def Frame.Sends (f : Frame) : Prop := (∃ a i, f = .poll a i .transmitting) ∨ ∃ x, f = .block x

section
variable {f : Frame}

/-- FBDE is asserted exactly over a frame in transmission (R147). -/
theorem driving_iff_sends : f.driving = true ↔ f.Sends := by
  cases f with
  | idle => simp [Frame.driving, Frame.Sends]
  | poll a i ph => cases ph <;> simp [Frame.driving, Frame.Sends]
  | block x => simp [Frame.driving, Frame.Sends]

theorem withCheck_ne_nil (bs : List Byte) : withCheck bs ≠ [] := by simp [withCheck, bytesOf]

theorem bytes_ne_nil (h : f.Sends) : f.bytes ≠ [] := by
  rcases h with ⟨a, i, rfl⟩ | ⟨x, rfl⟩
  · exact withCheck_ne_nil _
  · exact withCheck_ne_nil _

theorem bytes_of_quiet (h : ¬f.Sends) : f.bytes = [] := by
  cases f with
  | idle => rfl
  | poll a i ph =>
    cases ph with
    | transmitting => exact absurd (.inl ⟨a, i, rfl⟩) h
    | awaiting | receiving | failed o => rfl
  | block x => exact absurd (.inr ⟨x, rfl⟩) h

theorem levels_of_quiet (h : ¬f.Sends) : f.levels = [] := by
  rw [Frame.levels, bytes_of_quiet h]

/-- The levels of a frame: the leader, the mark, its characters and the guard (R146, R147). -/
theorem levels_of_sends (h : f.Sends) : f.levels = List.replicate 14 false ++ List.replicate 2 true ++
    f.bytes.flatMap Safety.busLevels ++ List.replicate 2 true := by
  have characters : f.bytes.flatMap Safety.busLevels = (f.bytes.map fun b => levelsOf (busCharacter b)).flatten := by
    simp only [levelsOf_busCharacter, List.flatMap_def]
  rw [characters]
  unfold Frame.levels
  split
  · next none => exact absurd none (bytes_ne_nil h)
  · rfl

end

/-! ### The bytes of a frame (R183) -/

/-- An address in two bytes, its high four bits in the first (R2). -/
theorem bytesOf_address (a : Address) :
    bytesOf (a.zeroExtend 16) = [BitVec.ofNat 8 (a.toNat / 256), BitVec.ofNat 8 a.toNat] := by
  have width : a.toNat < 65536 := a.isLt.trans (by decide)
  have high : (a.zeroExtend 16).extractLsb' 8 8 = BitVec.ofNat 8 (a.toNat / 256) :=
    BitVec.eq_of_toNat_eq (by simp [Nat.shiftRight_eq_div_pow, Nat.mod_eq_of_lt width])
  have low : (a.zeroExtend 16).extractLsb' 0 8 = BitVec.ofNat 8 a.toNat :=
    BitVec.eq_of_toNat_eq (by simp [Nat.mod_eq_of_lt width])
  rw [bytesOf, high, low]

theorem pollBytes_eq (a : Address) (i : ItemSet) : pollBytes a i = withCheck ([0x71] ++
    [BitVec.ofNat 8 (a.toNat / 256), BitVec.ofNat 8 a.toNat] ++
      [BitVec.ofNat 8 ((if i.household then 2 else 0) + if i.pv then 4 else 0)]) := by
  obtain ⟨household, pv⟩ := i
  rw [pollBytes, bytesOf_address]
  cases household <;> cases pv <;> rfl

theorem blockBytes_eq (x : Block) : x.bytes = withCheck ([0x72, BitVec.ofNat 8 x.entries.length] ++
    x.entries.flatMap fun e => [BitVec.ofNat 8 (e.address.toNat / 256), BitVec.ofNat 8 e.address.toNat] ++
      bytesOf (BitVec.ofInt 16 (e.setpoint.tdiv 10))) := by
  simp only [Block.bytes, List.flatMap_def, ← bytesOf_address]
  rfl

end Sys2Proof.Machine
end

