-- ==== Sys2Proof/Proofs/Arbiter.lean ====
section
/-! PROOFS. The arbiter of the fleet bus: the block or the poll it begins, and the polling round (R147, R152, R153,
R157, R159, R161). -/

namespace Sys2Proof.Machine

section
variable {s : State}

theorem free_eq_false (h : ¬(s.bus.state = .running ∧ s.bus.frame = .idle)) : s.bus.free = false :=
  Bool.eq_false_iff.2 fun free => h ((free_iff _).1 free)

/-! ### Blocks (R157, R159) -/

theorem dispatchBlock_no_queue (queue : s.bus.queue = []) : exec .dispatchBlock s = .next s := by
  simp only [exec, execDispatchBlock, queue]

theorem dispatchBlock_not_free (h : ¬(s.bus.state = .running ∧ s.bus.frame = .idle)) :
    exec .dispatchBlock s = .next s := by
  cases queue : s.bus.queue with
  | nil => exact dispatchBlock_no_queue queue
  | cons x rest => simp [exec, execDispatchBlock, queue, free_eq_false h]

section
variable (free : s.bus.state = .running ∧ s.bus.frame = .idle) {x : Block} {rest : List Block}
  (queue : s.bus.queue = x :: rest)
include free queue

/-- The first queued block begins, or under FREEZE goes where its pass read FREEZE low (R157, R159). -/
theorem dispatchBlock_first : exec .dispatchBlock s = .next { s with bus := { s.bus with
    queue := rest, frame := if s.freeze && !x.freeze then .idle else .block x } } := by
  simp only [exec, execDispatchBlock, queue, (free_iff _).2 free, if_true]

theorem dispatchBlock_discards (high : s.freeze = true) (low : x.freeze = false) :
    exec .dispatchBlock s = .next { s with bus := { s.bus with queue := rest } } := by
  rw [dispatchBlock_first free queue, high, low, ← free.2]
  rfl

theorem dispatchBlock_begins (h : s.freeze = false ∨ x.freeze = true) :
    exec .dispatchBlock s = .next { s with bus := { s.bus with queue := rest, frame := .block x } } := by
  have stays : (s.freeze && !x.freeze) = false := by rcases h with h | h <;> simp [h]
  rw [dispatchBlock_first free queue, stays]
  rfl

end

/-! ### The polling round (R152, R153) -/

/-- The record whose poll is next from a pointer (R152). -/
def nextSite (rs : List Site) (p : Address) : Option Site := rs.find? fun r => p.toNat ≤ r.address.toNat

theorem nextPolled_eq (rs : List Site) (p : Address) : nextPolled rs p = (nextSite rs p).map Site.address := rfl

/-- The poll of an address begins: its record is marked, the pointer moves past it (R152, log 27). -/
def State.polling (s : State) (a : Address) : State :=
  { s with
    roster := s.roster.map fun r => { r with polled := decide (r.address = a) }
    bus := { s.bus with frame := .poll a s.bus.items .transmitting, pointer := a + 1 } }

theorem beginPoll_eq (s : State) (a : Address) :
    s.beginPoll a = if a = 0xFFF then (s.polling a).endRound else s.polling a := by
  simp only [State.beginPoll, State.polling, markPolled, beq_eq_decide]

theorem poll_not_free (h : ¬(s.bus.state = .running ∧ s.bus.frame = .idle)) : exec .poll s = .next s := by
  simp [exec, execPoll, free_eq_false h]

theorem poll_of_queue {x : Block} {rest : List Block} (queue : s.bus.queue = x :: rest) : exec .poll s = .next s := by
  simp [exec, execPoll, queue]

section
variable (free : s.bus.state = .running ∧ s.bus.frame = .idle) (queue : s.bus.queue = [])
include free queue

theorem poll_site {r : Site} (next : nextSite s.roster s.bus.pointer = some r) :
    exec .poll s = .next (s.beginPoll r.address) := by
  simp [exec, execPoll, queue, (free_iff _).2 free, nextPolled_eq, next]

section
variable (next : nextSite s.roster s.bus.pointer = none)
include next

/-- From 000h on there is no site at all. -/
theorem poll_no_site (start : s.bus.pointer = 0) : exec .poll s = .next s := by
  simp only [exec, execPoll, queue, (free_iff _).2 free, nextPolled_eq, next, Option.map_none, if_pos start]
  rfl

/-- Past the last site the round ends, and the arbiter looks again from 000h (R152). -/
theorem poll_round (past : s.bus.pointer ≠ 0) : exec .poll s = .next
    (((nextSite s.roster 0).map fun r => s.endRound.beginPoll r.address).getD s.endRound) := by
  simp only [exec, execPoll, queue, (free_iff _).2 free, nextPolled_eq, next, Option.map_none, if_neg past]
  cases nextSite s.roster 0 <;> rfl

end

end

/-! ### POLL_SENT and BACKOFF_EXPIRY (R153, R161) -/

theorem pollSent_of_poll {a : Address} {i : ItemSet} (frame : s.bus.frame = .poll a i .transmitting) :
    exec .pollSent s = .next { s with bus := { s.bus with collisions := 0, frame := .poll a i .awaiting } } := by
  simp only [exec, execPollSent, frame, State.setPhase]

theorem pollSent_of_no_poll (h : ∀ a i, s.bus.frame ≠ .poll a i .transmitting) : exec .pollSent s = .next s := by
  simp only [exec, execPollSent]

theorem backoffExpiry_of_backoff (state : s.bus.state = .backoff) :
    exec .backoffExpiry s = .next { s with bus := { s.bus with state := .running, backoff := none } } :=
  congrArg _ (if_pos state)

theorem backoffExpiry_of_not_backoff (state : s.bus.state ≠ .backoff) : exec .backoffExpiry s = .next s :=
  congrArg _ (if_neg state)

end

end Sys2Proof.Machine
end

