-- ==== Sys2Proof/Proofs/ArbiterObligations.lean ====
section
/-! PROOFS. The statement about the arbiter and its frames. -/

namespace Sys2Proof.Proofs

open Sys2Proof.Machine Sys2Proof.Safety

/-- Settles O52: the events by the bus state, the queue and the pointer, the frames by their kind. -/
theorem arbiter : Obligations.Arbiter := by
  refine ⟨fun s => ?events, fun f => ?line, fun a i => pollBytes_eq a i, fun x => blockBytes_eq x⟩
  case events =>
    intro b free next ended polling
    refine ⟨fun busy => ⟨dispatchBlock_not_free busy, poll_not_free busy⟩, dispatchBlock_no_queue,
      fun x rest free queue => ⟨poll_of_queue queue, dispatchBlock_discards free queue, dispatchBlock_begins free queue⟩,
      fun free queue => ⟨fun r next inside => ?_, fun r next last => ?_, poll_no_site free queue,
        fun next past none => ?_, fun r next past first inside => ?_⟩,
      fun a i => pollSent_of_poll, pollSent_of_no_poll, backoffExpiry_of_backoff, backoffExpiry_of_not_backoff⟩
    · rw [poll_site free queue next, beginPoll_eq, if_neg inside]
      rfl
    · rw [poll_site free queue next, beginPoll_eq, if_pos last]
      rfl
    · refine (poll_round free queue next past).trans ?_
      rw [show nextSite s.roster 0 = _ from none]
      rfl
    · refine (poll_round free queue next past).trans ?_
      rw [show nextSite s.roster 0 = _ from first, Option.map_some, Option.getD_some, beginPoll_eq, if_neg inside]
      rfl
  case line =>
    intro sends
    refine ⟨driving_iff_sends, fun quiet => ⟨bytes_of_quiet quiet, levels_of_quiet quiet, fun n => ?_⟩, fun n => rfl,
      levels_of_sends⟩
    rw [Frame.fbtx, levels_of_quiet quiet]
    rfl

end Sys2Proof.Proofs
end

