-- ==== Sys2Proof/Proofs/OpenRecords.lean ====
section
/-! PROOFS. The OPEN records of a kind, and the journal's laws kind by kind: what the records have of the figure that they
follow (R163, R164). -/

namespace Sys2Proof.Machine

open Sys2Proof.Safety

/-! ### What the laws read of a record (R163, R164) -/

/-- The items of an OPEN record of kind `k` that follow the kind's figure: its closing timer and its direction. Absent for
every other record. -/
def Episode.openAs (k : Kind) (e : Episode) : Option (Bool × Direction) :=
  if e.openOf k then some (e.closingTimer, e.direction) else none

/-- The closing timers and directions of a kind's OPEN records. -/
def Journal.opens (j : Journal) (k : Kind) : List (Bool × Direction) := j.records.filterMap (Episode.openAs k)

theorem openAs_eq_some_iff {k : Kind} {e : Episode} {o : Bool × Direction} :
    e.openAs k = some o ↔ (e.state = .isOpen ∧ e.kind = k) ∧ (e.closingTimer, e.direction) = o := by
  simp [Episode.openAs, openOf_iff]

theorem isSome_openAs (k : Kind) (e : Episode) : (e.openAs k).isSome = e.openOf k := by
  cases isOpen : e.openOf k <;> simp [Episode.openAs, isOpen]

theorem mem_opens_iff {j : Journal} {k : Kind} {o : Bool × Direction} : o ∈ j.opens k ↔
    ∃ e ∈ j.records, (e.state = .isOpen ∧ e.kind = k) ∧ (e.closingTimer, e.direction) = o := by
  simp only [Journal.opens, List.mem_filterMap, openAs_eq_some_iff]

theorem length_opens (j : Journal) (k : Kind) : (j.opens k).length = j.records.countP (Episode.openOf k) := by
  simp only [Journal.opens, List.length_filterMap_eq_countP, isSome_openAs]

/-- Only the OPEN records of a kind count. -/
theorem filterMap_openAs_filter (rs : List Episode) (k : Kind) :
    (rs.filter (Episode.openOf k)).filterMap (Episode.openAs k) = rs.filterMap (Episode.openAs k) := by
  rw [List.filterMap_filter]
  refine List.filterMap_congr fun e _ => ?_
  cases isOpen : e.openOf k <;> simp [Episode.openAs, isOpen]

theorem opens_eq_nil_iff {j : Journal} {k : Kind} :
    j.opens k = [] ↔ ∀ e ∈ j.records, ¬(e.state = .isOpen ∧ e.kind = k) := by
  simp only [Journal.opens, List.filterMap_eq_nil_iff, Episode.openAs, ite_eq_right_iff, reduceCtorEq, imp_false, openOf_iff]

/-! ### The laws, kind by kind (R163, R164) -/

/-- The OPEN records that a figure of a kind leaves: none, or one whose closing timer runs, at 0, and at any other figure one
of the figure's sign whose closing timer does not run (R164). -/
inductive Follows : Int → List (Bool × Direction) → Prop
  | none : Follows 0 []
  | closing (d : Direction) : Follows 0 [(true, d)]
  | active {x : Int} {d : Direction} (sign : directionOf x = some d) : Follows x [(false, d)]

/-- The laws of the journal: room for its records, and each kind's OPEN records following its figure. -/
structure Journal.Lawful (j : Journal) : Prop where
  room : j.records.length ≤ 32
  follows : ∀ k, Follows (j.figure k) (j.opens k)

theorem ne_zero_of_directionOf {x : Int} {d : Direction} (sign : directionOf x = some d) : x ≠ 0 := by
  rintro rfl
  cases sign

theorem Follows.length_le_one {x : Int} {os : List (Bool × Direction)} (h : Follows x os) : os.length ≤ 1 := by
  cases h <;> simp

theorem follows_iff {x : Int} {os : List (Bool × Direction)} : Follows x os ↔
    os.length ≤ 1 ∧ (∀ o ∈ os, (o.1 = true ↔ x = 0) ∧ (x ≠ 0 → directionOf x = some o.2)) ∧ (x ≠ 0 → os ≠ []) := by
  refine ⟨fun h => ⟨h.length_le_one, ?_⟩, fun ⟨one, each, any⟩ => ?_⟩
  · cases h with
    | none | closing => simp
    | active sign => simp [ne_zero_of_directionOf sign, sign]
  · match os with
    | [] =>
      obtain rfl : x = 0 := by_contra fun figure => any figure rfl
      exact .none
    | [(timer, d)] =>
      obtain ⟨timer_iff, sign⟩ := each _ List.mem_cons_self
      cases timer with
      | true =>
        obtain rfl := timer_iff.1 rfl
        exact .closing d
      | false => exact .active (sign fun zero => Bool.false_ne_true (timer_iff.2 zero))
    | _ :: _ :: _ => simp at one

/-- The laws of the journal, kind by kind. -/
theorem journal_lawful_iff (s : State) : JournalLaw s ∧ EpisodeLaw s ↔ s.journal.Lawful := by
  have each : (∀ e ∈ s.journal.records, e.opened →
      (e.closingTimer ↔ s.journal.figure e.kind = 0) ∧
      (s.journal.figure e.kind ≠ 0 → directionOf (s.journal.figure e.kind) = some e.direction)) ↔
      ∀ k, ∀ o ∈ s.journal.opens k, (o.1 = true ↔ s.journal.figure k = 0) ∧
        (s.journal.figure k ≠ 0 → directionOf (s.journal.figure k) = some o.2) := by
    refine ⟨fun h k o mem => ?_, fun h e mem isOpen => ?_⟩
    · obtain ⟨e, record, ⟨isOpen, rfl⟩, rfl⟩ := mem_opens_iff.1 mem
      exact h e record (by simp [Episode.opened, isOpen])
    · exact h e.kind _ (mem_opens_iff.2 ⟨e, mem, ⟨by simpa [Episode.opened] using isOpen, rfl⟩, rfl⟩)
  have any (k : Kind) : s.journal.records.any (Episode.openOf k) = true ↔ s.journal.opens k ≠ [] := by
    rw [ne_eq, opens_eq_nil_iff]
    simp [openOf_iff]
  simp only [JournalLaw, EpisodeLaw, each, any, ← length_opens]
  refine ⟨fun ⟨⟨room, fl, sl⟩, each, flAny, slAny⟩ => ⟨room, fun k => follows_iff.2 ⟨?_, each k, ?_⟩⟩,
    fun ⟨room, follows⟩ => ?_⟩
  · cases k
    · exact fl
    · exact sl
  · cases k
    · exact flAny
    · exact slAny
  · have law (k : Kind) := follows_iff.1 (follows k)
    exact ⟨⟨room, (law .fl).1, (law .sl).1⟩, fun k => (law k).2.1, (law .fl).2.2, (law .sl).2.2⟩

end Sys2Proof.Machine
end

