-- ==== Sys2Proof/Proofs/RecordChanges.lean ====
section
/-! PROOFS. The journal's laws through each change of its records: marks, releases, a closing timer's expiry, the opening of a
record, a change of figure and the test events (R164 to R170). -/

namespace Sys2Proof.Machine

open Sys2Proof.Safety

/-! ### Figures (R163, R164) -/

theorem figure_store (j : Journal) (k : Kind) (x : Int) : (j.store k x).figure = Function.update j.figure k x := by
  funext k'
  cases k <;> cases k' <;> rfl

@[simp] theorem records_store (j : Journal) (k : Kind) (x : Int) : (j.store k x).records = j.records := by cases k <;> rfl

theorem store_figure (j : Journal) (k : Kind) : j.store k (j.figure k) = j := by cases k <;> rfl

theorem figure_changeOpen (j : Journal) (k : Kind) (x : Int) (f : Episode → Episode) :
    (j.changeOpen k x f).figure = Function.update j.figure k x := figure_store j k x

@[simp] theorem figure_openRecord (j : Journal) (k : Kind) (x : Int) (now : Option Time) :
    (j.openRecord k x now).figure = j.figure := by
  rcases openRecord_cases j k x now with ⟨-, eq⟩ | ⟨e, -, -, -, -, -, -, eq⟩ <;> rw [eq]
  rfl

/-! ### Marks and releases (R165, R167, R169, R170) -/

section
variable {j : Journal} {f : Episode → Episode}

theorem filterMap_openAs_map {k : Kind} (same : ∀ e, (f e).openAs k = e.openAs k) (rs : List Episode) :
    (rs.map f).filterMap (Episode.openAs k) = rs.filterMap (Episode.openAs k) := by
  rw [List.filterMap_map]
  exact List.filterMap_congr fun e _ => same e

/-- Marks on the records leave the laws. -/
theorem Journal.Lawful.marked (h : j.Lawful) (same : ∀ k e, (f e).openAs k = e.openAs k) :
    ({ j with records := j.records.map f } : Journal).Lawful := by
  refine ⟨by simpa using h.room, fun k => ?_⟩
  rw [Journal.opens, filterMap_openAs_map (same k)]
  exact h.follows k

/-- Records that are not OPEN may leave the journal. -/
theorem Journal.Lawful.released (h : j.Lawful) {keep : Episode → Bool}
    (opened : ∀ e, e.state = .isOpen → keep e = true) : ({ j with records := j.records.filter keep } : Journal).Lawful := by
  refine ⟨(List.length_filter_le _ _).trans h.room, fun k => ?_⟩
  have same : ({ j with records := j.records.filter keep } : Journal).opens k = j.opens k := by
    simp only [Journal.opens, List.filterMap_filter]
    refine List.filterMap_congr fun e _ => ?_
    by_cases isOpen : e.state = .isOpen
    · rw [if_pos (opened e isOpen)]
    · simp [Episode.openAs, openOf_iff, isOpen]
  exact same ▸ h.follows k

end

/-! ### A change of a kind's OPEN record (R164) -/

section
variable {j : Journal} {k : Kind} {x : Int} {f : Episode → Episode}

theorem opens_changeOpen_ne (kind : ∀ e, (f e).kind = e.kind) {k' : Kind} (other : k' ≠ k) :
    (j.changeOpen k x f).opens k' = j.opens k' := by
  refine filterMap_openAs_map (fun e => ?_) j.records
  split
  · next mine => simp [Episode.openAs, openOf_iff, kind, mine, other.symm]
  · rfl

/-- What the change makes of an OPEN record, `g` of what the laws read of it, it makes of the kind's list. -/
theorem opens_changeOpen_self (g : Bool × Direction → Option (Bool × Direction))
    (each : ∀ e, e.state = .isOpen → e.kind = k → (f e).openAs k = g (e.closingTimer, e.direction)) :
    (j.changeOpen k x f).opens k = (j.opens k).filterMap g := by
  simp only [Journal.opens, Journal.changeOpen, List.filterMap_map, List.filterMap_filterMap]
  refine List.filterMap_congr fun e _ => ?_
  by_cases mine : e.state = .isOpen ∧ e.kind = k
  · have read : e.openAs k = some (e.closingTimer, e.direction) := openAs_eq_some_iff.2 ⟨mine, rfl⟩
    rw [Function.comp_apply, if_pos mine, each e mine.1 mine.2, read, Option.bind_some]
  · have none : e.openAs k = none := if_neg (mt (openOf_iff k e).1 mine)
    rw [Function.comp_apply, if_neg mine, none, Option.bind_none]

/-- A change of a kind's OPEN record keeps the laws where the kind's list follows the figure that it stores. -/
theorem Journal.Lawful.changeOpen (h : j.Lawful) (kind : ∀ e, (f e).kind = e.kind)
    (g : Bool × Direction → Option (Bool × Direction))
    (each : ∀ e, e.state = .isOpen → e.kind = k → (f e).openAs k = g (e.closingTimer, e.direction))
    (follows : Follows x ((j.opens k).filterMap g)) : (j.changeOpen k x f).Lawful := by
  refine ⟨by simpa [Journal.changeOpen] using h.room, fun k' => ?_⟩
  rw [figure_changeOpen]
  by_cases mine : k' = k
  · subst mine
    rwa [Function.update_self, opens_changeOpen_self g each]
  · rw [Function.update_of_ne mine, opens_changeOpen_ne kind mine]
    exact h.follows k'

theorem Follows.expired {os : List (Bool × Direction)} (h : Follows x os) :
    Follows x (os.filterMap fun o => if o.1 = true then Option.none else some o) := by
  cases h with
  | none => exact .none
  | closing d => exact .none
  | active sign => exact .active sign

/-- A closing timer's expiry closes the kind's record where its timer runs, and then the figure is 0 (R164). -/
theorem Journal.Lawful.expired (h : j.Lawful) (k : Kind) (now : Option Time) :
    (j.mapOpen (fun e => e.kind == k && e.closingTimer) (Episode.close now)).Lawful := by
  have change : j.mapOpen (fun e => e.kind == k && e.closingTimer) (Episode.close now) =
      j.changeOpen k (j.figure k) fun e => if e.closingTimer = true then e.close now else e := by
    simp only [Journal.mapOpen, Journal.changeOpen, store_figure, Episode.opened, Bool.and_eq_true, beq_iff_eq, ite_and]
  rw [change]
  refine h.changeOpen (fun e => by split <;> rfl) _ (fun e isOpen kind => ?_) (h.follows k).expired
  split
  · simp [Episode.openAs, openOf_iff, Episode.close]
  · exact openAs_eq_some_iff.2 ⟨⟨isOpen, kind⟩, rfl⟩

end

/-! ### Room and a new record (R163, R168) -/

/-- Where no more than one record of each kind is OPEN, a full journal has one to drop. -/
theorem exists_not_open {j : Journal} (full : 32 ≤ j.records.length) (one : ∀ k, (j.opens k).length ≤ 1) :
    ∃ e ∈ j.records, e.state ≠ .isOpen := by
  by_contra all
  push Not at all
  have kinds : j.records.countP (fun e => ¬e.openOf .fl = true) = j.records.countP (Episode.openOf .sl) := by
    refine List.countP_congr fun e mem => ?_
    have isOpen := all e mem
    cases kind : e.kind <;> simp [openOf_iff, isOpen, kind]
  have sum := List.length_eq_countP_add_countP (Episode.openOf .fl) (l := j.records)
  have fl := length_opens j .fl ▸ one .fl
  have sl := length_opens j .sl ▸ one .sl
  omega

theorem length_makeRoom_lt {rs : List Episode} (room : rs.length ≤ 32)
    (spare : 32 ≤ rs.length → ∃ e ∈ rs, e.state ≠ .isOpen) : (makeRoom rs).1.length < 32 := by
  by_cases full : 32 ≤ rs.length
  · have drop {state : EpisodeState} (any : (rs.any fun e => e.state == state) = true) :
        (rs.eraseP fun e => e.state == state).length < 32 := by
      obtain ⟨e, mem, this⟩ := List.any_eq_true.1 any
      rw [List.length_eraseP_of_mem mem this]
      omega
    rw [makeRoom_of_full full]
    split
    · next read => exact drop read
    · next unread =>
      obtain ⟨e, mem, notOpen⟩ := spare full
      refine drop (List.any_eq_true.2 ⟨e, mem, ?_⟩)
      cases state : e.state with
      | isOpen => exact absurd state notOpen
      | closed => rfl
      | read => exact absurd (List.any_eq_true.2 ⟨e, mem, by simp [state]⟩) unread
  · have few := Nat.lt_of_not_le full
    rwa [makeRoom_of_room few]

section
variable (j : Journal) (k : Kind) (x : Int) (now : Option Time)

/-- The mark of a concurrent episode leaves what the laws read of a record (R165). -/
theorem openAs_concurrent (k' : Kind) (e : Episode) :
    (if e.openOf k then { e with flags := { e.flags with concurrent := true } } else e).openAs k' = e.openAs k' := by
  split <;> rfl

/-- Making room drops no OPEN record. -/
theorem filterMap_openAs_makeRoom (rs : List Episode) :
    (makeRoom rs).1.filterMap (Episode.openAs k) = rs.filterMap (Episode.openAs k) := by
  rw [← filterMap_openAs_filter, makeRoom_open rs _ fun e mine => ((openOf_iff k e).1 mine).1, filterMap_openAs_filter]

/-- A figure of 0 opens no record; any other adds one of its sign, whose closing timer does not run, to its kind's. -/
theorem opens_openRecord_cases : (x = 0 ∧ j.openRecord k x now = j) ∨ ∃ d, directionOf x = some d ∧
    (j.openRecord k x now).opens k = j.opens k ++ [(false, d)] ∧
    ∀ k', k' ≠ k → (j.openRecord k x now).opens k' = j.opens k' := by
  refine (openRecord_cases j k x now).imp_right ?_
  rintro ⟨e, -, isOpen, kind, sign, timer, -, eq⟩
  have opens (k' : Kind) : (j.openRecord k x now).opens k' = j.opens k' ++ [e].filterMap (Episode.openAs k') := by
    rw [eq, Journal.opens, List.filterMap_append, filterMap_openAs_makeRoom,
      filterMap_openAs_map (openAs_concurrent k.other k')]
    rfl
  refine ⟨e.direction, sign, ?_, fun k' other => ?_⟩ <;> rw [opens]
  · have read : e.openAs k = some (false, e.direction) := openAs_eq_some_iff.2 ⟨⟨isOpen, kind⟩, by rw [timer]⟩
    rw [List.filterMap_cons_some read, List.filterMap_nil]
  · have none : e.openAs k' = none := if_neg fun mine => other (((openOf_iff k' e).1 mine).2.symm.trans kind)
    rw [List.filterMap_cons_none none, List.filterMap_nil, List.append_nil]

variable {j k x}

theorem opens_openRecord_ne {k' : Kind} (other : k' ≠ k) : (j.openRecord k x now).opens k' = j.opens k' := by
  rcases opens_openRecord_cases j k x now with ⟨-, eq⟩ | ⟨d, -, -, others⟩
  · rw [eq]
  · exact others k' other

/-- With no OPEN record of its kind before, a figure has the one that it follows from. -/
theorem follows_openRecord (none : j.opens k = []) : Follows x ((j.openRecord k x now).opens k) := by
  rcases opens_openRecord_cases j k x now with ⟨rfl, eq⟩ | ⟨d, sign, opens, -⟩
  · rw [eq, none]
    exact .none
  · rw [opens, none]
    exact .active sign

theorem length_openRecord_le (room : j.records.length ≤ 32) (one : ∀ k, (j.opens k).length ≤ 1) :
    (j.openRecord k x now).records.length ≤ 32 := by
  rcases openRecord_cases j k x now with ⟨-, eq⟩ | ⟨e, -, -, -, -, -, -, eq⟩ <;> rw [eq]
  · exact room
  · rw [List.length_append]
    refine length_makeRoom_lt (by simpa using room) fun full => ?_
    obtain ⟨r, mem, notOpen⟩ := exists_not_open (by simpa using full) one
    refine ⟨_, List.mem_map_of_mem mem, ?_⟩
    split <;> exact notOpen

/-- Opening a record for a kind's stored figure keeps the laws of the other kind, and makes the kind's own. -/
theorem lawful_openRecord (room : j.records.length ≤ 32) (others : ∀ k', k' ≠ k → Follows (j.figure k') (j.opens k'))
    (figure : j.figure k = x) (none : j.opens k = []) : (j.openRecord k x now).Lawful := by
  refine ⟨length_openRecord_le now room fun k' => ?_, fun k' => ?_⟩
  · by_cases mine : k' = k
    · simp [mine, none]
    · exact (others k' mine).length_le_one
  · rw [figure_openRecord]
    by_cases mine : k' = k
    · rw [mine, figure]
      exact follows_openRecord now none
    · rw [opens_openRecord_ne now mine]
      exact others k' mine

end

/-! ### A change of figure (R164) -/

section
variable {s : State} (k : Kind) (x : Int)

theorem figure_figureChange (s : State) : (s.figureChange k x).journal.figure = Function.update s.journal.figure k x := by
  simp only [State.figureChange, raiseIf_journal, Journal.change]
  repeat' split
  all_goals simp only [figure_openRecord, mapOpen_store, figure_changeOpen, figure_store]

/-- A change of figure keeps the laws: each row of the table of R164. -/
theorem figureChange_lawful (h : s.journal.Lawful) : (s.figureChange k x).journal.Lawful := by
  have others {j : Journal} (figure : j.figure = Function.update s.journal.figure k x)
      (opens : ∀ k', k' ≠ k → j.opens k' = s.journal.opens k') : ∀ k', k' ≠ k → Follows (j.figure k') (j.opens k') := by
    intro k' other
    rw [figure, Function.update_of_ne other, opens k' other]
    exact h.follows k'
  by_cases none : s.journal.opens k = []
  · have stored : (s.journal.store k x).opens = s.journal.opens := by
      funext k'
      simp only [Journal.opens, records_store]
    rw [figureChange_not_open (opens_eq_nil_iff.1 none)]
    exact lawful_openRecord _ (by simpa using h.room) (others (figure_store _ _ _) fun k' _ => by rw [stored])
      (by rw [figure_store, Function.update_self]) (by rw [stored, none])
  obtain ⟨o, only⟩ := List.length_eq_one_iff.1
    (Nat.le_antisymm (h.follows k).length_le_one (List.length_pos_iff.2 none))
  obtain ⟨e, mem, isOpen, rfl⟩ := mem_opens_iff.1 (only ▸ List.mem_singleton_self o)
  have found : s.journal.records.find? (Episode.openOf k) = some e :=
    find?_eq_of_countP_le_one (length_opens _ k ▸ (h.follows k).length_le_one) mem ((openOf_iff k e).2 isOpen)
  by_cases zero : x = 0
  · subst zero
    rw [figureChange_zero found]
    refine h.changeOpen (fun _ => rfl) (fun o => some (true, o.2)) (fun r isOpen kind => ?_) ?_
    · exact openAs_eq_some_iff.2 ⟨⟨isOpen, kind⟩, rfl⟩
    · rw [only]
      exact .closing _
  by_cases same : directionOf x = some e.direction
  · rw [figureChange_same found zero same]
    refine h.changeOpen (fun _ => rfl) (fun o => some (false, o.2)) (fun r isOpen kind => ?_) ?_
    · exact openAs_eq_some_iff.2 ⟨⟨isOpen, kind⟩, rfl⟩
    · rw [only]
      exact .active same
  · rw [figureChange_reversed found zero same, raise_journal]
    refine lawful_openRecord _ (by simpa [Journal.changeOpen] using h.room)
      (others (figure_changeOpen _ _ _ _) fun k' other => opens_changeOpen_ne (f := Episode.close s.now) (fun _ => rfl) other)
      (by rw [figure_changeOpen, Function.update_self]) ?_
    rw [opens_changeOpen_self (fun _ => Option.none) fun r isOpen kind => by simp [Episode.openAs, openOf_iff, Episode.close]]
    simp

end

/-! ### The test events (R166) -/

@[simp] theorem figure_reopen (j : Journal) (now : Option Time) (first : Bool) : (j.reopen now first).figure = j.figure := by
  rcases reopen_cases j now first with eq | eq <;> rw [eq] <;> simp

/-- With no OPEN record, the two kinds reopen into the laws, whichever comes first (R166, log 9). -/
theorem reopen_lawful {j : Journal} (room : j.records.length ≤ 32) (none : ∀ k, j.opens k = []) (now : Option Time)
    (first : Bool) : (j.reopen now first).Lawful := by
  have both {k k' : Kind} (kinds : ∀ o, o ≠ k' → o = k) (ne : k' ≠ k) :
      ((j.openRecord k (j.figure k) now).openRecord k' (j.figure k') now).Lawful := by
    refine lawful_openRecord now (length_openRecord_le now room fun o => by simp [none]) (fun o other => ?_)
      (by rw [figure_openRecord]) ((opens_openRecord_ne now ne).trans (none k'))
    rw [kinds o other, figure_openRecord]
    exact follows_openRecord now (none k)
  rcases reopen_cases j now first with eq | eq <;> rw [eq]
  · exact both (k := .fl) (k' := .sl) (fun o => by cases o <;> simp) nofun
  · exact both (k := .sl) (k' := .fl) (fun o => by cases o <;> simp) nofun

theorem opens_shut (j : Journal) (fl sl : Int) (now : Option Time) (mark : Bool) (k : Kind) :
    (j.shut fl sl now mark).opens k = [] := by
  rw [opens_eq_nil_iff]
  intro e mem
  obtain ⟨r, -, rfl⟩ := List.mem_map.1 mem
  split
  · simp
  · next notOpen => simp [notOpen]

theorem moveTest_lawful {s : State} (h : s.journal.Lawful) (g : Generator) (mark : Bool) :
    (s.moveTest g mark).journal.Lawful := by
  rw [moveTest_eq, raiseIf_journal]
  exact reopen_lawful (by simpa [Journal.shut] using h.room) (opens_shut _ _ _ _ _) _ _

end Sys2Proof.Machine
end

