-- ==== Sys2Proof/Proofs/JournalMoves.lean ====
section
/-! PROOFS. What can happen to the activation journal and to the two figures it follows (R113, R117, R163 to R170), and the
journal's laws through it. -/

namespace Sys2Proof.Machine

open Sys2Proof.Safety

/-- The generator's two figures, the FL target and the SL effective value (R113, R117). -/
def Generator.figure (g : Generator) : Kind → Int
  | .fl => g.flTarget
  | .sl => g.slEffective

theorem generator_figure_eq {g g' : Generator} (fl : g'.flTarget = g.flTarget) (sl : g'.slEffective = g.slEffective) :
    g'.figure = g.figure := by
  funext k
  cases k
  · exact fl
  · exact sl

theorem figureLaw_iff (s : State) : FigureLaw s ↔ s.journal.figure = s.gen.figure := by
  refine ⟨fun ⟨fl, sl⟩ => ?_, fun same => ⟨congrFun same .fl, congrFun same .sl⟩⟩
  funext k
  cases k
  · exact fl
  · exact sl

/-! ### The moves -/

/-- One thing that can happen to the journal and the figures. -/
inductive JournalMove (s : State) : State → Prop
  /-- Nothing moves. -/
  | kept {t : State} (journal : t.journal = s.journal) (figures : t.gen.figure = s.gen.figure) : JournalMove s t
  /-- The generator moves, and hands the journal its changes of figure (R164). -/
  | handed (g : Generator) : JournalMove s (s.moveGen g)
  /-- The generator enters or leaves TEST, with its test event (R166). -/
  | tested (g : Generator) (mark : Bool) : JournalMove s (s.moveTest g mark)
  /-- Records take a flag, a pass result or the READ state (R165, R167, R169). -/
  | marked {t : State} (f : Episode → Episode) (same : ∀ k e, (f e).openAs k = e.openAs k)
      (journal : t.journal = { s.journal with records := s.journal.records.map f }) (figures : t.gen.figure = s.gen.figure) :
      JournalMove s t
  /-- Records that are not OPEN leave (R170). -/
  | released {t : State} (keep : Episode → Bool) (opened : ∀ e, e.state = .isOpen → keep e = true)
      (journal : t.journal = { s.journal with records := s.journal.records.filter keep })
      (figures : t.gen.figure = s.gen.figure) : JournalMove s t
  /-- A closing timer expires (R164). -/
  | expired {t : State} (k : Kind)
      (journal : t.journal = s.journal.mapOpen (fun e => e.kind == k && e.closingTimer) (Episode.close s.now))
      (figures : t.gen.figure = s.gen.figure) : JournalMove s t
  /-- A device reset (R3). -/
  | reset {t : State} (journal : t.journal = .reset) (figures : t.gen.figure = Generator.reset.figure) : JournalMove s t

/-- What a command can do to the journal and the figures: some moves, one after the other. -/
abbrev JournalMoves : State → State → Prop := Relation.ReflTransGen JournalMove

theorem JournalMoves.of_kept {s t : State} (journal : t.journal = s.journal) (figures : t.gen.figure = s.gen.figure) :
    JournalMoves s t := .single (.kept journal figures)

section
variable {s t : State}

/-! ### The stored figures (R163, R164, R166) -/

/-- To store a figure only where it moves is to store it. -/
theorem update_of_moved {F : Kind → Int} {k : Kind} {old : Int} (stands : F k = old) (x : Int) :
    (if x = old then F else Function.update F k x) = Function.update F k x := by
  split
  · next same => rw [same, ← stands, Function.update_eq_self]
  · rfl

theorem figure_moveGen (law : s.journal.figure = s.gen.figure) (g : Generator) :
    (s.moveGen g).journal.figure = g.figure := by
  have sl : s.gen.figure .sl = s.gen.slEffective := rfl
  have fl : Function.update s.gen.figure .sl g.slEffective .fl = s.gen.flTarget := rfl
  simp only [State.moveGen, apply_ite State.journal, apply_ite Journal.figure, figure_figureChange, law]
  rw [update_of_moved sl, update_of_moved fl]
  funext k
  cases k <;> rfl

theorem figure_moveTest (s : State) (g : Generator) (mark : Bool) : (s.moveTest g mark).journal.figure = g.figure := by
  rw [moveTest_eq, raiseIf_journal, State.tested, figure_reopen]
  funext k
  cases k <;> rfl

theorem JournalMove.figureLaw (move : JournalMove s t) (law : FigureLaw s) : FigureLaw t := by
  rw [figureLaw_iff] at law ⊢
  cases move with
  | kept journal figures => rw [journal, figures, law]
  | handed g => rw [figure_moveGen law, moveGen_gen]
  | tested g mark => rw [figure_moveTest, moveTest_gen]
  | marked f same journal figures | released keep opened journal figures | expired k journal figures =>
    rw [journal, figures]
    exact law
  | reset journal figures =>
    rw [journal, figures]
    funext k
    cases k <;> rfl

theorem JournalMoves.figureLaw (moves : JournalMoves s t) (law : FigureLaw s) : FigureLaw t := by
  induction moves with
  | refl => exact law
  | tail _ move ih => exact move.figureLaw ih

/-! ### The records (R163, R164, R166, R168) -/

theorem moveGen_lawful (h : s.journal.Lawful) (g : Generator) : (s.moveGen g).journal.Lawful := by
  have moved : ({ s with gen := g } : State).journal.Lawful := h
  simp only [State.moveGen]
  split <;> split
  · exact moved
  · exact figureChange_lawful _ _ moved
  · exact figureChange_lawful _ _ moved
  · exact figureChange_lawful _ _ (figureChange_lawful _ _ moved)

theorem JournalMove.lawful (move : JournalMove s t) (h : s.journal.Lawful) : t.journal.Lawful := by
  cases move with
  | kept journal figures => exact journal ▸ h
  | handed g => exact moveGen_lawful h g
  | tested g mark => exact moveTest_lawful h g mark
  | marked f same journal figures => exact journal ▸ h.marked same
  | released keep opened journal figures => exact journal ▸ h.released opened
  | expired k journal figures => exact journal ▸ h.expired k s.now
  | reset journal figures => exact journal ▸ ⟨Nat.zero_le _, fun k => by cases k <;> exact .none⟩

theorem JournalMoves.lawful (moves : JournalMoves s t) (h : s.journal.Lawful) : t.journal.Lawful := by
  induction moves with
  | refl => exact h
  | tail _ move ih => exact move.lawful ih

end

end Sys2Proof.Machine
end

