-- ==== Sys2Proof/Proofs/JournalSteps.lean ====
section
/-! PROOFS. Every command, as moves of the journal: what moves the generator, the closing timer, the passes and FREEZE, RESUME,
the journal's own requests and a reset move it, and no other (R3, R45, R163 to R170). -/

namespace Sys2Proof.Machine

open Sys2Proof.Safety

section
variable (s : State)

/-! ### The generator at the clock (R109, R124) -/

theorem loadCapacities_journalMoves : JournalMoves s s.loadCapacities := .single (.handed _)

theorem endTest_journalMoves : JournalMoves s s.endTest := .single (.tested _ _)

theorem genBoundary_journalMoves : JournalMoves s s.genBoundary := by
  unfold State.genBoundary
  split
  · exact (endTest_journalMoves s).tail (.kept (raise_journal _ _ _) (by rw [raise_gen]))
  · exact loadCapacities_journalMoves s

theorem boundary_journalMoves (old : Nat) (reset : Bool) : JournalMoves s (s.boundary old reset) := by
  unfold State.boundary
  split
  · exact .refl
  · next c current =>
    exact (JournalMoves.of_kept (bookBoundary_journal s old c reset) (by rw [bookBoundary_gen])).trans
      (genBoundary_journalMoves _)

theorem stepBack_journalMoves : JournalMoves s s.stepBack := by
  unfold State.stepBack
  split
  · exact .refl
  · next c current =>
    exact (JournalMoves.of_kept (bookStepBack_journal s c) (by rw [bookStepBack_gen])).trans (loadCapacities_journalMoves _)

/-- The clock at another time, before what follows from it. -/
theorem now_journalMoves (u : Option Time) : JournalMoves s { s with now := u } := .of_kept rfl rfl

theorem moveClock_journalMoves (v u : Time) (reset : Bool) : JournalMoves s (s.moveClock v u reset) := by
  have moved := now_journalMoves s (some u)
  simp only [State.moveClock]
  split
  · exact moved
  split
  · exact moved.trans (boundary_journalMoves _ _ _)
  · exact moved.trans (stepBack_journalMoves _)

/-! ### What the meter hands over (R99, R103, R165) -/

/-- A mark in the flags of some OPEN records (R165). -/
theorem flag_journalMove {t : State} {sel : Episode → Bool} (mark : EpisodeFlags → EpisodeFlags)
    (journal : t.journal = s.journal.mapOpen sel fun e => { e with flags := mark e.flags })
    (figures : t.gen.figure = s.gen.figure) : JournalMove s t :=
  .marked _ (fun _ _ => by split <;> rfl) journal figures

theorem loseLock_journalMoves : JournalMoves s s.loseLock := by
  have raised : JournalMoves s (s.raise .s .freqLost) := .of_kept (raise_journal _ _ _) (by rw [raise_gen])
  exact (raised.tail (.handed _)).tail (flag_journalMove _ (fun flags => { flags with freqLoss := true }) rfl rfl)

theorem handStateChange_journalMoves (was : MeterState) (drop : Bool) : JournalMoves s (s.handStateChange was drop) := by
  simp only [State.handStateChange]
  split
  · exact (loseLock_journalMoves s).tail (.handed _)
  · exact .single (.handed _)

/-- The meter alone moves. -/
theorem meter_journalMoves (m : Meter) : JournalMoves s { s with meter := m } := .of_kept rfl rfl

theorem takeReading_journalMoves (x : Nat) : JournalMoves s (s.takeReading x) := by
  have counted := meter_journalMoves s ({ s.meter with reading := some x }.count x)
  simp only [State.takeReading, State.handReading]
  split
  · exact (counted.trans (loseLock_journalMoves _)).tail (.handed _)
  · exact counted.tail (.handed _)

theorem joinEstimate_journalMoves (e : Nat) : JournalMoves s (s.joinEstimate e) := by
  simp only [State.joinEstimate]
  split
  · exact (meter_journalMoves s _).trans (handStateChange_journalMoves _ _ _)
  · exact meter_journalMoves s _

theorem acceptEstimate_journalMoves (e : Nat) : JournalMoves s (s.acceptEstimate e) := by
  rw [acceptEstimate_eq]
  split
  · exact (joinEstimate_journalMoves s e).trans (takeReading_journalMoves _ _)
  · exact joinEstimate_journalMoves s e

/-! ### Passes and FREEZE (R50, R165, R167) -/

theorem openAs_accumulate (j : Journal) (r : PassResult) (k : Kind) (e : Episode) :
    (if e.opened then e.accumulate (j.figure e.kind) r else e).openAs k = e.openAs k := by split <;> rfl

theorem pass_journalMoves (c : PassCause) : JournalMoves s (s.pass c) :=
  .single (.marked _ (openAs_accumulate _ _) (pass_journal s c) (by rw [pass_gen]))

theorem assertFreeze_journalMoves : JournalMoves s s.assertFreeze := by
  refine .trans (.single (flag_journalMove s (sel := fun _ => true) (fun flags => { flags with freeze := true }) ?_ ?_))
    (pass_journalMoves _ .freeze)
  · simp only [freezeBus_journal, State.raiseFreeze, raise_journal]
    rfl
  · simp only [freezeBus_gen, State.raiseFreeze, raise_gen]

/-! ### Operations that leave the journal -/

@[simp] theorem endPoll_journal (a : Address) (o : PollOutcome) : (s.endPoll a o).journal = s.journal := endFrame_journal _

@[simp] theorem goodReport_journal (a : Address) (q : Report) : (s.goodReport a q).journal = s.journal := by
  simp only [State.goodReport]
  split
  · rfl
  · split <;> rfl

@[simp] theorem takeReply_journal (a : Address) (bytes : List Byte) : (s.takeReply a bytes).journal = s.journal := by
  rcases takeReply_cases s a bytes with ⟨-, eq⟩ | ⟨-, eq⟩ <;> simp [eq]

@[simp] theorem beginPoll_journal (a : Address) : (s.beginPoll a).journal = s.journal := by
  simp only [State.beginPoll]
  split <;> rfl

/-! ### Requests -/

/-- The requests that reach the journal or the generator: the latter's own, RESUME and the journal's (R45, R169, R170). -/
def movesJournal (r : Request) : Bool :=
  movesGenerator r || match r with
    | .resume | .readJournal .. | .releaseJournal .. => true
    | _ => false

/-- Every other request leaves the journal and the generator. -/
theorem ownOf_journalMoves_of_other (p : Port) {r : Request} (other : movesJournal r = false) :
    JournalMoves s (ownOf p r s).state := by
  have gen : movesGenerator r = false := (Bool.or_eq_false_iff.1 other).1
  refine .of_kept ?_ (by rw [ownOf_gen s p gen])
  cases r with
  | resume | readJournal | releaseJournal | setTime | setMeter | setFlParams | armFl | disarmFl | setPoint | setSlParams
  | enterTest | inject | leaveTest => nomatch other
  | hold | award | release =>
    simp only [ownOf, ownHold, State.holdAt, State.grant, ownAward, ownRelease, State.settleHold, refuse]
    repeat' split
    all_goals rfl
  | setLinkMode | status =>
    simp only [ownOf, ownSetLinkMode, ownStatus, refuse]
    repeat' split
    all_goals simp
  | _ =>
    simp only [ownOf, refuse, ownEnroll, ownAmend, ownRemove, ownReadSite, ownSetItems, ownDefineWindow, ownClearWindow,
      ownSetBranch, ownSetDefaultClass, editWith, ownSuspend, ownQueryClass, ownReadWindows, ownSetOfferParams, ownOfferQuery,
      ownReadBook, ownReadMeter, ownReadBranchLoad, ownReadResponse, ownBusEnable, ownBusDisable, ownBusConfig,
      ownBusRestore, busAnswer, ownIdentify]
    repeat' split
    all_goals simp

theorem ownSetTime_journalMoves (day : BitVec 16) (tenths : Nat) : JournalMoves s (ownSetTime day tenths s).state := by
  simp only [ownSetTime, refuse]
  split
  · exact .refl
  split
  · exact (now_journalMoves s _).trans (loadCapacities_journalMoves _)
  split
  · exact moveClock_journalMoves s _ _ false
  split
  · exact moveClock_journalMoves s _ _ true
  · exact .refl

theorem ownSetMeter_journalMoves (x : CandidatesArg) : JournalMoves s (ownSetMeter x s).state := by
  simp only [ownSetMeter, refuse]
  repeat' split
  · exact .refl
  · exact .refl
  · exact .refl
  · exact (meter_journalMoves s _).trans (handStateChange_journalMoves _ _ _)

/-- SET_FL_PARAMS and SET_SL_PARAMS move parameters, and no figure (R110, R119). -/
theorem ownSetFlParams_journalMoves (deadband fullDev : Nat) (mode : Option LossMode) (limit : Nat) :
    JournalMoves s (ownSetFlParams deadband fullDev mode limit s).state := by
  simp only [ownSetFlParams, refuse]
  repeat' split
  all_goals exact .of_kept rfl (generator_figure_eq rfl rfl)

theorem ownSetSlParams_journalMoves (ramp timeout : Nat) : JournalMoves s (ownSetSlParams ramp timeout s).state := by
  simp only [ownSetSlParams, refuse]
  split
  all_goals exact .of_kept rfl (generator_figure_eq rfl rfl)

theorem ownArmFl_journalMoves : JournalMoves s (ownArmFl s).state := by
  simp only [ownArmFl, armAnswer]
  split
  · exact .refl
  · exact .single (.handed _)

theorem ownDisarmFl_journalMoves : JournalMoves s (ownDisarmFl s).state := by
  simp only [ownDisarmFl, armAnswer]
  split
  · exact .single (.handed _)
  · exact .refl

theorem ownEnterTest_journalMoves (up down : Nat) : JournalMoves s (ownEnterTest up down s).state := by
  simp only [ownEnterTest, refuse]
  repeat' split
  · exact .refl
  · exact .refl
  · exact .refl
  · exact .single (.tested _ _)

theorem ownInject_journalMoves (delta : Int) (duration : Nat) : JournalMoves s (ownInject delta duration s).state := by
  simp only [ownInject, refuse]
  repeat' split
  · exact .refl
  · exact .refl
  · exact .single (.handed _)

theorem ownLeaveTest_journalMoves : JournalMoves s (ownLeaveTest s).state := by
  unfold ownLeaveTest
  split
  · exact .refl
  · exact endTest_journalMoves s

theorem ownResume_journalMoves : JournalMoves s (ownResume s).state := by
  unfold ownResume
  split
  · exact .refl
  · refine .single (flag_journalMove s (sel := fun _ => true) (fun flags => { flags with windowsChanged := true }) ?_ ?_)
    · simp only [State.putInForce, requestEval_journal, raise_journal]
      rfl
    · simp only [State.putInForce, requestEval_gen, raise_gen]

/-- Only CLOSED records become READ (R169). -/
theorem ownReadJournal_journalMoves (n : Serial) : JournalMoves s (ownReadJournal n s).state := by
  refine .single (.marked _ (fun k e => ?_) rfl rfl)
  split
  · next closed =>
    have closed : e.state = .closed := by
      rw [Bool.and_eq_true, beq_iff_eq] at closed
      exact closed.1
    simp [Episode.openAs, openOf_iff, closed]
  · rfl

/-- Only READ records are released (R170). -/
theorem ownReleaseJournal_journalMoves (n : Serial) : JournalMoves s (ownReleaseJournal n s).state :=
  .single (.released (fun e => !e.releasable n) (fun e isOpen => by simp [Episode.releasable, isOpen]) rfl rfl)

theorem ownOf_journalMoves (p : Port) (r : Request) : JournalMoves s (ownOf p r s).state := by
  cases r with
  | setTime day tenths => exact ownSetTime_journalMoves s day tenths
  | setMeter x => exact ownSetMeter_journalMoves s x
  | setFlParams deadband fullDev mode limit => exact ownSetFlParams_journalMoves s deadband fullDev mode limit
  | armFl => exact ownArmFl_journalMoves s
  | disarmFl => exact ownDisarmFl_journalMoves s
  | setPoint w => exact .of_kept rfl (generator_figure_eq rfl rfl)
  | setSlParams ramp timeout => exact ownSetSlParams_journalMoves s ramp timeout
  | enterTest up down => exact ownEnterTest_journalMoves s up down
  | inject delta duration => exact ownInject_journalMoves s delta duration
  | leaveTest => exact ownLeaveTest_journalMoves s
  | resume => exact ownResume_journalMoves s
  | readJournal n => exact ownReadJournal_journalMoves s n
  | releaseJournal n => exact ownReleaseJournal_journalMoves s n
  | _ => exact ownOf_journalMoves_of_other s p rfl

end

section
variable {c : Instr} {s t : State}

theorem request_journalMoves {p : Port} {r : Request} (row : requestRow c = some (p, r)) (h : exec c s = .next t) :
    JournalMoves s t := by
  rw [exec_request s row] at h
  cases h
  have taken : JournalMoves s (s.dequeue p) := .of_kept (dequeue_journal s p) (by rw [dequeue_gen])
  have answered (u : State) (v : Telegram) (code : ResultCode) (b : ResponseBody) : JournalMove u (u.respond p v code b) :=
    .kept (respond_journal ..) (by rw [respond_gen])
  rcases serve_cases s p r (ownOf p r) with eq | ⟨u, code, -, -, eq⟩ | ⟨u, -, -, eq⟩ <;> rw [eq]
  · exact taken.tail (answered _ _ _ _)
  · exact (taken.trans (ownOf_journalMoves _ p r)).tail (answered _ _ _ _)

/-! ### Events -/

theorem tenthElapsed_journalMoves (h : exec .tenthElapsed s = .next t) : JournalMoves s t := by
  cases h
  split
  · exact .refl
  next v now =>
  have moved := now_journalMoves s (some v.next)
  dsimp only
  split
  · exact moved
  · exact moved.trans (boundary_journalMoves _ _ _)

theorem gsenseRisingEdge_journalMoves {edge : GsenseEdge} (h : exec (.gsenseRisingEdge edge) s = .next t) :
    JournalMoves s t := by
  have started : JournalMoves s (s.atEdge edge.instant) := meter_journalMoves s _
  rcases gsenseRisingEdge_cases s edge with eq | eq | ⟨e, -, eq⟩ <;> rw [eq] at h <;> cases h
  · exact .refl
  · exact started
  · exact started.trans (acceptEstimate_journalMoves _ e)

theorem lossTimerExpiry_journalMoves (h : exec .lossTimerExpiry s = .next t) : JournalMoves s t := by
  cases h
  split
  · exact (meter_journalMoves s _).trans (handStateChange_journalMoves _ _ _)
  · exact .refl

theorem deviceReset_journalMoves {f : Bool} {l : ResetLevels} (h : exec (.deviceReset f l) s = .next t) :
    JournalMoves s t := by
  cases h
  cases f
  · exact .single (.reset rfl rfl)
  · rw [if_pos rfl, assertFreeze_afterReset]
    exact .single (.reset rfl rfl)

theorem freezeAssertion_journalMoves (h : exec .freezeAssertion s = .next t) : JournalMoves s t := by
  cases h
  split
  · exact .refl
  · exact assertFreeze_journalMoves s

theorem closingTimerExpiry_journalMoves {k : Kind} (h : exec (.closingTimerExpiry k) s = .next t) : JournalMoves s t := by
  cases h
  exact .single (.expired k (raiseIf_journal _ _ _ _) (by rw [raiseIf_gen]))

/-- The timers of the generator (R115, R117, R118, R123). -/
theorem generatorTimer_journalMoves (timer : c = .holdTimerExpiry ∨ c = .injectionEnd ∨ c = .refreshTimerExpiry ∨
    c = .rampTimerExpiry) (h : exec c s = .next t) : JournalMoves s t := by
  rcases timer with rfl | rfl | rfl | rfl <;> cases h
  · split
    · exact .refl
    · exact .single (.handed _)
  · split
    · exact .refl
    · exact .single (.handed _)
  · split
    · exact .refl
    · exact .of_kept (raise_journal _ _ _) (by rw [raise_gen]; exact generator_figure_eq rfl rfl)
  · exact .single (.handed _)

theorem event_journalMoves (row : requestRow c = none) (h : exec c s = .next t) : JournalMoves s t := by
  cases c with
  | deviceReset f l => exact deviceReset_journalMoves h
  | tenthElapsed => exact tenthElapsed_journalMoves h
  | passTimerExpiry => cases h; exact pass_journalMoves s .timer
  | freezeAssertion => exact freezeAssertion_journalMoves h
  | gsenseRisingEdge edge => exact gsenseRisingEdge_journalMoves h
  | lossTimerExpiry => exact lossTimerExpiry_journalMoves h
  | holdTimerExpiry | injectionEnd | refreshTimerExpiry | rampTimerExpiry => exact generatorTimer_journalMoves (by simp) h
  | closingTimerExpiry k => exact closingTimerExpiry_journalMoves h
  | freshnessExpiry a | freezeDeassertion | holdExpiry slot product | shortfallEvaluation | dispatchBlock | poll | pollSent
  | replyWindowExpiry | rateCheckFailed span | replyParityError | pollEndOnQuiet | replyGap | report characters
  | blockComplete | collision | backoffExpiry | telegramComplete p front request check | overrunResponse p
  | responseTransmitted p | framingError character | lengthOutOfRange p length | gap p | linkBreak p | breakEnd p
  | telegramLead character | replyStart =>
    cases h
    refine .of_kept ?_ (congrArg Generator.figure ?_)
    all_goals
      repeat' split
      all_goals simp [State.raiseFreeze, State.failedPoll, State.endRound, State.setPhase]
  | _ => nomatch row

/-- Everything a command can do to the journal and the figures. -/
theorem exec_journalMoves (h : exec c s = .next t) : JournalMoves s t := by
  cases row : requestRow c with
  | some pr => exact request_journalMoves row h
  | none => exact event_journalMoves row h

end

end Sys2Proof.Machine
end

