-- ==== Sys2Proof/Proofs/JournalInvariantObligations.lean ====
section
/-! PROOFS. The invariants of the activation journal (O59, O60), from what every command can do to it. -/

namespace Sys2Proof.Proofs

open Sys2Proof.Machine Sys2Proof.Safety

/-- Settles O60: the laws kind by kind through every move of the journal, the test events in either order of reopening. -/
theorem episodeInvariant : Obligations.EpisodeInvariant := by
  intro c s t journal episodes h
  have before : s.journal.Lawful := (journal_lawful_iff s).1 ⟨journal, episodes⟩
  exact (journal_lawful_iff t).2 ((exec_journalMoves h).lawful before)

/-- Settles O59: every move stores the figures as the generator has them. -/
theorem figureInvariant : Obligations.FigureInvariant := fun _ _ _ law h => (exec_journalMoves h).figureLaw law

end Sys2Proof.Proofs
end

