-- ==== Sys2Proof/Proofs/JournalCommands.lean ====
section
/-! PROOFS. The commands of the activation journal: a closing timer's expiry (R164) and the answers to READ_JOURNAL (R169) and
RELEASE_JOURNAL (R170). -/

namespace Sys2Proof.Machine

open Sys2Proof.Safety

section
variable {s : State} (k : Kind)

/-- The OPEN record of a kind whose closing timer runs (R164). -/
theorem due_iff (e : Episode) : (e.opened && (e.kind == k && e.closingTimer)) = true ↔
    e.state = .isOpen ∧ e.kind = k ∧ e.closingTimer = true := by
  simp [Episode.opened]

/-- A closing timer that does not run does not expire (log 1). -/
theorem closingTimerExpiry_stopped
    (stopped : ∀ e ∈ s.journal.records, e.state = .isOpen → e.kind = k → e.closingTimer = false) :
    exec (.closingTimerExpiry k) s = .next s := by
  have due (e : Episode) (mem : e ∈ s.journal.records) : ¬(e.opened && (e.kind == k && e.closingTimer)) = true := by
    rw [due_iff]
    rintro ⟨isOpen, kind, runs⟩
    exact Bool.false_ne_true ((stopped e mem isOpen kind).symm.trans runs)
  have none : ¬(s.journal.anyOpen fun e => e.kind == k && e.closingTimer) = true := by
    simpa only [Journal.anyOpen, List.any_eq_true, not_exists, not_and] using due
  have same : s.journal.mapOpen (fun e => e.kind == k && e.closingTimer) (Episode.close s.now) = s.journal := by
    rw [Journal.mapOpen, List.map_congr_left fun e mem => if_neg (due e mem), List.map_id']
  simp only [exec, execClosingTimerExpiry, State.raiseIf, if_neg none, same]

/-- A closing timer that runs closes its record with EPISODE_CLOSED at S (R164). -/
theorem closingTimerExpiry_running
    (running : ∃ e ∈ s.journal.records, e.state = .isOpen ∧ e.kind = k ∧ e.closingTimer = true) :
    exec (.closingTimerExpiry k) s = .next (({ s with journal := { s.journal with records := s.journal.records.map fun e =>
      if e.state = .isOpen ∧ e.kind = k ∧ e.closingTimer = true then
        { e with state := .closed, finish := s.now, closingTimer := false } else e } } : State).raise .s .episodeClosed) := by
  have any : (s.journal.anyOpen fun e => e.kind == k && e.closingTimer) = true := by
    simpa only [Journal.anyOpen, List.any_eq_true, due_iff] using running
  simp only [exec, execClosingTimerExpiry, State.raiseIf, if_pos any, Journal.mapOpen, due_iff, Episode.close]

end

section
variable (s : State) (n : Serial)

theorem atOrAfter_eq (x : Serial) : Serial.atOrAfter x n = decide ((x - n).toNat < 2147483648) := rfl

/-- What READ_JOURNAL answers and marks READ (R169, log 28). -/
theorem ownReadJournal_eq :
    let later := s.journal.records.filter fun e => (e.number - n).toNat < 2147483648
    let found := later.take 4
    ownReadJournal n s =
      ⟨{ s with journal := { s.journal with records := s.journal.records.map fun e =>
          if e.state = .closed ∧ ∃ f ∈ found, f.number = e.number then { e with state := .read } else e } }, .ok,
        .journal (found.map fun e => { e with
            targetIntegral := e.targetIntegral / 36000, deliveredIntegral := e.deliveredIntegral / 36000 })
          s.journal.counter s.journal.records.length (decide (4 < later.length))⟩ := by
  intro later found
  have window : s.journal.window n = found := rfl
  have more : decide (found.length < later.length) = decide (4 < later.length) := by
    rw [List.length_take]
    exact decide_eq_decide.2 (by omega)
  have read (e : Episode) : (e.state == .closed && found.any fun f => f.number == e.number) = true ↔
      e.state = .closed ∧ ∃ f ∈ found, f.number = e.number := by simp
  simp only [ownReadJournal, window, read, ← more]
  rfl

/-- A READ record leaves where its number is not after the one of the request (R163, R170). -/
theorem releasable_iff (e : Episode) :
    e.releasable n = true ↔ e.state = .read ∧ (e.number = n ∨ 2147483648 ≤ (e.number - n).toNat) := by
  simp [Episode.releasable, atOrAfter_eq]

/-- What RELEASE_JOURNAL drops and answers (R170). -/
theorem ownReleaseJournal_eq :
    let kept := s.journal.records.filter fun e =>
      ¬(e.state = .read ∧ (e.number = n ∨ 2147483648 ≤ (e.number - n).toNat))
    ownReleaseJournal n s = ⟨{ s with journal := { s.journal with records := kept } }, .ok,
      .journalReleased (s.journal.records.length - kept.length) kept.length⟩ := by
  intro kept
  have records : (s.journal.records.filter fun e => !e.releasable n) = kept := by
    refine List.filter_congr fun e _ => ?_
    simp only [← releasable_iff, Bool.not_eq_true, Bool.decide_eq_false]
  simp only [ownReleaseJournal, records]

end

end Sys2Proof.Machine
end

