-- ==== Sys2Proof/Proofs/JournalCommandObligations.lean ====
section
/-! PROOFS. The statement about the commands of the activation journal (O58). -/

namespace Sys2Proof.Proofs

open Sys2Proof.Machine Sys2Proof.Safety

/-- Settles O58: a closing timer that is stopped, and one that runs; each request by what the journal answers to it. -/
theorem journalCommands : Obligations.JournalCommands := by
  intro s records
  refine ⟨fun k => ⟨closingTimerExpiry_stopped k, closingTimerExpiry_running k⟩, ?requests⟩
  intro p n t d
  refine ⟨fun admitted => answers_of_admitted rfl admitted ?_, fun admitted => answers_of_admitted rfl admitted ?_⟩
  · have answer := ownReadJournal_eq (s.dequeue p) n
    rw [dequeue_journal] at answer
    exact answer
  · have answer := ownReleaseJournal_eq (s.dequeue p) n
    rw [dequeue_journal] at answer
    exact answer

end Sys2Proof.Proofs
end

