-- ==== Sys2Proof/Proofs/LinkRequests.lean ====
section
/-! PROOFS. The row of a request at the links: what a taken telegram leaves of every link but the attention sets (R175,
R176). -/

namespace Sys2Proof.Machine

open Sys2Proof.Safety

section
variable (s : State) {p q : Port} (r : Request)

/-! ### One link (R171) -/

@[simp] theorem receive_setLink_same (l : Link) : (s.setLink p l).receive p = { l with attention := [] } := by
  simp [State.receive]

theorem receive_setLink_ne (l : Link) (other : q ≠ p) : (s.setLink p l).receive q = s.receive q := by
  simp only [State.receive, link_setLink_ne s p q l other]

/-! ### The owning block's answer (R176, R178) -/

/-- SET_LINK_MODE sets the mode of its own port, and nothing else of any link (R176). -/
theorem ownSetLinkMode_receive (mode : Option OverrunMode) :
    (∃ m, (ownSetLinkMode p mode s).state.receive p = { s.receive p with mode := m }) ∧
      (q ≠ p → (ownSetLinkMode p mode s).state.receive q = s.receive q) := by
  cases mode with
  | none => exact ⟨⟨_, rfl⟩, fun _ => rfl⟩
  | some m => exact ⟨⟨m, receive_setLink_same s _⟩, receive_setLink_ne s _⟩

/-- An owning block moves nothing of its own port's link but the mode and the attention set. -/
theorem ownOf_receive_own : ∃ m, (ownOf p r s).state.receive p = { s.receive p with mode := m } := by
  by_cases mode : ∃ m, r = .setLinkMode m
  · obtain ⟨m, rfl⟩ := mode
    exact (ownSetLinkMode_receive s (q := p) m).1
  · exact ⟨_, ownOf_receive s p p r (not_exists.1 mode)⟩

/-- An owning block moves nothing of another port's link but the attention set. -/
theorem ownOf_receive_other (other : q ≠ p) : (ownOf p r s).state.receive q = s.receive q := by
  by_cases mode : ∃ m, r = .setLinkMode m
  · obtain ⟨m, rfl⟩ := mode
    exact (ownSetLinkMode_receive s m).2 other
  · exact ownOf_receive s p q r (not_exists.1 mode)

/-- A refusal of the link controller moves no link; behind its checks the owning block answers (R178). -/
theorem answer_receive_own (t : Telegram) :
    ∃ m, (s.answer p t (ownOf p r)).state.receive p = { s.receive p with mode := m } := by
  unfold State.answer
  split
  · exact ⟨_, rfl⟩
  · exact ownOf_receive_own s r

theorem answer_receive_other (t : Telegram) (other : q ≠ p) :
    (s.answer p t (ownOf p r)).state.receive q = s.receive q := by
  unfold State.answer
  split
  · rfl
  · exact ownOf_receive_other s r other

/-! ### Taking and responding (R175, R182) -/

theorem receive_dequeue_same : (s.dequeue p).receive p = { s.receive p with queue := (s.link p).queue.tail } :=
  receive_setLink_same s _

theorem receive_dequeue_ne (other : q ≠ p) : (s.dequeue p).receive q = s.receive q := receive_setLink_ne s _ other

theorem receive_respond_ne (t : Telegram) (c : ResultCode) (b : ResponseBody) (other : q ≠ p) :
    (s.respond p t c b).receive q = s.receive q := receive_setLink_ne s _ other

/-- The response to a telegram echoes it; a link's overrun mark rides on it (R176, R182). -/
theorem receive_respond_same (t : Telegram) (c : ResultCode) (b : ResponseBody) : (s.respond p t c b).receive p =
    { s.receive p with response := some ((s.receive p).responseTo t c b), overrunMark := none } :=
  receive_setLink_same s _

variable {s r}

/-- A telegram that is taken leaves the queue and is answered by one response, which echoes it and carries the overrun
mark; of the rest of its port's link only mode and attention set can move (R175, R176). -/
theorem serve_receive_own {t : Telegram} (oldest : Oldest s p r t) :
    ∃ m c b, (s.serve p r (ownOf p r)).receive p = { s.receive p with
      queue := (s.link p).queue.tail, response := some ((s.link p).responseTo t c b), overrunMark := none, mode := m } := by
  let answer := (s.dequeue p).answer p t (ownOf p r)
  obtain ⟨m, own⟩ := answer_receive_own (s.dequeue p) r t
  refine ⟨m, answer.result, answer.body, ?_⟩
  rw [serve_of_oldest _ oldest, receive_respond_same, own, receive_dequeue_same]
  rfl

/-- Of another port's link only the attention set can move. -/
theorem serve_receive_other {t : Telegram} (oldest : Oldest s p r t) (other : q ≠ p) :
    (s.serve p r (ownOf p r)).receive q = s.receive q := by
  rw [serve_of_oldest _ oldest, receive_respond_ne _ _ _ _ other, answer_receive_other _ r t other,
    receive_dequeue_ne s other]

end

end Sys2Proof.Machine
end

