-- ==== Sys2Proof/Proofs/LinkFormats.lean ====
section
/-! PROOFS. What stands on the line of a master link: its characters, request and response telegrams, and their check (R171
to R173, R181, R182). -/

namespace Sys2Proof.Machine

open Sys2Proof.Safety

/-! ### Characters (R172) -/

/-- The bits of a character: start, data with the least significant first, stop. -/
theorem getLsbD_linkCharacter (b : Byte) (i : Nat) : (linkCharacter b).getLsbD i =
    if i < 1 then false else if i < 9 then b.getLsbD (i - 1) else decide (i = 9) := by
  unfold linkCharacter
  rw [BitVec.getLsbD_append, BitVec.getLsbD_append]
  by_cases start : i < 1
  · simp [start]
  by_cases data : i < 9
  · simp [start, data, show i - 1 < 8 by omega]
  · simp [start, data, show ¬i - 1 < 8 by omega]
    omega

theorem levelsOf_linkCharacter (b : Byte) : levelsOf (linkCharacter b) = linkLevels b := by
  simp only [levelsOf, linkLevels, getLsbD_linkCharacter]
  rfl

/-! ### Two-byte fields -/

/-- The bytes of a number's field: the number of whole 256s, and the rest. -/
theorem bytesOf_ofNat (n : Nat) : bytesOf (BitVec.ofNat 16 n) = [BitVec.ofNat 8 (n / 256), BitVec.ofNat 8 n] := by
  have high : (BitVec.ofNat 16 n).extractLsb' 8 8 = BitVec.ofNat 8 (n / 256) := by
    apply BitVec.eq_of_toNat_eq
    simp only [BitVec.extractLsb'_toNat, BitVec.toNat_ofNat, Nat.shiftRight_eq_div_pow]
    omega
  have low : (BitVec.ofNat 16 n).extractLsb' 0 8 = BitVec.ofNat 8 n := by
    apply BitVec.eq_of_toNat_eq
    simp only [BitVec.extractLsb'_toNat, BitVec.toNat_ofNat, Nat.shiftRight_zero]
    omega
  rw [bytesOf, high, low]

/-! ### Responses (R181, R182) -/

/-- The length field of a response counts what is in it. -/
theorem length_body_lt (b : ResponseBody) : 5 + b.bytes.length < 65536 := by
  unfold ResponseBody.bytes
  split
  · decide
  · rw [List.length_take]
    omega

theorem response_bytes_eq (q : Response) : q.bytes = withCheck ([0x3C, BitVec.ofNat 8 ((5 + q.body.bytes.length) / 256),
    BitVec.ofNat 8 (5 + q.body.bytes.length), q.code, q.tag, Config.resultByte q.result, BitVec.ofNat 8 q.overrunCount,
    q.overrunTag] ++ q.body.bytes) := by
  rw [Response.bytes, bytesOf_ofNat]
  rfl

/-- The characters of a response stand back to back on the line (R175). -/
theorem levels_of_response {l : Link} {q : Response} (sending : l.response = some q) :
    l.levels = q.bytes.flatMap linkLevels := by
  simp only [Link.levels, sending, levelsOf_linkCharacter, List.flatMap_def]

theorem link_levels_of_quiet {l : Link} (quiet : l.response = none) : l.levels = [] := by simp only [Link.levels, quiet]

end Sys2Proof.Machine
end

