-- ==== Sys2Proof/Proofs/LinkRequestObligations.lean ====
section
/-! PROOFS. The statement about taken telegrams and their responses (O6). -/

namespace Sys2Proof.Proofs

open Sys2Proof.Machine Sys2Proof.Safety

/-- Settles O6: the row of a request by what it leaves of the links, a response by its bytes and its characters. -/
theorem takenTelegramAnswered : Obligations.TakenTelegramAnswered := by
  refine ⟨fun i p r s row => ⟨fun t oldest => ?taken, fun none => ?untaken⟩, fun q => ?bytes, fun l => ?line⟩
  case taken =>
    obtain ⟨m, c, b, own⟩ := serve_receive_own oldest
    have ⟨_, _, noOverrun, _⟩ := oldest
    refine ⟨s.serve p r (ownOf p r), (s.link p).responseTo t c b, exec_request s row, congrArg Link.response own, rfl, rfl,
      rfl, rfl, congrArg Link.overrunMark own, congrArg Link.queue own, ?_, (congrArg Link.assembler own :), ?_⟩
    · exact (congrArg Link.overrunPlace own).trans noOverrun
    · exact fun o other => serve_receive_other oldest other
  case untaken => rw [exec_request s row, serve_of_not_oldest _ none]
  case bytes => exact ⟨response_bytes_eq q, fun empty => by rw [empty]; rfl, length_body_lt q.body⟩
  case line =>
    exact ⟨fun quiet => ⟨link_levels_of_quiet quiet, tx_of_quiet quiet⟩, fun _ => rfl, fun _ => levels_of_response⟩

end Sys2Proof.Proofs
end

