-- ==== Sys2Proof/Proofs/LinkCauses.lean ====
section
/-! PROOFS. What the operations of the blocks do to the links: they raise causes that the table of R179 has for the port, and
nothing else. -/

namespace Sys2Proof.Machine

open Sys2Proof.Safety

/-- Some causes of a port's row of the table raised at its link, one after the other (R179). -/
abbrev CausesRaised (p : Port) : Link → Link → Prop :=
  Relation.ReflTransGen fun l l' => ∃ c ∈ Cause.allowedAt p, l' = l.raise c

/-- The step does nothing to the links but raise causes that their ports may hold. -/
def RaisesOnly (s t : State) : Prop := ∀ p, CausesRaised p (s.link p) (t.link p)

section
variable {s t u : State}

theorem RaisesOnly.of_links (same : ∀ p, t.link p = s.link p) : RaisesOnly s t := fun p => by rw [same p]

theorem RaisesOnly.refl (s : State) : RaisesOnly s s := .of_links fun _ => rfl

theorem RaisesOnly.trans (h : RaisesOnly s t) (h' : RaisesOnly t u) : RaisesOnly s u := fun p => (h p).trans (h' p)

theorem RaisesOnly.raise (h : RaisesOnly s t) {p : Port} {c : Cause} (allowed : c ∈ Cause.allowedAt p) :
    RaisesOnly s (t.raise p c) := by
  intro q
  by_cases same : q = p
  · subst same
    rw [State.raise, link_setLink_same]
    exact (h q).tail ⟨c, allowed, rfl⟩
  · rw [State.raise, link_setLink_ne _ _ _ _ same]
    exact h q

theorem RaisesOnly.raiseIf (h : RaisesOnly s t) (b : Bool) {p : Port} {c : Cause} (allowed : c ∈ Cause.allowedAt p) :
    RaisesOnly s (t.raiseIf b p c) := by
  unfold State.raiseIf
  split
  · exact h.raise allowed
  · exact h

end

section
variable (s : State)

/-! ### Figures and the generator (R164, R166) -/

theorem figureChange_raisesOnly (k : Kind) (x : Int) : RaisesOnly s (s.figureChange k x) :=
  .raiseIf (.of_links fun p => by simp) _ (by decide)

theorem moveGen_raisesOnly (g : Generator) : RaisesOnly s (s.moveGen g) := by
  have moved : RaisesOnly s { s with gen := g } := .of_links fun p => by simp
  simp only [State.moveGen]
  split <;> split
  · exact moved
  · exact moved.trans (figureChange_raisesOnly _ _ _)
  · exact moved.trans (figureChange_raisesOnly _ _ _)
  · exact (moved.trans (figureChange_raisesOnly _ _ _)).trans (figureChange_raisesOnly _ _ _)

theorem moveTest_raisesOnly (g : Generator) (mark : Bool) : RaisesOnly s (s.moveTest g mark) := by
  rw [moveTest_eq]
  exact .raiseIf (.of_links fun p => by cases p <;> rfl) _ (by decide)

/-! ### The clock and the book (R78, R84 to R91, R109, R124) -/

theorem evaluate_raisesOnly : RaisesOnly s s.evaluate := by
  unfold State.evaluate
  split
  · exact .refl s
  · exact .raiseIf (.raiseIf (.of_links fun p => by simp) _ (by decide)) _ (by decide)

theorem bookBoundary_raisesOnly (old c : Nat) (reset : Bool) : RaisesOnly s (s.bookBoundary old c reset) :=
  .trans (.raiseIf (.of_links fun p => by simp) _ (by decide)) (evaluate_raisesOnly _)

theorem bookStepBack_raisesOnly (c : Nat) : RaisesOnly s (s.bookStepBack c) :=
  .raiseIf (.raiseIf (.raiseIf (.of_links fun p => by simp) _ (by decide)) _ (by decide)) _ (by decide)

theorem genBoundary_raisesOnly : RaisesOnly s s.genBoundary := by
  unfold State.genBoundary
  split
  · exact (moveTest_raisesOnly s _ _).raise (by decide)
  · exact moveGen_raisesOnly s _

theorem boundary_raisesOnly (old : Nat) (reset : Bool) : RaisesOnly s (s.boundary old reset) := by
  unfold State.boundary
  split
  · exact .refl s
  · exact (bookBoundary_raisesOnly s old _ reset).trans (genBoundary_raisesOnly _)

theorem stepBack_raisesOnly : RaisesOnly s s.stepBack := by
  unfold State.stepBack
  split
  · exact .refl s
  · exact (bookStepBack_raisesOnly s _).trans (moveGen_raisesOnly _ _)

/-- The clock at another time, before what follows from it. -/
theorem now_raisesOnly (v : Option Time) : RaisesOnly s { s with now := v } := .of_links fun p => by simp

theorem moveClock_raisesOnly (v w : Time) (reset : Bool) : RaisesOnly s (s.moveClock v w reset) := by
  have moved := now_raisesOnly s (some w)
  simp only [State.moveClock]
  split
  · exact moved
  split
  · exact moved.trans (boundary_raisesOnly _ _ _)
  · exact moved.trans (stepBack_raisesOnly _)

/-! ### What the meter hands over (R99, R103) -/

theorem loseLock_raisesOnly : RaisesOnly s s.loseLock := by
  have raised : RaisesOnly s (s.raise .s .freqLost) := .raise (.refl s) (by decide)
  exact (raised.trans (moveGen_raisesOnly _ _)).trans (.of_links fun p => link_with_journal _ p _)

theorem handStateChange_raisesOnly (was : MeterState) (drop : Bool) : RaisesOnly s (s.handStateChange was drop) := by
  simp only [State.handStateChange]
  split
  · exact (loseLock_raisesOnly s).trans (moveGen_raisesOnly _ _)
  · exact moveGen_raisesOnly s _

/-- The meter alone moves. -/
theorem meter_raisesOnly (m : Meter) : RaisesOnly s { s with meter := m } := .of_links fun p => by simp

theorem takeReading_raisesOnly (x : Nat) : RaisesOnly s (s.takeReading x) := by
  have counted := meter_raisesOnly s ({ s.meter with reading := some x }.count x)
  simp only [State.takeReading, State.handReading]
  split
  · exact (counted.trans (loseLock_raisesOnly _)).trans (moveGen_raisesOnly _ _)
  · exact counted.trans (moveGen_raisesOnly _ _)

theorem joinEstimate_raisesOnly (e : Nat) : RaisesOnly s (s.joinEstimate e) := by
  simp only [State.joinEstimate]
  split
  · exact (meter_raisesOnly s _).trans (handStateChange_raisesOnly _ _ _)
  · exact meter_raisesOnly s _

theorem acceptEstimate_raisesOnly (e : Nat) : RaisesOnly s (s.acceptEstimate e) := by
  rw [acceptEstimate_eq]
  split
  · exact (joinEstimate_raisesOnly s e).trans (takeReading_raisesOnly _ _)
  · exact joinEstimate_raisesOnly s e

/-! ### The fleet bus (R149, R155, R160, R161) -/

@[simp] theorem enterDisabled_link (p : Port) : s.enterDisabled.link p = s.link p := by cases p <;> rfl

@[simp] theorem endFrame_link (p : Port) : s.endFrame.link p = s.link p := by
  rcases endFrame_cases s with ⟨-, eq⟩ | ⟨-, eq⟩ <;> simp [eq]

/-- Only the fourth collision in a row raises, BUS_FAULT at every port (R161). -/
theorem collided_raisesOnly : RaisesOnly s s.collided := by
  rcases collided_cases s with ⟨-, eq⟩ | ⟨-, -, eq⟩ | ⟨-, -, eq⟩ <;> rw [eq]
  · exact .of_links fun p => by simp
  · exact .of_links fun p => by simp
  · exact .trans (.raise (.raise (.raise (.of_links fun p => by cases p <;> rfl) (by decide)) (by decide)) (by decide))
      (.of_links fun p => requestEval_link _ p)

@[simp] theorem failedPoll_link (a : Address) (o : PollOutcome) (p : Port) : (s.failedPoll a o).link p = s.link p := by
  cases p <;> rfl

@[simp] theorem endPoll_link (a : Address) (o : PollOutcome) (p : Port) : (s.endPoll a o).link p = s.link p := by
  simp [State.endPoll]

@[simp] theorem goodReport_link (a : Address) (q : Report) (p : Port) : (s.goodReport a q).link p = s.link p := by
  simp only [State.goodReport]
  split
  · rfl
  · split <;> simp

@[simp] theorem takeReply_link (a : Address) (bytes : List Byte) (p : Port) :
    (s.takeReply a bytes).link p = s.link p := by
  rcases takeReply_cases s a bytes with ⟨-, eq⟩ | ⟨-, eq⟩ <;> simp [eq]

@[simp] theorem endRound_link (p : Port) : s.endRound.link p = s.link p := by cases p <;> rfl

@[simp] theorem beginPoll_link (a : Address) (p : Port) : (s.beginPoll a).link p = s.link p := by
  simp only [State.beginPoll]
  split <;> cases p <;> rfl

/-! ### Passes and FREEZE (R51, R138) -/

theorem pass_raisesOnly (c : PassCause) : RaisesOnly s (s.pass c) :=
  .raiseIf (.of_links fun p => by cases p <;> rfl) _ (by decide)

theorem raiseFreeze_raisesOnly : RaisesOnly s s.raiseFreeze := .raise (.raise (.refl s) (by decide)) (by decide)

@[simp] theorem freezeBus_link (p : Port) : s.freezeBus.link p = s.link p := by cases p <;> simp

theorem assertFreeze_raisesOnly : RaisesOnly s s.assertFreeze := by
  have flagged : RaisesOnly s { s with freeze := true, journal := s.journal.flagFreeze } :=
    .of_links fun p => by cases p <;> rfl
  have raised := flagged.trans (raiseFreeze_raisesOnly _)
  exact (raised.trans (.of_links fun p => freezeBus_link _ p)).trans (pass_raisesOnly _ _)

/-! ### Requests -/

theorem ownSetTime_raisesOnly (day : BitVec 16) (tenths : Nat) : RaisesOnly s (ownSetTime day tenths s).state := by
  simp only [ownSetTime, refuse]
  split
  · exact .refl s
  split
  · exact (now_raisesOnly s _).trans (moveGen_raisesOnly _ _)
  split
  · exact moveClock_raisesOnly s _ _ false
  split
  · exact moveClock_raisesOnly s _ _ true
  · exact .refl s

theorem ownSetMeter_raisesOnly (x : CandidatesArg) : RaisesOnly s (ownSetMeter x s).state := by
  simp only [ownSetMeter, refuse]
  repeat' split
  · exact .refl s
  · exact .refl s
  · exact .refl s
  · exact (meter_raisesOnly s _).trans (handStateChange_raisesOnly _ _ _)

/-- The arming requests and INJECT move the generator or nothing (R111, R123). -/
theorem ownMoveGen_raisesOnly {r : Request} (moving : r = .armFl ∨ r = .disarmFl ∨ ∃ x n, r = .inject x n) (p : Port) :
    RaisesOnly s (ownOf p r s).state := by
  rcases moving with rfl | rfl | ⟨x, n, rfl⟩ <;> simp only [ownOf, ownArmFl, ownDisarmFl, armAnswer, ownInject, refuse]
  · split
    · exact .refl s
    · exact moveGen_raisesOnly s _
  · split
    · exact moveGen_raisesOnly s _
    · exact .refl s
  · repeat' split
    · exact .refl s
    · exact .refl s
    · exact moveGen_raisesOnly s _

theorem ownEnterTest_raisesOnly (up down : Nat) : RaisesOnly s (ownEnterTest up down s).state := by
  simp only [ownEnterTest, refuse]
  repeat' split
  · exact .refl s
  · exact .refl s
  · exact .refl s
  · exact moveTest_raisesOnly s _ _

theorem ownLeaveTest_raisesOnly : RaisesOnly s (ownLeaveTest s).state := by
  unfold ownLeaveTest
  split
  · exact .refl s
  · exact moveTest_raisesOnly s _ _

theorem ownResume_raisesOnly : RaisesOnly s (ownResume s).state := by
  unfold ownResume
  split
  · exact .refl s
  · exact .trans (.raise (.of_links fun p => by cases p <;> rfl) (by decide)) (.of_links fun p => requestEval_link _ p)

/-- The requests that can reach the links: what moves the clock, the meter, the generator or test mode, RESUME, and the two
that are a port's own. -/
def reachesLinks : Request → Bool
  | .setTime .. | .setMeter .. | .armFl | .disarmFl | .inject .. | .enterTest .. | .leaveTest | .resume | .setLinkMode ..
  | .status => true
  | _ => false

/-- No other request reaches a link. -/
theorem ownOf_link (p q : Port) {r : Request} (other : reachesLinks r = false) : (ownOf p r s).state.link q = s.link q := by
  cases r with
  | setTime | setMeter | armFl | disarmFl | inject | enterTest | leaveTest | resume | setLinkMode | status => nomatch other
  | hold | award | release =>
    simp only [ownOf, ownHold, State.holdAt, State.grant, ownAward, ownRelease, State.settleHold, refuse]
    repeat' split
    all_goals simp
  | _ =>
    simp only [ownOf, refuse, ownEnroll, ownAmend, ownRemove, ownReadSite, ownSetItems, ownDefineWindow, ownClearWindow,
      ownSetBranch, ownSetDefaultClass, editWith, ownSuspend, ownQueryClass, ownReadWindows, ownSetOfferParams, ownOfferQuery,
      ownReadBook, ownReadMeter, ownSetFlParams, ownSetPoint, ownSetSlParams, ownReadBranchLoad, ownReadResponse,
      ownReadJournal, ownReleaseJournal, ownBusEnable, ownBusDisable, ownBusConfig, ownBusRestore, busAnswer, ownIdentify]
    repeat' split
    all_goals cases q <;> rfl

/-- Every request but a port's own two does nothing to the links but raise causes. -/
theorem ownOf_raisesOnly (p : Port) {r : Request} (mode : ∀ m, r ≠ .setLinkMode m) (status : r ≠ .status) :
    RaisesOnly s (ownOf p r s).state := by
  cases r with
  | setLinkMode m => exact absurd rfl (mode m)
  | status => exact absurd rfl status
  | setTime day tenths => exact ownSetTime_raisesOnly s day tenths
  | setMeter x => exact ownSetMeter_raisesOnly s x
  | armFl | disarmFl | inject => exact ownMoveGen_raisesOnly s (by simp) p
  | enterTest up down => exact ownEnterTest_raisesOnly s up down
  | leaveTest => exact ownLeaveTest_raisesOnly s
  | resume => exact ownResume_raisesOnly s
  | _ => exact .of_links fun q => ownOf_link s p q rfl

end

end Sys2Proof.Machine
end

