-- ==== Sys2Proof/Proofs/LinkLaws.lean ====
section
/-! PROOFS. The laws of the link controllers and of the attention sets through everything that can happen at one link (R171,
R173 to R177, R179). -/

namespace Sys2Proof.Machine

open Sys2Proof.Safety

/-! ### Attention sets (R179) -/

/-- An attention set of a port: causes of its row of the table, each once and in one order. -/
def SetLaw (p : Port) (set : List Cause) : Prop :=
  set = Cause.all.filter (fun c => set.contains c) ∧ ∀ c ∈ set, c ∈ Cause.allowedAt p

theorem attentionLaw_iff (s : State) : AttentionLaw s ↔ ∀ p, SetLaw p (s.link p).attention :=
  ⟨fun h p => h p (by cases p <;> decide), fun h p _ => h p⟩

theorem linksLaw_iff (s : State) : LinksLaw s ↔ ∀ p, LinkLaw (s.link p) := by
  refine ⟨fun ⟨a, s, n⟩ p => ?_, fun h => ⟨h .a, h .s, h .n⟩⟩
  cases p
  · exact a
  · exact s
  · exact n

theorem mem_raiseIn (c e : Cause) (set : List Cause) : e ∈ raiseIn c set ↔ e = c ∨ e ∈ set := by
  have every : e ∈ Cause.all := by cases e <;> decide
  simp [raiseIn, every]

/-- A raised cause of the port's row leaves a lawful set. -/
theorem SetLaw.raised {p : Port} {set : List Cause} (h : SetLaw p set) {c : Cause} (allowed : c ∈ Cause.allowedAt p) :
    SetLaw p (raiseIn c set) := by
  constructor
  · refine List.filter_congr fun e _ => ?_
    rw [Bool.eq_iff_iff, List.contains_iff_mem, mem_raiseIn]
    simp
  · intro e mem
    rcases (mem_raiseIn c e set).1 mem with rfl | mem
    · exact allowed
    · exact h.2 e mem

theorem setLaw_nil (p : Port) : SetLaw p [] := ⟨by simp, nofun⟩

theorem linkError_allowed (p : Port) : Cause.linkError ∈ Cause.allowedAt p := by cases p <;> decide

/-! ### One link -/

/-- What happens to the link of port `p` keeps its two laws. -/
structure LawsKept (p : Port) (l l' : Link) : Prop where
  link : LinkLaw l → LinkLaw l'
  causes : SetLaw p l.attention → SetLaw p l'.attention

section
variable {p : Port}

theorem LawsKept.refl (l : Link) : LawsKept p l l := ⟨id, id⟩

theorem LawsKept.trans {l l' l'' : Link} (h : LawsKept p l l') (h' : LawsKept p l' l'') : LawsKept p l l'' :=
  ⟨h'.link ∘ h.link, h'.causes ∘ h.causes⟩

theorem raise_lawsKept (l : Link) {c : Cause} (allowed : c ∈ Cause.allowedAt p) : LawsKept p l (l.raise c) :=
  ⟨id, fun h => h.raised allowed⟩

theorem CausesRaised.lawsKept {l l' : Link} (raised : CausesRaised p l l') : LawsKept p l l' := by
  induction raised with
  | refl => exact .refl l
  | tail _ last ih =>
    obtain ⟨c, allowed, rfl⟩ := last
    exact ih.trans (raise_lawsKept _ allowed)

variable (l : Link)

/-- A link that hunts holds no partial telegram, and no break. -/
theorem linkLaw_hunting (h : LinkLaw l) : LinkLaw { l with assembler := .hunting } := by
  obtain ⟨queue, place, mark, -, -⟩ := h
  exact ⟨queue, place, mark, nofun, nofun⟩

theorem hunting_lawsKept : LawsKept p l { l with assembler := .hunting } := ⟨linkLaw_hunting l, id⟩

theorem discardPartial_lawsKept : LawsKept p l l.discardPartial := by
  unfold Link.discardPartial
  split
  · exact (hunting_lawsKept l).trans (raise_lawsKept _ (linkError_allowed p))
  · exact .refl l

theorem collect_lawsKept (b : Byte) : LawsKept p l (l.collect b) := by
  rcases collect_cases l b with ⟨bs, -, short, eq⟩ | eq <;> rw [eq]
  · refine ⟨fun ⟨queue, place, mark, _, _⟩ => ⟨queue, place, mark, ?_, nofun⟩, id⟩
    rintro _ ⟨⟩
    exact short
  · exact .refl l

/-- A count that goes up stays within 1 to 255 (R176). -/
theorem count_in_range (n : Nat) : 1 ≤ min 255 (n + 1) ∧ min 255 (n + 1) ≤ 255 := by omega

/-- An overrun is recorded within the counts' range; it comes with no break (R176). -/
theorem linkLaw_overrun (unheld : l.assembler ≠ .held) (h : LinkLaw l) (code tag : Byte) :
    LinkLaw (l.overrun code tag) := by
  obtain ⟨queue, place, mark, short, -⟩ := h
  unfold Link.overrun
  split
  · refine ⟨queue, ?_, mark, short, fun held => absurd held unheld⟩
    rintro _ ⟨⟩
    exact count_in_range _
  · split
    · refine ⟨queue, place, ?_, short, fun held => absurd held unheld⟩
      rintro _ ⟨⟩
      exact count_in_range 0
    · refine ⟨queue, place, ?_, short, fun held => absurd held unheld⟩
      rintro _ ⟨⟩
      exact count_in_range _

theorem linkLaw_accept (unheld : l.assembler ≠ .held) (h : LinkLaw l) (t : Telegram) : LinkLaw (l.accept t) := by
  unfold Link.accept
  split
  · next room =>
    obtain ⟨-, place, mark, short, -⟩ := h
    refine ⟨?_, place, mark, short, fun held => absurd held unheld⟩
    rw [List.length_append]
    exact room
  · exact linkLaw_overrun l unheld h _ _

theorem attention_accept (t : Telegram) : (l.accept t).attention = l.attention := by
  unfold Link.accept Link.overrun
  repeat' split
  all_goals rfl

theorem complete_lawsKept (bytes : List Byte) (r : Request) : LawsKept p l (l.complete bytes r) := by
  simp only [Link.complete]
  split
  · refine ⟨fun h => linkLaw_accept _ Assembler.noConfusion (linkLaw_hunting l h) _, fun h => ?_⟩
    rw [attention_accept]
    exact h
  · exact (hunting_lawsKept l).trans (raise_lawsKept _ (linkError_allowed p))

theorem afterBreak_lawsKept : LawsKept p l l.afterBreak :=
  ⟨fun _ => ⟨Nat.zero_le _, nofun, nofun, nofun, fun _ => ⟨rfl, rfl, rfl, rfl⟩⟩, (discardPartial_lawsKept l).causes⟩

theorem transmitted_lawsKept : LawsKept p l { l with response := none } := by
  refine ⟨fun ⟨queue, place, mark, short, held⟩ => ⟨queue, place, mark, short, fun broken => ?_⟩, id⟩
  obtain ⟨empty, -, noPlace, noMark⟩ := held broken
  exact ⟨empty, rfl, noPlace, noMark⟩

/-- A filled overrun place means that no break holds the line. -/
theorem serveOverrun_lawsKept : LawsKept p l l.serveOverrun := by
  unfold Link.serveOverrun
  split
  · next o _ filled =>
    refine ⟨fun ⟨queue, _, mark, short, held⟩ => ⟨queue, nofun, mark, short, fun broken => ?_⟩, id⟩
    obtain ⟨-, -, noPlace, -⟩ := held broken
    rw [filled] at noPlace
    cases noPlace
  · exact .refl l

end

end Sys2Proof.Machine
end

