-- ==== Sys2Proof/Proofs/LinkSteps.lean ====
section
/-! PROOFS. Every command at the links: a request takes its telegram, the events of a link move that link, and every other
event does nothing but raise causes (R173 to R179). -/

namespace Sys2Proof.Machine

open Sys2Proof.Safety

/-- The step keeps the laws of each port's link. -/
def LinksKept (s t : State) : Prop := ∀ p, LawsKept p (s.link p) (t.link p)

section
variable {c : Instr} {s t : State}

theorem LinksKept.refl (s : State) : LinksKept s s := fun _ => .refl _

theorem RaisesOnly.linksKept (h : RaisesOnly s t) : LinksKept s t := fun p => (h p).lawsKept

theorem LinksKept.of_link {p : Port} {l : Link} (h : LawsKept p (s.link p) l) : LinksKept s (s.setLink p l) := by
  intro q
  by_cases same : q = p
  · subst same
    rw [link_setLink_same]
    exact h
  · rw [link_setLink_ne _ _ _ _ same]
    exact .refl _

/-! ### Requests -/

/-- The law of a link does not read its attention set. -/
theorem linkLaw_receive (s : State) (p : Port) : LinkLaw (s.receive p) ↔ LinkLaw (s.link p) := .rfl

/-- A telegram that is taken was queued, so no break holds the line (R177). -/
theorem linkLaw_serve {p : Port} {r : Request} {u : Telegram} (oldest : Oldest s p r u) (q : Port)
    (h : LinkLaw (s.link q)) : LinkLaw ((s.serve p r (ownOf p r)).link q) := by
  rw [← linkLaw_receive]
  by_cases same : q = p
  · subst same
    obtain ⟨m, code, b, own⟩ := serve_receive_own oldest
    obtain ⟨first, -, -, -⟩ := oldest
    obtain ⟨queue, place, -, short, held⟩ := h
    rw [own]
    refine ⟨?_, place, nofun, short, fun broken => ?_⟩
    · rw [List.length_tail]
      omega
    · obtain ⟨empty, -⟩ := held broken
      rw [empty] at first
      cases first
  · rw [serve_receive_other oldest same, linkLaw_receive]
    exact h

/-- An owning block raises causes, empties the set (STATUS), or leaves it (SET_LINK_MODE). -/
theorem setLaw_ownOf (s : State) (p : Port) (r : Request) (q : Port) (h : SetLaw q (s.link q).attention) :
    SetLaw q ((ownOf p r s).state.link q).attention := by
  by_cases mode : ∃ m, r = .setLinkMode m
  · obtain ⟨_ | m, rfl⟩ := mode
    · exact h
    · exact (LinksKept.of_link (l := { s.link p with mode := m }) ⟨id, id⟩ q).causes h
  by_cases status : r = .status
  · subst status
    exact (LinksKept.of_link (l := { s.link p with attention := [] }) ⟨id, fun _ => setLaw_nil p⟩ q).causes h
  · exact ((ownOf_raisesOnly s p (not_exists.1 mode) status).linksKept q).causes h

@[simp] theorem attention_dequeue (s : State) (p q : Port) : ((s.dequeue p).link q).attention = (s.link q).attention := by
  cases p <;> cases q <;> rfl

@[simp] theorem attention_respond (s : State) (p q : Port) (u : Telegram) (code : ResultCode) (b : ResponseBody) :
    ((s.respond p u code b).link q).attention = (s.link q).attention := by
  cases p <;> cases q <;> rfl

theorem serve_linksKept (s : State) (p : Port) (r : Request) : LinksKept s (s.serve p r (ownOf p r)) := by
  intro q
  constructor
  · intro h
    by_cases taken : ∃ u, Oldest s p r u
    · obtain ⟨u, oldest⟩ := taken
      exact linkLaw_serve oldest q h
    · rw [serve_of_not_oldest _ (not_exists.1 taken)]
      exact h
  · intro h
    rcases serve_cases s p r (ownOf p r) with eq | ⟨u, code, -, -, eq⟩ | ⟨u, -, -, eq⟩ <;> rw [eq]
    · exact h
    · rw [attention_respond, attention_dequeue]
      exact h
    · rw [attention_respond]
      exact setLaw_ownOf _ p r q (by rw [attention_dequeue]; exact h)

/-! ### Events -/

theorem tenthElapsed_raisesOnly (h : exec .tenthElapsed s = .next t) : RaisesOnly s t := by
  cases h
  split
  · exact .refl s
  next v now =>
  dsimp only
  split
  · exact now_raisesOnly s _
  · exact (now_raisesOnly s _).trans (boundary_raisesOnly _ _ _)

theorem gsenseRisingEdge_raisesOnly {edge : GsenseEdge} (h : exec (.gsenseRisingEdge edge) s = .next t) :
    RaisesOnly s t := by
  have started : RaisesOnly s (s.atEdge edge.instant) := meter_raisesOnly s _
  rcases gsenseRisingEdge_cases s edge with eq | eq | ⟨e, -, eq⟩ <;> rw [eq] at h <;> cases h
  · exact .refl s
  · exact started
  · exact started.trans (acceptEstimate_raisesOnly _ e)

theorem lossTimerExpiry_raisesOnly (h : exec .lossTimerExpiry s = .next t) : RaisesOnly s t := by
  cases h
  split
  · exact (meter_raisesOnly s _).trans (handStateChange_raisesOnly _ _ _)
  · exact .refl s

/-- The timers of the generator (R115, R117, R118, R123). -/
theorem generatorTimer_raisesOnly (timer : c = .holdTimerExpiry ∨ c = .injectionEnd ∨ c = .refreshTimerExpiry ∨
    c = .rampTimerExpiry) (h : exec c s = .next t) : RaisesOnly s t := by
  rcases timer with rfl | rfl | rfl | rfl <;> cases h
  · split
    · exact .refl s
    · exact moveGen_raisesOnly s _
  · split
    · exact .refl s
    · exact moveGen_raisesOnly s _
  · split
    · exact .refl s
    · exact .raise (.of_links fun p => link_with_gen s p _) (by decide)
  · exact moveGen_raisesOnly s _

theorem freshnessExpiry_raisesOnly {a : Address} (h : exec (.freshnessExpiry a) s = .next t) : RaisesOnly s t := by
  have roster (rs : List Site) : RaisesOnly s { s with roster := rs } := .of_links fun p => link_with_roster s p rs
  simp only [exec, execFreshnessExpiry] at h
  cases h
  split
  · exact .refl s
  split
  · exact roster _
  · split
    · exact roster _
    · exact ((roster _).raise (by decide)).trans (.of_links fun p => requestEval_link _ p)
  · exact .refl s

theorem holdExpiry_raisesOnly {k : Nat} {x : Product} (h : exec (.holdExpiry k x) s = .next t) : RaisesOnly s t := by
  cases h
  split
  · exact .refl s
  split
  · exact .refl s
  · exact .raise (.of_links fun p => link_with_book s p _) (by decide)

theorem shortfallEvaluation_raisesOnly (h : exec .shortfallEvaluation s = .next t) : RaisesOnly s t := by
  cases h
  split
  · exact .refl s
  · exact .trans (.of_links fun p => link_with_book s p _) (evaluate_raisesOnly _)

theorem freezeAssertion_raisesOnly (h : exec .freezeAssertion s = .next t) : RaisesOnly s t := by
  cases h
  split
  · exact .refl s
  · exact assertFreeze_raisesOnly s

theorem freezeDeassertion_raisesOnly (h : exec .freezeDeassertion s = .next t) : RaisesOnly s t := by
  cases h
  split
  · exact .trans (.of_links fun p => link_with_freeze s p _) (raiseFreeze_raisesOnly _)
  · exact .refl s

theorem collision_raisesOnly (h : exec .collision s = .next t) : RaisesOnly s t := by
  cases h
  split
  · exact .trans (.of_links fun p => failedPoll_link s _ _ p) (collided_raisesOnly _)
  · exact .trans (.of_links fun p => link_with_bus s p _) (collided_raisesOnly _)
  · exact .refl s

/-- A reset leaves each link as after reset, with FREEZE raised at S and N where its level is high (R3, R50, R51). -/
theorem deviceReset_linksKept {f : Bool} {levels : ResetLevels} (h : exec (.deviceReset f levels) s = .next t) :
    LinksKept s t := by
  have after (m : Member) (l : BitVec 2) (g : Bool) (waiting : List Instr) (free : Nat) :
      LinksKept s { State.afterReset m false l g with pending := waiting, freeIndex := free } := by
    intro p
    have lawful := (attentionLaw_iff _).1 (attentionLaw_afterReset m false l g) p
    rw [link_afterReset] at lawful
    have link : State.link { State.afterReset m false l g with pending := waiting, freeIndex := free } p = .reset := by
      cases p <;> rfl
    rw [link]
    exact ⟨fun _ => linkLaw_reset, fun _ => lawful⟩
  cases h
  split
  · exact fun p => (after _ _ _ _ _ p).trans ((assertFreeze_raisesOnly _).linksKept p)
  · exact after _ _ _ _ _

/-- A block that ends cleanly reaches no link (R158). -/
theorem blockComplete_link (h : exec .blockComplete s = .next t) (p : Port) : t.link p = s.link p := by
  cases h
  split
  · cases p <;> simp
  · rfl

/-- Nor does anything else the fleet bus does, but a collision. -/
theorem frame_link (event : c ∈ [Instr.dispatchBlock, .poll, .pollSent, .replyWindowExpiry, .replyParityError,
    .pollEndOnQuiet, .replyGap, .backoffExpiry, .replyStart] ∨ (∃ span, c = .rateCheckFailed span) ∨
    ∃ characters, c = .report characters) (h : exec c s = .next t) (p : Port) : t.link p = s.link p := by
  simp only [List.mem_cons, List.not_mem_nil, or_false] at event
  rcases event with (rfl | rfl | rfl | rfl | rfl | rfl | rfl | rfl | rfl) | ⟨span, rfl⟩ | ⟨characters, rfl⟩
  all_goals
    cases h
    repeat' split
    all_goals simp [State.setPhase]

/-- Every event keeps the laws: those of a link move that link, the others raise causes. -/
theorem event_linksKept (row : requestRow c = none) (h : exec c s = .next t) : LinksKept s t := by
  cases c with
  | deviceReset f levels => exact deviceReset_linksKept h
  | tenthElapsed => exact (tenthElapsed_raisesOnly h).linksKept
  | passTimerExpiry => cases h; exact (pass_raisesOnly s .timer).linksKept
  | freshnessExpiry a => exact (freshnessExpiry_raisesOnly h).linksKept
  | freezeAssertion => exact (freezeAssertion_raisesOnly h).linksKept
  | freezeDeassertion => exact (freezeDeassertion_raisesOnly h).linksKept
  | holdExpiry k x => exact (holdExpiry_raisesOnly h).linksKept
  | shortfallEvaluation => exact (shortfallEvaluation_raisesOnly h).linksKept
  | gsenseRisingEdge edge => exact (gsenseRisingEdge_raisesOnly h).linksKept
  | lossTimerExpiry => exact (lossTimerExpiry_raisesOnly h).linksKept
  | holdTimerExpiry | injectionEnd | refreshTimerExpiry | rampTimerExpiry =>
    exact (generatorTimer_raisesOnly (by simp) h).linksKept
  | closingTimerExpiry k =>
    have raised : RaisesOnly s t := by
      cases h
      exact .raiseIf (.of_links fun p => link_with_journal s p _) _ (by decide)
    exact raised.linksKept
  | collision => exact (collision_raisesOnly h).linksKept
  | blockComplete => exact (RaisesOnly.of_links (blockComplete_link h)).linksKept
  | dispatchBlock | poll | pollSent | replyWindowExpiry | rateCheckFailed span | replyParityError | pollEndOnQuiet | replyGap
  | report characters | backoffExpiry | replyStart =>
    exact (RaisesOnly.of_links (frame_link (by simp) h)).linksKept
  | telegramLead x =>
    cases h
    split
    · exact .of_link (collect_lawsKept _ _)
    · exact .refl s
  | framingError x =>
    cases h
    split
    · exact .of_link (discardPartial_lawsKept _)
    · exact .refl s
  | lengthOutOfRange p n =>
    cases h
    split
    · exact .of_link (discardPartial_lawsKept _)
    · exact .refl s
  | gap p => cases h; exact .of_link (discardPartial_lawsKept _)
  | telegramComplete p front r check =>
    cases h
    split
    · exact .of_link (complete_lawsKept _ _ _)
    · exact .refl s
  | linkBreak p =>
    cases h
    split
    · exact .refl s
    · exact .of_link (afterBreak_lawsKept _)
  | breakEnd p =>
    cases h
    split
    · exact .of_link (hunting_lawsKept _)
    · exact .refl s
  | responseTransmitted p => cases h; exact .of_link (transmitted_lawsKept _)
  | overrunResponse p => cases h; exact .of_link (serveOverrun_lawsKept _)
  | _ => nomatch row

/-- Every command keeps the laws of the links and of the attention sets. -/
theorem exec_linksKept (h : exec c s = .next t) : LinksKept s t := by
  cases row : requestRow c with
  | some pr =>
    rw [exec_request s row] at h
    cases h
    exact serve_linksKept s _ _
  | none => exact event_linksKept row h

end

end Sys2Proof.Machine
end

