-- ==== Sys2Proof/Proofs/LinkInvariantObligations.lean ====
section
/-! PROOFS. The invariant of the link controllers and of the attention sets (O11), from what every command can do to them. -/

namespace Sys2Proof.Proofs

open Sys2Proof.Machine Sys2Proof.Safety

/-- Settles O11: a raised cause and the two lines by their definitions; the laws port by port through every command. -/
theorem linkControllersInvariant : Obligations.LinkControllersInvariant := by
  refine ⟨mem_raise, fun l => ?hold, fun l => ?attn, fun c s t h => ⟨fun links => ?links, fun causes => ?causes⟩⟩
  case hold =>
    rw [Link.holdLine, beq_iff_eq]
    exact List.length_eq_two
  case attn =>
    rw [Link.attn, Bool.not_eq_true', List.isEmpty_eq_false_iff_exists_mem]
  case links => exact (linksLaw_iff t).2 fun p => (exec_linksKept h p).link ((linksLaw_iff s).1 links p)
  case causes => exact (attentionLaw_iff t).2 fun p => (exec_linksKept h p).causes ((attentionLaw_iff s).1 causes p)

end Sys2Proof.Proofs
end

