-- ==== Sys2Proof/Proofs/LinkRefusals.lean ====
section
/-! PROOFS. The port table and the checks of the link controller (R178), and the requests of every port (R176, R179). -/

namespace Sys2Proof.Machine

open Sys2Proof.Safety

/-! ### The checks (R178) -/

/-- A telegram that the link controller refuses is answered with the refusal and an empty body. -/
theorem answers_of_refused {i : Instr} {s : State} {p : Port} {r : Request} {t : Telegram} {c : ResultCode}
    (row : requestRow i = some (p, r)) (oldest : Oldest s p r t) (refused : linkCheck s.member p t = some c) :
    Answers i s p t c .empty (s.dequeue p) := by
  rw [Answers, exec_request s row, serve_of_oldest _ oldest]
  simp [State.answer, refused, refuse]

section
variable {m : Member} {p : Port} {t : Telegram}

theorem linkCheck_not_permitted (port : p ∉ portsOf t.request) : linkCheck m p t = some .notPermitted := by
  rw [linkCheck, if_pos port]

theorem linkCheck_unsupported (port : p ∈ portsOf t.request) (member : m = .ojl064)
    (led : needsFrequencyLed t.request t.holdsProduct = true) : linkCheck m p t = some .unsupported := by
  rw [linkCheck, if_neg (not_not.2 port), if_pos ⟨member, led⟩]

theorem linkCheck_bad_length (port : p ∈ portsOf t.request)
    (supported : ¬(m = .ojl064 ∧ needsFrequencyLed t.request t.holdsProduct = true)) (short : t.fits = false) :
    linkCheck m p t = some .badLength := by
  rw [linkCheck, if_neg (not_not.2 port), if_neg supported, short]
  rfl

end

/-! ### The frequency-led requests (R178, check 2) -/

theorem frequencyLed_iff (q : Product) : q.frequencyLed = true ↔ q = .flu ∨ q = .fld := by cases q <;> decide

theorem any_frequencyLed_iff (p : Option Product) :
    p.any Product.frequencyLed = true ↔ ∃ q, (q = .flu ∨ q = .fld) ∧ p = some q := by
  simp only [Option.any_eq_true_iff_get, ← frequencyLed_iff]
  cases p <;> simp

theorem needsFrequencyLed_iff (r : Request) (h : Bool) : needsFrequencyLed r h = true ↔
    r = .armFl ∨ r = .disarmFl ∨ r = .readMeter ∨ (∃ a b c d, r = .setFlParams a b c d) ∨ (∃ a, r = .setMeter a) ∨
    (∃ a b, r = .inject a b) ∨ (h = true ∧ ∃ q, (q = .flu ∨ q = .fld) ∧
      ((∃ a b c d e, r = .hold a (some q) b c d e) ∨ (∃ a b c, r = .award a (some q) b c) ∨
        ∃ a b, r = .release a (some q) b)) := by
  cases r
  case hold | award | release => simp [needsFrequencyLed, any_frequencyLed_iff]
  all_goals simp [needsFrequencyLed]

end Sys2Proof.Machine
end

