-- ==== Sys2Proof/Proofs/LinkRefusalObligations.lean ====
section
/-! PROOFS. The statements about the link controller's refusals (O5) and the requests of every port (O10). -/

namespace Sys2Proof.Proofs

open Sys2Proof.Machine Sys2Proof.Safety

/-- Settles O5: the port table and check 2 request by request, then each refusal by its check. -/
theorem refusedAtLink : Obligations.RefusedAtLink := by
  refine ⟨fun p r => ?table, fun p => nofun, needsFrequencyLed_iff, fun i p r t s row oldest => ?refusals⟩
  case table =>
    cases r with
    | identify | status | setLinkMode m => cases p <;> simp [portsOf]
    | _ => simp [portsOf]
  case refusals =>
    have ⟨_, _, _, request⟩ := oldest
    subst request
    exact ⟨fun port => answers_of_refused row oldest (linkCheck_not_permitted port),
      fun port member led => answers_of_refused row oldest (linkCheck_unsupported port member led),
      fun port supported short => answers_of_refused row oldest (linkCheck_bad_length port supported short)⟩

/-- Settles O10: an admitted request by its own block, and the unnamed code by check 1 of R178. -/
theorem portRequests : Obligations.PortRequests := by
  intro p t s d
  refine ⟨fun admitted => ?status, fun m admitted => ?mode, fun admitted => ?noMode, fun oldest => ?unnamed⟩
  case status =>
    have link : d.link p = { s.link p with queue := (s.link p).queue.tail } := link_setLink_same s p _
    have set : (d.link p).attention = (s.link p).attention := by rw [link]
    have mode : (d.link p).mode = (s.link p).mode := by rw [link]
    rw [← set, ← mode]
    exact answers_of_admitted rfl admitted rfl
  case mode => exact answers_of_admitted rfl admitted rfl
  case noMode => exact answers_of_admitted rfl admitted rfl
  case unnamed =>
    have ⟨_, _, _, request⟩ := oldest
    exact answers_of_refused rfl oldest (linkCheck_not_permitted (by rw [request]; nofun))

end Sys2Proof.Proofs
end

