-- ==== Sys2Proof/Proofs/LinkTelegrams.lean ====
section
/-! PROOFS. Request telegrams as bytes (R173, R182): when one is complete and when it is not yet, the lengths its request calls
for (R178), and the check bit by bit (R181). -/

namespace Sys2Proof.Machine

open Sys2Proof.Safety

/-! ### Lengths (R173) -/

/-- The number the length field of a telegram spells. -/
def lengthField (bs : List Byte) : Nat := (bs.getD 1 0).toNat * 256 + (bs.getD 2 0).toNat

theorem lengthInRange_iff (n : Nat) : lengthInRange n = true ↔ 2 ≤ n ∧ n ≤ 64 := by simp [lengthInRange]

theorem completeTelegram_iff (bs : List Byte) : completeTelegram bs = true ↔
    bs.head? = some 0xC3 ∧ 2 ≤ lengthField bs ∧ lengthField bs ≤ 64 ∧ bs.length = lengthField bs + 5 := by
  match bs with
  | [] | [_] => simp [completeTelegram]
  | [_, _] => simp [completeTelegram]
  | lead :: hi :: lo :: rest =>
    simp [completeTelegram, halfOf_toNat, lengthInRange_iff, lengthField, requestLead, and_assoc]

theorem unfinished_iff (bs : List Byte) : unfinished bs = true ↔
    bs.head? = some 0xC3 ∧
      (bs.length < 3 ∨ 2 ≤ lengthField bs ∧ lengthField bs ≤ 64 ∧ bs.length < lengthField bs + 5) := by
  match bs with
  | [] => simp [unfinished]
  | [_] | [_, _] => simp [unfinished, requestLead]
  | lead :: hi :: lo :: rest =>
    simp [unfinished, halfOf_toNat, lengthInRange_iff, lengthField, requestLead, and_assoc]

/-- One byte is the beginning of a telegram exactly where it is the lead. -/
theorem unfinished_singleton (b : Byte) : unfinished [b] = true ↔ b = 0xC3 := by simp [unfinished_iff]

/-! ### The body a request calls for (R178, check 3) -/

theorem hasNoArguments_iff (r : Request) : hasNoArguments r = true ↔ r ∈ [Request.suspend, .resume, .readMeter, .armFl,
    .disarmFl, .leaveTest, .readBranchLoad, .readResponse, .busEnable, .busDisable, .busRestore, .status, .identify] := by
  cases r <;> simp [hasNoArguments]

theorem bodyLengthOf_of_none {r : Request} (none : hasNoArguments r = true) : bodyLengthOf r = 0 := by
  rw [bodyLengthOf, if_pos none]

theorem bodyLengthOf_of_some {r : Request} (some : hasNoArguments r = false) :
    bodyLengthOf r = (Config.argumentBytes r.ctorIdx (presentMarkers r)).val + 1 := by
  rw [bodyLengthOf, some]
  rfl

theorem bodyLengthOf_range {r : Request} (some : hasNoArguments r = false) :
    1 ≤ bodyLengthOf r ∧ bodyLengthOf r ≤ 62 := by
  have range := (Config.argumentBytes r.ctorIdx (presentMarkers r)).isLt
  rw [bodyLengthOf_of_some some]
  omega

/-- The product field of HOLD, AWARD and RELEASE lies within the body (R178, check 2). -/
theorem productLengthOf_range {r : Request} (product : (∃ a b c d e f, r = .hold a b c d e f) ∨
    (∃ a b c d, r = .award a b c d) ∨ ∃ a b c, r = .release a b c) :
    1 ≤ productLengthOf r ∧ productLengthOf r ≤ bodyLengthOf r := by
  have some : hasNoArguments r = false := by
    rcases product with ⟨_, _, _, _, _, _, rfl⟩ | ⟨_, _, _, _, rfl⟩ | ⟨_, _, _, rfl⟩ <;> rfl
  have form : productLengthOf r = min ((Config.productBytes r.ctorIdx).val + 1) (bodyLengthOf r) := by
    rcases product with ⟨_, _, _, _, _, _, rfl⟩ | ⟨_, _, _, _, rfl⟩ | ⟨_, _, _, rfl⟩ <;> rfl
  have body := bodyLengthOf_range some
  omega

/-! ### The check (R181) -/

theorem msb_eq_bit15 (r : Half) : r.msb = r.getLsbD 15 := by simp [BitVec.msb_eq_getLsbD_last]

/-- A step taken some times is a fold over so many. -/
theorem iterate_eq_foldl {α : Type} (f : α → α) (n : Nat) (x : α) :
    f^[n] x = (List.range n).foldl (fun y _ => f y) x := by
  induction n with
  | zero => rfl
  | succ n ih => rw [Function.iterate_succ_apply', ih, List.range_succ, List.foldl_append]; rfl

/-- A byte more is fed into the register in eight steps, most significant bit first. -/
theorem crc16_append_byte (bs : List Byte) (b : Byte) : crc16 (bs ++ [b]) =
    (List.range 8).foldl (fun r _ => if r.getLsbD 15 then (r <<< 1) ^^^ 0x1021 else r <<< 1)
      (crc16 bs ^^^ (b.zeroExtend 16 <<< 8)) := by
  have step : crcStep = fun r => if r.getLsbD 15 then (r <<< 1) ^^^ 0x1021 else r <<< 1 := by
    funext r
    rw [crcStep, msb_eq_bit15]
  rw [crc16, List.foldl_append, List.foldl_cons, List.foldl_nil, crcByte, iterate_eq_foldl, step]
  rfl

end Sys2Proof.Machine
end

