-- ==== Sys2Proof/Proofs/LinkEvents.lean ====
section
/-! PROOFS. The events of a link, each where it happens and where it cannot (R172 to R177, log 1). -/

namespace Sys2Proof.Machine

open Sys2Proof.Safety

section
variable {s : State} {p : Port}

/-! ### Characters (R172, R173) -/

theorem linkCharacterError_iff (x : BitVec 10) :
    linkCharacterError x = true ↔ x.getLsbD 0 = false ∧ x.getLsbD 9 = false := by simp [linkCharacterError]

theorem not_error_linkCharacter (b : Byte) : linkCharacterError (linkCharacter b) = false := by
  rw [linkCharacterError, getLsbD_linkCharacter, getLsbD_linkCharacter]
  rfl

/-- Bits whose start bit samples high, or whose stop bit samples low, spell no byte. -/
theorem linkByte_none {x : BitVec 10} (spoiled : x.getLsbD 0 = true ∨ x.getLsbD 9 = false) : linkByte x = none := by
  rcases spoiled with start | stop
  · rw [linkByte, start]
    rfl
  · rw [linkByte, linkCharacterError, stop]
    cases x.getLsbD 0 <;> rfl

theorem telegramLead_spoiled {x : BitVec 10} (spoiled : x.getLsbD 0 = true ∨ x.getLsbD 9 = false) :
    exec (.telegramLead ⟨p, x⟩) s = .next s := by
  simp only [exec, execTelegramLead, linkByte_none spoiled]

theorem telegramLead_eq (b : Byte) :
    exec (.telegramLead ⟨p, linkCharacter b⟩) s = .next (s.setLink p ((s.link p).collect b)) := by
  simp only [exec, execTelegramLead, linkByte_character]

theorem collect_of_bytes {l : Link} {pre : List Byte} (bytes : l.assembler.bytes = some pre) (b : Byte) : l.collect b =
    if unfinished (pre ++ [b]) then { l with assembler := .partialTelegram (pre ++ [b]) } else l := by
  rw [Link.collect, bytes]

theorem collect_held {l : Link} (held : l.assembler = .held) (b : Byte) : l.collect b = l := by
  rw [Link.collect, held]
  rfl

/-- A character behind bytes of a telegram is collected while they make up no whole one (R173). -/
theorem telegramLead_of_unfinished {pre : List Byte} (bytes : (s.link p).assembler.bytes = some pre) {b : Byte}
    (short : unfinished (pre ++ [b]) = true) : exec (.telegramLead ⟨p, linkCharacter b⟩) s =
      .next (s.setLink p { s.link p with assembler := .partialTelegram (pre ++ [b]) }) := by
  rw [telegramLead_eq, collect_of_bytes bytes, if_pos short]

theorem telegramLead_of_finished {pre : List Byte} (bytes : (s.link p).assembler.bytes = some pre) {b : Byte}
    (whole : unfinished (pre ++ [b]) = false) : exec (.telegramLead ⟨p, linkCharacter b⟩) s = .next s := by
  rw [telegramLead_eq, collect_of_bytes bytes, whole]
  exact congrArg Host.Outcome.next (setLink_link s p)

theorem telegramLead_held (held : (s.link p).assembler = .held) (b : Byte) :
    exec (.telegramLead ⟨p, linkCharacter b⟩) s = .next s := by
  rw [telegramLead_eq, collect_held held, setLink_link]

/-! ### Discarded telegrams (R172 to R174) -/

theorem discardPartial_of_partial {l : Link} {pre : List Byte} (bytes : l.assembler = .partialTelegram pre) :
    l.discardPartial = { l with assembler := .hunting, attention := raiseIn .linkError l.attention } := by
  simp only [Link.discardPartial, bytes]
  rfl

theorem discardPartial_of_none {l : Link} (none : ∀ pre, l.assembler ≠ .partialTelegram pre) : l.discardPartial = l := by
  unfold Link.discardPartial
  split
  · next pre bytes => exact absurd bytes (none pre)
  · rfl

theorem framingError_of_error {x : BitVec 10} (start : x.getLsbD 0 = false) (stop : x.getLsbD 9 = false) :
    exec (.framingError ⟨p, x⟩) s = .next (s.setLink p (s.link p).discardPartial) := by
  simp only [exec, execFramingError, (linkCharacterError_iff x).2 ⟨start, stop⟩, if_true]

theorem framingError_of_no_error {x : BitVec 10} (good : x.getLsbD 0 = true ∨ x.getLsbD 9 = true) :
    exec (.framingError ⟨p, x⟩) s = .next s := by
  have none : ¬linkCharacterError x = true := by
    rw [linkCharacterError_iff]
    rintro ⟨start, stop⟩
    rw [start, stop] at good
    exact good.elim nofun nofun
  simp only [exec, execFramingError, if_neg none]

theorem gap_eq : exec (.gap p) s = .next (s.setLink p (s.link p).discardPartial) := rfl

/-- The second byte of a length out of range arrives (R173). -/
def wrongLength (l : Link) (n : Half) : Prop :=
  l.assembler = .partialTelegram [0xC3, n.extractLsb' 8 8] ∧ (n.toNat < 2 ∨ 64 < n.toNat)

theorem wrongLength_iff (l : Link) (n : Half) : wrongLength l n ↔
    l.assembler = .partialTelegram [requestLead, n.extractLsb' 8 8] ∧ lengthInRange n.toNat = false := by
  rw [wrongLength, ← Bool.not_eq_true, lengthInRange_iff, requestLead]
  refine and_congr_right fun _ => ?_
  omega

theorem lengthOutOfRange_of_wrong {n : Half} (wrong : wrongLength (s.link p) n) :
    exec (.lengthOutOfRange p n) s = .next (s.setLink p (s.link p).discardPartial) := by
  simp only [exec, execLengthOutOfRange, if_pos ((wrongLength_iff _ n).1 wrong)]

theorem lengthOutOfRange_of_not_wrong {n : Half} (right : ¬wrongLength (s.link p) n) :
    exec (.lengthOutOfRange p n) s = .next s := by
  rw [wrongLength_iff] at right
  simp only [exec, execLengthOutOfRange, if_neg right]

/-! ### A complete telegram (R173, R175, R176) -/

section
variable {front : List Byte} {r : Request} {check : Half}

/-- A telegram before its last byte: the front and the first byte of the check. -/
theorem dropLast_with_check (front : List Byte) (check : Half) :
    (front ++ bytesOf check).dropLast = front ++ [check.extractLsb' 8 8] := by simp [bytesOf]

theorem telegramComplete_none (none : (s.link p).assembler ≠ .partialTelegram (front ++ [check.extractLsb' 8 8]) ∨
    completeTelegram (front ++ bytesOf check) = false) : exec (.telegramComplete p front r check) s = .next s := by
  simp only [exec, execTelegramComplete, dropLast_with_check]
  rw [if_neg]
  rintro ⟨before, whole⟩
  rcases none with other | part
  · exact other before
  · simp [part] at whole

variable (before : (s.link p).assembler = .partialTelegram (front ++ [check.extractLsb' 8 8]))
  (whole : completeTelegram (front ++ bytesOf check) = true)
include before whole

theorem telegramComplete_eq : exec (.telegramComplete p front r check) s =
    .next (s.setLink p ((s.link p).complete (front ++ bytesOf check) r)) := by
  simp only [exec, execTelegramComplete, dropLast_with_check, if_pos (And.intro before whole)]

theorem telegramComplete_bad (bad : check ≠ crc16 front) : exec (.telegramComplete p front r check) s =
    .next (s.setLink p ({ s.link p with assembler := .hunting }.raise .linkError)) := by
  have fails : ¬checkMatches (front ++ bytesOf check) = true := mt (checkMatches_append front check).1 bad
  rw [telegramComplete_eq before whole, Link.complete, if_neg fails]

theorem telegramComplete_good (good : check = crc16 front) {l : Link}
    (accepts : Link.accept { s.link p with assembler := .hunting } ⟨codeOf (front ++ bytesOf check),
      tagOf (front ++ bytesOf check), r, holdsProduct r (front ++ bytesOf check), bodyFits r (front ++ bytesOf check)⟩ = l) :
    exec (.telegramComplete p front r check) s = .next (s.setLink p l) := by
  rw [telegramComplete_eq before whole, Link.complete, if_pos ((checkMatches_append front check).2 good), accepts]

end

section
variable {l : Link} {t : Telegram}

theorem accept_of_room (room : l.queue.length < 2) : l.accept t = { l with queue := l.queue ++ [t] } := if_pos room

section
variable (full : 2 ≤ l.queue.length)
include full

theorem accept_of_full : l.accept t = l.overrun t.code t.tag := if_neg (Nat.not_lt.2 full)

/-- In IMMEDIATE an overrun fills the overrun place or counts it up (R176). -/
theorem accept_immediate (mode : l.mode = .immediate) : l.accept t =
    { l with overrunPlace := some ⟨t.code, t.tag, min 255 ((l.overrunPlace.map OverrunPlace.count).getD 0 + 1)⟩ } := by
  simp only [accept_of_full full, Link.overrun, mode]

/-- In IN_ORDER the first overrun sets the overrun mark with its tag (R176). -/
theorem accept_in_order (mode : l.mode = .inOrder) (none : l.overrunMark = none) :
    l.accept t = { l with overrunMark := some ⟨t.tag, 1⟩ } := by
  simp only [accept_of_full full, Link.overrun, mode, none]

/-- A further one counts the mark up. -/
theorem accept_in_order_again (mode : l.mode = .inOrder) {m : OverrunMark} (mark : l.overrunMark = some m) :
    l.accept t = { l with overrunMark := some ⟨m.tag, min 255 (m.count + 1)⟩ } := by
  simp only [accept_of_full full, Link.overrun, mode, mark]

end

end

/-! ### Breaks and the transmitter (R175 to R177) -/

theorem linkBreak_of_held (held : (s.link p).assembler = .held) : exec (.linkBreak p) s = .next s := by
  simp only [exec, execLinkBreak, if_pos held]

theorem linkBreak_of_not_held (free : (s.link p).assembler ≠ .held) :
    exec (.linkBreak p) s = .next (s.setLink p (s.link p).afterBreak) := by
  simp only [exec, execLinkBreak, if_neg free]

theorem breakEnd_of_held (held : (s.link p).assembler = .held) :
    exec (.breakEnd p) s = .next (s.setLink p { s.link p with assembler := .hunting }) := by
  simp only [exec, execBreakEnd, if_pos held]

theorem breakEnd_of_not_held (free : (s.link p).assembler ≠ .held) : exec (.breakEnd p) s = .next s := by
  simp only [exec, execBreakEnd, if_neg free]

theorem serveOverrun_filled {l : Link} {o : OverrunPlace} (free : l.response = none) (filled : l.overrunPlace = some o) :
    l.serveOverrun =
      { l with response := some ⟨o.code, o.tag, .overrun, o.count, o.tag, .empty⟩, overrunPlace := none } := by
  simp only [Link.serveOverrun, free, filled]

theorem serveOverrun_not {l : Link} (none : l.response ≠ none ∨ l.overrunPlace = none) : l.serveOverrun = l := by
  unfold Link.serveOverrun
  split
  · next free filled => simp [free, filled] at none
  · rfl

end

end Sys2Proof.Machine
end

