-- ==== Sys2Proof/Proofs/LinkEventObligations.lean ====
section
/-! PROOFS. The statements about the events of a link (O7, O8, O9). -/

namespace Sys2Proof.Proofs

open Sys2Proof.Machine Sys2Proof.Safety

/-- Settles O7: where none completes, a bad check, and a good one by the room in the queue and the overrun mode; then the
lengths and the check. -/
theorem telegramComplete : Obligations.TelegramComplete := by
  refine ⟨fun p front r check s => ⟨telegramComplete_none, fun before whole => ⟨?bad, fun good => ?good⟩⟩,
    completeTelegram_iff, fun r => productLengthOf_range, fun r => ?bodies, fun x b m x' b' m' k k' c c' same => ?markers,
    rfl, crc16_append_byte⟩
  case bad => exact telegramComplete_bad before whole
  case good =>
    let h : Link := { s.link p with assembler := .hunting }
    refine ⟨fun room => ?_, fun full mode => ?_, fun full mode => ⟨fun none => ?_, fun m mark => ?_⟩⟩
    · exact telegramComplete_good before whole good (accept_of_room (l := h) room)
    · exact telegramComplete_good before whole good (accept_immediate (l := h) full mode)
    · exact telegramComplete_good before whole good (accept_in_order (l := h) full mode none)
    · exact telegramComplete_good before whole good (accept_in_order_again (l := h) full mode mark)
  case bodies =>
    rw [← hasNoArguments_iff, Bool.not_eq_true]
    exact ⟨bodyLengthOf_of_none, bodyLengthOf_range⟩
  case markers =>
    rw [bodyLengthOf_of_some rfl, bodyLengthOf_of_some rfl]
    simp only [presentMarkers, same]
    rfl

/-- Settles O8: a character by what the assembler has of a telegram, the three other events by the partial telegram they
discard. -/
theorem receiveAssembler : Obligations.ReceiveAssembler := by
  refine ⟨fun b => ⟨not_error_linkCharacter b, levelsOf_linkCharacter b⟩, unfinished_iff, fun p b s => ?characters,
    fun p n x s => ?discards⟩
  case characters =>
    have hunts (hunting : (s.link p).assembler = .hunting) : (s.link p).assembler.bytes = some [] := by rw [hunting]; rfl
    have has {pre : List Byte} (bytes : (s.link p).assembler = .partialTelegram pre) :
        (s.link p).assembler.bytes = some pre := by rw [bytes]; rfl
    refine ⟨fun hunting lead => ?_, fun hunting other => ?_, fun pre bytes => ⟨?_, ?_⟩, fun held => ?_⟩
    · exact telegramLead_of_unfinished (hunts hunting) ((unfinished_singleton b).2 lead)
    · exact telegramLead_of_finished (hunts hunting) (Bool.eq_false_iff.2 (mt (unfinished_singleton b).1 other))
    · exact telegramLead_of_unfinished (has bytes)
    · exact telegramLead_of_finished (has bytes)
    · exact telegramLead_held held b
  case discards =>
    refine ⟨telegramLead_spoiled, lengthOutOfRange_of_not_wrong, fun none => ?_, fun ⟨pre, bytes⟩ => ?_⟩
    · have stays : s.setLink p (s.link p).discardPartial = s := by rw [discardPartial_of_none none, setLink_link]
      refine ⟨?_, gap_eq.trans (congrArg _ stays)⟩
      by_cases good : x.getLsbD 0 = true ∨ x.getLsbD 9 = true
      · exact framingError_of_no_error good
      · obtain ⟨start, stop⟩ := not_or.1 good
        rw [framingError_of_error (Bool.eq_false_iff.2 start) (Bool.eq_false_iff.2 stop), stays]
    · intro s'
      have discarded : s.setLink p (s.link p).discardPartial = s' := by rw [discardPartial_of_partial bytes]
      rw [← discarded]
      exact ⟨framingError_of_error, framingError_of_no_error, gap_eq, lengthOutOfRange_of_wrong⟩

/-- Settles O9: a break by what the assembler has, the overrun place by the transmitter. -/
theorem breakAndTransmitter : Obligations.BreakAndTransmitter := by
  intro p s l
  refine ⟨fun hunting => ?_, fun ⟨pre, bytes⟩ => ?_, fun held => ⟨linkBreak_of_held held, breakEnd_of_held held⟩,
    breakEnd_of_not_held, rfl, fun o free filled => ?_, fun none => ?_⟩
  · have unheld : l.assembler ≠ .held := by rw [hunting]; nofun
    rw [linkBreak_of_not_held unheld, Link.afterBreak, discardPartial_of_none (by rw [hunting]; nofun)]
  · have unheld : l.assembler ≠ .held := by rw [bytes]; nofun
    rw [linkBreak_of_not_held unheld, Link.afterBreak, discardPartial_of_partial bytes]
  · exact congrArg (fun x => Host.Outcome.next (s.setLink p x)) (serveOverrun_filled free filled)
  · exact congrArg Host.Outcome.next (serveOverrun_not none ▸ setLink_link s p)

end Sys2Proof.Proofs
end

