-- ==== Sys2Proof/Proofs/Step.lean ====
section
/-! PROOFS. A step by what stands in the queue (95). -/

namespace Sys2Proof.Machine

variable {s : State}

/-- On an empty queue the block idles (log 2). -/
theorem step_of_empty (empty : s.pending = []) : step s = .next s := by
  rw [step, empty]

/-- The command at the front runs on a state that holds only the commands behind it. -/
theorem step_of_front {c : Instr} {rest : List Instr} (front : s.pending = c :: rest) :
    step s = exec c { s with pending := rest } := by
  rw [step, front]

end Sys2Proof.Machine
end

