-- ==== Sys2Proof/Proofs/StepObligations.lean ====
section
/-! PROOFS. The statement about the step (O1). -/

namespace Sys2Proof.Proofs

open Sys2Proof.Machine

/-- Settles O1: a step by whether its queue has a front. -/
theorem stepRunsFrontCommand : Obligations.StepRunsFrontCommand := by
  refine ⟨fun c rest s => ?front, fun s empty => step_of_empty empty⟩
  case front => exact step_of_front (s := { s with pending := c :: rest }) rfl

end Sys2Proof.Proofs
end
